-- ==== Sys2Proof/Word.lean ====
section
/-! DEFINITION. The word types of the Z8000: bytes, words, long words, quadruples, the three operand sizes and the
4-bit register numbers (spec/00_scope.md R5, R11, R13; spec/10_state.md R20 to R23). -/

namespace Sys2Proof

/-- An 8-bit byte. -/
abbrev Byte := BitVec 8
/-- A 16-bit word, the width of a general register (R20). -/
abbrev Word := BitVec 16
/-- A 32-bit long word, a register pair `RRn` (R23). -/
abbrev Long := BitVec 32
/-- A 64-bit register quadruple `RQn` (R23). -/
abbrev Quad := BitVec 64
/-- A register number as it stands in a 4-bit field of an instruction. -/
abbrev Reg := BitVec 4

/-- The operand size of an instruction: the suffix B, none or L of its mnemonic (R150). -/
inductive Size where
  | b
  | w
  | l
  deriving DecidableEq, Repr

/-- The width of an operand in bits (`N` of R190). -/
abbrev Size.bits : Size → Nat
  | .b => 8
  | .w => 16
  | .l => 32

/-- The width of an operand in bytes (`W` of R150). -/
abbrev Size.bytes : Size → Nat
  | .b => 1
  | .w => 2
  | .l => 4

end Sys2Proof
end

