-- ==== Sys2Proof/Syntax.lean ====
section
/-! DEFINITION. The instructions: one constructor of `Instr` for each instruction (mnemonic with its size suffix) of
spec/opcode_table.json; the rows of one mnemonic, which differ in the addressing form only, are the operand forms of
its constructor (log entry 43). -/

namespace Sys2Proof

/-- The condition codes (R130). -/
inductive Cond where
  | f | lt | le | ule | ov | mi | eq | ult
  | t | ge | gt | ugt | nov | pl | ne | uge
  deriving DecidableEq, Repr

/-- A direct address as it stands in an instruction (R122). -/
inductive AbsAddr where
  /-- one word, the 16-bit address: Z8002, and Z8001 with FCW.SEG = 0 -/
  | near (off : Word)
  /-- segmented, short offset: one word `0 sssssss oooooooo` -/
  | short (seg : BitVec 7) (off : Byte)
  /-- segmented, long offset: two words `1 sssssss 00000000`, `oooooooo oooooooo` -/
  | long (seg : BitVec 7) (off : Word)
  deriving DecidableEq, Repr

/-- A memory operand of the main addressing modes: IR, DA, X (R116 to R118). -/
inductive Mem where
  | ir (r : Reg)
  | da (a : AbsAddr)
  | x (a : AbsAddr) (r : Reg)
  deriving DecidableEq, Repr

/-- A memory operand of LD and LDA: the main modes and BA, BX (R120, R121). -/
inductive XMem where
  | mem (m : Mem)
  | ba (r : Reg) (disp : Word)
  | bx (r : Reg) (x : Reg)
  deriving DecidableEq, Repr

/-- A destination or exchange operand: R, IR, DA, X. -/
inductive Dst where
  | reg (r : Reg)
  | mem (m : Mem)
  deriving DecidableEq, Repr

/-- A source operand of the five main modes: R, IM, IR, DA, X (R6). -/
inductive Src (z : Size) where
  | reg (r : Reg)
  | imm (v : BitVec z.bits)
  | mem (m : Mem)
  deriving DecidableEq, Repr

/-- The forms of LD, LDB, LDL (R153). -/
inductive LdArgs (z : Size) where
  /-- `LD Rd,Rs` -/
  | reg (d s : Reg)
  /-- `LD Rd,#imm` -/
  | imm (d : Reg) (v : BitVec z.bits)
  /-- `LD Rd,src`: a load -/
  | load (d : Reg) (m : XMem)
  /-- `LD dst,Rs`: a store -/
  | store (m : XMem) (s : Reg)
  /-- `LD dst,#imm`; word and byte only -/
  | storeImm (m : Mem) (v : BitVec z.bits)
  /-- `LDB Rbd,#imm8` in one word; byte only -/
  | compact (d : Reg) (v : BitVec z.bits)
  deriving DecidableEq, Repr

/-- The forms of CP, CPB, CPL (R193). -/
inductive CpArgs (z : Size) where
  /-- `CP Rd,src` -/
  | reg (d : Reg) (src : Src z)
  /-- `CP dst,#imm`; word and byte only -/
  | memImm (m : Mem) (v : BitVec z.bits)
  deriving DecidableEq, Repr

/-- The forms of BIT, SET, RES (R280). -/
inductive BitArgs where
  /-- the bit number is in the instruction -/
  | static (dst : Dst) (b : BitVec 4)
  /-- the bit number is in word register `s`; the destination is a register -/
  | dynamic (d s : Reg)
  deriving DecidableEq, Repr

/-- The direction of LDR and LDM: to a register, or to memory. -/
inductive Dir where
  | load
  | store
  deriving DecidableEq, Repr

/-- The port of IN and OUT: a word register or a 16-bit port address (R382). -/
inductive Port where
  | reg (r : Reg)
  | direct (p : Word)
  deriving DecidableEq, Repr

/-- The control registers LDCTL reads and writes (R416). `psapOff` is PSAP and `nspOff` is NSP on a Z8002. -/
inductive CtlReg where
  | fcw | refresh | psapSeg | psapOff | nspSeg | nspOff
  deriving DecidableEq, Repr

/-- The direction of LDCTL and LDCTLB. -/
inductive CtlDir where
  /-- general register from control register -/
  | read
  /-- control register from general register -/
  | write
  deriving DecidableEq, Repr

/-- The upper bytes of the extended instructions (R134). -/
inductive ExtOp where
  | op0E | op0F | op4E | op4F | op8E | op8F
  deriving DecidableEq, Repr

/-- The instructions, in the order of spec/opcode_table.json. Register arguments stand in the order destination,
source; `n` of INC, DEC and LDM is the count less one, as encoded (R124); `k` of a static shift is the signed count
word (R301); `two` of a rotate is "by 2". -/
inductive Instr where
  -- arithmetic and logical, R192, R202, R233, R231, R236, R193
  | addb (d : Reg) (src : Src .b) | add (d : Reg) (src : Src .w)
  | subb (d : Reg) (src : Src .b) | sub (d : Reg) (src : Src .w)
  | orb (d : Reg) (src : Src .b) | or (d : Reg) (src : Src .w)
  | andb (d : Reg) (src : Src .b) | and (d : Reg) (src : Src .w)
  | xorb (d : Reg) (src : Src .b) | xor (d : Reg) (src : Src .w)
  | cpb (a : CpArgs .b) | cp (a : CpArgs .w) | cpl (a : CpArgs .l)
  | subl (d : Reg) (src : Src .l) | addl (d : Reg) (src : Src .l)
  -- R199, R196
  | multl (d : Reg) (src : Src .l) | mult (d : Reg) (src : Src .w)
  | divl (d : Reg) (src : Src .l) | div (d : Reg) (src : Src .w)
  -- load and exchange, R153 to R158
  | ldb (a : LdArgs .b) | ld (a : LdArgs .w) | ldl (a : LdArgs .l)
  | ldrb (dir : Dir) (r : Reg) (disp : Word)
  | ldr (dir : Dir) (r : Reg) (disp : Word)
  | ldrl (dir : Dir) (r : Reg) (disp : Word)
  | lda (d : Reg) (a : XMem) | ldar (d : Reg) (disp : Word)
  | ldk (d : Reg) (n : BitVec 4)
  | ldm (dir : Dir) (m : Mem) (r : Reg) (n : BitVec 4)
  -- single operand, R232, R200, R234, R284, R151
  | comb (dst : Dst) | com (dst : Dst)
  | negb (dst : Dst) | neg (dst : Dst)
  | testb (dst : Dst) | test (dst : Dst)
  | tsetb (dst : Dst) | tset (dst : Dst)
  | clrb (dst : Dst) | clr (dst : Dst)
  | testl (dst : Dst)
  -- flags, R430, R429, R411, R428, R417
  | setflg (f : BitVec 4) | resflg (f : BitVec 4) | comflg (f : BitVec 4)
  | nop
  | ldctlb (dir : CtlDir) (r : Reg)
  -- stack and exchange, R160, R159, R152
  | pushl (sp : Reg) (src : Dst) | push (sp : Reg) (src : Src .w)
  | popl (dst : Dst) (sp : Reg) | pop (dst : Dst) (sp : Reg)
  | exb (d : Reg) (src : Dst) | ex (d : Reg) (src : Dst)
  -- R198, R195
  | incb (dst : Dst) (n : BitVec 4) | inc (dst : Dst) (n : BitVec 4)
  | decb (dst : Dst) (n : BitVec 4) | dec (dst : Dst) (n : BitVec 4)
  -- bit manipulation, R281 to R283; R235
  | resb (a : BitArgs) | res (a : BitArgs)
  | setb (a : BitArgs) | set (a : BitArgs)
  | bitb (a : BitArgs) | bit (a : BitArgs)
  | tccb (c : Cond) (d : Reg) | tcc (c : Cond) (d : Reg)
  -- R194, R197, R191, R201
  | dab (d : Reg)
  | extsb (d : Reg) | exts (d : Reg) | extsl (d : Reg)
  | adcb (d s : Reg) | adc (d s : Reg)
  | sbcb (d s : Reg) | sbc (d s : Reg)
  -- rotates and shifts, R302 to R313
  | rrdb (l s : Reg) | rldb (l s : Reg)
  | rlb (d : Reg) (two : Bool) | rl (d : Reg) (two : Bool)
  | rrb (d : Reg) (two : Bool) | rr (d : Reg) (two : Bool)
  | rlcb (d : Reg) (two : Bool) | rlc (d : Reg) (two : Bool)
  | rrcb (d : Reg) (two : Bool) | rrc (d : Reg) (two : Bool)
  | sllb (d : Reg) (k : Word) | srlb (d : Reg) (k : Word)
  | sll (d : Reg) (k : Word) | srl (d : Reg) (k : Word)
  | slll (d : Reg) (k : Word) | srll (d : Reg) (k : Word)
  | slab (d : Reg) (k : Word) | srab (d : Reg) (k : Word)
  | sla (d : Reg) (k : Word) | sra (d : Reg) (k : Word)
  | slal (d : Reg) (k : Word) | sral (d : Reg) (k : Word)
  | sdlb (d s : Reg) | sdl (d s : Reg) | sdll (d s : Reg)
  | sdab (d s : Reg) | sda (d s : Reg) | sdal (d s : Reg)
  -- program control, R250 to R258
  | jp (c : Cond) (m : Mem) | call (m : Mem) | ret (c : Cond)
  | calr (disp : BitVec 12) | jr (c : Cond) (disp : BitVec 8)
  | djnz (r : Reg) (disp : BitVec 7) | dbjnz (r : Reg) (disp : BitVec 7)
  | sc (i : Byte) | iret
  -- block compare and move, R334 to R348: s source pointer, d data register or destination pointer, r count
  | cpib (s r d : Reg) (c : Cond) | cpirb (s r d : Reg) (c : Cond)
  | cpdb (s r d : Reg) (c : Cond) | cpdrb (s r d : Reg) (c : Cond)
  | cpsib (s r d : Reg) (c : Cond) | cpsirb (s r d : Reg) (c : Cond)
  | cpsdb (s r d : Reg) (c : Cond) | cpsdrb (s r d : Reg) (c : Cond)
  | ldib (s r d : Reg) | ldirb (s r d : Reg) | lddb (s r d : Reg) | lddrb (s r d : Reg)
  | cpi (s r d : Reg) (c : Cond) | cpir (s r d : Reg) (c : Cond)
  | cpd (s r d : Reg) (c : Cond) | cpdr (s r d : Reg) (c : Cond)
  | cpsi (s r d : Reg) (c : Cond) | cpsir (s r d : Reg) (c : Cond)
  | cpsd (s r d : Reg) (c : Cond) | cpsdr (s r d : Reg) (c : Cond)
  | ldi (s r d : Reg) | ldir (s r d : Reg) | ldd (s r d : Reg) | lddr (s r d : Reg)
  -- translate, R349 to R358: d string pointer (first word), s table pointer, r count
  | trib (d r s : Reg) | trtib (d r s : Reg) | trirb (d r s : Reg) | trtirb (d r s : Reg)
  | trdb (d r s : Reg) | trtdb (d r s : Reg) | trdrb (d r s : Reg) | trtdrb (d r s : Reg)
  -- input and output, R384 to R403
  | inb (d : Reg) (p : Port) | outb (p : Port) (s : Reg)
  | sinb (d : Reg) (p : Word) | soutb (p : Word) (s : Reg)
  | inib (s r d : Reg) | inirb (s r d : Reg) | sinib (s r d : Reg) | sinirb (s r d : Reg)
  | outib (s r d : Reg) | otirb (s r d : Reg) | soutib (s r d : Reg) | sotirb (s r d : Reg)
  | indb (s r d : Reg) | indrb (s r d : Reg) | sindb (s r d : Reg) | sindrb (s r d : Reg)
  | outdb (s r d : Reg) | otdrb (s r d : Reg) | soutdb (s r d : Reg) | sotdrb (s r d : Reg)
  | inw (d : Reg) (p : Port) | out (p : Port) (s : Reg)
  | sin (d : Reg) (p : Word) | sout (p : Word) (s : Reg)
  | ini (s r d : Reg) | inir (s r d : Reg) | sini (s r d : Reg) | sinir (s r d : Reg)
  | outi (s r d : Reg) | otir (s r d : Reg) | souti (s r d : Reg) | sotir (s r d : Reg)
  | ind (s r d : Reg) | indr (s r d : Reg) | sind (s r d : Reg) | sindr (s r d : Reg)
  | outd (s r d : Reg) | otdr (s r d : Reg) | soutd (s r d : Reg) | sotdr (s r d : Reg)
  -- CPU control, R418, R414, R424 to R427, R412, R413, R416, R440
  | ldps (m : Mem) | halt
  | mset | mres | mbit | mreq (d : Reg)
  | di (v n : Bool) | ei (v n : Bool)
  | ldctl (dir : CtlDir) (r : Reg) (c : CtlReg)
  | extended (op : ExtOp) (e : Byte) (e1 : Word)
  deriving DecidableEq, Repr

end Sys2Proof
end

