-- ==== Sys2Proof/WellFormed.lean ====
section
/-! DEFINITION. Which instructions are well formed: the register-field, bit-number, address-form and overlap rules of
the spec (R23, R112, R121, R122, R124, R280, R301, R304, R333, U4, U6). The first argument `seg` says whether the
machine runs segmented (a Z8001 with FCW.SEG = 1): address registers are then pairs (R128). -/

namespace Sys2Proof

/-- A long-word register number is even (R23). -/
def pairOk (r : Reg) : Bool := r.getLsbD 0 == false

/-- A quadruple register number is a multiple of 4 (R23). -/
def quadOk (r : Reg) : Bool := r.getLsbD 0 == false && r.getLsbD 1 == false

/-- A register number that an address is formed with is not 0 (R21, R112). -/
def nonzero (r : Reg) : Bool := r != 0

/-- An address register: not 0, and even in segmented mode (R150). -/
def addrRegOk (seg : Bool) (r : Reg) : Bool := nonzero r && (!seg || pairOk r)

/-- A data register of the given size: any number for a byte or a word, an even one for a long (R22, R23). -/
def regOk : Size → Reg → Bool
  | .b, _ => true
  | .w, _ => true
  | .l, r => pairOk r

/-- The form of a direct address is the one of the mode (R122). -/
def AbsAddr.ok (seg : Bool) : AbsAddr → Bool
  | .near _ => !seg
  | .short _ _ => seg
  | .long _ _ => seg

def Mem.ok (seg : Bool) : Mem → Bool
  | .ir r => addrRegOk seg r
  | .da a => a.ok seg
  | .x a r => a.ok seg && nonzero r

def XMem.ok (seg : Bool) : XMem → Bool
  | .mem m => m.ok seg
  | .ba r _ => addrRegOk seg r
  | .bx r x => addrRegOk seg r && nonzero x

/-- LDA has no indirect-register form (R154). -/
def XMem.notIr : XMem → Bool
  | .mem (.ir _) => false
  | .mem (.da _) => true
  | .mem (.x _ _) => true
  | .ba _ _ => true
  | .bx _ _ => true

def Dst.ok (z : Size) (seg : Bool) : Dst → Bool
  | .reg r => regOk z r
  | .mem m => m.ok seg

def Src.ok {z : Size} (seg : Bool) : Src z → Bool
  | .reg r => regOk z r
  | .imm _ => true
  | .mem m => m.ok seg

def LdArgs.ok {z : Size} (seg : Bool) : LdArgs z → Bool
  | .reg d s => regOk z d && regOk z s
  | .imm d _ => regOk z d
  | .load d m => regOk z d && m.ok seg
  | .store m s => regOk z s && m.ok seg
  | .storeImm m _ => z != .l && m.ok seg
  | .compact _ _ => z == .b

def CpArgs.ok {z : Size} (seg : Bool) : CpArgs z → Bool
  | .reg d src => regOk z d && src.ok seg
  | .memImm m _ => z != .l && m.ok seg

/-- A static byte bit number is 0 to 7 (R124, U6); a dynamic bit number is not in R0 (R280). -/
def BitArgs.ok (z : Size) (seg : Bool) : BitArgs → Bool
  | .static dst b => dst.ok z seg && (z != .b || b.ule 7)
  | .dynamic _ s => nonzero s

def Port.ok : Port → Bool
  | .reg r => nonzero r
  | .direct _ => true

/-- The word registers that an address register names: itself, and in segmented mode the odd half too (R333). -/
def ptrRegs (seg : Bool) (r : Reg) : List Reg := if seg then [r, r + 1] else [r]

/-- The word register a data register of a block compare lies in (R22). -/
def dataRegs : Size → Reg → List Reg
  | .b, r => [r &&& 7]
  | .w, r => [r]
  | .l, r => [r, r + 1]

/-- No register is in both lists. -/
def disjointRegs (xs ys : List Reg) : Bool := xs.all fun x => !ys.contains x

/-- Registers of a block compare with a register: pointer, data register and count do not overlap (R333). -/
def compareOk (z : Size) (seg : Bool) (s r d : Reg) : Bool :=
  addrRegOk seg s && disjointRegs (ptrRegs seg s) [r] && disjointRegs (ptrRegs seg s) (dataRegs z d)
    && disjointRegs (dataRegs z d) [r]

/-- Registers of a string compare or block move: two pointers and a count that do not overlap (R333). -/
def moveOk (seg : Bool) (s r d : Reg) : Bool :=
  addrRegOk seg s && addrRegOk seg d && disjointRegs (ptrRegs seg s) [r] && disjointRegs (ptrRegs seg d) [r]
    && disjointRegs (ptrRegs seg s) (ptrRegs seg d)

/-- Registers of a translate instruction: as a block move, and none is R0 or R1 (R333, log entry 21). -/
def translateOk (seg : Bool) (d r s : Reg) : Bool :=
  moveOk seg s r d && d != 1 && s != 1 && r != 0 && r != 1

/-- Registers of a block I/O instruction: `m` is the memory pointer, `p` the port register, a word register that is
not R0 (R382), `r` the count; they do not overlap (R383). -/
def blockIoOk (seg : Bool) (m p r : Reg) : Bool :=
  addrRegOk seg m && nonzero p && disjointRegs (ptrRegs seg m) [r] && disjointRegs (ptrRegs seg m) [p]
    && p != r

/-- A left static shift holds a count word that is not negative (R301). -/
def leftCount (k : Word) : Bool := !k.msb

/-- A right static shift holds a negative count word (R301). -/
def rightCount (k : Word) : Bool := k.msb

/-- An instruction is well formed in the mode `seg`. -/
def Instr.wellFormed (seg : Bool) : Instr → Bool
  | .addb _ src => src.ok seg
  | .add _ src => src.ok seg
  | .subb _ src => src.ok seg
  | .sub _ src => src.ok seg
  | .orb _ src => src.ok seg
  | .or _ src => src.ok seg
  | .andb _ src => src.ok seg
  | .and _ src => src.ok seg
  | .xorb _ src => src.ok seg
  | .xor _ src => src.ok seg
  | .cpb a => a.ok seg
  | .cp a => a.ok seg
  | .cpl a => a.ok seg
  | .subl d src => pairOk d && src.ok seg
  | .addl d src => pairOk d && src.ok seg
  | .multl d src => quadOk d && src.ok seg
  | .mult d src => pairOk d && src.ok seg
  | .divl d src => quadOk d && src.ok seg
  | .div d src => pairOk d && src.ok seg
  | .ldb a => a.ok seg
  | .ld a => a.ok seg
  | .ldl a => a.ok seg
  | .ldrb _ _ _ => true
  | .ldr _ _ _ => true
  | .ldrl _ r _ => pairOk r
  | .lda d a => (!seg || pairOk d) && a.notIr && a.ok seg
  | .ldar d _ => !seg || pairOk d
  | .ldk _ _ => true
  | .ldm _ m _ _ => m.ok seg
  | .comb dst => dst.ok .b seg
  | .com dst => dst.ok .w seg
  | .negb dst => dst.ok .b seg
  | .neg dst => dst.ok .w seg
  | .testb dst => dst.ok .b seg
  | .test dst => dst.ok .w seg
  | .tsetb dst => dst.ok .b seg
  | .tset dst => dst.ok .w seg
  | .clrb dst => dst.ok .b seg
  | .clr dst => dst.ok .w seg
  | .testl dst => dst.ok .l seg
  | .setflg _ => true
  | .resflg _ => true
  | .comflg _ => true
  | .nop => true
  | .ldctlb _ _ => true
  | .pushl sp src => addrRegOk seg sp && src.ok .l seg
  | .push sp src => addrRegOk seg sp && src.ok seg
  | .popl dst sp => addrRegOk seg sp && dst.ok .l seg
  | .pop dst sp => addrRegOk seg sp && dst.ok .w seg
  | .exb _ src => src.ok .b seg
  | .ex _ src => src.ok .w seg
  | .incb dst _ => dst.ok .b seg
  | .inc dst _ => dst.ok .w seg
  | .decb dst _ => dst.ok .b seg
  | .dec dst _ => dst.ok .w seg
  | .resb a => a.ok .b seg
  | .res a => a.ok .w seg
  | .setb a => a.ok .b seg
  | .set a => a.ok .w seg
  | .bitb a => a.ok .b seg
  | .bit a => a.ok .w seg
  | .tccb _ _ => true
  | .tcc _ _ => true
  | .dab _ => true
  | .extsb _ => true
  | .exts d => pairOk d
  | .extsl d => quadOk d
  | .adcb _ _ => true
  | .adc _ _ => true
  | .sbcb _ _ => true
  | .sbc _ _ => true
  | .rrdb l s => l != s
  | .rldb l s => l != s
  | .rlb _ _ => true
  | .rl _ _ => true
  | .rrb _ _ => true
  | .rr _ _ => true
  | .rlcb _ _ => true
  | .rlc _ _ => true
  | .rrcb _ _ => true
  | .rrc _ _ => true
  | .sllb _ k => leftCount k
  | .srlb _ k => rightCount k
  | .sll _ k => leftCount k
  | .srl _ k => rightCount k
  | .slll d k => pairOk d && leftCount k
  | .srll d k => pairOk d && rightCount k
  | .slab _ k => leftCount k
  | .srab _ k => rightCount k
  | .sla _ k => leftCount k
  | .sra _ k => rightCount k
  | .slal d k => pairOk d && leftCount k
  | .sral d k => pairOk d && rightCount k
  | .sdlb _ _ => true
  | .sdl _ _ => true
  | .sdll d _ => pairOk d
  | .sdab _ _ => true
  | .sda _ _ => true
  | .sdal d _ => pairOk d
  | .jp _ m => m.ok seg
  | .call m => m.ok seg
  | .ret _ => true
  | .calr _ => true
  | .jr _ _ => true
  | .djnz _ _ => true
  | .dbjnz _ _ => true
  | .sc _ => true
  | .iret => true
  | .cpib s r d _ => compareOk .b seg s r d
  | .cpirb s r d _ => compareOk .b seg s r d
  | .cpdb s r d _ => compareOk .b seg s r d
  | .cpdrb s r d _ => compareOk .b seg s r d
  | .cpsib s r d _ => moveOk seg s r d
  | .cpsirb s r d _ => moveOk seg s r d
  | .cpsdb s r d _ => moveOk seg s r d
  | .cpsdrb s r d _ => moveOk seg s r d
  | .ldib s r d => moveOk seg s r d
  | .ldirb s r d => moveOk seg s r d
  | .lddb s r d => moveOk seg s r d
  | .lddrb s r d => moveOk seg s r d
  | .cpi s r d _ => compareOk .w seg s r d
  | .cpir s r d _ => compareOk .w seg s r d
  | .cpd s r d _ => compareOk .w seg s r d
  | .cpdr s r d _ => compareOk .w seg s r d
  | .cpsi s r d _ => moveOk seg s r d
  | .cpsir s r d _ => moveOk seg s r d
  | .cpsd s r d _ => moveOk seg s r d
  | .cpsdr s r d _ => moveOk seg s r d
  | .ldi s r d => moveOk seg s r d
  | .ldir s r d => moveOk seg s r d
  | .ldd s r d => moveOk seg s r d
  | .lddr s r d => moveOk seg s r d
  | .trib d r s => translateOk seg d r s
  | .trtib d r s => translateOk seg d r s
  | .trirb d r s => translateOk seg d r s
  | .trtirb d r s => translateOk seg d r s
  | .trdb d r s => translateOk seg d r s
  | .trtdb d r s => translateOk seg d r s
  | .trdrb d r s => translateOk seg d r s
  | .trtdrb d r s => translateOk seg d r s
  | .inb _ p => p.ok
  | .outb p _ => p.ok
  | .sinb _ _ => true
  | .soutb _ _ => true
  | .inib s r d => blockIoOk seg d s r
  | .inirb s r d => blockIoOk seg d s r
  | .sinib s r d => blockIoOk seg d s r
  | .sinirb s r d => blockIoOk seg d s r
  | .outib s r d => blockIoOk seg s d r
  | .otirb s r d => blockIoOk seg s d r
  | .soutib s r d => blockIoOk seg s d r
  | .sotirb s r d => blockIoOk seg s d r
  | .indb s r d => blockIoOk seg d s r
  | .indrb s r d => blockIoOk seg d s r
  | .sindb s r d => blockIoOk seg d s r
  | .sindrb s r d => blockIoOk seg d s r
  | .outdb s r d => blockIoOk seg s d r
  | .otdrb s r d => blockIoOk seg s d r
  | .soutdb s r d => blockIoOk seg s d r
  | .sotdrb s r d => blockIoOk seg s d r
  | .inw _ p => p.ok
  | .out p _ => p.ok
  | .sin _ _ => true
  | .sout _ _ => true
  | .ini s r d => blockIoOk seg d s r
  | .inir s r d => blockIoOk seg d s r
  | .sini s r d => blockIoOk seg d s r
  | .sinir s r d => blockIoOk seg d s r
  | .outi s r d => blockIoOk seg s d r
  | .otir s r d => blockIoOk seg s d r
  | .souti s r d => blockIoOk seg s d r
  | .sotir s r d => blockIoOk seg s d r
  | .ind s r d => blockIoOk seg d s r
  | .indr s r d => blockIoOk seg d s r
  | .sind s r d => blockIoOk seg d s r
  | .sindr s r d => blockIoOk seg d s r
  | .outd s r d => blockIoOk seg s d r
  | .otdr s r d => blockIoOk seg s d r
  | .soutd s r d => blockIoOk seg s d r
  | .sotdr s r d => blockIoOk seg s d r
  | .ldps m => m.ok seg
  | .halt => true
  | .mset => true
  | .mres => true
  | .mbit => true
  | .mreq _ => true
  | .di _ _ => true
  | .ei _ _ => true
  | .ldctl _ _ _ => true
  | .extended _ _ _ => true

end Sys2Proof
end

