-- ==== Sys2Proof/Decode.lean ====
section
/-! DEFINITION. The decoder and the encoder, both written from spec/30_encoding.md (R110 to R134) and the encoding
tables of the family files (R151 to R160, R191 to R202, R231 to R236, R251 to R258, R280 to R284, R300, R330, R380,
R411 to R440). -/

namespace Sys2Proof

/-- Why a word sequence is no instruction (R133). -/
inductive DecodeError where
  /-- the words end before the instruction does -/
  | truncated
  /-- the opcode map assigns nothing to the first word (U2) -/
  | unassigned
  /-- a bit of a second or later word that must be zero is one (U3) -/
  | mustBeZero
  deriving DecidableEq, Repr

/-! ## Fields -/

/-- The first word in the general format of R111: mode, opcode, field A, field B. -/
def firstWord (mode : BitVec 2) (op : BitVec 6) (a b : BitVec 4) : Word := mode ++ op ++ a ++ b

def fieldMode (w : Word) : BitVec 2 := w.extractLsb' 14 2
def fieldOp (w : Word) : BitVec 6 := w.extractLsb' 8 6
def fieldA (w : Word) : BitVec 4 := w.extractLsb' 4 4
def fieldB (w : Word) : BitVec 4 := w.extractLsb' 0 4
/-- Bits 15:12 of a word. -/
def fieldTop (w : Word) : BitVec 4 := w.extractLsb' 12 4
/-- Bits 11:8 of a word: the second-word register field of R126. -/
def fieldX (w : Word) : BitVec 4 := w.extractLsb' 8 4
def highByte (w : Word) : Byte := w.extractLsb' 8 8
def lowByte (w : Word) : Byte := w.extractLsb' 0 8

/-- The mode field of IR and IM, of DA and X, and of R (R111). -/
def modeIr : BitVec 2 := 0
def modeDa : BitVec 2 := 1
def modeR : BitVec 2 := 2

/-- The condition code of a 4-bit field (R130). -/
def Cond.ofBits (c : BitVec 4) : Cond :=
  match c.toNat with
  | 0 => .f | 1 => .lt | 2 => .le | 3 => .ule | 4 => .ov | 5 => .mi | 6 => .eq | 7 => .ult
  | 8 => .t | 9 => .ge | 10 => .gt | 11 => .ugt | 12 => .nov | 13 => .pl | 14 => .ne | _ => .uge

/-- The 4-bit field of a condition code (R130). -/
def Cond.bits : Cond → BitVec 4
  | .f => 0 | .lt => 1 | .le => 2 | .ule => 3 | .ov => 4 | .mi => 5 | .eq => 6 | .ult => 7
  | .t => 8 | .ge => 9 | .gt => 10 | .ugt => 11 | .nov => 12 | .pl => 13 | .ne => 14 | .uge => 15

/-- The control register of the field ccc of LDCTL; 000 and 001 are reserved (R416). -/
def CtlReg.ofBits (c : BitVec 3) : Option CtlReg :=
  match c.toNat with
  | 2 => some .fcw | 3 => some .refresh | 4 => some .psapSeg | 5 => some .psapOff | 6 => some .nspSeg
  | 7 => some .nspOff | _ => none

def CtlReg.bits : CtlReg → BitVec 3
  | .fcw => 2 | .refresh => 3 | .psapSeg => 4 | .psapOff => 5 | .nspSeg => 6 | .nspOff => 7

/-- The upper byte of an extended instruction (R134). -/
def ExtOp.byte : ExtOp → Byte
  | .op0E => 0x0E | .op0F => 0x0F | .op4E => 0x4E | .op4F => 0x4F | .op8E => 0x8E | .op8F => 0x8F

/-! ## Operand words (R115, R122, R125, R126) -/

/-- The next word. -/
def parseWord : List Word → Except DecodeError (Word × List Word)
  | [] => .error .truncated
  | w :: ws => .ok (w, ws)

/-- An immediate of the given size; a byte stands twice in one word and its low half is used (R115, U5). -/
def parseImm : (z : Size) → List Word → Except DecodeError ((BitVec z.bits) × List Word)
  | .b, ws => do let (w, ws) ← parseWord ws; pure (lowByte w, ws)
  | .w, ws => parseWord ws
  | .l, ws => do
    let (hi, ws) ← parseWord ws
    let (lo, ws) ← parseWord ws
    pure (hi ++ lo, ws)

/-- An address in the form of the mode (R122). -/
def parseAddr (seg : Bool) (ws : List Word) : Except DecodeError (AbsAddr × List Word) := do
  let (w, ws) ← parseWord ws
  if !seg then pure (.near w, ws)
  else if !w.msb then pure (.short (w.extractLsb' 8 7) (lowByte w), ws)
  else if lowByte w ≠ 0 then throw .mustBeZero
  else
    let (off, ws) ← parseWord ws
    pure (.long (w.extractLsb' 8 7) off, ws)

/-- A second word `0000 rrrr 0000 0000` (R126). -/
def parseRegWord (ws : List Word) : Except DecodeError (Reg × List Word) := do
  let (w, ws) ← parseWord ws
  if fieldTop w = 0 ∧ lowByte w = 0 then pure (fieldX w, ws) else throw .mustBeZero

/-- A second word `0000 rrrr 0000 nnnn` of LDM (R126). -/
def parseLdmWord (ws : List Word) : Except DecodeError ((Reg × BitVec 4) × List Word) := do
  let (w, ws) ← parseWord ws
  if fieldTop w = 0 ∧ fieldA w = 0 then pure ((fieldX w, fieldB w), ws) else throw .mustBeZero

/-- A second word `0000 rrrr dddd xxxx` of a block instruction: the three low fields (R126). -/
def parseBlockWord (ws : List Word) : Except DecodeError ((Reg × Reg × BitVec 4) × List Word) := do
  let (w, ws) ← parseWord ws
  if fieldTop w = 0 then pure ((fieldX w, fieldA w, fieldB w), ws) else throw .mustBeZero

/-- A memory operand whose register or index field is `r`: IR in mode 00; DA or X in mode 01 (R112). -/
def parseMem (seg : Bool) (mode : BitVec 2) (r : Reg) (ws : List Word) : Except DecodeError (Mem × List Word) :=
  if mode = modeIr then pure (.ir r, ws)
  else do
    let (a, ws) ← parseAddr seg ws
    pure (if r = 0 then .da a else .x a r, ws)

/-- A destination operand whose register or index field is `r`. -/
def parseDst (seg : Bool) (mode : BitVec 2) (r : Reg) (ws : List Word) : Except DecodeError (Dst × List Word) :=
  if mode = modeR then pure (.reg r, ws)
  else do
    let (m, ws) ← parseMem seg mode r ws
    pure (.mem m, ws)

/-- A source operand whose register or index field is `r`; in mode 00, r = 0 means IM (R112). -/
def parseSrc (z : Size) (seg : Bool) (mode : BitVec 2) (r : Reg) (ws : List Word) :
    Except DecodeError (Src z × List Word) :=
  if mode = modeR then pure (.reg r, ws)
  else if mode = modeIr ∧ r = 0 then do
    let (v, ws) ← parseImm z ws
    pure (.imm v, ws)
  else do
    let (m, ws) ← parseMem seg mode r ws
    pure (.mem m, ws)

/-! ## The opcode map (R131, R132) -/

/-- A two-operand instruction `OP Rd,src` with a source in the five main modes. -/
structure TwoOp where
  z    : Size
  make : Reg → Src z → Instr

/-- `LD Rd,src` from a source in the five main modes (R153). -/
def ldOfSrc {z : Size} (d : Reg) : Src z → LdArgs z
  | .reg s => .reg d s
  | .imm v => .imm d v
  | .mem m => .load d (.mem m)

/-- The opcodes that mean the same two-operand instruction in modes 00, 01 and 10. -/
def twoOp (op : BitVec 6) : Option TwoOp :=
  match op.toNat with
  | 0x00 => some ⟨.b, .addb⟩
  | 0x01 => some ⟨.w, .add⟩
  | 0x02 => some ⟨.b, .subb⟩
  | 0x03 => some ⟨.w, .sub⟩
  | 0x04 => some ⟨.b, .orb⟩
  | 0x05 => some ⟨.w, .or⟩
  | 0x06 => some ⟨.b, .andb⟩
  | 0x07 => some ⟨.w, .and⟩
  | 0x08 => some ⟨.b, .xorb⟩
  | 0x09 => some ⟨.w, .xor⟩
  | 0x0A => some ⟨.b, fun d s => .cpb (.reg d s)⟩
  | 0x0B => some ⟨.w, fun d s => .cp (.reg d s)⟩
  | 0x10 => some ⟨.l, fun d s => .cpl (.reg d s)⟩
  | 0x12 => some ⟨.l, .subl⟩
  | 0x14 => some ⟨.l, fun d s => .ldl (ldOfSrc d s)⟩
  | 0x16 => some ⟨.l, .addl⟩
  | 0x18 => some ⟨.l, .multl⟩
  | 0x19 => some ⟨.w, .mult⟩
  | 0x1A => some ⟨.l, .divl⟩
  | 0x1B => some ⟨.w, .div⟩
  | 0x20 => some ⟨.b, fun d s => .ldb (ldOfSrc d s)⟩
  | 0x21 => some ⟨.w, fun d s => .ld (ldOfSrc d s)⟩
  | _ => none

/-- A store of register `s` to a memory operand of the main modes. -/
def ldStore {z : Size} (make : LdArgs z → Instr) (seg : Bool) (mode : BitVec 2) (a s : Reg) (ws : List Word) :
    Except DecodeError (Instr × List Word) := do
  let (m, ws) ← parseMem seg mode a ws
  pure (make (.store (.mem m) s), ws)

/-- A memory operand followed by an immediate: `LD dst,#imm` and `CP dst,#imm` (R125). -/
def memImm (z : Size) (make : Mem → BitVec z.bits → Instr) (seg : Bool) (mode : BitVec 2) (a : Reg)
    (ws : List Word) : Except DecodeError (Instr × List Word) := do
  let (m, ws) ← parseMem seg mode a ws
  let (v, ws) ← parseImm z ws
  pure (make m v, ws)

/-- An instruction with one destination operand. -/
def oneOp (make : Dst → Instr) (seg : Bool) (mode : BitVec 2) (a : Reg) (ws : List Word) :
    Except DecodeError (Instr × List Word) := do
  let (d, ws) ← parseDst seg mode a ws
  pure (make d, ws)

/-- An instruction with one memory operand. -/
def oneMem (make : Mem → Instr) (seg : Bool) (mode : BitVec 2) (a : Reg) (ws : List Word) :
    Except DecodeError (Instr × List Word) := do
  let (m, ws) ← parseMem seg mode a ws
  pure (make m, ws)

/-- Upper bytes 0C, 4C, 8C (R132). -/
def group0C (seg : Bool) (mode : BitVec 2) (a b : BitVec 4) (ws : List Word) : Except DecodeError (Instr × List Word) :=
  match b.toNat with
  | 0 => oneOp .comb seg mode a ws
  | 1 => if mode = modeR then pure (.ldctlb .read a, ws)
         else memImm .b (fun m v => .cpb (.memImm m v)) seg mode a ws
  | 2 => oneOp .negb seg mode a ws
  | 4 => oneOp .testb seg mode a ws
  | 5 => if mode = modeR then throw .unassigned
         else memImm .b (fun m v => .ldb (.storeImm m v)) seg mode a ws
  | 6 => oneOp .tsetb seg mode a ws
  | 8 => oneOp .clrb seg mode a ws
  | 9 => if mode = modeR then pure (.ldctlb .write a, ws) else throw .unassigned
  | _ => throw .unassigned

/-- Upper bytes 0D, 4D, 8D (R132). -/
def group0D (seg : Bool) (mode : BitVec 2) (a b : BitVec 4) (ws : List Word) : Except DecodeError (Instr × List Word) :=
  match b.toNat with
  | 0 => oneOp .com seg mode a ws
  | 1 => if mode = modeR then pure (.setflg a, ws)
         else memImm .w (fun m v => .cp (.memImm m v)) seg mode a ws
  | 2 => oneOp .neg seg mode a ws
  | 3 => if mode = modeR then pure (.resflg a, ws) else throw .unassigned
  | 4 => oneOp .test seg mode a ws
  | 5 => if mode = modeR then pure (.comflg a, ws)
         else memImm .w (fun m v => .ld (.storeImm m v)) seg mode a ws
  | 6 => oneOp .tset seg mode a ws
  | 7 => if mode = modeR ∧ a = 0 then pure (.nop, ws) else throw .unassigned
  | 8 => oneOp .clr seg mode a ws
  | 9 => if mode = modeIr then do
           let (v, ws) ← parseWord ws
           pure (.push a (.imm v), ws)
         else throw .unassigned
  | _ => throw .unassigned

/-- LDM: the register word, then the address (R125, R157). -/
def parseLdm (dir : Dir) (seg : Bool) (mode : BitVec 2) (a : Reg) (ws : List Word) :
    Except DecodeError (Instr × List Word) := do
  let ((r, n), ws) ← parseLdmWord ws
  let (m, ws) ← parseMem seg mode a ws
  pure (.ldm dir m r n, ws)

/-- Upper bytes 1C, 5C, 9C (R132). -/
def group1C (seg : Bool) (mode : BitVec 2) (a b : BitVec 4) (ws : List Word) : Except DecodeError (Instr × List Word) :=
  match b.toNat with
  | 1 => if mode = modeR then throw .unassigned else parseLdm .load seg mode a ws
  | 8 => oneOp .testl seg mode a ws
  | 9 => if mode = modeR then throw .unassigned else parseLdm .store seg mode a ws
  | _ => throw .unassigned

/-- BIT, SET, RES: static; in mode 00 with field A = 0, dynamic (R280). -/
def parseBit (make : BitArgs → Instr) (seg : Bool) (mode : BitVec 2) (a b : BitVec 4) (ws : List Word) :
    Except DecodeError (Instr × List Word) :=
  if mode = modeIr ∧ a = 0 then do
    let (d, ws) ← parseRegWord ws
    pure (make (.dynamic d b), ws)
  else do
    let (d, ws) ← parseDst seg mode a ws
    pure (make (.static d b), ws)

/-- Opcodes whose operand in field A (or B) is R, IR, DA or X in modes 10, 00, 01. -/
def decodeDst (seg : Bool) (mode : BitVec 2) (op : BitVec 6) (a b : BitVec 4) (ws : List Word) :
    Option (Except DecodeError (Instr × List Word)) :=
  match op.toNat with
  | 0x0C => some (group0C seg mode a b ws)
  | 0x0D => some (group0D seg mode a b ws)
  | 0x11 => some do
      let (d, ws) ← parseDst seg mode b ws
      pure (.pushl a d, ws)
  | 0x13 => some do
      let (d, ws) ← parseDst seg mode b ws
      pure (.push a (match d with | .reg r => .reg r | .mem m => .mem m), ws)
  | 0x15 => some do
      let (d, ws) ← parseDst seg mode b ws
      pure (.popl d a, ws)
  | 0x17 => some do
      let (d, ws) ← parseDst seg mode b ws
      pure (.pop d a, ws)
  | 0x1C => some (group1C seg mode a b ws)
  | 0x22 => some (parseBit .resb seg mode a b ws)
  | 0x23 => some (parseBit .res seg mode a b ws)
  | 0x24 => some (parseBit .setb seg mode a b ws)
  | 0x25 => some (parseBit .set seg mode a b ws)
  | 0x26 => some (parseBit .bitb seg mode a b ws)
  | 0x27 => some (parseBit .bit seg mode a b ws)
  | 0x28 => some (oneOp (fun d => .incb d b) seg mode a ws)
  | 0x29 => some (oneOp (fun d => .inc d b) seg mode a ws)
  | 0x2A => some (oneOp (fun d => .decb d b) seg mode a ws)
  | 0x2B => some (oneOp (fun d => .dec d b) seg mode a ws)
  | 0x2C => some (oneOp (fun d => .exb b d) seg mode a ws)
  | 0x2D => some (oneOp (fun d => .ex b d) seg mode a ws)
  | _ => none

/-- A load or store with a 16-bit displacement word: BA when field A is a register, else relative (R120, R158). -/
def parseDisp (ba : Reg → Word → Instr) (ra : Word → Instr) (a : Reg) (ws : List Word) :
    Except DecodeError (Instr × List Word) := do
  let (disp, ws) ← parseWord ws
  pure (if a = 0 then ra disp else ba a disp, ws)

/-- A load or store in base-index mode (R121). -/
def parseBx (make : XMem → Instr) (a : Reg) (ws : List Word) : Except DecodeError (Instr × List Word) := do
  let (x, ws) ← parseRegWord ws
  pure (make (.bx a x), ws)

/-- An extended instruction: its second word belongs to the EPU (R440). -/
def parseExt (op : ExtOp) (a b : BitVec 4) (ws : List Word) : Except DecodeError (Instr × List Word) := do
  let (e1, ws) ← parseWord ws
  pure (.extended op (a ++ b) e1, ws)

/-- The port word of IN, OUT, SIN, SOUT, and the second word of a block I/O instruction, whose low field is 8 for
the single and 0 for the repeating form (R380). -/
def parseBlockIo (single rep : Reg → Reg → Reg → Instr) (s : Reg) (ws : List Word) :
    Except DecodeError (Instr × List Word) := do
  let ((r, d, e), ws) ← parseBlockWord ws
  if e = 8 then pure (single s r d, ws) else if e = 0 then pure (rep s r d, ws) else throw .mustBeZero

def parsePort (make : Word → Instr) (ws : List Word) : Except DecodeError (Instr × List Word) := do
  let (p, ws) ← parseWord ws
  pure (make p, ws)

/-- Upper byte 3A (R380). -/
def group3A (a b : BitVec 4) (ws : List Word) : Except DecodeError (Instr × List Word) :=
  match b.toNat with
  | 0x0 => parseBlockIo .inib .inirb a ws
  | 0x1 => parseBlockIo .sinib .sinirb a ws
  | 0x2 => parseBlockIo .outib .otirb a ws
  | 0x3 => parseBlockIo .soutib .sotirb a ws
  | 0x4 => parsePort (fun p => .inb a (.direct p)) ws
  | 0x5 => parsePort (fun p => .sinb a p) ws
  | 0x6 => parsePort (fun p => .outb (.direct p) a) ws
  | 0x7 => parsePort (fun p => .soutb p a) ws
  | 0x8 => parseBlockIo .indb .indrb a ws
  | 0x9 => parseBlockIo .sindb .sindrb a ws
  | 0xA => parseBlockIo .outdb .otdrb a ws
  | 0xB => parseBlockIo .soutdb .sotdrb a ws
  | _ => throw .unassigned

/-- Upper byte 3B (R380). -/
def group3B (a b : BitVec 4) (ws : List Word) : Except DecodeError (Instr × List Word) :=
  match b.toNat with
  | 0x0 => parseBlockIo .ini .inir a ws
  | 0x1 => parseBlockIo .sini .sinir a ws
  | 0x2 => parseBlockIo .outi .otir a ws
  | 0x3 => parseBlockIo .souti .sotir a ws
  | 0x4 => parsePort (fun p => .inw a (.direct p)) ws
  | 0x5 => parsePort (fun p => .sin a p) ws
  | 0x6 => parsePort (fun p => .out (.direct p) a) ws
  | 0x7 => parsePort (fun p => .sout p a) ws
  | 0x8 => parseBlockIo .ind .indr a ws
  | 0x9 => parseBlockIo .sind .sindr a ws
  | 0xA => parseBlockIo .outd .otdr a ws
  | 0xB => parseBlockIo .soutd .sotdr a ws
  | _ => throw .unassigned

/-- Mode 00: what is not in `twoOp` or `decodeDst`. -/
def decodeMode0 (seg : Bool) (op : BitVec 6) (a b : BitVec 4) (ws : List Word) :
    Except DecodeError (Instr × List Word) :=
  match op.toNat with
  | 0x0E => parseExt .op0E a b ws
  | 0x0F => parseExt .op0F a b ws
  | 0x1D => ldStore .ldl seg modeIr a b ws
  | 0x1E => pure (.jp (.ofBits b) (.ir a), ws)
  | 0x1F => if b = 0 then pure (.call (.ir a), ws) else throw .unassigned
  | 0x2E => ldStore .ldb seg modeIr a b ws
  | 0x2F => ldStore .ld seg modeIr a b ws
  | 0x30 => parseDisp (fun r n => .ldb (.load b (.ba r n))) (fun n => .ldrb .load b n) a ws
  | 0x31 => parseDisp (fun r n => .ld (.load b (.ba r n))) (fun n => .ldr .load b n) a ws
  | 0x32 => parseDisp (fun r n => .ldb (.store (.ba r n) b)) (fun n => .ldrb .store b n) a ws
  | 0x33 => parseDisp (fun r n => .ld (.store (.ba r n) b)) (fun n => .ldr .store b n) a ws
  | 0x34 => parseDisp (fun r n => .lda b (.ba r n)) (fun n => .ldar b n) a ws
  | 0x35 => parseDisp (fun r n => .ldl (.load b (.ba r n))) (fun n => .ldrl .load b n) a ws
  | 0x37 => parseDisp (fun r n => .ldl (.store (.ba r n) b)) (fun n => .ldrl .store b n) a ws
  | 0x39 => if b = 0 then pure (.ldps (.ir a), ws) else throw .unassigned
  | 0x3A => group3A a b ws
  | 0x3B => group3B a b ws
  | 0x3C => pure (.inb b (.reg a), ws)
  | 0x3D => pure (.inw b (.reg a), ws)
  | 0x3E => pure (.outb (.reg a) b, ws)
  | 0x3F => pure (.out (.reg a) b, ws)
  | _ => throw .unassigned

/-- Mode 01: what is not in `twoOp` or `decodeDst`. -/
def decodeMode1 (seg : Bool) (op : BitVec 6) (a b : BitVec 4) (ws : List Word) :
    Except DecodeError (Instr × List Word) :=
  match op.toNat with
  | 0x0E => parseExt .op4E a b ws
  | 0x0F => parseExt .op4F a b ws
  | 0x1D => ldStore .ldl seg modeDa a b ws
  | 0x1E => oneMem (.jp (.ofBits b)) seg modeDa a ws
  | 0x1F => if b = 0 then oneMem .call seg modeDa a ws else throw .unassigned
  | 0x2E => ldStore .ldb seg modeDa a b ws
  | 0x2F => ldStore .ld seg modeDa a b ws
  | 0x30 => parseBx (fun m => .ldb (.load b m)) a ws
  | 0x31 => parseBx (fun m => .ld (.load b m)) a ws
  | 0x32 => parseBx (fun m => .ldb (.store m b)) a ws
  | 0x33 => parseBx (fun m => .ld (.store m b)) a ws
  | 0x34 => parseBx (fun m => .lda b m) a ws
  | 0x35 => parseBx (fun m => .ldl (.load b m)) a ws
  | 0x36 => oneMem (fun m => .lda b (.mem m)) seg modeDa a ws
  | 0x37 => parseBx (fun m => .ldl (.store m b)) a ws
  | 0x39 => if b = 0 then oneMem .ldps seg modeDa a ws else throw .unassigned
  | 0x3A => if a = 0 ∧ b = 0 then pure (.halt, ws) else throw .unassigned
  | 0x3B =>
      match b.toNat with
      | 0x0 => if a = 0 then pure (.iret, ws) else throw .unassigned
      | 0x8 => if a = 0 then pure (.mset, ws) else throw .unassigned
      | 0x9 => if a = 0 then pure (.mres, ws) else throw .unassigned
      | 0xA => if a = 0 then pure (.mbit, ws) else throw .unassigned
      | 0xD => pure (.mreq a, ws)
      | _ => throw .unassigned
  | 0x3C =>
      if a ≠ 0 then throw .unassigned
      else match (b.extractLsb' 2 2).toNat with
      | 0 => pure (.di (b.getLsbD 1) (b.getLsbD 0), ws)
      | 1 => pure (.ei (b.getLsbD 1) (b.getLsbD 0), ws)
      | _ => throw .unassigned
  | 0x3D =>
      match CtlReg.ofBits (b.extractLsb' 0 3) with
      | some c => pure (.ldctl (if b.msb then .write else .read) a c, ws)
      | none => throw .unassigned
  | 0x3F => pure (.sc (a ++ b), ws)
  | _ => throw .unassigned

/-- A static shift: the sign of the count word tells left from right (R301). -/
def parseShift (left right : Reg → Word → Instr) (d : Reg) (ws : List Word) :
    Except DecodeError (Instr × List Word) := do
  let (k, ws) ← parseWord ws
  pure (if k.msb then right d k else left d k, ws)

/-- A dynamic shift: the count register is in the second word (R301). -/
def parseDynShift (make : Reg → Reg → Instr) (d : Reg) (ws : List Word) : Except DecodeError (Instr × List Word) := do
  let (s, ws) ← parseRegWord ws
  pure (make d s, ws)

/-- Upper byte B2 (R300). -/
def groupB2 (a b : BitVec 4) (ws : List Word) : Except DecodeError (Instr × List Word) :=
  match b.toNat with
  | 0x0 => pure (.rlb a false, ws)
  | 0x1 => parseShift .sllb .srlb a ws
  | 0x2 => pure (.rlb a true, ws)
  | 0x3 => parseDynShift .sdlb a ws
  | 0x4 => pure (.rrb a false, ws)
  | 0x6 => pure (.rrb a true, ws)
  | 0x8 => pure (.rlcb a false, ws)
  | 0x9 => parseShift .slab .srab a ws
  | 0xA => pure (.rlcb a true, ws)
  | 0xB => parseDynShift .sdab a ws
  | 0xC => pure (.rrcb a false, ws)
  | 0xE => pure (.rrcb a true, ws)
  | _ => throw .unassigned

/-- Upper byte B3 (R300). -/
def groupB3 (a b : BitVec 4) (ws : List Word) : Except DecodeError (Instr × List Word) :=
  match b.toNat with
  | 0x0 => pure (.rl a false, ws)
  | 0x1 => parseShift .sll .srl a ws
  | 0x2 => pure (.rl a true, ws)
  | 0x3 => parseDynShift .sdl a ws
  | 0x4 => pure (.rr a false, ws)
  | 0x5 => parseShift .slll .srll a ws
  | 0x6 => pure (.rr a true, ws)
  | 0x7 => parseDynShift .sdll a ws
  | 0x8 => pure (.rlc a false, ws)
  | 0x9 => parseShift .sla .sra a ws
  | 0xA => pure (.rlc a true, ws)
  | 0xB => parseDynShift .sda a ws
  | 0xC => pure (.rrc a false, ws)
  | 0xD => parseShift .slal .sral a ws
  | 0xE => pure (.rrc a true, ws)
  | _ => parseDynShift .sdal a ws

/-- A block compare: the low field of the second word is a condition code (R330). -/
def parseCompare (make : Reg → Reg → Reg → Cond → Instr) (s : Reg) (ws : List Word) :
    Except DecodeError (Instr × List Word) := do
  let ((r, d, c), ws) ← parseBlockWord ws
  pure (make s r d (.ofBits c), ws)

/-- A translate instruction: the low field of the second word is fixed, `tail` (R330). -/
def parseTranslate (make : Reg → Reg → Reg → Instr) (tail : BitVec 4) (d : Reg) (ws : List Word) :
    Except DecodeError (Instr × List Word) := do
  let ((r, s, e), ws) ← parseBlockWord ws
  if e = tail then pure (make d r s, ws) else throw .mustBeZero

/-- Upper byte B8 (R330). -/
def groupB8 (a b : BitVec 4) (ws : List Word) : Except DecodeError (Instr × List Word) :=
  match b.toNat with
  | 0x0 => parseTranslate .trib 0 a ws
  | 0x2 => parseTranslate .trtib 0 a ws
  | 0x4 => parseTranslate .trirb 0 a ws
  | 0x6 => parseTranslate .trtirb 14 a ws
  | 0x8 => parseTranslate .trdb 0 a ws
  | 0xA => parseTranslate .trtdb 0 a ws
  | 0xC => parseTranslate .trdrb 0 a ws
  | 0xE => parseTranslate .trtdrb 14 a ws
  | _ => throw .unassigned

/-- Upper byte BA (R330). -/
def groupBA (a b : BitVec 4) (ws : List Word) : Except DecodeError (Instr × List Word) :=
  match b.toNat with
  | 0x0 => parseCompare .cpib a ws
  | 0x1 => parseBlockIo .ldib .ldirb a ws
  | 0x2 => parseCompare .cpsib a ws
  | 0x4 => parseCompare .cpirb a ws
  | 0x6 => parseCompare .cpsirb a ws
  | 0x8 => parseCompare .cpdb a ws
  | 0x9 => parseBlockIo .lddb .lddrb a ws
  | 0xA => parseCompare .cpsdb a ws
  | 0xC => parseCompare .cpdrb a ws
  | 0xE => parseCompare .cpsdrb a ws
  | _ => throw .unassigned

/-- Upper byte BB (R330). -/
def groupBB (a b : BitVec 4) (ws : List Word) : Except DecodeError (Instr × List Word) :=
  match b.toNat with
  | 0x0 => parseCompare .cpi a ws
  | 0x1 => parseBlockIo .ldi .ldir a ws
  | 0x2 => parseCompare .cpsi a ws
  | 0x4 => parseCompare .cpir a ws
  | 0x6 => parseCompare .cpsir a ws
  | 0x8 => parseCompare .cpd a ws
  | 0x9 => parseBlockIo .ldd .lddr a ws
  | 0xA => parseCompare .cpsd a ws
  | 0xC => parseCompare .cpdr a ws
  | 0xE => parseCompare .cpsdr a ws
  | _ => throw .unassigned

/-- Mode 10: what is not in `twoOp` or `decodeDst`. -/
def decodeMode2 (op : BitVec 6) (a b : BitVec 4) (ws : List Word) : Except DecodeError (Instr × List Word) :=
  match op.toNat with
  | 0x0E => parseExt .op8E a b ws
  | 0x0F => parseExt .op8F a b ws
  | 0x1E => if a = 0 then pure (.ret (.ofBits b), ws) else throw .unassigned
  | 0x2E => pure (.tccb (.ofBits b) a, ws)
  | 0x2F => pure (.tcc (.ofBits b) a, ws)
  | 0x30 => if b = 0 then pure (.dab a, ws) else throw .unassigned
  | 0x31 =>
      match b.toNat with
      | 0x0 => pure (.extsb a, ws)
      | 0x7 => pure (.extsl a, ws)
      | 0xA => pure (.exts a, ws)
      | _ => throw .unassigned
  | 0x32 => groupB2 a b ws
  | 0x33 => groupB3 a b ws
  | 0x34 => pure (.adcb b a, ws)
  | 0x35 => pure (.adc b a, ws)
  | 0x36 => pure (.sbcb b a, ws)
  | 0x37 => pure (.sbc b a, ws)
  | 0x38 => groupB8 a b ws
  | 0x3A => groupBA a b ws
  | 0x3B => groupBB a b ws
  | 0x3C => pure (.rrdb b a, ws)
  | 0x3D => pure (.ldk a b, ws)
  | 0x3E => pure (.rldb b a, ws)
  | _ => throw .unassigned

/-- Mode 11: the compact formats (R113). -/
def decodeCompact (w : Word) (ws : List Word) : Except DecodeError (Instr × List Word) :=
  match (fieldTop w).toNat with
  | 0xC => pure (.ldb (.compact (fieldX w) (lowByte w)), ws)
  | 0xD => pure (.calr (w.extractLsb' 0 12), ws)
  | 0xE => pure (.jr (.ofBits (fieldX w)) (lowByte w), ws)
  | _ => pure (if w.getLsbD 7 then .djnz (fieldX w) (w.extractLsb' 0 7)
               else .dbjnz (fieldX w) (w.extractLsb' 0 7), ws)

/-- The decoder: the instruction at the head of a list of words and the words after it. `seg` is the mode of the
machine, a decoder input (R122, R127, R128). The register-field rules are `Instr.wellFormed`. -/
def decode (seg : Bool) : List Word → Except DecodeError (Instr × List Word)
  | [] => .error .truncated
  | w :: ws =>
    let mode := fieldMode w
    let op := fieldOp w
    let a := fieldA w
    let b := fieldB w
    if mode = 3 then decodeCompact w ws
    else match twoOp op with
    | some t => do
        let (src, ws) ← parseSrc t.z seg mode a ws
        pure (t.make b src, ws)
    | none =>
      match decodeDst seg mode op a b ws with
      | some p => p
      | none =>
        if mode = modeIr then decodeMode0 seg op a b ws
        else if mode = modeDa then decodeMode1 seg op a b ws
        else decodeMode2 op a b ws

/-- The words of a list of bytes, the most significant byte of a word first (R74, R77). -/
def wordsOfBytes : List Byte → List Word
  | hi :: lo :: bs => (hi ++ lo) :: wordsOfBytes bs
  | _ => []

/-- The bytes of a word in memory order (R74). -/
def bytesOfWord (w : Word) : List Byte := [highByte w, lowByte w]

/-- The decoder on bytes. -/
def decodeBytes (seg : Bool) (bs : List Byte) : Except DecodeError (Instr × List Word) := decode seg (wordsOfBytes bs)

/-- The four words of an instruction given as one number, the first word in its low 16 bits. -/
def tableWords (w : Nat) : List Word :=
  [BitVec.ofNat 16 w, BitVec.ofNat 16 (w / 2 ^ 16), BitVec.ofNat 16 (w / 2 ^ 32), BitVec.ofNat 16 (w / 2 ^ 48)]

/-- The instruction that the decoder reads from the bits `w` of a row of spec/opcode_table.json, in nonsegmented
mode. -/
def decodeTableWord (nbits w : Nat) : Option Instr :=
  match decodeBytes false ((tableWords (w % 2 ^ nbits)).flatMap bytesOfWord) with
  | .ok (i, _) => some i
  | .error _ => none

/-- Whether a first word has the opcode of a privileged instruction (R135): LDPS, the I/O instructions, HALT, IRET,
the multi-micro instructions, DI, EI and LDCTL. -/
def privilegedOpcode (w : Word) : Bool :=
  match (highByte w).toNat with
  | 0x39 | 0x79 | 0x3A | 0x3B | 0x3C | 0x3D | 0x3E | 0x3F | 0x7A | 0x7B | 0x7C | 0x7D => true
  | _ => false

/-! ## The encoder -/

/-- The words of an immediate; a byte stands twice (R115). -/
def immWords : (z : Size) → BitVec z.bits → List Word
  | .b, v => [v ++ v]
  | .w, v => [v]
  | .l, v => [v.extractLsb' 16 16, v.extractLsb' 0 16]

/-- The words of a direct address (R122). -/
def AbsAddr.words : AbsAddr → List Word
  | .near off => [off]
  | .short seg off => [0#1 ++ seg ++ off]
  | .long seg off => [1#1 ++ seg ++ 0#8, off]

/-- The mode field of a memory operand, its register field and its address words (R111, R112). -/
def Mem.mode : Mem → BitVec 2
  | .ir _ => modeIr
  | .da _ => modeDa
  | .x _ _ => modeDa

def Mem.field : Mem → Reg
  | .ir r => r
  | .da _ => 0
  | .x _ r => r

def Mem.words : Mem → List Word
  | .ir _ => []
  | .da a => a.words
  | .x a _ => a.words

def Dst.mode : Dst → BitVec 2
  | .reg _ => modeR
  | .mem m => m.mode

def Dst.field : Dst → Reg
  | .reg r => r
  | .mem m => m.field

def Dst.words : Dst → List Word
  | .reg _ => []
  | .mem m => m.words

def Src.mode {z : Size} : Src z → BitVec 2
  | .reg _ => modeR
  | .imm _ => modeIr
  | .mem m => m.mode

def Src.field {z : Size} : Src z → Reg
  | .reg r => r
  | .imm _ => 0
  | .mem m => m.field

def Src.words {z : Size} : Src z → List Word
  | .reg _ => []
  | .imm v => immWords z v
  | .mem m => m.words

/-- `OP Rd,src`: field A is the source, field B the destination (R112). -/
def encTwo {z : Size} (op : BitVec 6) (d : Reg) (src : Src z) : List Word :=
  firstWord src.mode op src.field d :: src.words

/-- An instruction with one destination operand in field A and `b` in field B. -/
def encOne (op : BitVec 6) (dst : Dst) (b : BitVec 4) : List Word :=
  firstWord dst.mode op dst.field b :: dst.words

/-- An instruction with one memory operand in field A and `b` in field B. -/
def encMem (op : BitVec 6) (m : Mem) (b : BitVec 4) : List Word :=
  firstWord m.mode op m.field b :: m.words

/-- A second word with a register in bits 11:8 and two more fields (R126). -/
def secondWord (r a b : BitVec 4) : Word := 0#4 ++ r ++ a ++ b

/-- LD, LDB, LDL (R153): `opR` is the opcode of the load in modes 10 and 00, `opS` of the store to the main modes,
`opBA` and `opBAs` of the BA and BX load and store, `opG` of the group that holds `LD dst,#imm`. -/
def encLd {z : Size} (opR opS opBA opBAs opG : BitVec 6) : LdArgs z → List Word
  | .reg d s => [firstWord modeR opR s d]
  | .imm d v => firstWord modeIr opR 0 d :: immWords z v
  | .load d (.mem m) => encMem opR m d
  | .load d (.ba r n) => [firstWord modeIr opBA r d, n]
  | .load d (.bx r x) => [firstWord modeDa opBA r d, secondWord x 0 0]
  | .store (.mem m) s => encMem opS m s
  | .store (.ba r n) s => [firstWord modeIr opBAs r s, n]
  | .store (.bx r x) s => [firstWord modeDa opBAs r s, secondWord x 0 0]
  | .storeImm m v => encMem opG m 5 ++ immWords z v
  | .compact d v => [0xC#4 ++ d ++ v.setWidth 8]

/-- CP, CPB, CPL (R193). -/
def encCp {z : Size} (op opG : BitVec 6) : CpArgs z → List Word
  | .reg d src => encTwo op d src
  | .memImm m v => encMem opG m 1 ++ immWords z v

/-- BIT, SET, RES (R280). -/
def encBit (op : BitVec 6) : BitArgs → List Word
  | .static dst b => encOne op dst b
  | .dynamic d s => [firstWord modeIr op 0 s, secondWord d 0 0]

/-- LDR, LDRB, LDRL (R158). -/
def encLdr (opL opS : BitVec 6) (r : Reg) (disp : Word) : Dir → List Word
  | .load => [firstWord modeIr opL 0 r, disp]
  | .store => [firstWord modeIr opS 0 r, disp]

/-- A rotate: field B is as R300's table has it, from `b` for one position to `b + 2` for two. R300's closing words, which
read bit 3 as right and bit 2 as through carry, contradict that table; DEDUCED: the table holds (log entry 45). -/
def encRotate (op : BitVec 6) (d : Reg) (b : BitVec 4) (two : Bool) : List Word :=
  [firstWord modeR op d (if two then b + 2 else b)]

/-- IN, OUT (R380): `opR` with the port in a register, `opD` with the port in the instruction and sub-opcode `b`. -/
def encPort (opR opD : BitVec 6) (b r : BitVec 4) : Port → List Word
  | .reg p => [firstWord modeIr opR p r]
  | .direct p => [firstWord modeIr opD r b, p]

/-- A block instruction: the first word in mode `mode`, the second word `0000 rrrr dddd eeee` (R330, R380). -/
def encBlock (mode : BitVec 2) (op : BitVec 6) (b s r d e : BitVec 4) : List Word :=
  [firstWord mode op s b, secondWord r d e]

/-- The direction bit of LDCTL, bit 3 of field B. -/
def CtlDir.bit : CtlDir → BitVec 1
  | .read => 0
  | .write => 1

/-- The words of an instruction. -/
def encode : Instr → List Word
  | .addb d src => encTwo 0x00 d src
  | .add d src => encTwo 0x01 d src
  | .subb d src => encTwo 0x02 d src
  | .sub d src => encTwo 0x03 d src
  | .orb d src => encTwo 0x04 d src
  | .or d src => encTwo 0x05 d src
  | .andb d src => encTwo 0x06 d src
  | .and d src => encTwo 0x07 d src
  | .xorb d src => encTwo 0x08 d src
  | .xor d src => encTwo 0x09 d src
  | .cpb a => encCp 0x0A 0x0C a
  | .cp a => encCp 0x0B 0x0D a
  | .cpl a => encCp 0x10 0x0D a
  | .subl d src => encTwo 0x12 d src
  | .addl d src => encTwo 0x16 d src
  | .multl d src => encTwo 0x18 d src
  | .mult d src => encTwo 0x19 d src
  | .divl d src => encTwo 0x1A d src
  | .div d src => encTwo 0x1B d src
  | .ldb a => encLd 0x20 0x2E 0x30 0x32 0x0C a
  | .ld a => encLd 0x21 0x2F 0x31 0x33 0x0D a
  | .ldl a => encLd 0x14 0x1D 0x35 0x37 0x0D a
  | .ldrb dir r n => encLdr 0x30 0x32 r n dir
  | .ldr dir r n => encLdr 0x31 0x33 r n dir
  | .ldrl dir r n => encLdr 0x35 0x37 r n dir
  | .lda d (.mem m) => encMem 0x36 m d
  | .lda d (.ba r n) => [firstWord modeIr 0x34 r d, n]
  | .lda d (.bx r x) => [firstWord modeDa 0x34 r d, secondWord x 0 0]
  | .ldar d n => [firstWord modeIr 0x34 0 d, n]
  | .ldk d n => [firstWord modeR 0x3D d n]
  | .ldm .load m r n => firstWord m.mode 0x1C m.field 1 :: secondWord r 0 n :: m.words
  | .ldm .store m r n => firstWord m.mode 0x1C m.field 9 :: secondWord r 0 n :: m.words
  | .comb dst => encOne 0x0C dst 0
  | .com dst => encOne 0x0D dst 0
  | .negb dst => encOne 0x0C dst 2
  | .neg dst => encOne 0x0D dst 2
  | .testb dst => encOne 0x0C dst 4
  | .test dst => encOne 0x0D dst 4
  | .tsetb dst => encOne 0x0C dst 6
  | .tset dst => encOne 0x0D dst 6
  | .clrb dst => encOne 0x0C dst 8
  | .clr dst => encOne 0x0D dst 8
  | .testl dst => encOne 0x1C dst 8
  | .setflg f => [firstWord modeR 0x0D f 1]
  | .resflg f => [firstWord modeR 0x0D f 3]
  | .comflg f => [firstWord modeR 0x0D f 5]
  | .nop => [firstWord modeR 0x0D 0 7]
  | .ldctlb .read r => [firstWord modeR 0x0C r 1]
  | .ldctlb .write r => [firstWord modeR 0x0C r 9]
  | .pushl sp src => firstWord src.mode 0x11 sp src.field :: src.words
  | .push sp (.imm v) => [firstWord modeIr 0x0D sp 9, v]
  | .push sp (.reg r) => [firstWord modeR 0x13 sp r]
  | .push sp (.mem m) => firstWord m.mode 0x13 sp m.field :: m.words
  | .popl dst sp => firstWord dst.mode 0x15 sp dst.field :: dst.words
  | .pop dst sp => firstWord dst.mode 0x17 sp dst.field :: dst.words
  | .exb d src => encOne 0x2C src d
  | .ex d src => encOne 0x2D src d
  | .incb dst n => encOne 0x28 dst n
  | .inc dst n => encOne 0x29 dst n
  | .decb dst n => encOne 0x2A dst n
  | .dec dst n => encOne 0x2B dst n
  | .resb a => encBit 0x22 a
  | .res a => encBit 0x23 a
  | .setb a => encBit 0x24 a
  | .set a => encBit 0x25 a
  | .bitb a => encBit 0x26 a
  | .bit a => encBit 0x27 a
  | .tccb c d => [firstWord modeR 0x2E d c.bits]
  | .tcc c d => [firstWord modeR 0x2F d c.bits]
  | .dab d => [firstWord modeR 0x30 d 0]
  | .extsb d => [firstWord modeR 0x31 d 0]
  | .exts d => [firstWord modeR 0x31 d 10]
  | .extsl d => [firstWord modeR 0x31 d 7]
  | .adcb d s => [firstWord modeR 0x34 s d]
  | .adc d s => [firstWord modeR 0x35 s d]
  | .sbcb d s => [firstWord modeR 0x36 s d]
  | .sbc d s => [firstWord modeR 0x37 s d]
  | .rrdb l s => [firstWord modeR 0x3C s l]
  | .rldb l s => [firstWord modeR 0x3E s l]
  | .rlb d two => encRotate 0x32 d 0 two
  | .rl d two => encRotate 0x33 d 0 two
  | .rrb d two => encRotate 0x32 d 4 two
  | .rr d two => encRotate 0x33 d 4 two
  | .rlcb d two => encRotate 0x32 d 8 two
  | .rlc d two => encRotate 0x33 d 8 two
  | .rrcb d two => encRotate 0x32 d 12 two
  | .rrc d two => encRotate 0x33 d 12 two
  | .sllb d k => [firstWord modeR 0x32 d 1, k]
  | .srlb d k => [firstWord modeR 0x32 d 1, k]
  | .sll d k => [firstWord modeR 0x33 d 1, k]
  | .srl d k => [firstWord modeR 0x33 d 1, k]
  | .slll d k => [firstWord modeR 0x33 d 5, k]
  | .srll d k => [firstWord modeR 0x33 d 5, k]
  | .slab d k => [firstWord modeR 0x32 d 9, k]
  | .srab d k => [firstWord modeR 0x32 d 9, k]
  | .sla d k => [firstWord modeR 0x33 d 9, k]
  | .sra d k => [firstWord modeR 0x33 d 9, k]
  | .slal d k => [firstWord modeR 0x33 d 13, k]
  | .sral d k => [firstWord modeR 0x33 d 13, k]
  | .sdlb d s => [firstWord modeR 0x32 d 3, secondWord s 0 0]
  | .sdl d s => [firstWord modeR 0x33 d 3, secondWord s 0 0]
  | .sdll d s => [firstWord modeR 0x33 d 7, secondWord s 0 0]
  | .sdab d s => [firstWord modeR 0x32 d 11, secondWord s 0 0]
  | .sda d s => [firstWord modeR 0x33 d 11, secondWord s 0 0]
  | .sdal d s => [firstWord modeR 0x33 d 15, secondWord s 0 0]
  | .jp c m => encMem 0x1E m c.bits
  | .call m => encMem 0x1F m 0
  | .ret c => [firstWord modeR 0x1E 0 c.bits]
  | .calr n => [0xD#4 ++ n]
  | .jr c n => [0xE#4 ++ c.bits ++ n]
  | .djnz r n => [0xF#4 ++ r ++ 1#1 ++ n]
  | .dbjnz r n => [0xF#4 ++ r ++ 0#1 ++ n]
  | .sc i => [0x7F#8 ++ i]
  | .iret => [firstWord modeDa 0x3B 0 0]
  | .cpib s r d c => encBlock modeR 0x3A 0 s r d c.bits
  | .cpirb s r d c => encBlock modeR 0x3A 4 s r d c.bits
  | .cpdb s r d c => encBlock modeR 0x3A 8 s r d c.bits
  | .cpdrb s r d c => encBlock modeR 0x3A 12 s r d c.bits
  | .cpsib s r d c => encBlock modeR 0x3A 2 s r d c.bits
  | .cpsirb s r d c => encBlock modeR 0x3A 6 s r d c.bits
  | .cpsdb s r d c => encBlock modeR 0x3A 10 s r d c.bits
  | .cpsdrb s r d c => encBlock modeR 0x3A 14 s r d c.bits
  | .ldib s r d => encBlock modeR 0x3A 1 s r d 8
  | .ldirb s r d => encBlock modeR 0x3A 1 s r d 0
  | .lddb s r d => encBlock modeR 0x3A 9 s r d 8
  | .lddrb s r d => encBlock modeR 0x3A 9 s r d 0
  | .cpi s r d c => encBlock modeR 0x3B 0 s r d c.bits
  | .cpir s r d c => encBlock modeR 0x3B 4 s r d c.bits
  | .cpd s r d c => encBlock modeR 0x3B 8 s r d c.bits
  | .cpdr s r d c => encBlock modeR 0x3B 12 s r d c.bits
  | .cpsi s r d c => encBlock modeR 0x3B 2 s r d c.bits
  | .cpsir s r d c => encBlock modeR 0x3B 6 s r d c.bits
  | .cpsd s r d c => encBlock modeR 0x3B 10 s r d c.bits
  | .cpsdr s r d c => encBlock modeR 0x3B 14 s r d c.bits
  | .ldi s r d => encBlock modeR 0x3B 1 s r d 8
  | .ldir s r d => encBlock modeR 0x3B 1 s r d 0
  | .ldd s r d => encBlock modeR 0x3B 9 s r d 8
  | .lddr s r d => encBlock modeR 0x3B 9 s r d 0
  | .trib d r s => encBlock modeR 0x38 0 d r s 0
  | .trtib d r s => encBlock modeR 0x38 2 d r s 0
  | .trirb d r s => encBlock modeR 0x38 4 d r s 0
  | .trtirb d r s => encBlock modeR 0x38 6 d r s 14
  | .trdb d r s => encBlock modeR 0x38 8 d r s 0
  | .trtdb d r s => encBlock modeR 0x38 10 d r s 0
  | .trdrb d r s => encBlock modeR 0x38 12 d r s 0
  | .trtdrb d r s => encBlock modeR 0x38 14 d r s 14
  | .inb d p => encPort 0x3C 0x3A 4 d p
  | .outb p s => encPort 0x3E 0x3A 6 s p
  | .sinb d p => [firstWord modeIr 0x3A d 5, p]
  | .soutb p s => [firstWord modeIr 0x3A s 7, p]
  | .inib s r d => encBlock modeIr 0x3A 0 s r d 8
  | .inirb s r d => encBlock modeIr 0x3A 0 s r d 0
  | .sinib s r d => encBlock modeIr 0x3A 1 s r d 8
  | .sinirb s r d => encBlock modeIr 0x3A 1 s r d 0
  | .outib s r d => encBlock modeIr 0x3A 2 s r d 8
  | .otirb s r d => encBlock modeIr 0x3A 2 s r d 0
  | .soutib s r d => encBlock modeIr 0x3A 3 s r d 8
  | .sotirb s r d => encBlock modeIr 0x3A 3 s r d 0
  | .indb s r d => encBlock modeIr 0x3A 8 s r d 8
  | .indrb s r d => encBlock modeIr 0x3A 8 s r d 0
  | .sindb s r d => encBlock modeIr 0x3A 9 s r d 8
  | .sindrb s r d => encBlock modeIr 0x3A 9 s r d 0
  | .outdb s r d => encBlock modeIr 0x3A 10 s r d 8
  | .otdrb s r d => encBlock modeIr 0x3A 10 s r d 0
  | .soutdb s r d => encBlock modeIr 0x3A 11 s r d 8
  | .sotdrb s r d => encBlock modeIr 0x3A 11 s r d 0
  | .inw d p => encPort 0x3D 0x3B 4 d p
  | .out p s => encPort 0x3F 0x3B 6 s p
  | .sin d p => [firstWord modeIr 0x3B d 5, p]
  | .sout p s => [firstWord modeIr 0x3B s 7, p]
  | .ini s r d => encBlock modeIr 0x3B 0 s r d 8
  | .inir s r d => encBlock modeIr 0x3B 0 s r d 0
  | .sini s r d => encBlock modeIr 0x3B 1 s r d 8
  | .sinir s r d => encBlock modeIr 0x3B 1 s r d 0
  | .outi s r d => encBlock modeIr 0x3B 2 s r d 8
  | .otir s r d => encBlock modeIr 0x3B 2 s r d 0
  | .souti s r d => encBlock modeIr 0x3B 3 s r d 8
  | .sotir s r d => encBlock modeIr 0x3B 3 s r d 0
  | .ind s r d => encBlock modeIr 0x3B 8 s r d 8
  | .indr s r d => encBlock modeIr 0x3B 8 s r d 0
  | .sind s r d => encBlock modeIr 0x3B 9 s r d 8
  | .sindr s r d => encBlock modeIr 0x3B 9 s r d 0
  | .outd s r d => encBlock modeIr 0x3B 10 s r d 8
  | .otdr s r d => encBlock modeIr 0x3B 10 s r d 0
  | .soutd s r d => encBlock modeIr 0x3B 11 s r d 8
  | .sotdr s r d => encBlock modeIr 0x3B 11 s r d 0
  | .ldps m => encMem 0x39 m 0
  | .halt => [firstWord modeDa 0x3A 0 0]
  | .mset => [firstWord modeDa 0x3B 0 8]
  | .mres => [firstWord modeDa 0x3B 0 9]
  | .mbit => [firstWord modeDa 0x3B 0 10]
  | .mreq d => [firstWord modeDa 0x3B d 13]
  | .di v n => [firstWord modeDa 0x3C 0 (0#2 ++ BitVec.ofBool v ++ BitVec.ofBool n)]
  | .ei v n => [firstWord modeDa 0x3C 0 (1#2 ++ BitVec.ofBool v ++ BitVec.ofBool n)]
  | .ldctl dir r c => [firstWord modeDa 0x3D r (dir.bit ++ c.bits)]
  | .extended op e e1 => [op.byte ++ e, e1]

/-- The first word of an instruction: the identifier of an internal trap (R450). -/
def Instr.identifier (i : Instr) : Word := (encode i).headD 0

end Sys2Proof
end

