-- ==== Sys2Proof/Config.lean ====
section
/-! DEFINITION. What the platform fixes for a machine (the open parameters of spec/00_scope.md R9 and
spec/92_eei_decisions.md) and the free values: what the spec leaves open after an instruction that goes on. -/

namespace Sys2Proof

/-- The two versions of the CPU (R1, parameter `Variant` of R9). -/
inductive Variant where
  | z8001
  | z8002
  deriving DecidableEq, Repr

/-- What a word access at an odd address does: parameter `OddWordAccess` of D5 (R79). -/
inductive OddWord where
  /-- the model refuses the access -/
  | refuse
  /-- memory ignores A0: the access is at the address less one -/
  | clearBit0
  deriving DecidableEq, Repr

/-- The class of a memory access, shown on the status lines (R71, R73). -/
inductive AccessClass where
  | code
  | data
  | stack
  deriving DecidableEq, Repr

/-- One of the six address spaces: (system, normal) x (code, data, stack) (R71). -/
structure Space where
  system : Bool
  cls    : AccessClass
  deriving DecidableEq, Repr

/-- A run of addresses of one space that a map sends to a run of cells of its own choice. `first` is a linear address:
segment number times 65536 plus offset. -/
structure Window where
  space : Space
  first : Nat
  count : Nat
  cell  : Nat
  deriving DecidableEq, Repr

/-- Parameter `MemoryMap` (R9, R72, D2): a function from mode, class and address to a storage cell. Each space names the
memory (one of six) that answers it, and two spaces that name one memory share it; a window sends a part of a space
elsewhere, so that any addresses of any spaces can share cells (log entry 2). -/
structure MemoryMap where
  systemCode  : Fin 6
  systemData  : Fin 6
  systemStack : Fin 6
  normalCode  : Fin 6
  normalData  : Fin 6
  normalStack : Fin 6
  windows     : List Window
  deriving DecidableEq, Repr

/-- The memory that answers a space. -/
def MemoryMap.bank (m : MemoryMap) : Space → Fin 6
  | ⟨true, .code⟩   => m.systemCode
  | ⟨true, .data⟩   => m.systemData
  | ⟨true, .stack⟩  => m.systemStack
  | ⟨false, .code⟩  => m.normalCode
  | ⟨false, .data⟩  => m.normalData
  | ⟨false, .stack⟩ => m.normalStack

/-- All six spaces are one memory (R72). -/
def MemoryMap.unified : MemoryMap := ⟨0, 0, 0, 0, 0, 0, []⟩

/-- Six disjoint memories (R72). -/
def MemoryMap.split : MemoryMap := ⟨0, 1, 2, 3, 4, 5, []⟩

/-- A rule of the parameter `Mmu` (R87): an access of the CPU of this mode, class and direction whose segment is `seg`
and whose offset lies between `first` and `last` asks for a segment trap, with `ident` as the high byte of the
identifier. -/
structure MmuRule where
  space : Space
  write : Bool
  seg   : BitVec 7
  first : Word
  last  : Word
  ident : Byte
  deriving DecidableEq, Repr

/-- What an Extended Processing Unit and the CPU do together for one extended instruction (R440); `n` is the number of
words less one. -/
inductive EpuAction where
  /-- the EPU works alone -/
  | internal
  /-- the EPU takes words from memory -/
  | fromMemory (m : Mem) (n : BitVec 4)
  /-- the EPU's words go to memory -/
  | toMemory (m : Mem) (n : BitVec 4)
  /-- the EPU takes registers of the CPU, from `r` on -/
  | fromRegs (r : Reg) (n : BitVec 4)
  /-- the EPU's words go to registers of the CPU, from `r` on -/
  | toRegs (r : Reg) (n : BitVec 4)
  /-- the EPU's flags go to FCW[7:0] -/
  | toFlags
  deriving DecidableEq, Repr

/-- A row of the parameter `Epu` (R9, R440): the extended instruction whose upper byte is `op`, lower byte `e` and second
word `e1` is taken by an EPU, as its template, which belongs to that EPU, says. -/
structure EpuRow where
  op  : ExtOp
  e   : Byte
  e1  : Word
  act : EpuAction
  deriving DecidableEq, Repr

/-- Parameter of U13: whether the test of MI in MBIT and MREQ, and the S and Z results of MREQ, have the opposite
of the polarity that R424 and R425 give. All false is the rules' reading. -/
structure MicroPolarity where
  invertMi : Bool
  invertS  : Bool
  invertZ  : Bool
  deriving DecidableEq, Repr

/-- What a shift does whose count is outside the legal range: R301 gives it no defined result, and U12 has a model refuse
it (log entry 16). -/
inductive ShiftCount where
  /-- the model refuses the instruction -/
  | refuse
  /-- the instruction runs, and its result, C and V are free values -/
  | run
  deriving DecidableEq, Repr

/-- What is fixed for one machine: the open parameters of R9 and of spec/92_eei_decisions.md that a program can
see. No step changes it. -/
structure Platform where
  variant     : Variant
  memoryMap   : MemoryMap
  oddWord     : OddWord
  /-- `EnableDelay` = 1 of D14: an enable written by an instruction is in force one instruction later. -/
  enableDelay : Bool
  /-- Ranges (first cell, number of cells) of storage that no memory answers (D17). -/
  absent      : List (Nat × Nat)
  micro       : MicroPolarity
  shiftCount  : ShiftCount
  /-- Parameter `Mmu` (R9, R87); none on a platform without a memory management unit. -/
  mmu         : List MmuRule
  /-- Parameter `Epu` (R9, R440); none on a platform without Extended Processing Units. -/
  epu         : List EpuRow
  deriving DecidableEq, Repr

/-- The places where the spec leaves a value open and the machine goes on; each names one free value of a step. -/
inductive Draw where
  /-- FCW bits written 1 that are reserved (U1) -/
  | fcwReserved
  /-- bits 15 and 7:0 of the segment word written by LDA and LDAR (U8) -/
  | ldaSegment
  /-- bits 15 and 7:0 of the segment word pushed by CALL and CALR (R250 states bits 14:8 only) -/
  | callSegment
  /-- bits 15 and 7:0 of the segment word pushed by an entry (R471) -/
  | entrySegment
  /-- the low byte of a segment trap's identifier (U16) -/
  | segtLowByte
  /-- the destination of DIV and DIVL on overflow or division by zero (U10) -/
  | divDestination
  /-- S after DIV and DIVL on overflow or division by zero (U10) -/
  | divS
  /-- P/V after DAB (U9) -/
  | dabV
  /-- S after RLDB and RRDB (R304) -/
  | digitS
  /-- the result of a shift whose count is out of range (U12) -/
  | shiftResult
  /-- C after a shift whose count is out of range (U12) -/
  | shiftC
  /-- P/V after a logical shift (R311, R313), and after an arithmetic shift out of range (U12) -/
  | shiftV
  /-- the datum that PUSH or POP moves when its operand is, or is addressed through, its stack register (U7) -/
  | stackDatum
  /-- C after a block compare (R334) -/
  | compareC
  /-- S after a block compare (R334) -/
  | compareS
  /-- RH1 after TRIB, TRIRB, TRDB, TRDRB (R349) -/
  | translateRh1
  /-- Z after TRIB, TRIRB, TRDB, TRDRB (R349) -/
  | translateZ
  /-- Z after a block I/O instruction (R383) -/
  | blockIoZ
  /-- what a device answers when the platform's input queue is empty (R382) -/
  | ioInput
  /-- the word with number `k` that an EPU supplies in a transfer when the platform has none ready (R440) -/
  | epuData (k : Nat)
  /-- the ROW field of the refresh register when it is read, or after a hold (D12, D18) -/
  | refreshRow
  /-- which of the stores that the instruction just before it made to the fetched word a fetch sees (R95) -/
  | fetchAhead
  /-- what a cell that no memory answers reads as (D17) -/
  | absent (cell : Nat)
  deriving DecidableEq, Repr

/-- The free values. It has no body: nothing can be proved about one, and a claim that holds, holds whatever it
is. The first argument is the step counter `State.tick`, so that two steps draw two values (log entry 11). -/
opaque Config.free : Nat → Draw → BitVec 64

end Sys2Proof
end

