-- ==== Sys2Proof/Machine/State.lean ====
section
/-! DEFINITION. The state of the machine, the reasons a step can stop, and the state after reset. -/

namespace Sys2Proof.Machine

/-- Memory: (cell, byte) pairs, cells strictly rising, no byte equal to what an unlisted cell reads as (`Memory.wf`).
A cell number is `Machine.cellOf` of an address (R42, R72). -/
abbrev Memory := List Host.Cell

/-- An address: a segment number and an offset (R42, R44); on a Z8002 the segment is 0 (R43). -/
structure Addr where
  seg : BitVec 7
  off : Word
  deriving DecidableEq, Repr

/-- The requests that come from outside the CPU (R450). -/
inductive Request where
  | nmi | segt | vi | nvi
  deriving DecidableEq, Repr

/-- The traps that an instruction raises (R450). -/
inductive Trap where
  | extended | privileged | systemCall
  deriving DecidableEq, Repr

/-- What takes an entry of the program status area (R476). -/
inductive Cause where
  | trap (t : Trap)
  | request (r : Request)
  deriving DecidableEq, Repr

/-- What the platform can see of a step beside memory: the I/O cycles (R82), the acknowledge cycles (R474) and the
fetches that are exercised but ignored (R96). -/
inductive Event where
  /-- a read of an I/O port; `special` is the kind of R382 -/
  | ioRead (special : Bool) (port : Word) (size : Size) (value : Word)
  /-- a write to an I/O port -/
  | ioWrite (special : Bool) (port : Word) (size : Size) (value : Word)
  /-- an acknowledge cycle and the identifier read in it -/
  | acknowledge (kind : Request) (word : Word)
  /-- a fetch from code memory whose data is discarded -/
  | ignoredFetch (cell : Nat)
  /-- the words of a transfer between the CPU or memory and an Extended Processing Unit (R440) -/
  | epu (toEpu : Bool) (words : List Word)
  deriving DecidableEq, Repr

/-- What a memory cycle is for, as the status lines tell it apart (R53). -/
inductive MemUse where
  /-- the first word of an instruction (IF1) -/
  | firstFetch
  /-- a later word of an instruction, or an operand -/
  | reference
  /-- a transfer with an Extended Processing Unit -/
  | epu
  deriving DecidableEq, Repr

/-- A machine cycle with what the CPU puts out in it (R52, R53, R80, R540); `byte` is a byte access. The address of a
memory cycle is the computed one, odd or even (R79). -/
inductive Cycle where
  | memory (use : MemUse) (space : Space) (write byte : Bool) (addr : Addr)
  | io (special write byte : Bool) (port : Word)
  | acknowledge (kind : Request)
  /-- a word between the CPU and an Extended Processing Unit -/
  | epu (write : Bool)
  | internal
  | refresh
  deriving DecidableEq, Repr

/-- A byte that a bus requester writes while it has the bus (R10, R91). -/
structure BusWrite where
  space : Space
  addr  : Addr
  value : Byte
  deriving DecidableEq, Repr

/-- What an agent of R10 other than the CPU does in a turn of its own; `low` is the level of its line, active. -/
inductive AgentAction where
  /-- an interrupt source, or for `segt` the memory management unit, drives its line and has its identifier ready -/
  | request (kind : Request) (low : Bool) (ident : Word)
  /-- the reset driver, the STOP driver and the WAIT driver -/
  | reset (low : Bool)
  | stop (low : Bool)
  | wait (low : Bool)
  /-- the bus requester drives BUSREQ and has these writes for when it has the bus -/
  | busreq (low : Bool) (writes : List BusWrite)
  /-- another CPU of the chain drives MI, now and once the delay of MREQ is over (R425) -/
  | micro (mi settled : Bool)
  /-- an I/O device has answers ready -/
  | device (words : List Word)
  /-- an Extended Processing Unit has words ready -/
  | epu (words : List Word)
  /-- the refresh logic makes a refresh cycle -/
  | refresh
  deriving DecidableEq, Repr

/-- Whose turn it is (R10). -/
inductive Turn where
  | cpu
  | agent (a : AgentAction)
  deriving DecidableEq, Repr

/-- The input pins (R560) and what the other agents of R10 have ready; `true` is Low, active. Those agents change them in
turns of their own; a step of the CPU takes from `ioInput`, `epuOutput` and `dma` only. -/
structure Pins where
  reset  : Bool
  nmi    : Bool
  vi     : Bool
  nvi    : Bool
  segt   : Bool
  stop   : Bool
  busreq : Bool
  wait   : Bool
  /-- MI as MBIT and the first test of MREQ sample it (R424, R425) -/
  mi        : Bool
  /-- MI as MREQ samples it after its settling delay (R425) -/
  miSettled : Bool
  /-- `Ack(kind)` of R457: the words the devices answer an acknowledge cycle with -/
  ackNmi  : Word
  ackSegt : Word
  ackVi   : Word
  ackNvi  : Word
  /-- what devices answer to the next I/O reads -/
  ioInput : List Word
  /-- the words that Extended Processing Units supply next (R440) -/
  epuOutput : List Word
  /-- what the bus requester writes once it has the bus (R91) -/
  dma : List BusWrite
  deriving DecidableEq, Repr

/-- The refresh control register (R38). -/
structure Refresh where
  enable : Bool
  rate   : BitVec 6
  row    : BitVec 9
  deriving DecidableEq, Repr

/-- A word that a store replaced although the CPU may already have fetched it ahead (R95). -/
structure Stale where
  addr : Addr
  word : Word
  deriving DecidableEq, Repr

/-- The whole machine. INVENTORY.md, section State, names the rule of each field. -/
structure State where
  /-- R9, spec/92_eei_decisions.md: what the platform fixes -/
  platform : Platform
  /-- R560 -/
  pins : Pins
  /-- R20: R0 to R15; 14 (Z8001) and 15 are the system-mode copies (R26) -/
  regs : Vector Word 16
  /-- R26, R28: the normal-mode copy of R14, NSPSEG (Z8001) -/
  normalR14 : Word
  /-- R26, R28: the normal-mode copy of R15, NSP or NSPOFF -/
  normalR15 : Word
  /-- R29: the segment number of the program counter (Z8001) -/
  pcSeg : BitVec 7
  /-- R29: the program counter, on a Z8001 its offset -/
  pc : Word
  /-- R33 -/
  fcw : Word
  /-- R36 (Z8001) -/
  psapSeg : Word
  /-- R36: PSAPOFF on a Z8001, PSAP on a Z8002 -/
  psapOff : Word
  /-- R38 -/
  refresh : Refresh
  /-- R45 -/
  nmiLatch : Bool
  /-- R45: the level of NMI that the edge detector saw last -/
  nmiLevel : Bool
  /-- R48 -/
  halted : Bool
  /-- R50: the MO output latch, `true` is Low, active -/
  moLow : Bool
  /-- R47 -/
  busGranted : Bool
  /-- R46 -/
  identTemp : Word
  /-- R71, R74 -/
  mem : Memory
  /-- the model's own: the reads of R521 are still to be made -/
  resetPending : Bool
  /-- the model's own: the request that the last sample accepted (R452) and that is not entered yet -/
  accepted : Option Request
  /-- the model's own: the words that may have been fetched ahead of a store, the one replaced last first (R95) -/
  stale : List Stale
  /-- the segment-trap request that the memory management unit holds, with the high byte of its identifier (R87, R458) -/
  mmuRequest : Option Byte
  /-- the machine cycles of the last step, oldest first: what the output lines have shown (R52, R89) -/
  bus : List Cycle
  /-- the model's own: whose turns come next; where none is listed it is the CPU's (R10) -/
  turns : List Turn
  /-- the model's own: the events so far, newest first -/
  events : List Event
  /-- the model's own: the step counter that free values are drawn with -/
  tick : Nat
  deriving DecidableEq, Repr

/-- Why a step stops with a fault. -/
inductive Fault where
  /-- Raised by the fetch of a step when the program counter is odd (R78, D6). Safe: the spec says no effect. -/
  | oddPc
  deriving DecidableEq, Repr

/-- Why a step is refused. -/
inductive Refusal where
  /-- Raised by an arm of `exec` whose instruction has no meaning yet. Safe. -/
  | notModelled (mnemonic : String)
  /-- Raised by the decoder: the opcode map assigns nothing to the first word (R133, U2). Safe: no effect is given. -/
  | unassignedOpcode
  /-- Raised by the decoder: a bit of a later word that must be zero is one (R126, U3). Safe. -/
  | mustBeZero
  /-- Raised by the decoder when the words end too early; a fetch of four words never does. Safe. -/
  | truncated
  /-- Raised by `step`: a register field, bit number or overlap that the spec leaves undefined (U4, U6). Safe. -/
  | registerField
  /-- Raised by word and long accesses at an odd address where the platform says refuse (R79, D5). Safe. -/
  | oddWordAddress
  /-- Raised by IRET on a Z8001 with FCW.SEG = 0 (R254, U11). Safe. -/
  | iretNonsegmented
  /-- Raised by LDCTL of PSAPSEG or NSPSEG on a Z8002 (R416, U2). Safe. -/
  | absentControlRegister
  /-- Raised by a shift with a count outside the legal range where the platform says refuse (R301, U12). Safe. -/
  | shiftCount
  /-- Raised by an extended instruction with FCW.EPA = 1 that no Extended Processing Unit of the platform takes (R440,
  U14). Safe. -/
  | noEpu
  deriving DecidableEq, Repr

/-- What a meaning answers. -/
abbrev Result := Host.Outcome State Fault Refusal

/-- No pin is active, no device, EPU or bus requester has anything ready (log entry 7). -/
def Pins.inactive : Pins :=
  { reset := false, nmi := false, vi := false, nvi := false, segt := false, stop := false, busreq := false,
    wait := false, mi := false, miSettled := false, ackNmi := 0, ackSegt := 0, ackVi := 0, ackNvi := 0,
    ioInput := [], epuOutput := [], dma := [] }

/-- The platform of the reset state (log entries 1 to 4, 26, 27, 29, 44). DESIGN CHOICE, unsafe: spec/00_scope.md R9 leaves
each parameter open; `shiftCount` is as U12 has it (log entry 16). -/
def Platform.default : Platform :=
  { variant := .z8002, memoryMap := .unified, oddWord := .clearBit0, enableDelay := false, absent := [],
    micro := { invertMi := false, invertS := false, invertZ := false }, shiftCount := .refuse, mmu := [], epu := [] }

/-- The machine right after reset (R54, R520): system mode (FCW 0x4000), the reads of R521 still to be made by the
first step, refresh disabled, MO High, not halted, bus not granted, NMI latch clear (D9). Every other value is a
DESIGN CHOICE, unsafe (log entries 1 to 8). -/
def State.reset : State :=
  { platform := Platform.default, pins := Pins.inactive,
    regs := Vector.replicate 16 0, normalR14 := 0, normalR15 := 0,
    pcSeg := 0, pc := 0, fcw := 0x4000, psapSeg := 0, psapOff := 0,
    refresh := { enable := false, rate := 0, row := 0 },
    nmiLatch := false, nmiLevel := false, halted := false, moLow := false, busGranted := false, identTemp := 0,
    mem := [], resetPending := true, accepted := none, stale := [], mmuRequest := none, bus := [], turns := [],
    events := [], tick := 0 }

end Sys2Proof.Machine
end

