-- ==== Sys2Proof/Machine/Ops.lean ====
section
/-! DEFINITION. The shared operations: memory, registers, program counter, FCW, stack, I/O cycles, taking an exception
and returning from one. -/

namespace Sys2Proof.Machine

/-! ## Memory cells -/

/-- What a cell reads as; an unlisted cell reads as 0 (DESIGN CHOICE, unsafe: log entry 3). -/
def Memory.read : Memory → Nat → Byte
  | [], _ => 0
  | c :: m, k => if c.1 = k then c.2 else Memory.read m k

/-- Lists a cell that is not listed, in its place. -/
def Memory.insert : Memory → Nat → Byte → Memory
  | [], k, v => [(k, v)]
  | c :: m, k, v => if k < c.1 then (k, v) :: c :: m else c :: Memory.insert m k v

/-- Drops a cell from the list. -/
def Memory.erase : Memory → Nat → Memory
  | [], _ => []
  | c :: m, k => if c.1 = k then Memory.erase m k else c :: Memory.erase m k

/-- Writes one cell and keeps the canonical form: a byte equal to what an unlisted cell reads as is not listed. -/
def Memory.write (m : Memory) (k : Nat) (v : Byte) : Memory :=
  if v = 0 then Memory.erase m k else Memory.insert (Memory.erase m k) k v

/-- Every cell of a list lies above `k`. -/
def Memory.above (k : Nat) : Memory → Bool
  | [] => true
  | c :: m => decide (k < c.1) && Memory.above k m

/-- The canonical form: cells strictly rising, no byte equal to what an unlisted cell reads as. -/
def Memory.wf : Memory → Bool
  | [] => true
  | c :: m => c.2 != 0 && Memory.above c.1 m && Memory.wf m

/-! ## Addresses and mode (R26, R33, R42, R123) -/

/-- `addr_add` (R123): the offset moves and wraps, the segment stays. -/
def Addr.add (a : Addr) (d : Word) : Addr := { a with off := a.off + d }

/-- The address of the word that holds the byte at `a` (R74). -/
def Addr.even (a : Addr) : Addr := { a with off := a.off &&& 0xFFFE }

def State.isZ8001 (s : State) : Bool :=
  match s.platform.variant with
  | .z8001 => true
  | .z8002 => false

/-- FCW.S_N (R33): system mode. -/
def State.system (s : State) : Bool := s.fcw.getLsbD 14

/-- Segmented mode: a Z8001 with FCW.SEG = 1 (R33, R73). -/
def State.segmented (s : State) : Bool := s.isZ8001 && s.fcw.getLsbD 15

/-- FCW.EPA, FCW.VIE, FCW.NVIE (R33). -/
def State.epa (s : State) : Bool := s.fcw.getLsbD 13

/-- The PC segment; a Z8002 has none (R29). -/
def State.codeSeg (s : State) : BitVec 7 := if s.isZ8001 then s.pcSeg else 0

/-- The address in the program counter. -/
def State.pcAddr (s : State) : Addr := ⟨s.codeSeg, s.pc⟩

/-- Loads the program counter; only a Z8001 has a segment to load (R29). -/
def State.setPc (s : State) (a : Addr) : State :=
  { s with pcSeg := if s.isZ8001 then a.seg else s.pcSeg, pc := a.off }

/-- Moves the program counter past `n` words; the offset wraps (R31). -/
def State.advance (s : State) (n : Nat) : State := { s with pc := s.pc + BitVec.ofNat 16 (2 * n) }

/-- A free value of this step (`Config.free`). -/
def State.draw (s : State) (d : Draw) (w : Nat) : BitVec w := (Config.free s.tick d).setWidth w

/-! ## Memory accesses (R71 to R79) -/

/-- A window of the memory map takes a linear address of a space (R72). -/
def inWindow (w : Window) (sp : Space) (n : Nat) : Bool :=
  w.space == sp && decide (w.first ≤ n) && decide (n < w.first + w.count)

/-- The linear address of segment and offset (R42). -/
def Addr.linear (a : Addr) : Nat := a.seg.toNat * 2 ^ 16 + a.off.toNat

/-- The cell of an address in a space (R42, R72): the first window that takes the address says it; where there is none,
it is the address in the memory (one of six) that answers the space. -/
def cellOf (map : MemoryMap) (sp : Space) (a : Addr) : Nat :=
  match map.windows.find? fun w => inWindow w sp a.linear with
  | some w => w.cell + (a.linear - w.first)
  | none => (map.bank sp).val * 2 ^ 23 + a.linear

def State.cell (s : State) (sp : Space) (a : Addr) : Nat := cellOf s.platform.memoryMap sp a

/-- No memory answers a cell (D17). -/
def State.absentCell (s : State) (k : Nat) : Bool :=
  s.platform.absent.any fun r => decide (r.1 ≤ k) && decide (k < r.1 + r.2)

/-- A byte of memory; a cell that no memory answers reads as a free value (D17). -/
def State.peekByte (s : State) (sp : Space) (a : Addr) : Byte :=
  if s.absentCell (s.cell sp a) then s.draw (.absent (s.cell sp a)) 8 else s.mem.read (s.cell sp a)

/-- A byte is written; where no memory answers, nothing happens (D17). -/
def State.pokeByte (s : State) (sp : Space) (a : Addr) (v : Byte) : State :=
  { s with mem := if s.absentCell (s.cell sp a) then s.mem else s.mem.write (s.cell sp a) v }

/-- The word that holds the byte at `a`, most significant byte first (R74, R75). -/
def State.peekWord (s : State) (sp : Space) (a : Addr) : Word :=
  s.peekByte sp a.even ++ s.peekByte sp (a.even.add 1)

def State.pokeWord (s : State) (sp : Space) (a : Addr) (v : Word) : State :=
  (s.pokeByte sp a.even (highByte v)).pokeByte sp (a.even.add 1) (lowByte v)

/-- A long word: the most significant word at the lower address (R76). -/
def State.peekLong (s : State) (sp : Space) (a : Addr) : Long :=
  s.peekWord sp a ++ s.peekWord sp (a.add 2)

def State.pokeLong (s : State) (sp : Space) (a : Addr) (v : Long) : State :=
  (s.pokeWord sp a (v.extractLsb' 16 16)).pokeWord sp (a.add 2) (v.extractLsb' 0 16)

/-- `MemRead(sp, a, W)` (R75, R76). -/
def State.peek (s : State) : (z : Size) → Space → Addr → BitVec z.bits
  | .b, sp, a => s.peekByte sp a
  | .w, sp, a => s.peekWord sp a
  | .l, sp, a => s.peekLong sp a

/-- `MemWrite(sp, a, W, v)` (R75, R76). -/
def State.poke (s : State) : (z : Size) → Space → Addr → BitVec z.bits → State
  | .b, sp, a, v => s.pokeByte sp a v
  | .w, sp, a, v => s.pokeWord sp a v
  | .l, sp, a, v => s.pokeLong sp a v

/-- The platform takes an access of this size at this address: a byte anywhere, a word or long word at an even
address, at an odd one only where memory ignores A0 (R79, D5). -/
def State.accessOk (s : State) (z : Size) (a : Addr) : Bool :=
  match z, s.platform.oddWord with
  | .b, _ => true
  | .w, .clearBit0 => true
  | .l, .clearBit0 => true
  | .w, .refuse => !a.off.getLsbD 0
  | .l, .refuse => !a.off.getLsbD 0

/-- A meaning whose word accesses the platform takes answers its next state; otherwise it is refused (R79, D5). -/
def whenAligned (ok : Bool) (t : State) : Result := if ok then .next t else .refused .oddWordAddress

/-- A space of the current mode (R73). -/
def State.space (s : State) (c : AccessClass) : Space := ⟨s.system, c⟩

/-! ## Registers (R20 to R26) -/

/-- Register number `r` names the normal-mode copy of R15 (R26). -/
def State.namesNormal15 (s : State) (r : Reg) : Bool := r == 15 && !s.system

/-- Register number `r` names the normal-mode copy of R14, which a Z8001 has (R26). -/
def State.namesNormal14 (s : State) (r : Reg) : Bool := r == 14 && !s.system && s.isZ8001

/-- A word register; 15, and on a Z8001 14, name the copy of the mode (R26). -/
def State.reg (s : State) (r : Reg) : Word :=
  if s.namesNormal15 r then s.normalR15
  else if s.namesNormal14 r then s.normalR14
  else s.regs[r.toNat]'(r.isLt)

def State.setReg (s : State) (r : Reg) (v : Word) : State :=
  { s with
    normalR15 := if s.namesNormal15 r then v else s.normalR15
    normalR14 := if s.namesNormal14 r then v else s.normalR14
    regs := if s.namesNormal15 r || s.namesNormal14 r then s.regs else s.regs.set r.toNat v r.isLt }

/-- A byte register: RHk for k below 8, RL(k-8) above (R22). -/
def State.regByte (s : State) (k : Reg) : Byte :=
  if k.getLsbD 3 then lowByte (s.reg (k &&& 7)) else highByte (s.reg (k &&& 7))

/-- Writing a byte register keeps the other byte (R22). -/
def State.setRegByte (s : State) (k : Reg) (v : Byte) : State :=
  s.setReg (k &&& 7)
    (if k.getLsbD 3 then highByte (s.reg (k &&& 7)) ++ v else v ++ lowByte (s.reg (k &&& 7)))

/-- A register pair, most significant word in the lower number (R23). -/
def State.regLong (s : State) (r : Reg) : Long := s.reg r ++ s.reg (r + 1)

def State.setRegLong (s : State) (r : Reg) (v : Long) : State :=
  (s.setReg r (v.extractLsb' 16 16)).setReg (r + 1) (v.extractLsb' 0 16)

/-- A register quadruple (R23). -/
def State.regQuad (s : State) (r : Reg) : Quad := s.regLong r ++ s.regLong (r + 2)

def State.setRegQuad (s : State) (r : Reg) (v : Quad) : State :=
  (s.setRegLong r (v.extractLsb' 32 32)).setRegLong (r + 2) (v.extractLsb' 0 32)

/-- `Reg_W[n]` (R150). -/
def State.regOf (s : State) : (z : Size) → Reg → BitVec z.bits
  | .b, r => s.regByte r
  | .w, r => s.reg r
  | .l, r => s.regLong r

def State.setRegOf (s : State) : (z : Size) → Reg → BitVec z.bits → State
  | .b, r, v => s.setRegByte r v
  | .w, r, v => s.setReg r v
  | .l, r, v => s.setRegLong r v

/-! ## Address registers and the stack (R26, R27, R44, R116) -/

/-- The address in an address register: a word register, or a pair in segmented mode (R44, R73, R116). -/
def State.addrReg (s : State) (r : Reg) : Addr :=
  if s.segmented then ⟨(s.reg r).extractLsb' 8 7, s.reg (r + 1)⟩ else ⟨s.codeSeg, s.reg r⟩

/-- The word register that holds the offset of an address register (R123). -/
def State.offReg (s : State) (r : Reg) : Reg := if s.segmented then r + 1 else r

/-- Moves an address register by `d`: only the offset register is written (R123). -/
def State.bump (s : State) (r : Reg) (d : Word) : State := s.setReg (s.offReg r) (s.reg (s.offReg r) + d)

/-- The implied stack pointer: R15, or RR14 in segmented mode (R26). -/
def State.spReg (s : State) : Reg := if s.segmented then 14 else 15

/-- The class of an access through an address register (R73). -/
def State.regClass (s : State) (r : Reg) : AccessClass := if r = s.spReg then .stack else .data

/-- The space of an access through an address register. -/
def State.regSpace (s : State) (r : Reg) : Space := s.space (s.regClass r)

/-- `push` on the stack of an address register: the pointer moves first (R27, R160). -/
def State.push (s : State) (z : Size) (r : Reg) (v : BitVec z.bits) : State :=
  (s.bump r (-BitVec.ofNat 16 z.bytes)).poke z (s.regSpace r) ((s.addrReg r).add (-BitVec.ofNat 16 z.bytes)) v

/-- What `pop` reads (R27). -/
def State.top (s : State) (z : Size) (r : Reg) : BitVec z.bits := s.peek z (s.regSpace r) (s.addrReg r)

/-- The pointer after a `pop` (R27). -/
def State.drop (s : State) (z : Size) (r : Reg) : State := s.bump r (BitVec.ofNat 16 z.bytes)

/-! ## Transfers of several words (R157, R440) -/

/-- `n` word registers from `r` on, numbers wrapping, get the values `f`. -/
def State.setRegs (s : State) (r : Reg) (n : Nat) (f : Nat → Word) : State :=
  (List.range n).foldl (fun t i => t.setReg (r + BitVec.ofNat 4 i) (f i)) s

/-- `n` words of memory from address `a` on get the values `f`. -/
def State.pokeWords (s : State) (sp : Space) (a : Addr) (n : Nat) (f : Nat → Word) : State :=
  (List.range n).foldl (fun t i => t.pokeWord sp (a.add (BitVec.ofNat 16 (2 * i))) (f i)) s

/-! ## The flag and control word (R33) -/

/-- The value `v` written over reserved bits: a reserved bit written 1 takes a free value (U1). -/
def State.reserved (s : State) (mask v : Word) : Word :=
  if v &&& mask = 0 then v else (v &&& ~~~mask) ||| (s.draw .fcwReserved 16 &&& (v &&& mask))

/-- The bits of the FCW a Z8002 holds: bit 15 reads 0 (R33). -/
def State.fcwBits (s : State) (v : Word) : Word := if s.isZ8001 then v else v &&& 0x7FFF

/-- The whole FCW is loaded (R33, R416, U1). -/
def State.writeFcw (s : State) (v : Word) : State :=
  { s with fcw := s.fcwBits (s.reserved 0x0703 v) }

/-- The FCW as an instruction or an entry reads it. -/
def State.readFcw (s : State) : Word := s.fcwBits s.fcw

/-- A segment word: the segment in bits 14:8, every other bit a free value (R44, U8, R471). -/
def State.segWord (s : State) (d : Draw) (seg : BitVec 7) : Word :=
  (s.draw d 16).extractLsb' 15 1 ++ seg ++ (s.draw d 16).extractLsb' 0 8

/-- The segment number in a segment word (R44). -/
def segOf (w : Word) : BitVec 7 := w.extractLsb' 8 7

/-! ## I/O cycles (R82, R382, D3) -/

/-- What a device answers: the next word the platform has ready, else a free value (log entry 31). -/
def State.ioValue (s : State) (z : Size) : BitVec z.bits :=
  match s.pins.ioInput with
  | [] => s.draw .ioInput z.bits
  | v :: _ => v.setWidth z.bits

/-- The cycle `IoRead(kind, port, W)` has been made. -/
def State.ioRead (s : State) (special : Bool) (port : Word) (z : Size) : State :=
  { s with
    pins := { s.pins with ioInput := s.pins.ioInput.tail }
    events := .ioRead special port z ((s.ioValue z).setWidth 16) :: s.events }

/-- `IoWrite(kind, port, W, v)`. -/
def State.ioWrite (s : State) (special : Bool) (port : Word) (z : Size) (v : BitVec z.bits) : State :=
  { s with events := .ioWrite special port z (v.setWidth 16) :: s.events }

/-! ## Transfers with an Extended Processing Unit (R440) -/

/-- Word `k` of what the EPU supplies: the platform's where it has one ready, else a free value (log entry 26). -/
def State.epuWord (s : State) (k : Nat) : Word :=
  match s.pins.epuOutput[k]? with
  | some v => v
  | none => s.draw (.epuData k) 16

/-- The EPU has supplied `n` words. -/
def State.epuGive (s : State) (n : Nat) : State :=
  { s with
    pins := { s.pins with epuOutput := s.pins.epuOutput.drop n }
    events := .epu false ((List.range n).map s.epuWord) :: s.events }

/-- The EPU has taken the words `ws`. -/
def State.epuTake (s : State) (ws : List Word) : State := { s with events := .epu true ws :: s.events }

/-! ## Taking an exception (R450, R470 to R478) -/

/-- The number of an entry of the program status area (R476). -/
def Cause.entry : Cause → Nat
  | .trap .extended => 1
  | .trap .privileged => 2
  | .trap .systemCall => 3
  | .request .segt => 4
  | .request .nmi => 5
  | .request .nvi => 6
  | .request .vi => 7

/-- How far the vector moves the new PC in the vectored interrupt's entry (R478). -/
def Cause.vectorShift (c : Cause) (ident : Word) : Word :=
  match c with
  | .request .vi => 2 * (lowByte ident).setWidth 16
  | .request .nmi => 0
  | .request .segt => 0
  | .request .nvi => 0
  | .trap _ => 0

/-- The base of the program status area; the low byte of PSAP is ignored (R36, R416, R476). -/
def State.psaBase (s : State) : Addr :=
  ⟨if s.isZ8001 then segOf s.psapSeg else 0, s.psapOff &&& 0xFF00⟩

/-- A word of the program status area: system program space (R73, R476). -/
def State.psaWord (s : State) (off : Word) : Word := s.peekWord ⟨true, .code⟩ (s.psaBase.add off)

/-- Where the new FCW of an entry stands in the program status area; a Z8001's entry begins with a reserved word
(R476). -/
def Cause.fcwOffset (c : Cause) (z8001 : Bool) : Word :=
  if z8001 then BitVec.ofNat 16 (8 * c.entry + 2) else BitVec.ofNat 16 (4 * c.entry)

/-- Where the new PC of an entry stands, on a Z8001 its segment word (R476, R478). -/
def Cause.pcOffset (c : Cause) (z8001 : Bool) (ident : Word) : Word :=
  (if z8001 then BitVec.ofNat 16 (8 * c.entry + 4) else BitVec.ofNat 16 (4 * c.entry + 2)) + c.vectorShift ident

/-- The new FCW of an entry (R476). -/
def State.psaFcw (s : State) (c : Cause) : Word := s.psaWord (c.fcwOffset s.isZ8001)

/-- The new PC of an entry (R476, R478). -/
def State.psaPc (s : State) (c : Cause) (ident : Word) : Addr :=
  if s.isZ8001 then ⟨segOf (s.psaWord (c.pcOffset true ident)), s.psaWord (c.pcOffset true ident + 2)⟩
  else ⟨0, s.psaWord (c.pcOffset false ident)⟩

/-- The system stack pointer in the form that status saving uses: RR14 on a Z8001, R15 on a Z8002, the system copies
(R471). -/
def State.systemSp (s : State) : Addr :=
  ⟨if s.isZ8001 then segOf s.regs[14] else 0, s.regs[15]⟩

/-- The address `k` words below the system stack pointer (R471). -/
def State.belowSystemSp (s : State) (k : Nat) : Addr := s.systemSp.add (-BitVec.ofNat 16 (2 * k))

/-- One word is pushed on the system stack (R27, R470). -/
def State.pushSystem (s : State) (v : Word) : State :=
  State.pokeWord { s with regs := s.regs.set 15 (s.systemSp.add (-2)).off } ⟨true, .stack⟩ (s.systemSp.add (-2)) v

/-- The words that status saving pushes, the first pushed first (R470, R471). -/
def State.frame (s : State) (saved : Addr) (ident : Word) : List Word :=
  if s.isZ8001 then [saved.off, s.segWord .entrySegment saved.seg, s.readFcw, ident]
  else [saved.off, s.readFcw, ident]

/-- Steps 3 and 4 of R470: system mode, the frame on the system stack. -/
def State.saveStatus (s : State) (saved : Addr) (ident : Word) : State :=
  (s.frame saved ident).foldl State.pushSystem { s with fcw := s.fcw ||| 0x4000 }

/-- Step 5 of R470: the new program status. -/
def State.loadStatus (s : State) (c : Cause) (ident : Word) : State :=
  (s.setPc (s.psaPc c ident)).writeFcw (s.psaFcw c)

/-- Steps 3 to 6 of R470: the entry that traps and accepted requests share. `saved` is the PC saved, `ident` the
identifier. -/
def State.enter (s : State) (c : Cause) (ident : Word) (saved : Addr) : Result :=
  whenAligned (s.accessOk .w s.systemSp) ((s.saveStatus saved ident).loadStatus c ident)

/-- Return from an exception (R254, R482): identifier, FCW and PC are popped from the system stack; the new FCW holds
from the next instruction on. A Z8001 runs it in segmented mode only (U11). -/
def State.returnStatus (s : State) : Result :=
  let a := s.systemSp
  let w := fun (d : Word) => s.peekWord ⟨true, .stack⟩ (a.add d)
  if s.isZ8001 then
    if s.segmented then
      whenAligned (s.accessOk .w a)
        ((State.setPc { s with regs := s.regs.set 15 (a.add 8).off } ⟨segOf (w 4), w 6⟩).writeFcw (w 2))
    else .refused .iretNonsegmented
  else
    whenAligned (s.accessOk .w a)
      ((State.setPc { s with regs := s.regs.set 15 (a.add 6).off } ⟨0, w 4⟩).writeFcw (w 2))

/-- A privileged instruction: in normal mode it raises the privileged-instruction trap and does nothing else; the PC
saved is the instruction's address plus 2 (R135, R410, R462). -/
def State.privileged (s : State) (i : Instr) (effect : Result) : Result :=
  if s.system then effect else s.enter (.trap .privileged) i.identifier (s.pcAddr.add 2)

end Sys2Proof.Machine
end

