-- ==== Sys2Proof/Machine/Flags.lean ====
section
/-! DEFINITION. The flags and how results set them: condition codes, addition and subtraction, logical results, shifts
and rotates, multiplication and division, decimal adjust. -/

namespace Sys2Proof.Machine

/-- The six flags of FCW[7:2] (R33); `v` is P/V. -/
structure Flags where
  c : Bool
  z : Bool
  s : Bool
  v : Bool
  d : Bool
  h : Bool
  deriving DecidableEq, Repr

/-- The flags in an FCW (R33). -/
def flagsOf (w : Word) : Flags :=
  ⟨w.getLsbD 7, w.getLsbD 6, w.getLsbD 5, w.getLsbD 4, w.getLsbD 3, w.getLsbD 2⟩

/-- An FCW with other flags; every other bit stays (R33). -/
def withFlags (w : Word) (f : Flags) : Word :=
  w.extractLsb' 8 8 ++ BitVec.ofBool f.c ++ BitVec.ofBool f.z ++ BitVec.ofBool f.s ++ BitVec.ofBool f.v
    ++ BitVec.ofBool f.d ++ BitVec.ofBool f.h ++ w.extractLsb' 0 2

def State.flags (s : State) : Flags := flagsOf s.fcw

def State.setFlags (s : State) (f : Flags) : State := { s with fcw := withFlags s.fcw f }

/-- `cc_true` (R130). -/
def Flags.holds (f : Flags) : Cond → Bool
  | .f => false
  | .lt => f.s ^^ f.v
  | .le => f.z || (f.s ^^ f.v)
  | .ule => f.c || f.z
  | .ov => f.v
  | .mi => f.s
  | .eq => f.z
  | .ult => f.c
  | .t => true
  | .ge => !(f.s ^^ f.v)
  | .gt => !(f.z || (f.s ^^ f.v))
  | .ugt => !f.c && !f.z
  | .nov => !f.v
  | .pl => !f.s
  | .ne => !f.z
  | .uge => !f.c

/-- P/V as parity: an even number of 1 bits (R35, R230). -/
def evenParity (v : Byte) : Bool :=
  !(v.getLsbD 0 ^^ v.getLsbD 1 ^^ v.getLsbD 2 ^^ v.getLsbD 3 ^^ v.getLsbD 4 ^^ v.getLsbD 5 ^^ v.getLsbD 6
    ^^ v.getLsbD 7)

/-! ## Addition and subtraction (R190) -/

/-- The result of `add_N`. -/
def addResult {n : Nat} (a b : BitVec n) (cin : Bool) : BitVec n := a + b + BitVec.ofNat n cin.toNat

/-- The flags of `add_N` over the flags `f`: C, Z, S, V; DA and H stay. -/
def addFlags {n : Nat} (a b : BitVec n) (cin : Bool) (f : Flags) : Flags :=
  { f with
    c := decide (2 ^ n ≤ a.toNat + b.toNat + cin.toNat)
    z := addResult a b cin == 0
    s := (addResult a b cin).msb
    v := (a.msb == b.msb) && ((addResult a b cin).msb != a.msb) }

/-- The result of `sub_N`. -/
def subResult {n : Nat} (a b : BitVec n) (bin : Bool) : BitVec n := a - b - BitVec.ofNat n bin.toNat

/-- The flags of `sub_N` over the flags `f`: C (borrow), Z, S, V; DA and H stay. -/
def subFlags {n : Nat} (a b : BitVec n) (bin : Bool) (f : Flags) : Flags :=
  { f with
    c := decide (a.toNat < b.toNat + bin.toNat)
    z := subResult a b bin == 0
    s := (subResult a b bin).msb
    v := (a.msb != b.msb) && ((subResult a b bin).msb != a.msb) }

/-- DA and H after a byte addition (R190, R191, R192). -/
def byteAddFlags (a b : Byte) (cin : Bool) (f : Flags) : Flags :=
  { addFlags a b cin f with d := false, h := decide (15 < a.toNat % 16 + b.toNat % 16 + cin.toNat) }

/-- DA and H after a byte subtraction (R190, R201, R202). -/
def byteSubFlags (a b : Byte) (bin : Bool) (f : Flags) : Flags :=
  { subFlags a b bin f with d := true, h := decide (a.toNat % 16 < b.toNat % 16 + bin.toNat) }

/-- INC and DEC leave C as it was (R195, R198); DA and H are unchanged too (U9, log entry 14). -/
def keepCarry (f r : Flags) : Flags := { r with c := f.c }

/-! ## Logical results (R230) -/

/-- Word and long results: Z and S. -/
def logicFlags {n : Nat} (r : BitVec n) (f : Flags) : Flags := { f with z := r == 0, s := r.msb }

/-- Byte results: Z, S and P/V as parity. -/
def byteLogicFlags (r : Byte) (f : Flags) : Flags := { logicFlags r f with v := evenParity r }

/-! ## Rotates (R302 to R306) -/

/-- One position left: the top bit goes to bit 0 and to C. -/
def rotateLeft1 {n : Nat} (x : BitVec n) (_ : Bool) : BitVec n × Bool :=
  ((x <<< 1) ||| (BitVec.ofBool x.msb).setWidth n, x.msb)

/-- One position left through C (an N+1 bit rotation). -/
def rotateLeftCarry1 {n : Nat} (x : BitVec n) (c : Bool) : BitVec n × Bool :=
  ((x <<< 1) ||| (BitVec.ofBool c).setWidth n, x.msb)

/-- One position right: bit 0 goes to the top and to C. -/
def rotateRight1 {n : Nat} (x : BitVec n) (_ : Bool) : BitVec n × Bool :=
  ((x >>> 1) ||| ((BitVec.ofBool (x.getLsbD 0)).setWidth n <<< (n - 1)), x.getLsbD 0)

/-- One position right through C. -/
def rotateRightCarry1 {n : Nat} (x : BitVec n) (c : Bool) : BitVec n × Bool :=
  ((x >>> 1) ||| ((BitVec.ofBool c).setWidth n <<< (n - 1)), x.getLsbD 0)

/-- A rotation by one or two positions: the result and C. -/
def rotate {n : Nat} (one : BitVec n → Bool → BitVec n × Bool) (two : Bool) (x : BitVec n) (c : Bool) :
    BitVec n × Bool :=
  if two then one (one x c).1 (one x c).2 else one x c

/-- The flags of a rotation: V says that the sign changed, final against original (R302, log entry 17). -/
def rotateFlags {n : Nat} (x : BitVec n) (r : BitVec n × Bool) (f : Flags) : Flags :=
  { f with c := r.2, z := r.1 == 0, s := r.1.msb, v := r.1.msb != x.msb }

/-! ## Shifts (R301, R308 to R313) -/

/-- The shifts by `k` positions, left for `k ≥ 0`, right for `k < 0`. -/
def shiftResult {n : Nat} (arith : Bool) (x : BitVec n) (k : Int) : BitVec n :=
  if 0 ≤ k then x <<< k.toNat else if arith then x.sshiftRight (-k).toNat else x >>> (-k).toNat

/-- The last bit shifted out; a count of 0 leaves C as it was (R301). -/
def shiftCarry {n : Nat} (x : BitVec n) (k : Int) (c : Bool) : Bool :=
  if 0 < k then x.getLsbD (n - k.toNat) else if k < 0 then x.getLsbD ((-k).toNat - 1) else c

/-- V of a left arithmetic shift by `k`: bits N-1 down to N-1-k, positions below bit 0 counted as 0, are not all equal
(R310). -/
def leftOverflow {n : Nat} (x : BitVec n) (k : Nat) : Bool :=
  (List.range (k + 1)).any fun i => x.getMsbD i != x.msb

/-- The count is legal for width `n`: -N to +N (R301). -/
def legalCount (n : Nat) (k : Int) : Bool := decide (-(n : Int) ≤ k) && decide (k ≤ n)

/-! ## Multiplication and division (R196, R199) -/

/-- The flags of a signed product `p` whose multiplicand has `n` bits. -/
def multFlags (n : Nat) (p : Int) (f : Flags) : Flags :=
  { f with c := decide (p < -2 ^ (n - 1) ∨ 2 ^ (n - 1) ≤ p), z := decide (p = 0), s := decide (p < 0), v := false }

/-- How a signed division ends (R196): `n` is the width of the divisor and of the quotient. -/
inductive Division where
  /-- division by zero -/
  | byZero
  /-- case 1: the quotient fits -/
  | fits (q m : Int)
  /-- case 2: overflow by one bit -/
  | oneBit
  /-- case 3: gross overflow -/
  | gross
  deriving DecidableEq, Repr

/-- The case of a signed division, truncated toward zero (R196). -/
def divide (n : Nat) (a b : Int) : Division :=
  if b = 0 then .byZero
  else if -2 ^ (n - 1) ≤ a.tdiv b ∧ a.tdiv b < 2 ^ (n - 1) then .fits (a.tdiv b) (a.tmod b)
  else if -2 ^ n ≤ a.tdiv b ∧ a.tdiv b < 2 ^ n then .oneBit
  else .gross

/-- The flags of a division (R196); `free` is S where the spec leaves it open (U10). -/
def divFlags (free : Bool) (f : Flags) : Division → Flags
  | .byZero => { f with v := true, z := true, c := false, s := free }
  | .fits q _ => { f with v := false, c := false, z := decide (q = 0), s := decide (q < 0) }
  | .oneBit => { f with v := true, c := true, z := false, s := free }
  | .gross => { f with v := true, c := false, z := false, s := free }

/-! ## Decimal adjust (R194) -/

/-- The correction byte of DAB. -/
def dabAdjust (a : Byte) (f : Flags) : Byte :=
  if f.d then (if f.h then 0x06 else 0) + (if f.c then 0x60 else 0)
  else (if f.h ∨ 9 < a.toNat % 16 then 0x06 else 0) + (if f.c ∨ 0x99 < a.toNat then 0x60 else 0)

def dabResult (a : Byte) (f : Flags) : Byte :=
  if f.d then a - dabAdjust a f else a + dabAdjust a f

/-- C, Z, S of DAB; `free` is P/V, which the spec leaves open (U9). -/
def dabFlags (a : Byte) (free : Bool) (f : Flags) : Flags :=
  { f with
    c := f.c || (!f.d && decide (0x99 < a.toNat))
    z := dabResult a f == 0
    s := (dabResult a f).msb
    v := free }

end Sys2Proof.Machine
end

