-- ==== Sys2Proof/Machine/Operands.lean ====
section
/-! DEFINITION. The operand forms: where an operand is, what it holds, whether the platform takes the access, and how it
is written (R114 to R123, R150). -/

namespace Sys2Proof.Machine

/-! ## Addresses -/

/-- A direct address (R122); one word means the PC segment (R73). -/
def State.absAddr (s : State) : AbsAddr → Addr
  | .near off => ⟨s.codeSeg, off⟩
  | .short seg off => ⟨seg, off.setWidth 16⟩
  | .long seg off => ⟨seg, off⟩

/-- `ea` of IR, DA, X (R116 to R118). -/
def State.memAddr (s : State) : Mem → Addr
  | .ir r => s.addrReg r
  | .da a => s.absAddr a
  | .x a r => (s.absAddr a).add (s.reg r)

/-- The space of an operand in IR, DA, X: stack where the address register is the implied stack pointer, else data
(R73). -/
def State.memSpace (s : State) : Mem → Space
  | .ir r => s.regSpace r
  | .da _ => s.space .data
  | .x _ _ => s.space .data

/-- `ea` of the modes of LD and LDA (R116 to R121). -/
def State.xmemAddr (s : State) : XMem → Addr
  | .mem m => s.memAddr m
  | .ba r disp => (s.addrReg r).add disp
  | .bx r x => (s.addrReg r).add (s.reg x)

def State.xmemSpace (s : State) : XMem → Space
  | .mem m => s.memSpace m
  | .ba r _ => s.regSpace r
  | .bx r _ => s.regSpace r

/-- How many words an operand of LD or LDA has after the first word: BA a displacement, BX a second word. -/
def xmemWords : XMem → Nat
  | .mem m => m.words.length
  | .ba _ _ => 1
  | .bx _ _ => 1

/-- A PC-relative address: from the address of the next instruction, the program counter of `s` (R119, R158). -/
def State.relAddr (s : State) (disp : Word) : Addr := s.pcAddr.add disp

/-! ## Sources -/

/-- What a source holds. -/
def State.src (s : State) {z : Size} : Src z → BitVec z.bits
  | .reg r => s.regOf z r
  | .imm v => v
  | .mem m => s.peek z (s.memSpace m) (s.memAddr m)

/-- The platform takes the read of a source. -/
def State.srcOk (s : State) {z : Size} : Src z → Bool
  | .reg _ => true
  | .imm _ => true
  | .mem m => s.accessOk z (s.memAddr m)

/-! ## Destinations -/

/-- What a destination holds. -/
def State.dst (s : State) (z : Size) : Dst → BitVec z.bits
  | .reg r => s.regOf z r
  | .mem m => s.peek z (s.memSpace m) (s.memAddr m)

/-- The platform takes an access to a destination. -/
def State.dstOk (s : State) (z : Size) : Dst → Bool
  | .reg _ => true
  | .mem m => s.accessOk z (s.memAddr m)

/-- A destination is written. -/
def State.setDst (s : State) (z : Size) (d : Dst) (v : BitVec z.bits) : State :=
  match d with
  | .reg r => s.setRegOf z r v
  | .mem m => s.poke z (s.memSpace m) (s.memAddr m) v

/-! ## Stack instructions (U7) -/

/-- The word registers a data register of the given size lies in (R22, R23). -/
def wordRegs : Size → Reg → List Reg
  | .b, r => [r &&& 7]
  | .w, r => [r]
  | .l, r => [r, r + 1]

/-- A memory operand is addressed through one of the registers. -/
def memThrough (seg : Bool) (rs : List Reg) : Mem → Bool
  | .ir r => (ptrRegs seg r).any rs.contains
  | .da _ => false
  | .x _ r => rs.contains r

/-- The operand of PUSH or POP is, or is addressed through, its stack register (U7). DESIGN CHOICE, safe: any word register
that the two have in common counts, so also one half of a pair (log entry 18). -/
def State.ownStack (s : State) (z : Size) (sp : Reg) : Dst → Bool
  | .reg r => (wordRegs z r).any (ptrRegs s.segmented sp).contains
  | .mem m => memThrough s.segmented (ptrRegs s.segmented sp) m

/-- The datum PUSH or POP moves: `v`, but a free value where the operand is, or is addressed through, the stack
register (U7). -/
def State.stackDatum (s : State) (z : Size) (sp : Reg) (d : Dst) (v : BitVec z.bits) : BitVec z.bits :=
  if s.ownStack z sp d then s.draw .stackDatum z.bits else v

/-! ## The shapes that many instructions share -/

/-- `OP Rd,src` with result `r` in the destination register and flags `f`. -/
def State.regFrom (s : State) {z z' : Size} (d : Reg) (src : Src z) (r : BitVec z'.bits) (f : Flags) : Result :=
  whenAligned (s.srcOk src) (((s.setRegOf z' d r).setFlags f).advance (1 + src.words.length))

/-- An instruction that reads a source and writes flags only. -/
def State.flagsFrom (s : State) {z : Size} (src : Src z) (f : Flags) : Result :=
  whenAligned (s.srcOk src) ((s.setFlags f).advance (1 + src.words.length))

/-- An instruction that writes one destination and the flags. -/
def State.modify (s : State) (z : Size) (d : Dst) (v : BitVec z.bits) (f : Flags) : Result :=
  whenAligned (s.dstOk z d) (((s.setDst z d v).setFlags f).advance (1 + d.words.length))

/-- A free bit of this step. -/
def State.drawBit (s : State) (d : Draw) : Bool := (s.draw d 1).getLsbD 0

end Sys2Proof.Machine
end

