-- ==== Sys2Proof/Machine/BitManipulation.lean ====
section
/-! DEFINITION. Bit manipulation instructions (spec/44_bit.md). -/

namespace Sys2Proof.Machine

/-- The operand of BIT, SET, RES (R280). -/
def bitDst : BitArgs → Dst
  | .static d _ => d
  | .dynamic d _ => .reg d

/-- How many words follow the first (R280). -/
def bitWords : BitArgs → Nat
  | .static d _ => d.words.length
  | .dynamic _ _ => 1

/-- The bit number: of a dynamic one the low 4 bits for a word, the low 3 for a byte (R280). -/
def State.bitNumber (s : State) (z : Size) : BitArgs → Nat
  | .static _ b => b.toNat
  | .dynamic _ r => (s.reg r).toNat % z.bits

/-- The operand with only bit `n` set. -/
def bitMask (z : Size) (n : Nat) : BitVec z.bits := 1#z.bits <<< n

/-- A bit instruction that writes `v` to its operand; no flag changes. -/
def State.bitWrite (s : State) (z : Size) (a : BitArgs) (v : BitVec z.bits) : Result :=
  whenAligned (s.dstOk z (bitDst a)) ((s.setDst z (bitDst a) v).advance (1 + bitWords a))

/-- RES, RESB (R282). -/
def execResb (a : BitArgs) (s : State) : Result :=
  s.bitWrite .b a (s.dst .b (bitDst a) &&& ~~~(bitMask .b (s.bitNumber .b a)))
def execRes (a : BitArgs) (s : State) : Result :=
  s.bitWrite .w a (s.dst .w (bitDst a) &&& ~~~(bitMask .w (s.bitNumber .w a)))

/-- SET, SETB (R283). -/
def execSetb (a : BitArgs) (s : State) : Result :=
  s.bitWrite .b a (s.dst .b (bitDst a) ||| bitMask .b (s.bitNumber .b a))
def execSet (a : BitArgs) (s : State) : Result :=
  s.bitWrite .w a (s.dst .w (bitDst a) ||| bitMask .w (s.bitNumber .w a))

/-- BIT, BITB (R281): Z only. -/
def State.bitTest (s : State) (z : Size) (a : BitArgs) : Result :=
  whenAligned (s.dstOk z (bitDst a))
    ((s.setFlags { s.flags with z := !(s.dst z (bitDst a)).getLsbD (s.bitNumber z a) }).advance (1 + bitWords a))

def execBitb (a : BitArgs) (s : State) : Result := s.bitTest .b a
def execBit (a : BitArgs) (s : State) : Result := s.bitTest .w a

/-- TSET, TSETB (R284): S from the old operand, then all ones; nothing comes between (R92). -/
def execTsetb (d : Dst) (s : State) : Result := s.modify .b d 0xFF { s.flags with s := (s.dst .b d).msb }
def execTset (d : Dst) (s : State) : Result := s.modify .w d 0xFFFF { s.flags with s := (s.dst .w d).msb }

end Sys2Proof.Machine
end

