-- ==== Sys2Proof/Machine/CpuControl.lean ====
section
/-! DEFINITION. CPU control instructions and the extended instructions (spec/48_cpu_control.md). -/

namespace Sys2Proof.Machine

/-- FCW[7:4] are replaced by `f` of them (R411). -/
def State.mapFlags (s : State) (f : BitVec 4 → BitVec 4) : Result :=
  .next (State.advance
    { s with fcw := s.fcw.extractLsb' 8 8 ++ f (s.fcw.extractLsb' 4 4) ++ s.fcw.extractLsb' 0 4 } 1)

/-- SETFLG (R430), RESFLG (R429), COMFLG (R411). -/
def execSetflg (f : BitVec 4) (s : State) : Result := s.mapFlags (· ||| f)
def execResflg (f : BitVec 4) (s : State) : Result := s.mapFlags (· &&& ~~~f)
def execComflg (f : BitVec 4) (s : State) : Result := s.mapFlags (· ^^^ f)

/-- NOP (R428). -/
def execNop (s : State) : Result := .next (s.advance 1)

/-- The low byte of the FCW is loaded, its high byte stays (R417, U1). -/
def State.writeFlagsByte (s : State) (v : Byte) : State :=
  { s with fcw := s.fcw.extractLsb' 8 8 ++ lowByte (s.reserved 0x0003 (v.setWidth 16)) }

/-- LDCTLB (R417). -/
def execLdctlb (dir : CtlDir) (r : Reg) (s : State) : Result :=
  match dir with
  | .read => .next ((s.setRegByte r (lowByte s.fcw)).advance 1)
  | .write => .next ((s.writeFlagsByte (s.regByte r)).advance 1)

/-- The bits of FCW that DI and EI select: VIE where `v` is 0, NVIE where `n` is 0 (R412). -/
def enableMask (v n : Bool) : Word := (if v then 0 else 0x1000) ||| (if n then 0 else 0x0800)

/-- DI (R412). -/
def execDi (v n : Bool) (s : State) : Result :=
  s.privileged (.di v n) (.next (State.advance { s with fcw := s.fcw &&& ~~~(enableMask v n) } 1))

/-- EI (R413). -/
def execEi (v n : Bool) (s : State) : Result :=
  s.privileged (.ei v n) (.next (State.advance { s with fcw := s.fcw ||| enableMask v n } 1))

/-- HALT (R414, R48). -/
def execHalt (s : State) : Result := s.privileged .halt (.next (State.advance { s with halted := true } 1))

/-- The counter in the refresh register advances by an amount the model does not know: any even value (R37, D12). -/
def State.drawRow (s : State) : State :=
  { s with refresh := { s.refresh with row := s.draw .refreshRow 9 &&& 0x1FE } }

/-- The refresh register as LDCTL sees it (R38). -/
def Refresh.word (r : Refresh) : Word := BitVec.ofBool r.enable ++ r.rate ++ r.row

/-- The refresh register is written; bit 0 of ROW is always 0 (R38). -/
def State.writeRefresh (s : State) (w : Word) : State :=
  { s with refresh := { enable := w.msb, rate := w.extractLsb' 9 6, row := w.extractLsb' 0 9 &&& 0x1FE } }

/-- LDCTL from a control register (R416). -/
def State.readCtl (s : State) (r : Reg) : CtlReg → Result
  | .fcw => .next ((s.setReg r s.readFcw).advance 1)
  | .refresh => .next ((s.drawRow.setReg r (Refresh.word s.drawRow.refresh)).advance 1)
  | .psapSeg =>
    if s.isZ8001 then .next ((s.setReg r s.psapSeg).advance 1) else .refused .absentControlRegister
  | .psapOff => .next ((s.setReg r s.psapOff).advance 1)
  | .nspSeg =>
    if s.isZ8001 then .next ((s.setReg r s.normalR14).advance 1) else .refused .absentControlRegister
  | .nspOff => .next ((s.setReg r s.normalR15).advance 1)

/-- LDCTL to a control register (R416). -/
def State.writeCtl (s : State) (r : Reg) : CtlReg → Result
  | .fcw => .next ((s.writeFcw (s.reg r)).advance 1)
  | .refresh => .next ((s.writeRefresh (s.reg r)).advance 1)
  | .psapSeg =>
    if s.isZ8001 then .next (State.advance { s with psapSeg := s.reg r } 1) else .refused .absentControlRegister
  | .psapOff => .next (State.advance { s with psapOff := s.reg r } 1)
  | .nspSeg =>
    if s.isZ8001 then .next (State.advance { s with normalR14 := s.reg r } 1) else .refused .absentControlRegister
  | .nspOff => .next (State.advance { s with normalR15 := s.reg r } 1)

/-- LDCTL (R416). -/
def execLdctl (dir : CtlDir) (r : Reg) (c : CtlReg) (s : State) : Result :=
  s.privileged (.ldctl dir r c) (match dir with | .read => s.readCtl r c | .write => s.writeCtl r c)

/-- LDPS (R418): the block is read from data space. -/
def execLdps (m : Mem) (s : State) : Result :=
  s.privileged (.ldps m)
    (let a := s.memAddr m
    let w := fun (d : Word) => s.peekWord (s.space .data) (a.add d)
    whenAligned (s.accessOk .w a)
      (if s.segmented then (s.setPc ⟨segOf (w 4), w 6⟩).writeFcw (w 2)
      else (s.setPc ⟨s.codeSeg, w 2⟩).writeFcw (w 0)))

/-- MBIT (R424); the platform says whether the test of MI has the opposite polarity (U13). -/
def execMbit (s : State) : Result :=
  s.privileged .mbit
    (.next ((s.setFlags { s.flags with s := s.pins.mi ^^ s.platform.micro.invertMi }).advance 1))

/-- The flags of MREQ: Z says that a request was made, S that it was granted, each inverted where the platform says
so (R425, U13). -/
def State.mreqFlags (s : State) (made granted : Bool) : Flags :=
  { s.flags with z := made ^^ s.platform.micro.invertZ, s := granted ^^ s.platform.micro.invertS }

/-- MREQ (R425). -/
def execMreq (d : Reg) (s : State) : Result :=
  s.privileged (.mreq d)
    (if s.pins.mi ^^ s.platform.micro.invertMi then
      .next ((State.setFlags { s with moLow := false } (s.mreqFlags false false)).advance 1)
    else
      let granted := s.pins.miSettled ^^ s.platform.micro.invertMi
      .next (((State.setReg { s with moLow := granted } d 0).setFlags (s.mreqFlags true granted)).advance 1))

/-- MRES (R426), MSET (R427). -/
def execMres (s : State) : Result := s.privileged .mres (.next (State.advance { s with moLow := false } 1))
def execMset (s : State) : Result := s.privileged .mset (.next (State.advance { s with moLow := true } 1))

/-- What an Extended Processing Unit of the platform does with an extended instruction, if one takes it (R440). -/
def State.epuAction (s : State) (op : ExtOp) (e : Byte) (e1 : Word) : Option EpuAction :=
  (s.platform.epu.find? fun r => r.op == op && r.e == e && r.e1 == e1).map EpuRow.act

/-- The CPU's part in an extended instruction that an EPU takes (R134, R440): it computes the address once and moves 1 to
16 words; it passes both words of the instruction. DESIGN CHOICE, unsafe: flags come as the low byte of one word that the
EPU supplies, which R440 does not say (log entry 26). -/
def State.handOff (s : State) : EpuAction → Result
  | .internal => .next (s.advance 2)
  | .fromMemory m n =>
    whenAligned (s.accessOk .w (s.memAddr m))
      ((s.epuTake ((List.range (n.toNat + 1)).map fun i =>
        s.peekWord (s.memSpace m) ((s.memAddr m).add (BitVec.ofNat 16 (2 * i))))).advance 2)
  | .toMemory m n =>
    whenAligned (s.accessOk .w (s.memAddr m))
      (((s.epuGive (n.toNat + 1)).pokeWords (s.memSpace m) (s.memAddr m) (n.toNat + 1) s.epuWord).advance 2)
  | .fromRegs r n =>
    .next ((s.epuTake ((List.range (n.toNat + 1)).map fun i => s.reg (r + BitVec.ofNat 4 i))).advance 2)
  | .toRegs r n => .next (((s.epuGive (n.toNat + 1)).setRegs r (n.toNat + 1) s.epuWord).advance 2)
  | .toFlags => .next (((s.epuGive 1).writeFlagsByte (lowByte (s.epuWord 0))).advance 2)

/-- An extended instruction (R440, R460): with FCW.EPA = 0 the extended-instruction trap; with EPA = 1 an Extended
Processing Unit of the platform takes it, and where none does it is refused (U14). -/
def execExtended (op : ExtOp) (e : Byte) (e1 : Word) (s : State) : Result :=
  if s.epa then
    match s.epuAction op e e1 with
    | some act => s.handOff act
    | none => .refused .noEpu
  else s.enter (.trap .extended) (Instr.extended op e e1).identifier (s.pcAddr.add 2)

end Sys2Proof.Machine
end

