-- ==== Sys2Proof/Machine/BlockString.lean ====
section
/-! DEFINITION. Block move, compare, string and translate instructions (spec/46_block_string.md). One step is one
iteration; a repeating form leaves the program counter at the instruction until it ends (R331, R332, D16). -/

namespace Sys2Proof.Machine

/-- The pointer step: up by W, or down (R331). -/
def stride (z : Size) (up : Bool) : Word := if up then BitVec.ofNat 16 z.bytes else -BitVec.ofNat 16 z.bytes

/-- The count register after an iteration (R331). -/
def State.countDown (s : State) (r : Reg) : State := s.setReg r (s.reg r - 1)

/-- The end of an iteration: a single form, and a repeating form that ends, pass to the next instruction (R332). -/
def State.endBlock (s : State) (rep ended : Bool) : State :=
  { s with pc := if rep && !ended then s.pc else s.pc + 4 }

/-- The flags of a block compare (R334): `f` are the flags of the comparison, `last` says that the count became 0. -/
def State.compareFlags (s : State) (f : Flags) (c : Cond) (last : Bool) : Flags :=
  { s.flags with z := f.holds c, v := last, c := s.drawBit .compareC, s := s.drawBit .compareS }

/-- One iteration of CPI, CPIR, CPD, CPDR (R334): `p` is the pointer, `r` the count, `d` the data register. -/
def State.blockCompare (s : State) (z : Size) (up rep : Bool) (p r d : Reg) (c : Cond) : Result :=
  let f := subFlags (s.regOf z d) (s.peek z (s.regSpace p) (s.addrReg p)) false s.flags
  let last := s.reg r - 1 == 0
  whenAligned (s.accessOk z (s.addrReg p))
    ((((s.bump p (stride z up)).countDown r).setFlags (s.compareFlags f c last)).endBlock rep (f.holds c || last))

/-- One iteration of CPSI, CPSIR, CPSD, CPSDR (R339): destination element minus source element. -/
def State.blockCompareString (s : State) (z : Size) (up rep : Bool) (p r d : Reg) (c : Cond) : Result :=
  let f := subFlags (s.peek z (s.regSpace d) (s.addrReg d)) (s.peek z (s.regSpace p) (s.addrReg p)) false s.flags
  let last := s.reg r - 1 == 0
  whenAligned (s.accessOk z (s.addrReg d) && s.accessOk z (s.addrReg p))
    (((((s.bump d (stride z up)).bump p (stride z up)).countDown r).setFlags
      (s.compareFlags f c last)).endBlock rep (f.holds c || last))

/-- One iteration of LDI, LDIR, LDD, LDDR (R344): `p` points at the source, `d` at the destination. -/
def State.blockMove (s : State) (z : Size) (up rep : Bool) (p r d : Reg) : Result :=
  let last := s.reg r - 1 == 0
  whenAligned (s.accessOk z (s.addrReg p) && s.accessOk z (s.addrReg d))
    ((((((s.poke z (s.regSpace d) (s.addrReg d) (s.peek z (s.regSpace p) (s.addrReg p))).bump p
      (stride z up)).bump d (stride z up)).countDown r).setFlags { s.flags with v := last }).endBlock rep last)

/-- The byte of the table at `t` that the string byte at `p` selects (R349, R354). -/
def State.translated (s : State) (p t : Reg) : Byte :=
  s.peekByte (s.regSpace t) ((s.addrReg t).add ((s.peekByte (s.regSpace p) (s.addrReg p)).setWidth 16))

/-- One iteration of TRIB, TRIRB, TRDB, TRDRB (R349): RH1 and Z are left free. -/
def State.translate (s : State) (up rep : Bool) (d r t : Reg) : Result :=
  let last := s.reg r - 1 == 0
  .next ((((((s.pokeByte (s.regSpace d) (s.addrReg d) (s.translated d t)).setRegByte 1
    (s.draw .translateRh1 8)).bump d (stride .b up)).countDown r).setFlags
    { s.flags with v := last, z := s.drawBit .translateZ }).endBlock rep last)

/-- One iteration of TRTIB, TRTIRB, TRTDB, TRTDRB (R354): the table byte goes to RH1; a repeating form ends at the
first that is not 0. -/
def State.translateTest (s : State) (up rep : Bool) (p r t : Reg) : Result :=
  let last := s.reg r - 1 == 0
  let b := s.translated p t
  .next (((((s.setRegByte 1 b).bump p (stride .b up)).countDown r).setFlags
    { s.flags with v := last, z := b == 0 }).endBlock rep (b != 0 || last))

/-- CPI, CPIB (R337). -/
def execCpib (p r d : Reg) (c : Cond) (s : State) : Result := s.blockCompare .b true false p r d c
def execCpi (p r d : Reg) (c : Cond) (s : State) : Result := s.blockCompare .w true false p r d c

/-- CPIR, CPIRB (R338). -/
def execCpirb (p r d : Reg) (c : Cond) (s : State) : Result := s.blockCompare .b true true p r d c
def execCpir (p r d : Reg) (c : Cond) (s : State) : Result := s.blockCompare .w true true p r d c

/-- CPD, CPDB (R335). -/
def execCpdb (p r d : Reg) (c : Cond) (s : State) : Result := s.blockCompare .b false false p r d c
def execCpd (p r d : Reg) (c : Cond) (s : State) : Result := s.blockCompare .w false false p r d c

/-- CPDR, CPDRB (R336). -/
def execCpdrb (p r d : Reg) (c : Cond) (s : State) : Result := s.blockCompare .b false true p r d c
def execCpdr (p r d : Reg) (c : Cond) (s : State) : Result := s.blockCompare .w false true p r d c

/-- CPSI, CPSIB (R342). -/
def execCpsib (p r d : Reg) (c : Cond) (s : State) : Result := s.blockCompareString .b true false p r d c
def execCpsi (p r d : Reg) (c : Cond) (s : State) : Result := s.blockCompareString .w true false p r d c

/-- CPSIR, CPSIRB (R343). -/
def execCpsirb (p r d : Reg) (c : Cond) (s : State) : Result := s.blockCompareString .b true true p r d c
def execCpsir (p r d : Reg) (c : Cond) (s : State) : Result := s.blockCompareString .w true true p r d c

/-- CPSD, CPSDB (R340). -/
def execCpsdb (p r d : Reg) (c : Cond) (s : State) : Result := s.blockCompareString .b false false p r d c
def execCpsd (p r d : Reg) (c : Cond) (s : State) : Result := s.blockCompareString .w false false p r d c

/-- CPSDR, CPSDRB (R341). -/
def execCpsdrb (p r d : Reg) (c : Cond) (s : State) : Result := s.blockCompareString .b false true p r d c
def execCpsdr (p r d : Reg) (c : Cond) (s : State) : Result := s.blockCompareString .w false true p r d c

/-- LDI, LDIB (R347). -/
def execLdib (p r d : Reg) (s : State) : Result := s.blockMove .b true false p r d
def execLdi (p r d : Reg) (s : State) : Result := s.blockMove .w true false p r d

/-- LDIR, LDIRB (R348). -/
def execLdirb (p r d : Reg) (s : State) : Result := s.blockMove .b true true p r d
def execLdir (p r d : Reg) (s : State) : Result := s.blockMove .w true true p r d

/-- LDD, LDDB (R345). -/
def execLddb (p r d : Reg) (s : State) : Result := s.blockMove .b false false p r d
def execLdd (p r d : Reg) (s : State) : Result := s.blockMove .w false false p r d

/-- LDDR, LDDRB (R346). -/
def execLddrb (p r d : Reg) (s : State) : Result := s.blockMove .b false true p r d
def execLddr (p r d : Reg) (s : State) : Result := s.blockMove .w false true p r d

/-- TRIB (R352). -/
def execTrib (d r t : Reg) (s : State) : Result := s.translate true false d r t

/-- TRIRB (R353). -/
def execTrirb (d r t : Reg) (s : State) : Result := s.translate true true d r t

/-- TRDB (R350). -/
def execTrdb (d r t : Reg) (s : State) : Result := s.translate false false d r t

/-- TRDRB (R351). -/
def execTrdrb (d r t : Reg) (s : State) : Result := s.translate false true d r t

/-- TRTIB (R357). -/
def execTrtib (p r t : Reg) (s : State) : Result := s.translateTest true false p r t

/-- TRTIRB (R358). -/
def execTrtirb (p r t : Reg) (s : State) : Result := s.translateTest true true p r t

/-- TRTDB (R355). -/
def execTrtdb (p r t : Reg) (s : State) : Result := s.translateTest false false p r t

/-- TRTDRB (R356). -/
def execTrtdrb (p r t : Reg) (s : State) : Result := s.translateTest false true p r t

end Sys2Proof.Machine
end

