-- ==== Sys2Proof/Machine/InputOutput.lean ====
section
/-! DEFINITION. Input and output instructions (spec/47_io.md). Every one is privileged (R381); each transfer is one I/O
cycle (R382, D3). -/

namespace Sys2Proof.Machine

/-- The port of IN and OUT (R382). -/
def State.port (s : State) : Port → Word
  | .reg r => s.reg r
  | .direct p => p

/-- How many words follow the first (R380). -/
def portWords : Port → Nat
  | .reg _ => 0
  | .direct _ => 1

/-- IN, INB, SIN, SINB (R384, R394): `n` is the length in words. -/
def State.input (s : State) (special : Bool) (z : Size) (d : Reg) (port : Word) (n : Nat) : Result :=
  .next (((s.ioRead special port z).setRegOf z d (s.ioValue z)).advance n)

/-- OUT, OUTB, SOUT, SOUTB (R389, R399). -/
def State.output (s : State) (special : Bool) (z : Size) (port : Word) (r : Reg) (n : Nat) : Result :=
  .next ((s.ioWrite special port z (s.regOf z r)).advance n)

/-- The flags of a block I/O iteration (R383): P/V says that the count became 0, Z is free. -/
def State.blockIoFlags (s : State) (last : Bool) : Flags := { s.flags with v := last, z := s.drawBit .blockIoZ }

/-- One input iteration (R383): `p` is the port register, `d` the memory pointer, `r` the count. -/
def State.blockInput (s : State) (special : Bool) (z : Size) (up rep : Bool) (p r d : Reg) : Result :=
  let last := s.reg r - 1 == 0
  whenAligned (s.accessOk z (s.addrReg d))
    ((((((s.ioRead special (s.reg p) z).poke z (s.regSpace d) (s.addrReg d) (s.ioValue z)).bump d
      (stride z up)).countDown r).setFlags (s.blockIoFlags last)).endBlock rep last)

/-- One output iteration (R383): `p` is the memory pointer, `d` the port register. -/
def State.blockOutput (s : State) (special : Bool) (z : Size) (up rep : Bool) (p r d : Reg) : Result :=
  let last := s.reg r - 1 == 0
  whenAligned (s.accessOk z (s.addrReg p))
    (((((s.ioWrite special (s.reg d) z (s.peek z (s.regSpace p) (s.addrReg p))).bump p
      (stride z up)).countDown r).setFlags (s.blockIoFlags last)).endBlock rep last)

/-- IN, INB (R384). -/
def execInb (d : Reg) (p : Port) (s : State) : Result :=
  s.privileged (.inb d p) (s.input false .b d (s.port p) (1 + portWords p))
def execInw (d : Reg) (p : Port) (s : State) : Result :=
  s.privileged (.inw d p) (s.input false .w d (s.port p) (1 + portWords p))

/-- OUT, OUTB (R389). -/
def execOutb (p : Port) (r : Reg) (s : State) : Result :=
  s.privileged (.outb p r) (s.output false .b (s.port p) r (1 + portWords p))
def execOut (p : Port) (r : Reg) (s : State) : Result :=
  s.privileged (.out p r) (s.output false .w (s.port p) r (1 + portWords p))

/-- SIN, SINB (R394). -/
def execSinb (d : Reg) (p : Word) (s : State) : Result := s.privileged (.sinb d p) (s.input true .b d p 2)
def execSin (d : Reg) (p : Word) (s : State) : Result := s.privileged (.sin d p) (s.input true .w d p 2)

/-- SOUT, SOUTB (R399). -/
def execSoutb (p : Word) (r : Reg) (s : State) : Result := s.privileged (.soutb p r) (s.output true .b p r 2)
def execSout (p : Word) (r : Reg) (s : State) : Result := s.privileged (.sout p r) (s.output true .w p r 2)

/-- INI, INIB (R387). -/
def execInib (p r d : Reg) (s : State) : Result :=
  s.privileged (.inib p r d) (s.blockInput false .b true false p r d)
def execIni (p r d : Reg) (s : State) : Result :=
  s.privileged (.ini p r d) (s.blockInput false .w true false p r d)

/-- INIR, INIRB (R388). -/
def execInirb (p r d : Reg) (s : State) : Result :=
  s.privileged (.inirb p r d) (s.blockInput false .b true true p r d)
def execInir (p r d : Reg) (s : State) : Result :=
  s.privileged (.inir p r d) (s.blockInput false .w true true p r d)

/-- IND, INDB (R385). -/
def execIndb (p r d : Reg) (s : State) : Result :=
  s.privileged (.indb p r d) (s.blockInput false .b false false p r d)
def execInd (p r d : Reg) (s : State) : Result :=
  s.privileged (.ind p r d) (s.blockInput false .w false false p r d)

/-- INDR, INDRB (R386). -/
def execIndrb (p r d : Reg) (s : State) : Result :=
  s.privileged (.indrb p r d) (s.blockInput false .b false true p r d)
def execIndr (p r d : Reg) (s : State) : Result :=
  s.privileged (.indr p r d) (s.blockInput false .w false true p r d)

/-- SINI, SINIB (R397). -/
def execSinib (p r d : Reg) (s : State) : Result :=
  s.privileged (.sinib p r d) (s.blockInput true .b true false p r d)
def execSini (p r d : Reg) (s : State) : Result :=
  s.privileged (.sini p r d) (s.blockInput true .w true false p r d)

/-- SINIR, SINIRB (R398). -/
def execSinirb (p r d : Reg) (s : State) : Result :=
  s.privileged (.sinirb p r d) (s.blockInput true .b true true p r d)
def execSinir (p r d : Reg) (s : State) : Result :=
  s.privileged (.sinir p r d) (s.blockInput true .w true true p r d)

/-- SIND, SINDB (R395). -/
def execSindb (p r d : Reg) (s : State) : Result :=
  s.privileged (.sindb p r d) (s.blockInput true .b false false p r d)
def execSind (p r d : Reg) (s : State) : Result :=
  s.privileged (.sind p r d) (s.blockInput true .w false false p r d)

/-- SINDR, SINDRB (R396). -/
def execSindrb (p r d : Reg) (s : State) : Result :=
  s.privileged (.sindrb p r d) (s.blockInput true .b false true p r d)
def execSindr (p r d : Reg) (s : State) : Result :=
  s.privileged (.sindr p r d) (s.blockInput true .w false true p r d)

/-- OUTI, OUTIB (R392). -/
def execOutib (p r d : Reg) (s : State) : Result :=
  s.privileged (.outib p r d) (s.blockOutput false .b true false p r d)
def execOuti (p r d : Reg) (s : State) : Result :=
  s.privileged (.outi p r d) (s.blockOutput false .w true false p r d)

/-- OTIR, OTIRB (R393). -/
def execOtirb (p r d : Reg) (s : State) : Result :=
  s.privileged (.otirb p r d) (s.blockOutput false .b true true p r d)
def execOtir (p r d : Reg) (s : State) : Result :=
  s.privileged (.otir p r d) (s.blockOutput false .w true true p r d)

/-- OUTD, OUTDB (R390). -/
def execOutdb (p r d : Reg) (s : State) : Result :=
  s.privileged (.outdb p r d) (s.blockOutput false .b false false p r d)
def execOutd (p r d : Reg) (s : State) : Result :=
  s.privileged (.outd p r d) (s.blockOutput false .w false false p r d)

/-- OTDR, OTDRB (R391). -/
def execOtdrb (p r d : Reg) (s : State) : Result :=
  s.privileged (.otdrb p r d) (s.blockOutput false .b false true p r d)
def execOtdr (p r d : Reg) (s : State) : Result :=
  s.privileged (.otdr p r d) (s.blockOutput false .w false true p r d)

/-- SOUTI, SOUTIB (R402). -/
def execSoutib (p r d : Reg) (s : State) : Result :=
  s.privileged (.soutib p r d) (s.blockOutput true .b true false p r d)
def execSouti (p r d : Reg) (s : State) : Result :=
  s.privileged (.souti p r d) (s.blockOutput true .w true false p r d)

/-- SOTIR, SOTIRB (R403). -/
def execSotirb (p r d : Reg) (s : State) : Result :=
  s.privileged (.sotirb p r d) (s.blockOutput true .b true true p r d)
def execSotir (p r d : Reg) (s : State) : Result :=
  s.privileged (.sotir p r d) (s.blockOutput true .w true true p r d)

/-- SOUTD, SOUTDB (R400). -/
def execSoutdb (p r d : Reg) (s : State) : Result :=
  s.privileged (.soutdb p r d) (s.blockOutput true .b false false p r d)
def execSoutd (p r d : Reg) (s : State) : Result :=
  s.privileged (.soutd p r d) (s.blockOutput true .w false false p r d)

/-- SOTDR, SOTDRB (R401). -/
def execSotdrb (p r d : Reg) (s : State) : Result :=
  s.privileged (.sotdrb p r d) (s.blockOutput true .b false true p r d)
def execSotdr (p r d : Reg) (s : State) : Result :=
  s.privileged (.sotdr p r d) (s.blockOutput true .w false true p r d)

end Sys2Proof.Machine
end

