-- ==== Sys2Proof/Machine/Interrupts.lean ====
section
/-! DEFINITION. Requests from outside: sampling, masks, priority, the acknowledge cycle and the entry
(spec/60_exceptions.md sections 2 and 4), and reset (spec/70_reset_and_hazards.md section 1). -/

namespace Sys2Proof.Machine

/-- FCW.VIE and FCW.NVIE (R33). -/
def State.vie (s : State) : Bool := s.fcw.getLsbD 12
def State.nvie (s : State) : Bool := s.fcw.getLsbD 11

/-- The NMI latch with an edge that the detector has not latched yet (R45, R451). -/
def State.nmiPending (s : State) : Bool := s.nmiLatch || (s.pins.nmi && !s.nmiLevel)

/-- SEGT is Low: the platform holds it so, or its memory management unit does (R87, R458). A Z8002 has no such input. -/
def State.segtRequested (s : State) : Bool := s.isZ8001 && (s.pins.segt || s.mmuRequest.isSome)

/-- The request accepted when VI and NVI are let through by `vie` and `nvie`: the highest that is present (R454,
R455). -/
def State.pick (s : State) (vie nvie : Bool) : Option Request :=
  if s.nmiPending then some .nmi
  else if s.segtRequested then some .segt
  else if s.pins.vi && vie then some .vi
  else if s.pins.nvi && nvie then some .nvi
  else none

/-- The sample at the end of an instruction that led from `s` to `t` (R452, D15). The enables in force are those that
the instruction leaves; with `EnableDelay` = 1 they must have been set before it too (D14, log entry 29). -/
def State.sample (s t : State) : Option Request :=
  t.pick (t.vie && (!t.platform.enableDelay || s.vie)) (t.nvie && (!t.platform.enableDelay || s.nvie))

/-- The high byte of a segment trap's identifier: that of the memory management unit whose request is pending, else what
the platform answers (R87, R450). -/
def State.segtIdent (s : State) : Byte :=
  match s.mmuRequest with
  | some b => b
  | none => highByte s.pins.ackSegt

/-- The identifier that the acknowledge cycle reads (R450, R470 step 2); the low byte of a segment trap's is free
(U16). -/
def State.ackWord (s : State) : Request → Word
  | .nmi => s.pins.ackNmi
  | .segt => s.segtIdent ++ s.draw .segtLowByte 8
  | .vi => s.pins.ackVi
  | .nvi => s.pins.ackNvi

/-- Steps 1 and 2 of R470: a fetch that is ignored (R96), the acknowledge cycle, the identifier kept in the temporary
(R46). The acknowledge of an NMI clears its latch (D8), that of a segment trap ends the memory management unit's request
(R456); the machine is no longer halted (R453). -/
def State.acknowledge (s : State) (r : Request) : State :=
  { s with
    accepted := none
    halted := false
    stale := []
    nmiLatch := match r with | .nmi => false | .segt => s.nmiLatch | .vi => s.nmiLatch | .nvi => s.nmiLatch
    nmiLevel := match r with | .nmi => s.pins.nmi | .segt => s.nmiLevel | .vi => s.nmiLevel | .nvi => s.nmiLevel
    mmuRequest := match r with | .segt => none | .nmi => s.mmuRequest | .vi => s.mmuRequest | .nvi => s.mmuRequest
    identTemp := s.ackWord r
    events := .acknowledge r (s.ackWord r) :: .ignoredFetch (s.cell (s.space .code) s.pcAddr) :: s.events }

/-- The entry of an interrupt or of the segment trap (R470): the PC saved is that of the instruction not executed
(R32). DESIGN CHOICE, unsafe: where the PC is odd the ignored fetch (R96) does not stop the step as the fetch of an
instruction does (R78, D6), and the entry saves the odd PC (log entry 5). -/
def State.enterRequest (s : State) (r : Request) : Result :=
  (s.acknowledge r).enter (.request r) (s.ackWord r) s.pcAddr

/-- RESET Low (R520): what was in progress is abandoned; the reads of R521 follow when it is High. Memory stays (D13).
DESIGN CHOICE, unsafe: R0 to R15, the stack pointer copies, PSAP, the refresh rate and row and the identifier temporary,
which R54 calls unspecified after a reset, keep the values they had (log entries 6, 7), and so does a request of the
memory management unit (log entry 44). -/
def State.resetLow (s : State) : State :=
  { s with
    refresh := { s.refresh with enable := false }
    moLow := false
    busGranted := false
    halted := false
    nmiLatch := false
    nmiLevel := s.pins.nmi
    accepted := none
    stale := []
    resetPending := true }

/-- A word of system program memory in segment 0, where the reset program status is (R86, R521). -/
def State.resetWord (s : State) (off : Word) : Word := s.peekWord ⟨true, .code⟩ ⟨0, off⟩

/-- RESET High again (R521): FCW and PC are read from fixed locations. Memory stays (D13). DESIGN CHOICE, unsafe: every
register that R54 and R521 call unspecified here keeps the value it had (log entries 6, 7). -/
def State.resetReads (s : State) : State :=
  State.writeFcw
    (State.setPc
      { s with
        refresh := { s.refresh with enable := false }
        moLow := false
        busGranted := false
        halted := false
        nmiLatch := false
        accepted := none
        stale := []
        resetPending := false }
      (if s.isZ8001 then ⟨segOf (s.resetWord 4), s.resetWord 6⟩ else ⟨0, s.resetWord 4⟩))
    (s.resetWord 2)

end Sys2Proof.Machine
end

