-- ==== Sys2Proof/Machine/ProgramControl.lean ====
section
/-! DEFINITION. Program control instructions (spec/43_program_control.md). -/

namespace Sys2Proof.Machine

/-- The program counter moves by `d` within its segment (R250). -/
def State.jumpBy (s : State) (d : Word) : State := { s with pc := s.pc + d }

/-- The program counter is pushed: a word, in segmented mode a long word (R250, R251). -/
def State.pushPc (s : State) : State :=
  if s.segmented then s.push .l s.spReg (s.segWord .callSegment s.codeSeg ++ s.pc) else s.push .w s.spReg s.pc

/-- The platform takes the accesses to the implied stack. -/
def State.stackOk (s : State) : Bool := s.accessOk .w (s.addrReg s.spReg)

/-- CALL (R251): the push, then the jump, so a target through the stack pointer uses the pointer as the push leaves it
(log entry 18). -/
def execCall (m : Mem) (s : State) : Result :=
  let t := (s.advance (1 + m.words.length)).pushPc
  whenAligned s.stackOk (t.setPc (t.memAddr m))

/-- CALR (R252): the displacement is subtracted. -/
def execCalr (disp : BitVec 12) (s : State) : Result :=
  whenAligned s.stackOk ((s.advance 1).pushPc.jumpBy (-(2 * disp.signExtend 16)))

/-- DJNZ, DBJNZ (R253). -/
def State.djnz (s : State) (z : Size) (r : Reg) (disp : BitVec 7) : Result :=
  let t := (s.setRegOf z r (s.regOf z r - 1#z.bits)).advance 1
  .next (if s.regOf z r - 1#z.bits = 0 then t else t.jumpBy (-(2 * disp.setWidth 16)))

def execDjnz (r : Reg) (disp : BitVec 7) (s : State) : Result := s.djnz .w r disp
def execDbjnz (r : Reg) (disp : BitVec 7) (s : State) : Result := s.djnz .b r disp

/-- IRET (R254). -/
def execIret (s : State) : Result := s.privileged .iret s.returnStatus

/-- JP (R255). -/
def execJp (c : Cond) (m : Mem) (s : State) : Result :=
  .next (if s.flags.holds c then s.setPc (s.memAddr m) else s.advance (1 + m.words.length))

/-- JR (R256): the displacement is added. -/
def execJr (c : Cond) (disp : BitVec 8) (s : State) : Result :=
  .next (if s.flags.holds c then (s.advance 1).jumpBy (2 * disp.signExtend 16) else s.advance 1)

/-- The program counter is popped (R257). -/
def State.popPc (s : State) : State :=
  if s.segmented then
    (s.drop .l s.spReg).setPc
      ⟨segOf ((s.top .l s.spReg).extractLsb' 16 16), (s.top .l s.spReg).extractLsb' 0 16⟩
  else (s.drop .w s.spReg).setPc ⟨s.codeSeg, s.top .w s.spReg⟩

/-- RET (R257). -/
def execRet (c : Cond) (s : State) : Result :=
  if s.flags.holds c then whenAligned s.stackOk s.popPc else .next (s.advance 1)

/-- SC (R258, R464). -/
def execSc (i : Byte) (s : State) : Result := s.enter (.trap .systemCall) (Instr.sc i).identifier (s.pcAddr.add 2)

end Sys2Proof.Machine
end

