-- ==== Sys2Proof/Machine/Bus.lean ====
section
/-! DEFINITION. The machine cycles of a step, in the order in which they are made (R80, R89, R540), and what the memory
management unit makes of them (R87). Internal operations and refresh cycles of a running instruction are timing and are
not listed (R98, log entry 42). -/

namespace Sys2Proof.Machine

/-! ## Cycles of operands -/

/-- The cycles of an operand of size `z` at `a`; a long word takes two, most significant word first (R80). -/
def memCycles (sp : Space) (write : Bool) : Size → Addr → List Cycle
  | .b, a => [.memory .reference sp write true a]
  | .w, a => [.memory .reference sp write false a]
  | .l, a => [.memory .reference sp write false a, .memory .reference sp write false (a.add 2)]

/-- `n` word cycles from address `a` on (R157, R440). -/
def wordCycles (use : MemUse) (sp : Space) (write : Bool) (a : Addr) (n : Nat) : List Cycle :=
  (List.range n).map fun i => .memory use sp write false (a.add (BitVec.ofNat 16 (2 * i)))

/-- An operand in memory is read, or written. -/
def State.memAccess (s : State) (write : Bool) (z : Size) (m : Mem) : List Cycle :=
  memCycles (s.memSpace m) write z (s.memAddr m)

/-- An operand of LD is read, or written. -/
def State.xmemAccess (s : State) (write : Bool) (z : Size) (m : XMem) : List Cycle :=
  memCycles (s.xmemSpace m) write z (s.xmemAddr m)

/-- What an address register points at is read, or written. -/
def State.regAccess (s : State) (write : Bool) (z : Size) (r : Reg) : List Cycle :=
  memCycles (s.regSpace r) write z (s.addrReg r)

/-- A source is read. -/
def State.srcCycles (s : State) {z : Size} : Src z → List Cycle
  | .reg _ => []
  | .imm _ => []
  | .mem m => s.memAccess false z m

/-- A destination operand is read, or written. -/
def State.dstAccess (s : State) (write : Bool) (z : Size) : Dst → List Cycle
  | .reg _ => []
  | .mem m => s.memAccess write z m

/-- A destination is read and then written (R81). -/
def State.modifyCycles (s : State) (z : Size) (d : Dst) : List Cycle := s.dstAccess false z d ++ s.dstAccess true z d

/-! ## Cycles of an exception (R470, R476) -/

/-- The cycles of an entry: the pushes on the system stack, then the new FCW and PC. -/
def State.entryCycles (s : State) (c : Cause) (ident : Word) : List Cycle :=
  (List.range (if s.isZ8001 then 4 else 3)).map
      (fun k => .memory .reference ⟨true, .stack⟩ true false (s.belowSystemSp (k + 1)))
    ++ .memory .reference ⟨true, .code⟩ false false (s.psaBase.add (c.fcwOffset s.isZ8001))
    :: wordCycles .reference ⟨true, .code⟩ false (s.psaBase.add (c.pcOffset s.isZ8001 ident)) (if s.isZ8001 then 2 else 1)

/-- The words of an instruction are fetched: the first by IF1 (R53). -/
def State.fetchCycles (s : State) (n : Nat) : List Cycle :=
  (List.range n).map fun i =>
    .memory (if i = 0 then .firstFetch else .reference) (s.space .code) false false
      (s.pcAddr.add (BitVec.ofNat 16 (2 * i)))

/-- The entry of a request: the ignored fetch (R96), the acknowledge cycle, the entry. -/
def State.requestCycles (s : State) (r : Request) : List Cycle :=
  s.fetchCycles 1 ++ .acknowledge r :: s.entryCycles (.request r) (s.ackWord r)

/-- The reads that follow a reset (R521). -/
def State.resetCycles (s : State) : List Cycle :=
  wordCycles .reference ⟨true, .code⟩ false ⟨0, 2⟩ (if s.isZ8001 then 3 else 2)

/-! ## Cycles of each instruction -/

/-- LD, LDB, LDL (R153). -/
def State.ldCycles (s : State) {z : Size} : LdArgs z → List Cycle
  | .reg _ _ => []
  | .imm _ _ => []
  | .load _ m => s.xmemAccess false z m
  | .store m _ => s.xmemAccess true z m
  | .storeImm m _ => s.memAccess true z m
  | .compact _ _ => []

/-- CP, CPB, CPL (R193). -/
def State.cpCycles (s : State) {z : Size} : CpArgs z → List Cycle
  | .reg _ src => s.srcCycles src
  | .memImm m _ => s.memAccess false z m

/-- LDR, LDRB, LDRL (R158): program references (R73). -/
def State.ldrCycles (s : State) (z : Size) (dir : Dir) (disp : Word) : List Cycle :=
  memCycles (s.space .code) (match dir with | .load => false | .store => true) z ((s.advance 2).relAddr disp)

/-- PUSH, PUSHL (R160): the operand is read, then the stack written. -/
def State.pushCycles (s : State) (z : Size) (sp : Reg) : List Cycle :=
  memCycles (s.regSpace sp) true z ((s.addrReg sp).add (-BitVec.ofNat 16 z.bytes))

/-- POP, POPL (R159): the stack is read; the destination is addressed after the pointer has moved. -/
def State.popCycles (s : State) (z : Size) (d : Dst) (sp : Reg) : List Cycle :=
  s.regAccess false z sp ++ (s.drop z sp).dstAccess true z d

/-- The size of a return address on the implied stack (R250). -/
def State.returnSize (s : State) : Size := if s.segmented then .l else .w

/-- One iteration of TRIB, TRIRB, TRDB, TRDRB reads the string byte and the table byte (R349). -/
def State.tableCycles (s : State) (p t : Reg) : List Cycle :=
  s.regAccess false .b p
    ++ memCycles (s.regSpace t) false .b
      ((s.addrReg t).add ((s.peekByte (s.regSpace p) (s.addrReg p)).setWidth 16))

/-- One I/O cycle (R82, R382). -/
def ioCycle (special write : Bool) (z : Size) (port : Word) : List Cycle := [.io special write (z == .b) port]

/-- One iteration of a block input: the port, then memory (R383). -/
def State.blockInputCycles (s : State) (special : Bool) (z : Size) (p d : Reg) : List Cycle :=
  ioCycle special false z (s.reg p) ++ s.regAccess true z d

/-- One iteration of a block output: memory, then the port (R383). -/
def State.blockOutputCycles (s : State) (special : Bool) (z : Size) (p d : Reg) : List Cycle :=
  s.regAccess false z p ++ ioCycle special true z (s.reg d)

/-- IRET (R254): the frame is read from the identifier on. -/
def State.iretCycles (s : State) : List Cycle :=
  if s.isZ8001 && !s.segmented then []
  else wordCycles .reference ⟨true, .stack⟩ false s.systemSp (if s.isZ8001 then 4 else 3)

/-- LDPS (R418): a Z8001's block begins with a reserved word, which is not read. -/
def State.ldpsCycles (s : State) (m : Mem) : List Cycle :=
  if s.segmented then wordCycles .reference (s.space .data) false ((s.memAddr m).add 2) 3
  else wordCycles .reference (s.space .data) false (s.memAddr m) 2

/-- The CPU's part in an extended instruction that an EPU takes (R440, R53); flags take one cycle of status 1110, the
model's choice (log entry 26). -/
def State.handOffCycles (s : State) : EpuAction → List Cycle
  | .internal => []
  | .fromMemory m n => wordCycles .epu (s.memSpace m) false (s.memAddr m) (n.toNat + 1)
  | .toMemory m n => wordCycles .epu (s.memSpace m) true (s.memAddr m) (n.toNat + 1)
  | .fromRegs _ n => List.replicate (n.toNat + 1) (.epu true)
  | .toRegs _ n => List.replicate (n.toNat + 1) (.epu false)
  | .toFlags => [.epu false]

/-- An extended instruction (R440, R460). -/
def State.extendedCycles (s : State) (op : ExtOp) (e : Byte) (e1 : Word) : List Cycle :=
  if s.epa then
    match s.epuAction op e e1 with
    | some act => s.handOffCycles act
    | none => []
  else s.entryCycles (.trap .extended) (Instr.extended op e e1).identifier

/-- The cycles of an instruction's own effect, its fetch apart. -/
def State.effectCycles (s : State) (i : Instr) : List Cycle :=
  match i with
  | .addb _ src | .subb _ src | .orb _ src | .andb _ src | .xorb _ src => s.srcCycles src
  | .add _ src | .sub _ src | .or _ src | .and _ src | .xor _ src | .mult _ src | .div _ src => s.srcCycles src
  | .addl _ src | .subl _ src | .multl _ src | .divl _ src => s.srcCycles src
  | .cpb a => s.cpCycles a
  | .cp a => s.cpCycles a
  | .cpl a => s.cpCycles a
  | .ldb a => s.ldCycles a
  | .ld a => s.ldCycles a
  | .ldl a => s.ldCycles a
  | .ldrb dir _ disp => s.ldrCycles .b dir disp
  | .ldr dir _ disp => s.ldrCycles .w dir disp
  | .ldrl dir _ disp => s.ldrCycles .l dir disp
  | .lda _ _ | .ldar _ _ | .ldk _ _ => []
  | .ldm .load m _ n => wordCycles .reference (s.memSpace m) false (s.memAddr m) (n.toNat + 1)
  | .ldm .store m _ n => wordCycles .reference (s.memSpace m) true (s.memAddr m) (n.toNat + 1)
  | .comb d | .negb d | .tsetb d | .incb d _ | .decb d _ => s.modifyCycles .b d
  | .com d | .neg d | .tset d | .inc d _ | .dec d _ => s.modifyCycles .w d
  | .exb _ d => s.modifyCycles .b d
  | .ex _ d => s.modifyCycles .w d
  | .resb a | .setb a => s.modifyCycles .b (bitDst a)
  | .res a | .set a => s.modifyCycles .w (bitDst a)
  | .clrb d => s.dstAccess true .b d
  | .clr d => s.dstAccess true .w d
  | .testb d => s.dstAccess false .b d
  | .test d => s.dstAccess false .w d
  | .testl d => s.dstAccess false .l d
  | .bitb a => s.dstAccess false .b (bitDst a)
  | .bit a => s.dstAccess false .w (bitDst a)
  | .setflg _ | .resflg _ | .comflg _ | .nop | .ldctlb _ _ => []
  | .pushl sp src => s.dstAccess false .l src ++ s.pushCycles .l sp
  | .push sp src => s.srcCycles src ++ s.pushCycles .w sp
  | .popl d sp => s.popCycles .l d sp
  | .pop d sp => s.popCycles .w d sp
  | .tccb _ _ | .tcc _ _ | .dab _ | .extsb _ | .exts _ | .extsl _ => []
  | .adcb _ _ | .adc _ _ | .sbcb _ _ | .sbc _ _ | .rrdb _ _ | .rldb _ _ => []
  | .rlb _ _ | .rl _ _ | .rrb _ _ | .rr _ _ | .rlcb _ _ | .rlc _ _ | .rrcb _ _ | .rrc _ _ => []
  | .sllb _ _ | .srlb _ _ | .sll _ _ | .srl _ _ | .slll _ _ | .srll _ _ => []
  | .slab _ _ | .srab _ _ | .sla _ _ | .sra _ _ | .slal _ _ | .sral _ _ => []
  | .sdlb _ _ | .sdl _ _ | .sdll _ _ | .sdab _ _ | .sda _ _ | .sdal _ _ => []
  | .jp _ _ | .jr _ _ | .djnz _ _ | .dbjnz _ _ => []
  | .call _ | .calr _ => s.pushCycles s.returnSize s.spReg
  | .ret c => if s.flags.holds c then s.regAccess false s.returnSize s.spReg else []
  | .sc n => s.entryCycles (.trap .systemCall) (Instr.sc n).identifier
  | .iret => s.iretCycles
  | .cpib p _ _ _ | .cpirb p _ _ _ | .cpdb p _ _ _ | .cpdrb p _ _ _ => s.regAccess false .b p
  | .cpi p _ _ _ | .cpir p _ _ _ | .cpd p _ _ _ | .cpdr p _ _ _ => s.regAccess false .w p
  | .cpsib p _ d _ | .cpsirb p _ d _ | .cpsdb p _ d _ | .cpsdrb p _ d _ =>
    s.regAccess false .b d ++ s.regAccess false .b p
  | .cpsi p _ d _ | .cpsir p _ d _ | .cpsd p _ d _ | .cpsdr p _ d _ =>
    s.regAccess false .w d ++ s.regAccess false .w p
  | .ldib p _ d | .ldirb p _ d | .lddb p _ d | .lddrb p _ d => s.regAccess false .b p ++ s.regAccess true .b d
  | .ldi p _ d | .ldir p _ d | .ldd p _ d | .lddr p _ d => s.regAccess false .w p ++ s.regAccess true .w d
  | .trib d _ t | .trirb d _ t | .trdb d _ t | .trdrb d _ t => s.tableCycles d t ++ s.regAccess true .b d
  | .trtib p _ t | .trtirb p _ t | .trtdb p _ t | .trtdrb p _ t => s.tableCycles p t
  | .inb _ p => ioCycle false false .b (s.port p)
  | .inw _ p => ioCycle false false .w (s.port p)
  | .outb p _ => ioCycle false true .b (s.port p)
  | .out p _ => ioCycle false true .w (s.port p)
  | .sinb _ p => ioCycle true false .b p
  | .sin _ p => ioCycle true false .w p
  | .soutb p _ => ioCycle true true .b p
  | .sout p _ => ioCycle true true .w p
  | .inib p _ d | .inirb p _ d | .indb p _ d | .indrb p _ d => s.blockInputCycles false .b p d
  | .ini p _ d | .inir p _ d | .ind p _ d | .indr p _ d => s.blockInputCycles false .w p d
  | .sinib p _ d | .sinirb p _ d | .sindb p _ d | .sindrb p _ d => s.blockInputCycles true .b p d
  | .sini p _ d | .sinir p _ d | .sind p _ d | .sindr p _ d => s.blockInputCycles true .w p d
  | .outib p _ d | .otirb p _ d | .outdb p _ d | .otdrb p _ d => s.blockOutputCycles false .b p d
  | .outi p _ d | .otir p _ d | .outd p _ d | .otdr p _ d => s.blockOutputCycles false .w p d
  | .soutib p _ d | .sotirb p _ d | .soutdb p _ d | .sotdrb p _ d => s.blockOutputCycles true .b p d
  | .souti p _ d | .sotir p _ d | .soutd p _ d | .sotdr p _ d => s.blockOutputCycles true .w p d
  | .ldps m => s.ldpsCycles m
  | .halt | .mset | .mres | .mbit | .mreq _ | .di _ _ | .ei _ _ | .ldctl _ _ _ => []
  | .extended op e e1 => s.extendedCycles op e e1

/-- The cycles of an instruction, its fetch apart: those of its effect, or of its trap where normal mode may not run it
(R462). -/
def State.instrCycles (s : State) (i : Instr) : List Cycle :=
  if !s.system && privilegedOpcode i.identifier then s.entryCycles (.trap .privileged) i.identifier
  else s.effectCycles i

/-- The cycles of the step that runs an instruction of `n` words; of one that traps as privileged the first word is
fetched, of an extended instruction that traps both words are: the model's choice (R460, R462, log entry 42). -/
def State.stepCycles (s : State) (i : Instr) (n : Nat) : List Cycle :=
  s.fetchCycles (if !s.system && privilegedOpcode i.identifier then 1 else n) ++ s.instrCycles i

/-! ## The memory management unit (R87, R458) -/

/-- A rule of the memory management unit names an access. -/
def Cycle.asks (c : Cycle) (r : MmuRule) : Bool :=
  match c with
  | .memory _ sp write _ a =>
    r.space == sp && r.write == write && r.seg == a.seg && r.first.ule a.off && a.off.ule r.last
  | .io _ _ _ _ => false
  | .acknowledge _ => false
  | .epu _ => false
  | .internal => false
  | .refresh => false

/-- The request that the memory management unit of a Z8001 makes of some cycles: the first that a rule names decides. -/
def State.mmuAsks (s : State) (cs : List Cycle) : Option Byte :=
  if s.isZ8001 then cs.findSome? fun c => (s.platform.mmu.find? c.asks).map MmuRule.ident else none

/-- The machine has made the cycles `cs`: the output lines have shown them, and a memory management unit that holds no
request may make one (log entry 44). -/
def State.afterCycles (s : State) (cs : List Cycle) : State :=
  { s with
    bus := cs
    mmuRequest := match s.mmuRequest with | some b => some b | none => s.mmuAsks cs }

end Sys2Proof.Machine
end

