-- ==== Sys2Proof/Machine/Cycle.lean ====
section
/-! DEFINITION. One step around the meaning of an instruction: the pins that hold the CPU, the entry of an accepted
request, fetching and decoding, and the sample at the end (R89, R95, R452, R505, R523; D10, D15, D18). `Step.lean` calls
it with `exec`. -/

namespace Sys2Proof.Machine

/-- What every step does at its end: the edge detector latches NMI (R45) and the step counter advances. -/
def State.settle (s : State) : State :=
  { s with nmiLatch := s.nmiPending, nmiLevel := s.pins.nmi, tick := s.tick + 1 }

/-- A function on the next state, where there is one. -/
def afterwards (r : Result) (f : State → State) : Result :=
  match r with
  | .next t => .next (f t)
  | .fault e => .fault e
  | .refused e => .refused e

/-- A word of code memory, `n` words from the program counter (R73). -/
def State.codeWord (s : State) (n : Nat) : Word :=
  s.peekWord (s.space .code) (s.pcAddr.add (BitVec.ofNat 16 (2 * n)))

/-- The first word of the instruction: where stores replaced it just before, a free value says whether it is what memory
holds now or a word that one of them replaced (R95). -/
def State.firstCodeWord (s : State) : Word :=
  let old := s.stale.filter fun x => x.addr = s.pcAddr
  match old[(s.draw .fetchAhead 64).toNat]? with
  | some x => x.word
  | none => s.codeWord 0

/-- The words fetched: as many as the longest instruction has (R110). -/
def State.fetched (s : State) : List Word := [s.firstCodeWord, s.codeWord 1, s.codeWord 2, s.codeWord 3]

/-- The first words of the instructions that a repeat can leave at the program counter (R332, R383). -/
def blockOpcode (w : Word) : Bool := [0x3A#8, 0x3B, 0xB8, 0xBA, 0xBB].contains (highByte w)

/-- What may have been fetched ahead once an instruction has led from `s` to `t`, `next` being the address after it: the
old first word of the instruction in sequence, where it has changed, before the words that earlier iterations of the same
instruction replaced (R95, D16). Once that fetch is made, and after a jump elsewhere, there is none (R94). -/
def State.staleAfter (s t : State) (next : Addr) : List Stale :=
  if t.pcAddr = next ∨ (t.pcAddr = s.pcAddr ∧ blockOpcode s.firstCodeWord = true) then
    (if t.peekWord (s.space .code) next = s.peekWord (s.space .code) next then []
      else [⟨next, s.peekWord (s.space .code) next⟩])
      ++ s.stale.filter fun x => x.addr = next
  else []

/-- The end of an instruction of `n` words that made the cycles `cs` and led from `s` to `t`: the memory management unit
has seen its accesses, then requests are sampled (R452, R458). -/
def State.finish (s : State) (n : Nat) (cs : List Cycle) (t : State) : State :=
  State.settle
    { t.afterCycles cs with
      accepted := s.sample (t.afterCycles cs)
      stale := s.staleAfter t (s.pcAddr.add (BitVec.ofNat 16 (2 * n))) }

/-- The instruction that was decoded runs if it is well formed; a privileged one in normal mode traps whatever its
operands are (R462: the check is on the opcode). -/
def State.runs (s : State) (i : Instr) : Bool :=
  i.wellFormed s.segmented || (!s.system && privilegedOpcode s.firstCodeWord)

/-- Fetch, decode and execute one instruction. DESIGN CHOICE, safe: in normal mode a first word of a privileged group that
R132 leaves unassigned, LDCTL with ccc 000 or 001 among them, is refused (U2) before the privilege check; a must-be-zero bit
and an ill-formed operand of an assigned one come after it (R462, log entries 22, 23, 38). -/
def State.runInstruction (s : State) (exec : Instr → State → Result) : Result :=
  if s.pc.getLsbD 0 then .fault .oddPc
  else
    match decode s.segmented s.fetched with
    | .ok (i, rest) =>
      if s.runs i then
        afterwards (exec i s) (s.finish (4 - rest.length) (s.stepCycles i (4 - rest.length)))
      else .refused .registerField
    | .error .mustBeZero =>
      if !s.system && privilegedOpcode s.firstCodeWord then
        afterwards (s.enter (.trap .privileged) s.firstCodeWord (s.pcAddr.add 2))
          (s.finish 2 (s.fetchCycles 1 ++ s.entryCycles (.trap .privileged) s.firstCodeWord))
      else .refused .mustBeZero
    | .error .unassigned => .refused .unassignedOpcode
    | .error .truncated => .refused .truncated

/-- The entry of a request with its machine cycles. -/
def State.requestStep (s : State) (r : Request) : Result :=
  afterwards (s.enterRequest r) fun t => (t.afterCycles (s.requestCycles r)).settle

/-- A bus requester that has the bus writes memory, in the order it gives; a CPU that has just been asked grants it
(R10, R91). -/
def State.busRequest (s : State) : State :=
  if s.busGranted then
    { s with
      mem := (s.pins.dma.foldl (fun t w => t.pokeByte w.space w.addr w.value) s).mem
      pins := { s.pins with dma := [] } }
  else { s with busGranted := true }

/-- One step. RESET comes before everything (R523), BUSREQ before WAIT (R91); each holds the CPU, and so do WAIT (R83)
and STOP (R505, D18). Then an accepted request is entered, a halted CPU waits for one (R453, D11), or an instruction
runs. DESIGN CHOICE, unsafe: RESET, a bus grant, WAIT and STOP act between two steps only, so an instruction that RESET
abandons (R520, R523) leaves all of its effects or none, never a part (log entry 33). -/
def State.cycle (s : State) (exec : Instr → State → Result) : Result :=
  if s.pins.reset then .next s.resetLow.settle
  else if s.pins.busreq then .next s.busRequest.settle
  else if s.busGranted then .next { s with busGranted := false }.settle
  else if s.pins.wait then .next s.settle
  else if s.resetPending then .next (s.resetReads.afterCycles s.resetCycles).settle
  else if s.pins.stop then .next (s.drawRow.afterCycles [.refresh]).settle
  else
    match s.accepted with
    | some r => s.requestStep r
    | none =>
      if s.halted then
        match s.pick s.vie s.nvie with
        | some r => s.requestStep r
        | none => .next (s.afterCycles [.internal]).settle
      else s.runInstruction exec

/-- The words of an instruction stored where the next step fetches, and nothing between that step and the fetch: no pin
holds the CPU, the reset reads are done, no request is accepted, no other agent has a turn, plain storage answers the words. -/
def State.placeInstruction (s : State) (ws : List Word) : State :=
  let t : State :=
    { s with
      pins := { s.pins with reset := false, busreq := false, wait := false, stop := false }
      pc := s.pc &&& 0xFFFE
      busGranted := false
      halted := false
      resetPending := false
      accepted := none
      stale := []
      turns := [] }
  let bytes := (List.range 8).map fun i => t.pcAddr.add (BitVec.ofNat 16 i)
  let map : MemoryMap :=
    { t.platform.memoryMap with
      windows := t.platform.memoryMap.windows.filter fun w =>
        bytes.all fun a => !(inWindow w (t.space .code) a.linear) }
  let cells := bytes.map fun a => cellOf map (t.space .code) a
  let u : State :=
    { t with
      platform := { t.platform with
        memoryMap := map
        absent := t.platform.absent.filter fun r =>
          cells.all fun k => !(decide (r.1 ≤ k) && decide (k < r.1 + r.2)) } }
  (ws.zipIdx).foldl
    (fun v w => v.pokeWord (u.space .code) (u.pcAddr.add (BitVec.ofNat 16 (2 * w.2))) w.1) u

end Sys2Proof.Machine
end

