-- ==== Sys2Proof/Machine/Agents.lean ====
section
/-! DEFINITION. The agents of R10 beside the CPU, each with a step of its own, and whose turn it is. The bus requester's
writes and the memory management unit's rules are in `Cycle.lean` and `Bus.lean` (log entry 46). -/

namespace Sys2Proof.Machine

/-- The line and the identifier of a request (R451, R457, R458). -/
def Pins.drive (p : Pins) (low : Bool) (ident : Word) : Request → Pins
  | .nmi => { p with nmi := low, ackNmi := ident }
  | .segt => { p with segt := low, ackSegt := ident }
  | .vi => { p with vi := low, ackVi := ident }
  | .nvi => { p with nvi := low, ackNvi := ident }

/-- What an agent's action makes of the pins. -/
def Pins.act (p : Pins) : AgentAction → Pins
  | .request kind low ident => p.drive low ident kind
  | .reset low => { p with reset := low }
  | .stop low => { p with stop := low }
  | .wait low => { p with wait := low }
  | .busreq low writes => { p with busreq := low, dma := p.dma ++ writes }
  | .micro mi settled => { p with mi := mi, miSettled := settled }
  | .device words => { p with ioInput := p.ioInput ++ words }
  | .epu words => { p with epuOutput := p.epuOutput ++ words }
  | .refresh => p

/-- A refresh cycle (R37, R98): the refresh counter advances, where refresh is enabled and the CPU has the bus (R47). -/
def State.refreshCycle (s : State) : State :=
  if s.refresh.enable && !s.busGranted then { s.drawRow with bus := [.refresh] } else s

/-- The step of an agent: its action, and the edge detector of NMI sees the line (R45). -/
def State.agentStep (s : State) (a : AgentAction) : State :=
  State.settle (match a with
    | .refresh => s.refreshCycle
    | a => { s with pins := s.pins.act a })

/-- One step of the machine: the agent whose turn it is moves, the CPU by `State.cycle` (R10). -/
def State.turn (s : State) (exec : Instr → State → Result) : Result :=
  match s.turns with
  | [] => s.cycle exec
  | .cpu :: rest => afterwards (({ s with turns := [] } : State).cycle exec) fun t => { t with turns := rest }
  | .agent a :: rest => .next (State.agentStep { s with turns := rest } a)

end Sys2Proof.Machine
end

