-- ==== Sys2Proof/Machine/Arithmetic.lean ====
section
/-! DEFINITION. Arithmetic instructions (spec/41_arithmetic.md). -/

namespace Sys2Proof.Machine

/-- ADDB, ADD, ADDL (R192). -/
def execAddb (d : Reg) (src : Src .b) (s : State) : Result :=
  s.regFrom (z' := .b) d src (addResult (s.regByte d) (s.src src) false)
    (byteAddFlags (s.regByte d) (s.src src) false s.flags)
def execAdd (d : Reg) (src : Src .w) (s : State) : Result :=
  s.regFrom (z' := .w) d src (addResult (s.reg d) (s.src src) false) (addFlags (s.reg d) (s.src src) false s.flags)
def execAddl (d : Reg) (src : Src .l) (s : State) : Result :=
  s.regFrom (z' := .l) d src (addResult (s.regLong d) (s.src src) false)
    (addFlags (s.regLong d) (s.src src) false s.flags)

/-- SUBB, SUB, SUBL (R202). -/
def execSubb (d : Reg) (src : Src .b) (s : State) : Result :=
  s.regFrom (z' := .b) d src (subResult (s.regByte d) (s.src src) false)
    (byteSubFlags (s.regByte d) (s.src src) false s.flags)
def execSub (d : Reg) (src : Src .w) (s : State) : Result :=
  s.regFrom (z' := .w) d src (subResult (s.reg d) (s.src src) false) (subFlags (s.reg d) (s.src src) false s.flags)
def execSubl (d : Reg) (src : Src .l) (s : State) : Result :=
  s.regFrom (z' := .l) d src (subResult (s.regLong d) (s.src src) false)
    (subFlags (s.regLong d) (s.src src) false s.flags)

/-- ADCB, ADC (R191). -/
def execAdcb (d r : Reg) (s : State) : Result :=
  .next (((s.setRegByte d (addResult (s.regByte d) (s.regByte r) s.flags.c)).setFlags
    (byteAddFlags (s.regByte d) (s.regByte r) s.flags.c s.flags)).advance 1)
def execAdc (d r : Reg) (s : State) : Result :=
  .next (((s.setReg d (addResult (s.reg d) (s.reg r) s.flags.c)).setFlags
    (addFlags (s.reg d) (s.reg r) s.flags.c s.flags)).advance 1)

/-- SBCB, SBC (R201). -/
def execSbcb (d r : Reg) (s : State) : Result :=
  .next (((s.setRegByte d (subResult (s.regByte d) (s.regByte r) s.flags.c)).setFlags
    (byteSubFlags (s.regByte d) (s.regByte r) s.flags.c s.flags)).advance 1)
def execSbc (d r : Reg) (s : State) : Result :=
  .next (((s.setReg d (subResult (s.reg d) (s.reg r) s.flags.c)).setFlags
    (subFlags (s.reg d) (s.reg r) s.flags.c s.flags)).advance 1)

/-- CPB, CP, CPL (R193): flags only; DA and H are unchanged (U9, log entry 14). -/
def State.cp (s : State) {z : Size} : CpArgs z → Result
  | .reg d src => s.flagsFrom src (subFlags (s.regOf z d) (s.src src) false s.flags)
  | .memImm m v =>
    whenAligned (s.accessOk z (s.memAddr m))
      ((s.setFlags (subFlags (s.peek z (s.memSpace m) (s.memAddr m)) v false s.flags)).advance
        (1 + m.words.length + (immWords z v).length))

def execCpb (a : CpArgs .b) (s : State) : Result := s.cp a
def execCp (a : CpArgs .w) (s : State) : Result := s.cp a
def execCpl (a : CpArgs .l) (s : State) : Result := s.cp a

/-- DAB (R194). -/
def execDab (d : Reg) (s : State) : Result :=
  .next (((s.setRegByte d (dabResult (s.regByte d) s.flags)).setFlags
    (dabFlags (s.regByte d) (s.drawBit .dabV) s.flags)).advance 1)

/-- INC, DEC (R195, R198): `n` is the amount less one; C is not changed. -/
def State.inc (s : State) (z : Size) (d : Dst) (n : BitVec 4) : Result :=
  s.modify z d (addResult (s.dst z d) (BitVec.ofNat z.bits (n.toNat + 1)) false)
    (keepCarry s.flags (addFlags (s.dst z d) (BitVec.ofNat z.bits (n.toNat + 1)) false s.flags))

def State.dec (s : State) (z : Size) (d : Dst) (n : BitVec 4) : Result :=
  s.modify z d (subResult (s.dst z d) (BitVec.ofNat z.bits (n.toNat + 1)) false)
    (keepCarry s.flags (subFlags (s.dst z d) (BitVec.ofNat z.bits (n.toNat + 1)) false s.flags))

def execIncb (d : Dst) (n : BitVec 4) (s : State) : Result := s.inc .b d n
def execInc (d : Dst) (n : BitVec 4) (s : State) : Result := s.inc .w d n
def execDecb (d : Dst) (n : BitVec 4) (s : State) : Result := s.dec .b d n
def execDec (d : Dst) (n : BitVec 4) (s : State) : Result := s.dec .w d n

/-- NEGB, NEG (R200). -/
def State.neg (s : State) (z : Size) (d : Dst) : Result :=
  s.modify z d (subResult 0 (s.dst z d) false) (subFlags 0 (s.dst z d) false s.flags)

def execNegb (d : Dst) (s : State) : Result := s.neg .b d
def execNeg (d : Dst) (s : State) : Result := s.neg .w d

/-- EXTSB, EXTS, EXTSL (R197). -/
def execExtsb (d : Reg) (s : State) : Result :=
  .next ((s.setReg d ((lowByte (s.reg d)).signExtend 16)).advance 1)
def execExts (d : Reg) (s : State) : Result :=
  .next ((s.setReg d (if (s.reg (d + 1)).msb then 0xFFFF else 0)).advance 1)
def execExtsl (d : Reg) (s : State) : Result :=
  .next ((s.setRegLong d (if (s.reg (d + 2)).msb then 0xFFFFFFFF else 0)).advance 1)

/-- MULT, MULTL (R199): the multiplicand is the low half of the destination. -/
def execMult (d : Reg) (src : Src .w) (s : State) : Result :=
  s.regFrom (z' := .l) d src (BitVec.ofInt 32 ((s.reg (d + 1)).toInt * (s.src src).toInt))
    (multFlags 16 ((s.reg (d + 1)).toInt * (s.src src).toInt) s.flags)

def execMultl (d : Reg) (src : Src .l) (s : State) : Result :=
  whenAligned (s.srcOk src)
    (((s.setRegQuad d (BitVec.ofInt 64 ((s.regLong (d + 2)).toInt * (s.src src).toInt))).setFlags
      (multFlags 32 ((s.regLong (d + 2)).toInt * (s.src src).toInt) s.flags)).advance (1 + src.words.length))

/-- The destination of DIV: remainder in the high half, quotient in the low; a free value where the spec leaves it
open (R196, U10). -/
def State.divDest (s : State) (n : Nat) : Division → BitVec (n + n)
  | .fits q m => BitVec.ofInt n m ++ BitVec.ofInt n q
  | .byZero => s.draw .divDestination (n + n)
  | .oneBit => s.draw .divDestination (n + n)
  | .gross => s.draw .divDestination (n + n)

/-- DIV, DIVL (R196). -/
def execDiv (d : Reg) (src : Src .w) (s : State) : Result :=
  s.regFrom (z' := .l) d src (s.divDest 16 (divide 16 (s.regLong d).toInt (s.src src).toInt))
    (divFlags (s.drawBit .divS) s.flags (divide 16 (s.regLong d).toInt (s.src src).toInt))

def execDivl (d : Reg) (src : Src .l) (s : State) : Result :=
  whenAligned (s.srcOk src)
    (((s.setRegQuad d (s.divDest 32 (divide 32 (s.regQuad d).toInt (s.src src).toInt))).setFlags
      (divFlags (s.drawBit .divS) s.flags (divide 32 (s.regQuad d).toInt (s.src src).toInt))).advance
      (1 + src.words.length))

end Sys2Proof.Machine
end

