-- ==== Sys2Proof/Machine/LoadExchange.lean ====
section
/-! DEFINITION. Load and exchange instructions (spec/40_load_exchange.md). -/

namespace Sys2Proof.Machine

/-- LD, LDB, LDL (R153): the address is computed before anything is written. -/
def State.ld (s : State) {z : Size} : LdArgs z → Result
  | .reg d r => .next ((s.setRegOf z d (s.regOf z r)).advance 1)
  | .imm d v => .next ((s.setRegOf z d v).advance (1 + (immWords z v).length))
  | .load d m =>
    whenAligned (s.accessOk z (s.xmemAddr m))
      ((s.setRegOf z d (s.peek z (s.xmemSpace m) (s.xmemAddr m))).advance (1 + xmemWords m))
  | .store m r =>
    whenAligned (s.accessOk z (s.xmemAddr m))
      ((s.poke z (s.xmemSpace m) (s.xmemAddr m) (s.regOf z r)).advance (1 + xmemWords m))
  | .storeImm m v =>
    whenAligned (s.accessOk z (s.memAddr m))
      ((s.poke z (s.memSpace m) (s.memAddr m) v).advance (1 + m.words.length + (immWords z v).length))
  | .compact d v => .next ((s.setRegOf z d v).advance 1)

def execLdb (a : LdArgs .b) (s : State) : Result := s.ld a
def execLd (a : LdArgs .w) (s : State) : Result := s.ld a
def execLdl (a : LdArgs .l) (s : State) : Result := s.ld a

/-- LDR, LDRB, LDRL (R158): a program reference (R73). -/
def State.ldr (s : State) (z : Size) (dir : Dir) (r : Reg) (disp : Word) : Result :=
  let a := (s.advance 2).relAddr disp
  whenAligned (s.accessOk z a)
    (match dir with
    | .load => (s.setRegOf z r (s.peek z (s.space .code) a)).advance 2
    | .store => (s.poke z (s.space .code) a (s.regOf z r)).advance 2)

def execLdrb (dir : Dir) (r : Reg) (disp : Word) (s : State) : Result := s.ldr .b dir r disp
def execLdr (dir : Dir) (r : Reg) (disp : Word) (s : State) : Result := s.ldr .w dir r disp
def execLdrl (dir : Dir) (r : Reg) (disp : Word) (s : State) : Result := s.ldr .l dir r disp

/-- An address is put in a register, in segmented mode in a pair (R154, U8). -/
def State.setAddr (s : State) (d : Reg) (a : Addr) : State :=
  if s.segmented then (s.setReg d (s.segWord .ldaSegment a.seg)).setReg (d + 1) a.off else s.setReg d a.off

/-- LDA (R154). -/
def execLda (d : Reg) (a : XMem) (s : State) : Result :=
  .next ((s.setAddr d (s.xmemAddr a)).advance (1 + xmemWords a))

/-- LDAR (R155). -/
def execLdar (d : Reg) (disp : Word) (s : State) : Result :=
  .next ((s.setAddr d ((s.advance 2).relAddr disp)).advance 2)

/-- LDK (R156). -/
def execLdk (d : Reg) (n : BitVec 4) (s : State) : Result := .next ((s.setReg d (n.setWidth 16)).advance 1)

/-- LDM to registers: `n` words from address `a` on, register numbers wrap (R157). -/
def State.ldmLoad (s : State) (sp : Space) (a : Addr) (r : Reg) (n : Nat) : State :=
  s.setRegs r n fun i => s.peekWord sp (a.add (BitVec.ofNat 16 (2 * i)))

/-- LDM to memory (R157). -/
def State.ldmStore (s : State) (sp : Space) (a : Addr) (r : Reg) (n : Nat) : State :=
  s.pokeWords sp a n fun i => s.reg (r + BitVec.ofNat 4 i)

/-- LDM (R157): the address is computed at the start and used for all words. -/
def execLdm (dir : Dir) (m : Mem) (r : Reg) (n : BitVec 4) (s : State) : Result :=
  whenAligned (s.accessOk .w (s.memAddr m))
    ((match dir with
      | .load => s.ldmLoad (s.memSpace m) (s.memAddr m) r (n.toNat + 1)
      | .store => s.ldmStore (s.memSpace m) (s.memAddr m) r (n.toNat + 1)).advance (2 + m.words.length))

/-- CLRB, CLR (R151). -/
def execClrb (d : Dst) (s : State) : Result := s.modify .b d 0 s.flags
def execClr (d : Dst) (s : State) : Result := s.modify .w d 0 s.flags

/-- EX, EXB (R152): the operand is read, then written, then the register. -/
def State.exchange (s : State) (z : Size) (d : Reg) (src : Dst) : Result :=
  whenAligned (s.dstOk z src)
    (((s.setDst z src (s.regOf z d)).setRegOf z d (s.dst z src)).advance (1 + src.words.length))

def execExb (d : Reg) (src : Dst) (s : State) : Result := s.exchange .b d src
def execEx (d : Reg) (src : Dst) (s : State) : Result := s.exchange .w d src

/-- PUSH, PUSHL from a register or from memory (R160, U7). -/
def State.pushFrom (s : State) (z : Size) (sp : Reg) (src : Dst) : Result :=
  whenAligned (s.dstOk z src && s.accessOk z (s.addrReg sp))
    ((s.push z sp (s.stackDatum z sp src (s.dst z src))).advance (1 + src.words.length))

def execPushl (sp : Reg) (src : Dst) (s : State) : Result := s.pushFrom .l sp src

def execPush (sp : Reg) (src : Src .w) (s : State) : Result :=
  match src with
  | .reg r => s.pushFrom .w sp (.reg r)
  | .mem m => s.pushFrom .w sp (.mem m)
  | .imm v => whenAligned (s.accessOk .w (s.addrReg sp)) ((s.push .w sp v).advance 2)

/-- POP, POPL (R159, U7): the pointer moves before the destination is written. -/
def State.popTo (s : State) (z : Size) (d : Dst) (sp : Reg) : Result :=
  whenAligned (s.accessOk z (s.addrReg sp) && (s.drop z sp).dstOk z d)
    (((s.drop z sp).setDst z d (s.stackDatum z sp d (s.top z sp))).advance (1 + d.words.length))

def execPopl (d : Dst) (sp : Reg) (s : State) : Result := s.popTo .l d sp
def execPop (d : Dst) (sp : Reg) (s : State) : Result := s.popTo .w d sp

end Sys2Proof.Machine
end

