-- ==== Sys2Proof/Machine/Logical.lean ====
section
/-! DEFINITION. Logical instructions (spec/42_logical.md). -/

namespace Sys2Proof.Machine

/-- A logical instruction on words with result `r` (R230). -/
def State.logicWord (s : State) (d : Reg) (src : Src .w) (r : Word) : Result :=
  s.regFrom (z' := .w) d src r (logicFlags r s.flags)

/-- A logical instruction on bytes with result `r` (R230). -/
def State.logicByte (s : State) (d : Reg) (src : Src .b) (r : Byte) : Result :=
  s.regFrom (z' := .b) d src r (byteLogicFlags r s.flags)

/-- AND, ANDB (R231). -/
def execAndb (d : Reg) (src : Src .b) (s : State) : Result := s.logicByte d src (s.regByte d &&& s.src src)
def execAnd (d : Reg) (src : Src .w) (s : State) : Result := s.logicWord d src (s.reg d &&& s.src src)

/-- OR, ORB (R233). -/
def execOrb (d : Reg) (src : Src .b) (s : State) : Result := s.logicByte d src (s.regByte d ||| s.src src)
def execOr (d : Reg) (src : Src .w) (s : State) : Result := s.logicWord d src (s.reg d ||| s.src src)

/-- XOR, XORB (R236). -/
def execXorb (d : Reg) (src : Src .b) (s : State) : Result := s.logicByte d src (s.regByte d ^^^ s.src src)
def execXor (d : Reg) (src : Src .w) (s : State) : Result := s.logicWord d src (s.reg d ^^^ s.src src)

/-- COM, COMB (R232). -/
def execComb (d : Dst) (s : State) : Result :=
  s.modify .b d (~~~(s.dst .b d)) (byteLogicFlags (~~~(s.dst .b d)) s.flags)
def execCom (d : Dst) (s : State) : Result :=
  s.modify .w d (~~~(s.dst .w d)) (logicFlags (~~~(s.dst .w d)) s.flags)

/-- An instruction that reads a destination operand and writes flags only. -/
def State.testDst (s : State) (z : Size) (d : Dst) (f : Flags) : Result :=
  whenAligned (s.dstOk z d) ((s.setFlags f).advance (1 + d.words.length))

/-- TEST, TESTB, TESTL (R234). -/
def execTestb (d : Dst) (s : State) : Result := s.testDst .b d (byteLogicFlags (s.dst .b d) s.flags)
def execTest (d : Dst) (s : State) : Result := s.testDst .w d (logicFlags (s.dst .w d) s.flags)
def execTestl (d : Dst) (s : State) : Result := s.testDst .l d (logicFlags (s.dst .l d) s.flags)

/-- TCC, TCCB (R235): bit 0 is set where the condition holds, and never cleared. -/
def State.tcc (s : State) (z : Size) (c : Cond) (d : Reg) : Result :=
  .next ((if s.flags.holds c then s.setRegOf z d (s.regOf z d ||| 1#z.bits) else s).advance 1)

def execTccb (c : Cond) (d : Reg) (s : State) : Result := s.tcc .b c d
def execTcc (c : Cond) (d : Reg) (s : State) : Result := s.tcc .w c d

end Sys2Proof.Machine
end

