-- ==== Sys2Proof/Machine/RotateShift.lean ====
section
/-! DEFINITION. Rotate and shift instructions (spec/45_rotate_shift.md). -/

namespace Sys2Proof.Machine

/-- A rotate instruction (R302 to R306). -/
def State.rotateReg (s : State) (z : Size) (one : BitVec z.bits → Bool → BitVec z.bits × Bool) (d : Reg)
    (two : Bool) : Result :=
  .next (((s.setRegOf z d (rotate one two (s.regOf z d) s.flags.c).1).setFlags
    (rotateFlags (s.regOf z d) (rotate one two (s.regOf z d) s.flags.c) s.flags)).advance 1)

/-- RL, RLB (R302). -/
def execRlb (d : Reg) (two : Bool) (s : State) : Result := s.rotateReg .b rotateLeft1 d two
def execRl (d : Reg) (two : Bool) (s : State) : Result := s.rotateReg .w rotateLeft1 d two

/-- RR, RRB (R305). -/
def execRrb (d : Reg) (two : Bool) (s : State) : Result := s.rotateReg .b rotateRight1 d two
def execRr (d : Reg) (two : Bool) (s : State) : Result := s.rotateReg .w rotateRight1 d two

/-- RLC, RLCB (R303). -/
def execRlcb (d : Reg) (two : Bool) (s : State) : Result := s.rotateReg .b rotateLeftCarry1 d two
def execRlc (d : Reg) (two : Bool) (s : State) : Result := s.rotateReg .w rotateLeftCarry1 d two

/-- RRC, RRCB (R306). -/
def execRrcb (d : Reg) (two : Bool) (s : State) : Result := s.rotateReg .b rotateRightCarry1 d two
def execRrc (d : Reg) (two : Bool) (s : State) : Result := s.rotateReg .w rotateRightCarry1 d two

/-- The flags of a digit rotation: Z from the link register, S free, the others stay (R304). -/
def State.digitFlags (s : State) (link : Byte) : Flags := { s.flags with z := link == 0, s := s.drawBit .digitS }

/-- RLDB (R304): the digits of source and link move left through three places. -/
def execRldb (l r : Reg) (s : State) : Result :=
  let src := s.regByte r
  let link := s.regByte l
  let src' : Byte := src.extractLsb' 0 4 ++ link.extractLsb' 0 4
  let link' : Byte := link.extractLsb' 4 4 ++ src.extractLsb' 4 4
  .next ((((s.setRegByte r src').setRegByte l link').setFlags (s.digitFlags link')).advance 1)

/-- RRDB (R307): the digits move right. -/
def execRrdb (l r : Reg) (s : State) : Result :=
  let src := s.regByte r
  let link := s.regByte l
  let src' : Byte := link.extractLsb' 0 4 ++ src.extractLsb' 4 4
  let link' : Byte := link.extractLsb' 4 4 ++ src.extractLsb' 0 4
  .next ((((s.setRegByte r src').setRegByte l link').setFlags (s.digitFlags link')).advance 1)

/-- The result of a shift; with a count out of range a free value (R301, U12). -/
def State.shifted (s : State) (z : Size) (arith : Bool) (x : BitVec z.bits) (k : Int) : BitVec z.bits :=
  if legalCount z.bits k then shiftResult arith x k else s.draw .shiftResult z.bits

/-- V of a shift: of a left arithmetic shift by rule R310, of a right one 0 (R312), of a logical one free (R311, R313);
free too where the count is out of range (R301, U12). -/
def State.shiftV (s : State) (z : Size) (arith : Bool) (x : BitVec z.bits) (k : Int) : Bool :=
  if arith && legalCount z.bits k then
    if k < 0 then false else leftOverflow x k.toNat
  else s.drawBit .shiftV

/-- The flags of a shift. -/
def State.shiftFlags (s : State) (z : Size) (arith : Bool) (x : BitVec z.bits) (k : Int) : Flags :=
  { s.flags with
    c := if legalCount z.bits k then shiftCarry x k s.flags.c else s.drawBit .shiftC
    z := s.shifted z arith x k == 0
    s := (s.shifted z arith x k).msb
    v := s.shiftV z arith x k }

/-- A shift by the signed count `k` runs: its count is legal, or the platform does not refuse one that is not (R301,
U12). -/
def State.countOk (s : State) (z : Size) (k : Int) : Bool := legalCount z.bits k || s.platform.shiftCount == .run

/-- A shift instruction by the signed count `k` (R301, R308 to R313). -/
def State.shift (s : State) (z : Size) (arith : Bool) (d : Reg) (k : Int) : Result :=
  if s.countOk z k then
    .next (((s.setRegOf z d (s.shifted z arith (s.regOf z d) k)).setFlags
      (s.shiftFlags z arith (s.regOf z d) k)).advance 2)
  else .refused .shiftCount

/-- SLL, SLLB, SLLL (R311). -/
def execSllb (d : Reg) (k : Word) (s : State) : Result := s.shift .b false d k.toInt
def execSll (d : Reg) (k : Word) (s : State) : Result := s.shift .w false d k.toInt
def execSlll (d : Reg) (k : Word) (s : State) : Result := s.shift .l false d k.toInt

/-- SRL, SRLB, SRLL (R313): the count word is negative. -/
def execSrlb (d : Reg) (k : Word) (s : State) : Result := s.shift .b false d k.toInt
def execSrl (d : Reg) (k : Word) (s : State) : Result := s.shift .w false d k.toInt
def execSrll (d : Reg) (k : Word) (s : State) : Result := s.shift .l false d k.toInt

/-- SLA, SLAB, SLAL (R310). -/
def execSlab (d : Reg) (k : Word) (s : State) : Result := s.shift .b true d k.toInt
def execSla (d : Reg) (k : Word) (s : State) : Result := s.shift .w true d k.toInt
def execSlal (d : Reg) (k : Word) (s : State) : Result := s.shift .l true d k.toInt

/-- SRA, SRAB, SRAL (R312): the count word is negative. -/
def execSrab (d : Reg) (k : Word) (s : State) : Result := s.shift .b true d k.toInt
def execSra (d : Reg) (k : Word) (s : State) : Result := s.shift .w true d k.toInt
def execSral (d : Reg) (k : Word) (s : State) : Result := s.shift .l true d k.toInt

/-- SDL, SDLB, SDLL (R309): the count is in a word register. -/
def execSdlb (d r : Reg) (s : State) : Result := s.shift .b false d (s.reg r).toInt
def execSdl (d r : Reg) (s : State) : Result := s.shift .w false d (s.reg r).toInt
def execSdll (d r : Reg) (s : State) : Result := s.shift .l false d (s.reg r).toInt

/-- SDA, SDAB, SDAL (R308). -/
def execSdab (d r : Reg) (s : State) : Result := s.shift .b true d (s.reg r).toInt
def execSda (d r : Reg) (s : State) : Result := s.shift .w true d (s.reg r).toInt
def execSdal (d r : Reg) (s : State) : Result := s.shift .l true d (s.reg r).toInt

end Sys2Proof.Machine
end

