-- ==== Sys2Proof/Machine/Dispatch.lean ====
section
/-! DEFINITION. The meaning of each instruction, one arm per constructor of `Instr`. -/

namespace Sys2Proof.Machine

open Sys2Proof

def exec (i : Instr) (s : State) : Host.Outcome State Fault Refusal :=
  match i with
  | .addb d src => Sys2Proof.Machine.execAddb d src s
  | .add d src => Sys2Proof.Machine.execAdd d src s
  | .subb d src => Sys2Proof.Machine.execSubb d src s
  | .sub d src => Sys2Proof.Machine.execSub d src s
  | .orb d src => Sys2Proof.Machine.execOrb d src s
  | .or d src => Sys2Proof.Machine.execOr d src s
  | .andb d src => Sys2Proof.Machine.execAndb d src s
  | .and d src => Sys2Proof.Machine.execAnd d src s
  | .xorb d src => Sys2Proof.Machine.execXorb d src s
  | .xor d src => Sys2Proof.Machine.execXor d src s
  | .cpb a => Sys2Proof.Machine.execCpb a s
  | .cp a => Sys2Proof.Machine.execCp a s
  | .cpl a => Sys2Proof.Machine.execCpl a s
  | .subl d src => Sys2Proof.Machine.execSubl d src s
  | .addl d src => Sys2Proof.Machine.execAddl d src s
  | .multl d src => Sys2Proof.Machine.execMultl d src s
  | .mult d src => Sys2Proof.Machine.execMult d src s
  | .divl d src => Sys2Proof.Machine.execDivl d src s
  | .div d src => Sys2Proof.Machine.execDiv d src s
  | .ldb a => Sys2Proof.Machine.execLdb a s
  | .ld a => Sys2Proof.Machine.execLd a s
  | .ldl a => Sys2Proof.Machine.execLdl a s
  | .ldrb dir r disp => Sys2Proof.Machine.execLdrb dir r disp s
  | .ldr dir r disp => Sys2Proof.Machine.execLdr dir r disp s
  | .ldrl dir r disp => Sys2Proof.Machine.execLdrl dir r disp s
  | .lda d a => Sys2Proof.Machine.execLda d a s
  | .ldar d disp => Sys2Proof.Machine.execLdar d disp s
  | .ldk d n => Sys2Proof.Machine.execLdk d n s
  | .ldm dir m r n => Sys2Proof.Machine.execLdm dir m r n s
  | .comb dst => Sys2Proof.Machine.execComb dst s
  | .com dst => Sys2Proof.Machine.execCom dst s
  | .negb dst => Sys2Proof.Machine.execNegb dst s
  | .neg dst => Sys2Proof.Machine.execNeg dst s
  | .testb dst => Sys2Proof.Machine.execTestb dst s
  | .test dst => Sys2Proof.Machine.execTest dst s
  | .tsetb dst => Sys2Proof.Machine.execTsetb dst s
  | .tset dst => Sys2Proof.Machine.execTset dst s
  | .clrb dst => Sys2Proof.Machine.execClrb dst s
  | .clr dst => Sys2Proof.Machine.execClr dst s
  | .testl dst => Sys2Proof.Machine.execTestl dst s
  | .setflg f => Sys2Proof.Machine.execSetflg f s
  | .resflg f => Sys2Proof.Machine.execResflg f s
  | .comflg f => Sys2Proof.Machine.execComflg f s
  | .nop => Sys2Proof.Machine.execNop s
  | .ldctlb dir r => Sys2Proof.Machine.execLdctlb dir r s
  | .pushl sp src => Sys2Proof.Machine.execPushl sp src s
  | .push sp src => Sys2Proof.Machine.execPush sp src s
  | .popl dst sp => Sys2Proof.Machine.execPopl dst sp s
  | .pop dst sp => Sys2Proof.Machine.execPop dst sp s
  | .exb d src => Sys2Proof.Machine.execExb d src s
  | .ex d src => Sys2Proof.Machine.execEx d src s
  | .incb dst n => Sys2Proof.Machine.execIncb dst n s
  | .inc dst n => Sys2Proof.Machine.execInc dst n s
  | .decb dst n => Sys2Proof.Machine.execDecb dst n s
  | .dec dst n => Sys2Proof.Machine.execDec dst n s
  | .resb a => Sys2Proof.Machine.execResb a s
  | .res a => Sys2Proof.Machine.execRes a s
  | .setb a => Sys2Proof.Machine.execSetb a s
  | .set a => Sys2Proof.Machine.execSet a s
  | .bitb a => Sys2Proof.Machine.execBitb a s
  | .bit a => Sys2Proof.Machine.execBit a s
  | .tccb c d => Sys2Proof.Machine.execTccb c d s
  | .tcc c d => Sys2Proof.Machine.execTcc c d s
  | .dab d => Sys2Proof.Machine.execDab d s
  | .extsb d => Sys2Proof.Machine.execExtsb d s
  | .exts d => Sys2Proof.Machine.execExts d s
  | .extsl d => Sys2Proof.Machine.execExtsl d s
  | .adcb d r2 => Sys2Proof.Machine.execAdcb d r2 s
  | .adc d r2 => Sys2Proof.Machine.execAdc d r2 s
  | .sbcb d r2 => Sys2Proof.Machine.execSbcb d r2 s
  | .sbc d r2 => Sys2Proof.Machine.execSbc d r2 s
  | .rrdb l r2 => Sys2Proof.Machine.execRrdb l r2 s
  | .rldb l r2 => Sys2Proof.Machine.execRldb l r2 s
  | .rlb d two => Sys2Proof.Machine.execRlb d two s
  | .rl d two => Sys2Proof.Machine.execRl d two s
  | .rrb d two => Sys2Proof.Machine.execRrb d two s
  | .rr d two => Sys2Proof.Machine.execRr d two s
  | .rlcb d two => Sys2Proof.Machine.execRlcb d two s
  | .rlc d two => Sys2Proof.Machine.execRlc d two s
  | .rrcb d two => Sys2Proof.Machine.execRrcb d two s
  | .rrc d two => Sys2Proof.Machine.execRrc d two s
  | .sllb d k => Sys2Proof.Machine.execSllb d k s
  | .srlb d k => Sys2Proof.Machine.execSrlb d k s
  | .sll d k => Sys2Proof.Machine.execSll d k s
  | .srl d k => Sys2Proof.Machine.execSrl d k s
  | .slll d k => Sys2Proof.Machine.execSlll d k s
  | .srll d k => Sys2Proof.Machine.execSrll d k s
  | .slab d k => Sys2Proof.Machine.execSlab d k s
  | .srab d k => Sys2Proof.Machine.execSrab d k s
  | .sla d k => Sys2Proof.Machine.execSla d k s
  | .sra d k => Sys2Proof.Machine.execSra d k s
  | .slal d k => Sys2Proof.Machine.execSlal d k s
  | .sral d k => Sys2Proof.Machine.execSral d k s
  | .sdlb d r2 => Sys2Proof.Machine.execSdlb d r2 s
  | .sdl d r2 => Sys2Proof.Machine.execSdl d r2 s
  | .sdll d r2 => Sys2Proof.Machine.execSdll d r2 s
  | .sdab d r2 => Sys2Proof.Machine.execSdab d r2 s
  | .sda d r2 => Sys2Proof.Machine.execSda d r2 s
  | .sdal d r2 => Sys2Proof.Machine.execSdal d r2 s
  | .jp c m => Sys2Proof.Machine.execJp c m s
  | .call m => Sys2Proof.Machine.execCall m s
  | .ret c => Sys2Proof.Machine.execRet c s
  | .calr disp => Sys2Proof.Machine.execCalr disp s
  | .jr c disp => Sys2Proof.Machine.execJr c disp s
  | .djnz r disp => Sys2Proof.Machine.execDjnz r disp s
  | .dbjnz r disp => Sys2Proof.Machine.execDbjnz r disp s
  | .sc n => Sys2Proof.Machine.execSc n s
  | .iret => Sys2Proof.Machine.execIret s
  | .cpib r2 r d c => Sys2Proof.Machine.execCpib r2 r d c s
  | .cpirb r2 r d c => Sys2Proof.Machine.execCpirb r2 r d c s
  | .cpdb r2 r d c => Sys2Proof.Machine.execCpdb r2 r d c s
  | .cpdrb r2 r d c => Sys2Proof.Machine.execCpdrb r2 r d c s
  | .cpsib r2 r d c => Sys2Proof.Machine.execCpsib r2 r d c s
  | .cpsirb r2 r d c => Sys2Proof.Machine.execCpsirb r2 r d c s
  | .cpsdb r2 r d c => Sys2Proof.Machine.execCpsdb r2 r d c s
  | .cpsdrb r2 r d c => Sys2Proof.Machine.execCpsdrb r2 r d c s
  | .ldib r2 r d => Sys2Proof.Machine.execLdib r2 r d s
  | .ldirb r2 r d => Sys2Proof.Machine.execLdirb r2 r d s
  | .lddb r2 r d => Sys2Proof.Machine.execLddb r2 r d s
  | .lddrb r2 r d => Sys2Proof.Machine.execLddrb r2 r d s
  | .cpi r2 r d c => Sys2Proof.Machine.execCpi r2 r d c s
  | .cpir r2 r d c => Sys2Proof.Machine.execCpir r2 r d c s
  | .cpd r2 r d c => Sys2Proof.Machine.execCpd r2 r d c s
  | .cpdr r2 r d c => Sys2Proof.Machine.execCpdr r2 r d c s
  | .cpsi r2 r d c => Sys2Proof.Machine.execCpsi r2 r d c s
  | .cpsir r2 r d c => Sys2Proof.Machine.execCpsir r2 r d c s
  | .cpsd r2 r d c => Sys2Proof.Machine.execCpsd r2 r d c s
  | .cpsdr r2 r d c => Sys2Proof.Machine.execCpsdr r2 r d c s
  | .ldi r2 r d => Sys2Proof.Machine.execLdi r2 r d s
  | .ldir r2 r d => Sys2Proof.Machine.execLdir r2 r d s
  | .ldd r2 r d => Sys2Proof.Machine.execLdd r2 r d s
  | .lddr r2 r d => Sys2Proof.Machine.execLddr r2 r d s
  | .trib d r r2 => Sys2Proof.Machine.execTrib d r r2 s
  | .trtib d r r2 => Sys2Proof.Machine.execTrtib d r r2 s
  | .trirb d r r2 => Sys2Proof.Machine.execTrirb d r r2 s
  | .trtirb d r r2 => Sys2Proof.Machine.execTrtirb d r r2 s
  | .trdb d r r2 => Sys2Proof.Machine.execTrdb d r r2 s
  | .trtdb d r r2 => Sys2Proof.Machine.execTrtdb d r r2 s
  | .trdrb d r r2 => Sys2Proof.Machine.execTrdrb d r r2 s
  | .trtdrb d r r2 => Sys2Proof.Machine.execTrtdrb d r r2 s
  | .inb d p => Sys2Proof.Machine.execInb d p s
  | .outb p r2 => Sys2Proof.Machine.execOutb p r2 s
  | .sinb d p => Sys2Proof.Machine.execSinb d p s
  | .soutb p r2 => Sys2Proof.Machine.execSoutb p r2 s
  | .inib r2 r d => Sys2Proof.Machine.execInib r2 r d s
  | .inirb r2 r d => Sys2Proof.Machine.execInirb r2 r d s
  | .sinib r2 r d => Sys2Proof.Machine.execSinib r2 r d s
  | .sinirb r2 r d => Sys2Proof.Machine.execSinirb r2 r d s
  | .outib r2 r d => Sys2Proof.Machine.execOutib r2 r d s
  | .otirb r2 r d => Sys2Proof.Machine.execOtirb r2 r d s
  | .soutib r2 r d => Sys2Proof.Machine.execSoutib r2 r d s
  | .sotirb r2 r d => Sys2Proof.Machine.execSotirb r2 r d s
  | .indb r2 r d => Sys2Proof.Machine.execIndb r2 r d s
  | .indrb r2 r d => Sys2Proof.Machine.execIndrb r2 r d s
  | .sindb r2 r d => Sys2Proof.Machine.execSindb r2 r d s
  | .sindrb r2 r d => Sys2Proof.Machine.execSindrb r2 r d s
  | .outdb r2 r d => Sys2Proof.Machine.execOutdb r2 r d s
  | .otdrb r2 r d => Sys2Proof.Machine.execOtdrb r2 r d s
  | .soutdb r2 r d => Sys2Proof.Machine.execSoutdb r2 r d s
  | .sotdrb r2 r d => Sys2Proof.Machine.execSotdrb r2 r d s
  | .inw d p => Sys2Proof.Machine.execInw d p s
  | .out p r2 => Sys2Proof.Machine.execOut p r2 s
  | .sin d p => Sys2Proof.Machine.execSin d p s
  | .sout p r2 => Sys2Proof.Machine.execSout p r2 s
  | .ini r2 r d => Sys2Proof.Machine.execIni r2 r d s
  | .inir r2 r d => Sys2Proof.Machine.execInir r2 r d s
  | .sini r2 r d => Sys2Proof.Machine.execSini r2 r d s
  | .sinir r2 r d => Sys2Proof.Machine.execSinir r2 r d s
  | .outi r2 r d => Sys2Proof.Machine.execOuti r2 r d s
  | .otir r2 r d => Sys2Proof.Machine.execOtir r2 r d s
  | .souti r2 r d => Sys2Proof.Machine.execSouti r2 r d s
  | .sotir r2 r d => Sys2Proof.Machine.execSotir r2 r d s
  | .ind r2 r d => Sys2Proof.Machine.execInd r2 r d s
  | .indr r2 r d => Sys2Proof.Machine.execIndr r2 r d s
  | .sind r2 r d => Sys2Proof.Machine.execSind r2 r d s
  | .sindr r2 r d => Sys2Proof.Machine.execSindr r2 r d s
  | .outd r2 r d => Sys2Proof.Machine.execOutd r2 r d s
  | .otdr r2 r d => Sys2Proof.Machine.execOtdr r2 r d s
  | .soutd r2 r d => Sys2Proof.Machine.execSoutd r2 r d s
  | .sotdr r2 r d => Sys2Proof.Machine.execSotdr r2 r d s
  | .ldps m => Sys2Proof.Machine.execLdps m s
  | .halt => Sys2Proof.Machine.execHalt s
  | .mset => Sys2Proof.Machine.execMset s
  | .mres => Sys2Proof.Machine.execMres s
  | .mbit => Sys2Proof.Machine.execMbit s
  | .mreq d => Sys2Proof.Machine.execMreq d s
  | .di v n => Sys2Proof.Machine.execDi v n s
  | .ei v n => Sys2Proof.Machine.execEi v n s
  | .ldctl dir r c => Sys2Proof.Machine.execLdctl dir r c s
  | .extended op e e1 => Sys2Proof.Machine.execExtended op e e1 s

end Sys2Proof.Machine
end

