-- ==== Sys2Proof/Machine/Step.lean ====
section
/-! DEFINITION. The step of the machine. -/

namespace Sys2Proof.Machine

/-- One step: `State.turn` around `exec`. -/
def step (s : State) : Host.Outcome State Fault Refusal := s.turn exec

/-- The state in which the next step fetches and runs the instruction whose bits are `w`, numbered as
spec/opcode_table.json numbers them; bits from `nbits` on are 0. It stands for loading a program (log entry 8). -/
def State.withFetchWord (s : State) (nbits w : Nat) : State := s.placeInstruction (tableWords (w % 2 ^ nbits))

end Sys2Proof.Machine
end

