-- ==== Sys2Proof/Machine/Status.lean ====
section
/-! DEFINITION. The output pins as functions of the state and of the machine cycles (R52, R53, R560). -/

namespace Sys2Proof.Machine

/-- The kinds of machine cycle that ST0 to ST3 tell apart (R53). -/
inductive BusCycle where
  | internal
  | refresh
  | io (special : Bool)
  | acknowledge (kind : Request)
  /-- a data or stack reference, `epu` for a transfer to or from an Extended Processing Unit -/
  | memory (stack : Bool) (epu : Bool)
  /-- the first word of an instruction (IF1) -/
  | fetchFirst
  /-- a later word of an instruction, or another program reference -/
  | fetchNext
  | epuTransfer
  | locked
  deriving DecidableEq, Repr

/-- ST3 to ST0 (R53). -/
def BusCycle.code : BusCycle → BitVec 4
  | .internal => 0b0000
  | .refresh => 0b0001
  | .io false => 0b0010
  | .io true => 0b0011
  | .acknowledge .segt => 0b0100
  | .acknowledge .nmi => 0b0101
  | .acknowledge .nvi => 0b0110
  | .acknowledge .vi => 0b0111
  | .memory false false => 0b1000
  | .memory true false => 0b1001
  | .memory false true => 0b1010
  | .memory true true => 0b1011
  | .fetchNext => 0b1100
  | .fetchFirst => 0b1101
  | .epuTransfer => 0b1110
  | .locked => 0b1111

/-- The machine cycle that an event is, or is made of. -/
def Event.cycle : Event → BusCycle
  | .ioRead special _ _ _ => .io special
  | .ioWrite special _ _ _ => .io special
  | .acknowledge kind _ => .acknowledge kind
  | .ignoredFetch _ => .fetchFirst
  | .epu _ _ => .epuTransfer

/-! ## What the output lines show in a machine cycle -/

/-- The kind of a machine cycle: a memory cycle shows the class of its space and what it is for (R53, R71). TSET shows
1000 or 1001; 1111 is never shown (log entry 42). -/
def Cycle.kind : Cycle → BusCycle
  | .memory .firstFetch _ _ _ _ => .fetchFirst
  | .memory .reference ⟨_, .code⟩ _ _ _ => .fetchNext
  | .memory .reference ⟨_, .data⟩ _ _ _ => .memory false false
  | .memory .reference ⟨_, .stack⟩ _ _ _ => .memory true false
  | .memory .epu ⟨_, .code⟩ _ _ _ => .memory false true
  | .memory .epu ⟨_, .data⟩ _ _ _ => .memory false true
  | .memory .epu ⟨_, .stack⟩ _ _ _ => .memory true true
  | .io special _ _ _ => .io special
  | .acknowledge kind => .acknowledge kind
  | .epu _ => .epuTransfer
  | .internal => .internal
  | .refresh => .refresh

/-- R/W is Low, a write; `none` where the spec gives the line no level (R52). -/
def Cycle.writeLow : Cycle → Option Bool
  | .memory _ _ write _ _ => some write
  | .io _ write _ _ => some write
  | .acknowledge _ => some false
  | .epu write => some write
  | .internal => none
  | .refresh => none

/-- B/W is Low, a word; `none` where the spec gives the line no level (R52). -/
def Cycle.wordLow : Cycle → Option Bool
  | .memory _ _ _ byte _ => some !byte
  | .io _ _ byte _ => some !byte
  | .acknowledge _ => some true
  | .epu _ => some true
  | .internal => none
  | .refresh => none

/-- The segment number of a memory cycle (R52, R87). -/
def Cycle.segment : Cycle → Option (BitVec 7)
  | .memory _ _ _ _ a => some a.seg
  | .io _ _ _ _ => none
  | .acknowledge _ => none
  | .epu _ => none
  | .internal => none
  | .refresh => none

/-! ## The output lines after a step -/

/-- The last machine cycle that the CPU made. -/
def State.lastCycle (s : State) : Option Cycle := s.bus.getLast?

/-- A line that the last cycle sets; `none` while the bus is granted, when the line is 3-stated (R91), and where the spec
gives it no level. -/
def State.line {α : Type} (s : State) (f : Cycle → Option α) : Option α :=
  if s.busGranted then none else s.lastCycle.bind f

/-- The segment lines SN0 to SN6 of a Z8001: Low from RESET Low until the reset reads are done (R520, R521), else as the
last memory cycle set them; a Z8002 has none (R52, R560). -/
def State.snLines (s : State) : Option (BitVec 7) :=
  if !s.isZ8001 || s.busGranted then none else if s.resetPending then some 0 else s.line Cycle.segment

/-- ST3 to ST0: High from RESET Low until the reset reads (R520), else the code of the last cycle (R53). -/
def State.statusLines (s : State) : Option (BitVec 4) :=
  if s.busGranted then none else if s.resetPending then some 0b1111 else s.line fun c => some c.kind.code

/-- R/W is Low; RESET does not affect it (R520). -/
def State.rwLow (s : State) : Option Bool := s.line Cycle.writeLow

/-- B/W is Low; RESET does not affect it (R520). -/
def State.bwLow (s : State) : Option Bool := s.line Cycle.wordLow

/-- The N/S output is Low in system mode (R34, R52); `none` while the bus is granted, when it is 3-stated (R47, R91, R560). -/
def State.nsLow (s : State) : Option Bool := if s.busGranted then none else some s.system

/-- The MO output is Low, active (R50). -/
def State.moPinLow (s : State) : Bool := s.moLow

/-- The BUSACK output is Low: the bus is granted (R47, R91). -/
def State.busackLow (s : State) : Bool := s.busGranted

end Sys2Proof.Machine
end

