-- ==== Sys2Proof/Safety.lean ====
section
/-! DEFINITION. The terms that claims use: completion, what an instruction leaves unchanged, what the rules of the spec
say of a result and its flags, entries, the invariant, when a step is one instruction. -/

namespace Sys2Proof.Machine

/-- A meaning or a step answers a next state, and the state holds what `post` says. -/
def Completes (r : Result) (post : State → Prop) : Prop := ∃ t, r = .next t ∧ post t

/-! ## Frames -/

/-- What no instruction but those that name it changes, the pins and the events apart: the platform, the control
registers other than the FCW, the latches and the model's own fields. -/
def SameInternals (s t : State) : Prop :=
  t.platform = s.platform ∧ t.psapSeg = s.psapSeg ∧ t.psapOff = s.psapOff ∧ t.refresh = s.refresh
    ∧ t.nmiLatch = s.nmiLatch ∧ t.nmiLevel = s.nmiLevel ∧ t.halted = s.halted ∧ t.moLow = s.moLow
    ∧ t.busGranted = s.busGranted ∧ t.identTemp = s.identTemp ∧ t.resetPending = s.resetPending
    ∧ t.accepted = s.accepted ∧ t.stale = s.stale ∧ t.mmuRequest = s.mmuRequest ∧ t.bus = s.bus ∧ t.turns = s.turns
    ∧ t.tick = s.tick

/-- As `SameInternals`; and no pin has changed and there is no event. -/
def SameSpecials (s t : State) : Prop := SameInternals s t ∧ t.pins = s.pins ∧ t.events = s.events

/-- Every FCW bit outside `mask` is unchanged. -/
def SameFcw (s t : State) (mask : Word) : Prop := t.fcw &&& ~~~mask = s.fcw &&& ~~~mask

/-- C, Z, S, P/V (R33). -/
def flagMask : Word := 0x00F0

/-- C, Z, S, P/V, DA, H (R33). -/
def byteFlagMask : Word := 0x00FC

/-- The stack pointer copies that register numbers 14 and 15 do not name in the current mode (R26): on a Z8001 R14 and
R15 of the other mode, on a Z8002 R15 of the other mode (the model's unused copy of R14 stands beside it). -/
def State.otherCopies (s : State) : Word × Word :=
  if s.system then (s.normalR14, s.normalR15)
  else (if s.isZ8001 then s.regs[14] else s.normalR14, s.regs[15])

/-- Every word register that is not in `rs` is unchanged, as the mode names them, and so are the stack pointer copies
of the other mode (R26). -/
def SameRegs (s t : State) (rs : List Reg) : Prop :=
  (∀ r, r ∉ rs → t.reg r = s.reg r) ∧ t.otherCopies = s.otherCopies

/-- The word registers of a quadruple (R23). -/
def quadRegs (r : Reg) : List Reg := [r, r + 1, r + 2, r + 2 + 1]

/-- Every byte of memory, in every space, reads as before. -/
def SameMemory (s t : State) : Prop := ∀ sp a, t.peekByte sp a = s.peekByte sp a

/-- The cells of an operand of size `z` at `a` in the space `sp` (R75, R76, R79). -/
def State.cells (s : State) (sp : Space) (a : Addr) : Size → List Nat
  | .b => [s.cell sp a]
  | .w => [s.cell sp a.even, s.cell sp (a.even.add 1)]
  | .l => [s.cell sp a.even, s.cell sp (a.even.add 1), s.cell sp (a.add 2).even, s.cell sp ((a.add 2).even.add 1)]

/-- Every byte of memory outside `cells` reads as before, in every space; spaces that share storage (R72) show the
same change. -/
def SameMemoryBut (s t : State) (cells : List Nat) : Prop :=
  ∀ sp a, s.cell sp a ∉ cells → t.peekByte sp a = s.peekByte sp a

/-- Storage answers every cell (D17), each being listed once: no two of the addresses they belong to share a cell
(R72). -/
def Storage (s : State) (cells : List Nat) : Prop := (∀ k ∈ cells, s.absentCell k = false) ∧ cells.Nodup

/-- Storage answers every byte of an operand, each with a cell of its own. -/
def Present (s : State) (z : Size) (sp : Space) (a : Addr) : Prop := Storage s (s.cells sp a z)

/-- The cells of `n` words from address `a` on. -/
def State.wordCells (s : State) (sp : Space) (a : Addr) (n : Nat) : List Nat :=
  (List.range n).flatMap fun k => s.cells sp (a.add (BitVec.ofNat 16 (2 * k))) .w

/-- The operand of size `z` at `a` in `sp` holds `v` where storage answers it, and nothing else of memory changed. -/
def HoldsMem (s t : State) (z : Size) (sp : Space) (a : Addr) (v : BitVec z.bits) : Prop :=
  (Present s z sp a → t.peek z sp a = v) ∧ SameMemoryBut s t (s.cells sp a z)

/-- The program counter has passed `n` words (R31). -/
def Passed (s t : State) (n : Nat) : Prop := t.pc = s.pc + BitVec.ofNat 16 (2 * n) ∧ t.pcSeg = s.pcSeg

/-- The program counter holds the address `a`; a Z8002 has no segment to hold (R29). -/
def JumpedTo (s t : State) (a : Addr) : Prop :=
  t.pc = a.off ∧ t.pcSeg = if s.isZ8001 then a.seg else s.pcSeg

/-- Everything of an instruction that writes at most the word registers `rs`, the FCW bits in `mask` and no memory,
the program counter apart. -/
def Quietly (s t : State) (rs : List Reg) (mask : Word) : Prop :=
  SameRegs s t rs ∧ SameFcw s t mask ∧ SameSpecials s t ∧ SameMemory s t

/-- As `Quietly`, and the instruction passes to the next one, `n` words on. -/
def Frame (s t : State) (rs : List Reg) (mask : Word) (n : Nat) : Prop := Quietly s t rs mask ∧ Passed s t n

/-- As `Frame`, for an instruction that stores; what it stores is said by `HoldsMem`. -/
def StoreFrame (s t : State) (rs : List Reg) (mask : Word) (n : Nat) : Prop :=
  SameRegs s t rs ∧ SameFcw s t mask ∧ SameSpecials s t ∧ Passed s t n

/-- The register operand `d` of size `z` holds `v`, and the byte registers beside it are unchanged (R22, R23). -/
def HoldsReg (s t : State) (z : Size) (d : Reg) (v : BitVec z.bits) : Prop :=
  t.regOf z d = v ∧ (z = .b → ∀ k, k ≠ d → t.regByte k = s.regByte k)

/-- The destination operand holds `v`, FCW bits outside `mask` and everything else are unchanged, and the instruction is
`n` words long. -/
def Writes (s t : State) (z : Size) (d : Dst) (v : BitVec z.bits) (mask : Word) (n : Nat) : Prop :=
  match d with
  | .reg r => HoldsReg s t z r v ∧ Frame s t (wordRegs z r) mask n
  | .mem m => HoldsMem s t z (s.memSpace m) (s.memAddr m) v ∧ StoreFrame s t [] mask n

/-! ## Results and flags, in the words of the rules -/

/-- `add_N` of R190: `r` is the result of `a + b + cin` and `f` has its C, V, Z, S. -/
def AddN {n : Nat} (a b : BitVec n) (cin : Bool) (r : BitVec n) (f : Flags) : Prop :=
  r.toNat = (a.toNat + b.toNat + cin.toNat) % 2 ^ n
    ∧ (f.c = true ↔ 2 ^ n ≤ a.toNat + b.toNat + cin.toNat)
    ∧ (f.v = true ↔ a.msb = b.msb ∧ r.msb ≠ a.msb)
    ∧ (f.z = true ↔ r = 0) ∧ f.s = r.msb

/-- `sub_N` of R190: `r` is the result of `a - b - bin` and `f` has its C (borrow), V, Z, S. -/
def SubN {n : Nat} (a b : BitVec n) (bin : Bool) (r : BitVec n) (f : Flags) : Prop :=
  r.toNat = (2 ^ n + a.toNat - (b.toNat + bin.toNat)) % 2 ^ n
    ∧ (f.c = true ↔ a.toNat < b.toNat + bin.toNat)
    ∧ (f.v = true ↔ a.msb ≠ b.msb ∧ r.msb ≠ a.msb)
    ∧ (f.z = true ↔ r = 0) ∧ f.s = r.msb

/-- H of `add_N` on bytes (R190), and DA after a byte addition (R191, R192). -/
def AddH (a b : Byte) (cin : Bool) (f : Flags) : Prop :=
  f.d = false ∧ (f.h = true ↔ 15 < a.toNat % 16 + b.toNat % 16 + cin.toNat)

/-- H of `sub_N` on bytes (R190), and DA after a byte subtraction (R201, R202). -/
def SubH (a b : Byte) (bin : Bool) (f : Flags) : Prop :=
  f.d = true ∧ (f.h = true ↔ a.toNat % 16 < b.toNat % 16 + bin.toNat)

/-- Z and S of a result (R230). -/
def ZeroSign {n : Nat} (r : BitVec n) (f : Flags) : Prop := (f.z = true ↔ r = 0) ∧ f.s = r.msb

/-- P/V as even parity (R35, R230). -/
def EvenParity (r : Byte) (f : Flags) : Prop :=
  f.v = true ↔ ((List.range 8).countP fun i => r.getLsbD i) % 2 = 0

/-- The flags of a rotation of `x` whose result is `r`, C apart (R302). -/
def RotateFlags {n : Nat} (x r : BitVec n) (f : Flags) : Prop := ZeroSign r f ∧ (f.v = true ↔ r.msb ≠ x.msb)

/-! ## Loading the FCW -/

/-- The bits of the FCW that are reserved (R33). -/
def fcwReservedBit (i : Nat) : Bool := decide (i < 2) || (decide (8 ≤ i) && decide (i < 11))

/-- The FCW has been loaded with `w` (R33, R416): every bit that is not reserved is that of `w`, bit 15 of a Z8002 is 0,
and a reserved bit loaded with 0 is 0 (one loaded with 1 is open, U1). -/
def FcwLoaded (s t : State) (w : Word) : Prop :=
  ∀ i, i < 16 →
    if fcwReservedBit i then (w.getLsbD i = false → t.fcw.getLsbD i = false)
    else t.fcw.getLsbD i = (w.getLsbD i && (i != 15 || s.isZ8001))

/-! ## Entries -/

/-- The system stack: the stack space of system mode (R73, R470). -/
def systemStack : Space := ⟨true, .stack⟩

/-- The words of the frame that an entry leaves, from the stack pointer down: the old PC (on a Z8001 with the segment in
bits 14:8 of a word), the old FCW, `ident` (R470 step 4, R471). -/
def FrameWords (s : State) (saved : Addr) (ident : Word) (w : Nat → Word) : Prop :=
  w 1 = saved.off
    ∧ if s.isZ8001 then segOf (w 2) = saved.seg ∧ w 3 = s.fcw ∧ w 4 = ident
      else w 2 = s.fcw &&& 0x7FFF ∧ w 3 = ident

/-- How many words an entry pushes (R471). -/
def State.frameLength (s : State) : Nat := if s.isZ8001 then 4 else 3

/-- The cells of the frame that an entry pushes. -/
def State.frameCells (s : State) : List Nat :=
  (List.range s.frameLength).flatMap fun k => s.cells systemStack (s.belowSystemSp (k + 1)) .w

/-- The frame that an entry leaves on the system stack (R470 step 4, R471, R472), where storage answers it; nothing else
of memory has changed, and the stack pointer is at the identifier. -/
def FramePushed (s t : State) (saved : Addr) (ident : Word) : Prop :=
  (Storage s s.frameCells → FrameWords s saved ident fun k => t.peekWord systemStack (s.belowSystemSp k))
    ∧ SameMemoryBut s t s.frameCells
    ∧ t.regs = s.regs.set 15 (s.belowSystemSp s.frameLength).off

/-- The entry of `c` (R470 steps 3 to 6): the frame is on the system stack, no other register has changed, and the FCW
and the PC are those that the program status area holds once the frame is pushed. -/
def Entered (s t : State) (c : Cause) (ident : Word) (saved : Addr) : Prop :=
  FramePushed s t saved ident ∧ t.normalR14 = s.normalR14 ∧ t.normalR15 = s.normalR15
    ∧ FcwLoaded s t (t.psaFcw c) ∧ JumpedTo s t (t.psaPc c ident)

/-! ## Classes of instructions -/

/-- The privileged instructions (R135). -/
def privilegedInstr : Instr → Bool
  | .inb _ _ | .outb _ _ | .sinb _ _ | .soutb _ _ | .inw _ _ | .out _ _ | .sin _ _ | .sout _ _ => true
  | .inib _ _ _ | .inirb _ _ _ | .sinib _ _ _ | .sinirb _ _ _ | .outib _ _ _ | .otirb _ _ _ => true
  | .soutib _ _ _ | .sotirb _ _ _ | .indb _ _ _ | .indrb _ _ _ | .sindb _ _ _ | .sindrb _ _ _ => true
  | .outdb _ _ _ | .otdrb _ _ _ | .soutdb _ _ _ | .sotdrb _ _ _ => true
  | .ini _ _ _ | .inir _ _ _ | .sini _ _ _ | .sinir _ _ _ | .outi _ _ _ | .otir _ _ _ => true
  | .souti _ _ _ | .sotir _ _ _ | .ind _ _ _ | .indr _ _ _ | .sind _ _ _ | .sindr _ _ _ => true
  | .outd _ _ _ | .otdr _ _ _ | .soutd _ _ _ | .sotdr _ _ _ => true
  | .iret | .ldps _ | .halt | .mset | .mres | .mbit | .mreq _ | .di _ _ | .ei _ _ | .ldctl _ _ _ => true
  | _ => false

/-- The instructions that take an entry as their own effect (R258, R440). -/
def trappingInstr : Instr → Bool
  | .sc _ | .extended _ _ _ => true
  | _ => false

/-! ## The invariant -/

/-- What every step keeps: memory has its canonical form; bit 0 of the refresh counter is 0 (R37); a Z8002 has SEG = 0
and accepts no segment trap (R33, R458). -/
def State.Inv (s : State) : Prop :=
  s.mem.wf = true ∧ s.refresh.row.getLsbD 0 = false
    ∧ (s.isZ8001 = false → s.fcw.getLsbD 15 = false ∧ s.accepted ≠ some .segt)

/-! ## When a step is one instruction -/

/-- No pin holds the CPU: RESET, BUSREQ, WAIT and STOP are High, the bus is not granted, the reads that follow a
reset are done, and no turn is listed, so it is the CPU's. -/
def State.Free (s : State) : Prop :=
  s.pins.reset = false ∧ s.pins.busreq = false ∧ s.busGranted = false ∧ s.pins.wait = false
    ∧ s.resetPending = false ∧ s.pins.stop = false ∧ s.turns = []

/-- Nothing stands between the next step and the fetch: no hold, no accepted request, not halted, the PC even, no word
that may have been fetched ahead of a store. -/
def State.Quiet (s : State) : Prop :=
  s.Free ∧ s.accepted = none ∧ s.halted = false ∧ s.pc.getLsbD 0 = false ∧ s.stale = []

end Sys2Proof.Machine
end

