-- ==== Sys2Proof/Certificates/Slice0/Obligations.lean ====
section
/-! DEFINITION. The statements for the provers. A claim about several instructions of one shape is a definition of its
own (`…Claim`), stated for each of them. -/

open Sys2Proof Sys2Proof.Machine

namespace Sys2Proof.Machine

/-! ## Claims about one instruction, in the terms of its arguments -/

/-- The register, immediate and memory forms of a load (R153): the destination register holds the source, no flag
changes. -/
def LoadClaim {z : Size} (make : LdArgs z → Instr) : Prop :=
  ∀ (s : State) (d : Reg),
    (∀ r, Completes (exec (make (.reg d r)) s) fun t => Writes s t z (.reg d) (s.regOf z r) 0 1)
      ∧ (∀ v, Completes (exec (make (.imm d v)) s) fun t => Writes s t z (.reg d) v 0 (1 + (immWords z v).length))
      ∧ (∀ v, Completes (exec (make (.compact d v)) s) fun t => Writes s t z (.reg d) v 0 1)
      ∧ ∀ m, s.accessOk z (s.xmemAddr m) = true →
          Completes (exec (make (.load d m)) s) fun t =>
            Writes s t z (.reg d) (s.peek z (s.xmemSpace m) (s.xmemAddr m)) 0 (1 + xmemWords m)

/-- The store forms of a load instruction (R153): the operand in memory holds the source. -/
def StoreClaim {z : Size} (make : LdArgs z → Instr) : Prop :=
  ∀ (s : State),
    (∀ m r, s.accessOk z (s.xmemAddr m) = true →
        Completes (exec (make (.store m r)) s) fun t =>
          HoldsMem s t z (s.xmemSpace m) (s.xmemAddr m) (s.regOf z r) ∧ StoreFrame s t [] 0 (1 + xmemWords m))
      ∧ ∀ m v, s.accessOk z (s.memAddr m) = true →
        Completes (exec (make (.storeImm m v)) s) fun t =>
          Writes s t z (.mem m) v 0 (1 + m.words.length + (immWords z v).length)

/-- LDR, LDRB, LDRL (R158): program memory at the displacement from the next instruction. -/
def RelativeClaim (z : Size) (make : Dir → Reg → Word → Instr) : Prop :=
  ∀ (s : State) (r : Reg) (disp : Word),
    (s.advance 2).relAddr disp = ⟨s.codeSeg, s.pc + 4 + disp⟩
      ∧ (s.accessOk z ((s.advance 2).relAddr disp) = true →
          Completes (exec (make .load r disp) s) (fun t =>
              Writes s t z (.reg r) (s.peek z (s.space .code) ((s.advance 2).relAddr disp)) 0 2)
            ∧ Completes (exec (make .store r disp) s) (fun t =>
                HoldsMem s t z (s.space .code) ((s.advance 2).relAddr disp) (s.regOf z r) ∧ StoreFrame s t [] 0 2))

/-- An instruction that reads its destination operand, writes `f` of it back and sets no flag outside `mask`; `post`
says the flags of the next state from the old operand and the result. -/
def ModifyClaim (z : Size) (make : Dst → Instr) (f : BitVec z.bits → BitVec z.bits) (mask : Word)
    (post : BitVec z.bits → BitVec z.bits → Flags → Prop) : Prop :=
  ∀ (s : State) (d : Dst), s.dstOk z d = true →
    Completes (exec (make d) s) fun t =>
      Writes s t z d (f (s.dst z d)) mask (1 + d.words.length) ∧ post (s.dst z d) (f (s.dst z d)) t.flags

/-- EX, EXB (R152). -/
def ExchangeClaim (z : Size) (make : Reg → Dst → Instr) : Prop :=
  ∀ (s : State) (d : Reg),
    (∀ r, Completes (exec (make d (.reg r)) s) fun t =>
        t.regOf z r = s.regOf z d ∧ t.regOf z d = s.regOf z r
          ∧ (z = .b → ∀ k, k ≠ d → k ≠ r → t.regByte k = s.regByte k)
          ∧ Frame s t (wordRegs z d ++ wordRegs z r) 0 1)
      ∧ ∀ m, s.accessOk z (s.memAddr m) = true →
        Completes (exec (make d (.mem m)) s) fun t =>
          HoldsReg s t z d (s.peek z (s.memSpace m) (s.memAddr m))
            ∧ HoldsMem s t z (s.memSpace m) (s.memAddr m) (s.regOf z d)
            ∧ StoreFrame s t (wordRegs z d) 0 (1 + m.words.length)

/-- `v` has been pushed on the stack of the address register `sp` (R27, R160): only its offset register has moved. -/
def Pushed (s t : State) (z : Size) (sp : Reg) (v : BitVec z.bits) : Prop :=
  t.reg (s.offReg sp) = s.reg (s.offReg sp) - BitVec.ofNat 16 z.bytes
    ∧ HoldsMem s t z (s.regSpace sp) ((s.addrReg sp).add (-BitVec.ofNat 16 z.bytes)) v

/-- PUSH, PUSHL of a register or memory operand (R160); the datum is open where the operand is, or is addressed through,
the stack register (U7). -/
def PushClaim (z : Size) (make : Reg → Dst → Instr) : Prop :=
  ∀ (s : State) (sp : Reg) (src : Dst), s.dstOk z src = true → s.accessOk z (s.addrReg sp) = true →
    Completes (exec (make sp src) s) fun t =>
      ∃ v, (s.ownStack z sp src = false → v = s.dst z src) ∧ Pushed s t z sp v
        ∧ StoreFrame s t [s.offReg sp] 0 (1 + src.words.length)

/-- POP, POPL (R159): the pointer moves, then the destination is written; the datum is open as for PUSH (U7). -/
def PopClaim (z : Size) (make : Dst → Reg → Instr) : Prop :=
  ∀ (s : State) (sp : Reg), s.accessOk z (s.addrReg sp) = true →
    (∀ d, Completes (exec (make (.reg d) sp) s) fun t =>
        ∃ v, (s.ownStack z sp (.reg d) = false →
              v = s.peek z (s.regSpace sp) (s.addrReg sp)
                ∧ t.reg (s.offReg sp) = s.reg (s.offReg sp) + BitVec.ofNat 16 z.bytes)
          ∧ t.regOf z d = v ∧ Frame s t (s.offReg sp :: wordRegs z d) 0 1)
      ∧ ∀ m, s.accessOk z ((s.drop z sp).memAddr m) = true →
        Completes (exec (make (.mem m) sp) s) fun t =>
          ∃ v, (s.ownStack z sp (.mem m) = false →
                v = s.peek z (s.regSpace sp) (s.addrReg sp) ∧ (s.drop z sp).memAddr m = s.memAddr m)
            ∧ t.reg (s.offReg sp) = s.reg (s.offReg sp) + BitVec.ofNat 16 z.bytes
            ∧ HoldsMem s t z (s.memSpace m) ((s.drop z sp).memAddr m) v
            ∧ StoreFrame s t [s.offReg sp] 0 (1 + m.words.length)

/-- `OP Rd,src` with the old register and the source giving a result and flags as `post` says; `mask` holds the FCW bits
it may change. -/
def AluClaim (z : Size) (make : Reg → Src z → Instr) (mask : Word)
    (post : BitVec z.bits → BitVec z.bits → BitVec z.bits → Flags → Prop) : Prop :=
  ∀ (s : State) (d : Reg) (src : Src z), s.srcOk src = true →
    Completes (exec (make d src) s) fun t =>
      ∃ r, post (s.regOf z d) (s.src src) r t.flags ∧ Writes s t z (.reg d) r mask (1 + src.words.length)

/-- As `AluClaim`, with two registers and the old carry. -/
def CarryClaim (z : Size) (make : Reg → Reg → Instr) (mask : Word)
    (post : BitVec z.bits → BitVec z.bits → Bool → BitVec z.bits → Flags → Prop) : Prop :=
  ∀ (s : State) (d q : Reg),
    Completes (exec (make d q) s) fun t =>
      ∃ r, post (s.regOf z d) (s.regOf z q) s.flags.c r t.flags ∧ Writes s t z (.reg d) r mask 1

/-- CP, CPB, CPL (R193): the flags of the difference, nothing else. -/
def CompareClaim {z : Size} (make : CpArgs z → Instr) : Prop :=
  ∀ (s : State),
    (∀ d src, s.srcOk src = true →
        Completes (exec (make (.reg d src)) s) fun t =>
          (∃ r, SubN (s.regOf z d) (s.src src) false r t.flags) ∧ Frame s t [] flagMask (1 + src.words.length))
      ∧ ∀ m v, s.accessOk z (s.memAddr m) = true →
        Completes (exec (make (.memImm m v)) s) fun t =>
          (∃ r, SubN (s.peek z (s.memSpace m) (s.memAddr m)) v false r t.flags)
            ∧ Frame s t [] flagMask (1 + m.words.length + (immWords z v).length)

/-- INC and DEC by 1 to 16 (R195, R198): Z, S and P/V are those of the result, no other flag changes. -/
def StepByClaim (z : Size) (make : Dst → BitVec 4 → Instr)
    (post : BitVec z.bits → BitVec z.bits → BitVec z.bits → Flags → Prop) : Prop :=
  ∀ (s : State) (d : Dst) (n : BitVec 4), s.dstOk z d = true →
    Completes (exec (make d n) s) fun t =>
      ∃ r f, post (s.dst z d) (BitVec.ofNat z.bits (n.toNat + 1)) r f
        ∧ t.flags.z = f.z ∧ t.flags.s = f.s ∧ t.flags.v = f.v
        ∧ Writes s t z d r 0x0070 (1 + d.words.length)

/-- The flags of a signed product `p` whose multiplicand has `n` bits (R199). -/
def ProductFlags (n : Nat) (p : Int) (f : Flags) : Prop :=
  (f.z = true ↔ p = 0) ∧ (f.s = true ↔ p < 0) ∧ f.v = false
    ∧ (f.c = true ↔ p < -2 ^ (n - 1) ∨ 2 ^ (n - 1) ≤ p)

/-- What a division of `a` by `b` leaves (R196): `n` is the width of the divisor, `quot` and `rem` are the two halves of
the destination, `f` the flags. The quotient is the one truncated toward zero: the remainder is smaller than the
divisor and has the sign of the dividend. Where the quotient does not fit the destination is open (U10). -/
def Divided (n : Nat) (a b : Int) (quot rem : BitVec n) (f : Flags) : Prop :=
  if b = 0 then f.v = true ∧ f.z = true ∧ f.c = false
  else ∀ q m : Int, a = q * b + m → |m| < |b| → (m = 0 ∨ (m < 0 ↔ a < 0)) →
    if -2 ^ (n - 1) ≤ q ∧ q < 2 ^ (n - 1) then
      quot.toInt = q ∧ rem.toInt = m ∧ f.v = false ∧ f.c = false ∧ (f.z = true ↔ q = 0) ∧ (f.s = true ↔ q < 0)
    else if -2 ^ n ≤ q ∧ q < 2 ^ n then f.v = true ∧ f.c = true ∧ f.z = false
    else f.v = true ∧ f.c = false ∧ f.z = false

/-- A logical instruction on words (R230). -/
def LogicWordClaim (make : Reg → Src .w → Instr) (op : Word → Word → Word) : Prop :=
  AluClaim .w make 0x0060 fun a b r f => r = op a b ∧ ZeroSign r f

/-- A logical instruction on bytes (R230). -/
def LogicByteClaim (make : Reg → Src .b → Instr) (op : Byte → Byte → Byte) : Prop :=
  AluClaim .b make 0x0070 fun a b r f => r = op a b ∧ ZeroSign r f ∧ EvenParity r f

/-- An instruction that reads its operand and writes the flags in `mask` only. -/
def TestClaim (z : Size) (make : Dst → Instr) (mask : Word) (post : BitVec z.bits → Flags → Prop) : Prop :=
  ∀ (s : State) (d : Dst), s.dstOk z d = true →
    Completes (exec (make d) s) fun t => post (s.dst z d) t.flags ∧ Frame s t [] mask (1 + d.words.length)

/-- BIT, BITB (R281): Z is the complement of the bit, nothing else changes. -/
def BitTestClaim (z : Size) (make : BitArgs → Instr) : Prop :=
  ∀ (s : State) (a : BitArgs), s.dstOk z (bitDst a) = true →
    Completes (exec (make a) s) fun t =>
      t.flags.z = !(s.dst z (bitDst a)).getLsbD (s.bitNumber z a) ∧ Frame s t [] 0x0040 (1 + bitWords a)

/-- Which bit BIT, SET and RES take (R280): a static number is the field of the instruction, a dynamic one the low 4 bits of
the register for a word, the low 3 for a byte. -/
def BitNumberClaim : Prop :=
  ∀ (s : State) (d : Dst) (r q : Reg) (b : BitVec 4),
    (∀ z, s.bitNumber z (.static d b) = b.toNat)
      ∧ s.bitNumber .w (.dynamic r q) = ((s.reg q).extractLsb' 0 4).toNat
      ∧ s.bitNumber .b (.dynamic r q) = ((s.reg q).extractLsb' 0 3).toNat

/-- SET and RES (R282, R283): the bit becomes `b`, every other bit keeps its value, no flag changes. -/
def BitWriteClaim (z : Size) (b : Bool) (make : BitArgs → Instr) : Prop :=
  ∀ (s : State) (a : BitArgs), s.dstOk z (bitDst a) = true →
    Completes (exec (make a) s) fun t =>
      ∃ v, (∀ i, i < z.bits → v.getLsbD i = if i = s.bitNumber z a then b else (s.dst z (bitDst a)).getLsbD i)
        ∧ Writes s t z (bitDst a) v 0 (1 + bitWords a)

/-- How many positions a rotate moves (R124). -/
def positions (two : Bool) : Nat := if two then 2 else 1

/-- A rotate instruction (R302 to R306): `post` relates the old operand and carry, the number of positions, the result
and the new carry. -/
def RotateClaim (z : Size) (make : Reg → Bool → Instr)
    (post : BitVec z.bits → Bool → Nat → BitVec z.bits → Bool → Prop) : Prop :=
  ∀ (s : State) (d : Reg) (two : Bool),
    Completes (exec (make d two) s) fun t =>
      ∃ r, post (s.regOf z d) s.flags.c (positions two) r t.flags.c ∧ RotateFlags (s.regOf z d) r t.flags
        ∧ Writes s t z (.reg d) r flagMask 1

/-- A rotation of N bits, C the last bit moved (R302, R305). -/
def RotatedLeft {n : Nat} (x : BitVec n) (_ : Bool) (k : Nat) (r : BitVec n) (c : Bool) : Prop :=
  r = x.rotateLeft k ∧ c = r.getLsbD 0

def RotatedRight {n : Nat} (x : BitVec n) (_ : Bool) (k : Nat) (r : BitVec n) (c : Bool) : Prop :=
  r = x.rotateRight k ∧ c = r.msb

/-- A rotation of the N + 1 bits that C and the operand are (R303, R306). -/
def RotatedLeftThroughCarry {n : Nat} (x : BitVec n) (c : Bool) (k : Nat) (r : BitVec n) (c' : Bool) : Prop :=
  BitVec.ofBool c' ++ r = (BitVec.ofBool c ++ x).rotateLeft k

def RotatedRightThroughCarry {n : Nat} (x : BitVec n) (c : Bool) (k : Nat) (r : BitVec n) (c' : Bool) : Prop :=
  BitVec.ofBool c' ++ r = (BitVec.ofBool c ++ x).rotateRight k

/-- The result of a shift by `k` positions, left or right (R310 to R313), as a number. -/
def ShiftedBy (n : Nat) (arith : Bool) (x : BitVec n) (k : Int) (r : BitVec n) : Prop :=
  if 0 ≤ k then r.toNat = x.toNat * 2 ^ k.toNat % 2 ^ n
  else if arith then r.toInt = x.toInt / 2 ^ (-k).toNat
  else r.toNat = x.toNat / 2 ^ (-k).toNat

/-- C after a shift within the width: the last bit shifted out, or the old C (R301, R310 to R313). -/
def ShiftedOut (n : Nat) (x : BitVec n) (k : Int) (old new : Bool) : Prop :=
  (k = 0 → new = old) ∧ (0 < k → new = x.getLsbD (n - k.toNat)) ∧ (k < 0 → new = x.getLsbD ((-k).toNat - 1))

/-- A shift instruction by the signed count `k` in the state `s`. V of an arithmetic shift: 0 to the right, to the left
whether the sign changed at any step (R310, R312); that of a logical shift is open. A count beyond the width is refused
where the platform says so (R301, U12); that another platform runs it, with an open result, C and V, is the model's choice
(log entry 16). -/
def Shifts (z : Size) (arith : Bool) (s : State) (i : Instr) (d : Reg) (k : Int) : Prop :=
  let legal := -(z.bits : Int) ≤ k ∧ k ≤ z.bits
  (¬legal → s.platform.shiftCount = .refuse → exec i s = .refused .shiftCount)
    ∧ (legal ∨ s.platform.shiftCount = .run →
      Completes (exec i s) fun t =>
        ∃ r, Writes s t z (.reg d) r flagMask 2 ∧ ZeroSign r t.flags
          ∧ (legal →
              ShiftedBy z.bits arith (s.regOf z d) k r
                ∧ ShiftedOut z.bits (s.regOf z d) k s.flags.c t.flags.c
                ∧ (arith = true → k < 0 → t.flags.v = false)
                ∧ (arith = true → 0 ≤ k →
                    (t.flags.v = true ↔ ∃ j ≤ k.toNat, (s.regOf z d).getMsbD j ≠ (s.regOf z d).msb))))

/-- A static shift: the count is the second word of the instruction (R301). -/
def StaticShiftClaim (z : Size) (arith : Bool) (make : Reg → Word → Instr) : Prop :=
  ∀ (s : State) (d : Reg) (k : Word), Shifts z arith s (make d k) d k.toInt

/-- A dynamic shift: the count is in a word register (R301, R308, R309). -/
def DynamicShiftClaim (z : Size) (arith : Bool) (make : Reg → Reg → Instr) : Prop :=
  ∀ (s : State) (d q : Reg), Shifts z arith s (make d q) d (s.reg q).toInt

/-- DJNZ, DBJNZ (R253). -/
def CountedJumpClaim (z : Size) (make : Reg → BitVec 7 → Instr) : Prop :=
  ∀ (s : State) (r : Reg) (disp : BitVec 7),
    Completes (exec (make r disp) s) fun t =>
      HoldsReg s t z r (s.regOf z r - 1#z.bits) ∧ Quietly s t (wordRegs z r) 0 ∧ t.pcSeg = s.pcSeg
        ∧ t.pc = if t.regOf z r = 0 then s.pc + 2 else s.pc + 2 - 2 * disp.setWidth 16

/-- A return address is pushed on the implied stack (R26, R250): the address `n` words on, a word, in segmented mode a long
word with the segment in bits 14:8 of its high word. -/
def ReturnPushed (s t : State) (n : Nat) : Prop :=
  if s.segmented then
    ∃ w : Word, segOf w = s.codeSeg ∧ Pushed s t .l s.spReg (w ++ (s.pc + BitVec.ofNat 16 (2 * n)))
  else Pushed s t .w s.spReg (s.pc + BitVec.ofNat 16 (2 * n))

/-- The end of a block instruction (R331, R332): a repeating form stays until its end condition holds. -/
def BlockEnd (s t : State) (rep : Bool) (ended : Prop) : Prop :=
  t.pcSeg = s.pcSeg ∧ (rep = true → ¬ended → t.pc = s.pc) ∧ ((rep = false ∨ ended) → t.pc = s.pc + 4)

/-- A pointer register after an iteration (R331, R123). -/
def Moved (s t : State) (z : Size) (up : Bool) (p : Reg) : Prop :=
  t.reg (s.offReg p) =
    if up then s.reg (s.offReg p) + BitVec.ofNat 16 z.bytes else s.reg (s.offReg p) - BitVec.ofNat 16 z.bytes

/-- The count register and P/V after an iteration (R331). -/
def Counted (s t : State) (r : Reg) : Prop := t.reg r = s.reg r - 1 ∧ (t.flags.v = true ↔ t.reg r = 0)

/-- One iteration of a compare with a register (R334); C and S are open. -/
def BlockCompareClaim (z : Size) (up rep : Bool) (make : Reg → Reg → Reg → Cond → Instr) : Prop :=
  ∀ (s : State) (p r d : Reg) (c : Cond), (make p r d c).wellFormed s.segmented = true →
    s.accessOk z (s.addrReg p) = true →
    Completes (exec (make p r d c) s) fun t =>
      (∃ x f, SubN (s.regOf z d) (s.peek z (s.regSpace p) (s.addrReg p)) false x f ∧ t.flags.z = f.holds c)
        ∧ Moved s t z up p ∧ Counted s t r
        ∧ Quietly s t [s.offReg p, r] flagMask ∧ BlockEnd s t rep (t.flags.z = true ∨ t.reg r = 0)

/-- One iteration of a string compare (R339): destination element minus source element. -/
def StringCompareClaim (z : Size) (up rep : Bool) (make : Reg → Reg → Reg → Cond → Instr) : Prop :=
  ∀ (s : State) (p r d : Reg) (c : Cond), (make p r d c).wellFormed s.segmented = true →
    s.accessOk z (s.addrReg p) = true → s.accessOk z (s.addrReg d) = true →
    Completes (exec (make p r d c) s) fun t =>
      (∃ x f, SubN (s.peek z (s.regSpace d) (s.addrReg d)) (s.peek z (s.regSpace p) (s.addrReg p)) false x f
          ∧ t.flags.z = f.holds c)
        ∧ Moved s t z up p ∧ Moved s t z up d ∧ Counted s t r
        ∧ Quietly s t [s.offReg p, s.offReg d, r] flagMask ∧ BlockEnd s t rep (t.flags.z = true ∨ t.reg r = 0)

/-- One iteration of a block move (R344): P/V is the only flag. -/
def BlockMoveClaim (z : Size) (up rep : Bool) (make : Reg → Reg → Reg → Instr) : Prop :=
  ∀ (s : State) (p r d : Reg), (make p r d).wellFormed s.segmented = true →
    s.accessOk z (s.addrReg p) = true → s.accessOk z (s.addrReg d) = true →
    Completes (exec (make p r d) s) fun t =>
      HoldsMem s t z (s.regSpace d) (s.addrReg d) (s.peek z (s.regSpace p) (s.addrReg p))
        ∧ Moved s t z up p ∧ Moved s t z up d ∧ Counted s t r
        ∧ SameRegs s t [s.offReg p, s.offReg d, r] ∧ SameFcw s t 0x0010 ∧ SameSpecials s t
        ∧ BlockEnd s t rep (t.reg r = 0)

/-- The table byte that a string byte selects (R349, R354): `p` points at the string, `q` at the table. -/
def tableByte (s : State) (p q : Reg) : Byte :=
  s.peekByte (s.regSpace q) ((s.addrReg q).add ((s.peekByte (s.regSpace p) (s.addrReg p)).setWidth 16))

/-- One iteration of a translate instruction (R349): RH1 and Z are open. -/
def TranslateClaim (up rep : Bool) (make : Reg → Reg → Reg → Instr) : Prop :=
  ∀ (s : State) (d r q : Reg), (make d r q).wellFormed s.segmented = true →
    Completes (exec (make d r q) s) fun t =>
      HoldsMem s t .b (s.regSpace d) (s.addrReg d) (tableByte s d q) ∧ Moved s t .b up d ∧ Counted s t r
        ∧ (∀ k, k ≠ 1 → k &&& 7 ≠ s.offReg d → k &&& 7 ≠ r → t.regByte k = s.regByte k)
        ∧ SameRegs s t [1, s.offReg d, r] ∧ SameFcw s t 0x0050 ∧ SameSpecials s t ∧ BlockEnd s t rep (t.reg r = 0)

/-- One iteration of a translate-and-test instruction (R354): the table byte goes to RH1, memory is not written. -/
def TranslateTestClaim (up rep : Bool) (make : Reg → Reg → Reg → Instr) : Prop :=
  ∀ (s : State) (p r q : Reg), (make p r q).wellFormed s.segmented = true →
    Completes (exec (make p r q) s) fun t =>
      t.regByte 1 = tableByte s p q ∧ (t.flags.z = true ↔ tableByte s p q = 0) ∧ Moved s t .b up p ∧ Counted s t r
        ∧ (∀ k, k ≠ 1 → k &&& 7 ≠ s.offReg p → k &&& 7 ≠ r → t.regByte k = s.regByte k)
        ∧ Quietly s t [1, s.offReg p, r] 0x0050 ∧ BlockEnd s t rep (t.flags.z = false ∨ t.reg r = 0)

/-- What a device answers: the platform's next word where there is one (D3), else an open value. -/
def Answered (s : State) (z : Size) (v : BitVec z.bits) : Prop :=
  ∀ x xs, s.pins.ioInput = x :: xs → v = x.setWidth z.bits

/-- One input cycle has been made (R382): one event, the platform's next answer used up, no other pin changed. -/
def OneInput (s t : State) (special : Bool) (port : Word) (z : Size) (v : BitVec z.bits) : Prop :=
  t.events = .ioRead special port z (v.setWidth 16) :: s.events
    ∧ t.pins = { s.pins with ioInput := s.pins.ioInput.tail } ∧ SameInternals s t

/-- One output cycle has been made (R382). -/
def OneOutput (s t : State) (special : Bool) (port : Word) (z : Size) (v : BitVec z.bits) : Prop :=
  t.events = .ioWrite special port z (v.setWidth 16) :: s.events ∧ t.pins = s.pins ∧ SameInternals s t

/-- A single input instruction in system mode (R384, R394). -/
def InputClaim (z : Size) (special : Bool) (i : Reg → Instr) (port : State → Word) (n : Nat) : Prop :=
  ∀ (s : State) (d : Reg), s.system = true →
    Completes (exec (i d) s) fun t =>
      ∃ v, Answered s z v ∧ OneInput s t special (port s) z v ∧ HoldsReg s t z d v
        ∧ SameRegs s t (wordRegs z d) ∧ SameFcw s t 0 ∧ SameMemory s t ∧ Passed s t n

/-- A single output instruction in system mode (R389, R399). -/
def OutputClaim (z : Size) (special : Bool) (i : Reg → Instr) (port : State → Word) (n : Nat) : Prop :=
  ∀ (s : State) (r : Reg), s.system = true →
    Completes (exec (i r) s) fun t =>
      OneOutput s t special (port s) z (s.regOf z r)
        ∧ SameRegs s t [] ∧ SameFcw s t 0 ∧ SameMemory s t ∧ Passed s t n

/-- One iteration of a block input instruction in system mode (R383): Z is open. -/
def BlockInputClaim (z : Size) (special up rep : Bool) (make : Reg → Reg → Reg → Instr) : Prop :=
  ∀ (s : State) (p r d : Reg), s.system = true → (make p r d).wellFormed s.segmented = true →
    s.accessOk z (s.addrReg d) = true →
    Completes (exec (make p r d) s) fun t =>
      ∃ v, Answered s z v ∧ OneInput s t special (s.reg p) z v ∧ HoldsMem s t z (s.regSpace d) (s.addrReg d) v
        ∧ Moved s t z up d ∧ Counted s t r ∧ SameRegs s t [s.offReg d, r] ∧ SameFcw s t 0x0050
        ∧ BlockEnd s t rep (t.reg r = 0)

/-- One iteration of a block output instruction in system mode (R383): Z is open. -/
def BlockOutputClaim (z : Size) (special up rep : Bool) (make : Reg → Reg → Reg → Instr) : Prop :=
  ∀ (s : State) (p r d : Reg), s.system = true → (make p r d).wellFormed s.segmented = true →
    s.accessOk z (s.addrReg p) = true →
    Completes (exec (make p r d) s) fun t =>
      OneOutput s t special (s.reg d) z (s.peek z (s.regSpace p) (s.addrReg p))
        ∧ Moved s t z up p ∧ Counted s t r ∧ SameRegs s t [s.offReg p, r] ∧ SameFcw s t 0x0050 ∧ SameMemory s t
        ∧ BlockEnd s t rep (t.reg r = 0)

/-- The agent's action `a` has been made (R10): its own lines and what it has ready have changed, a refresh cycle has
advanced the refresh counter by an open amount where refresh is enabled and the CPU has the bus (R37, R98), and nothing else
has changed but the NMI detector and the step counter. -/
def AgentMoved (s t : State) (a : AgentAction) : Prop :=
  t = ({ s with pins := t.pins, refresh := t.refresh, bus := t.bus } : State).settle
    ∧ (if a = .refresh ∧ s.refresh.enable = true ∧ s.busGranted = false then
        t.refresh = { s.refresh with row := t.refresh.row } ∧ t.refresh.row.getLsbD 0 = false ∧ t.bus = [.refresh]
      else t.refresh = s.refresh ∧ t.bus = s.bus)
    ∧ t.pins = match a with
      | .request .nmi low ident => { s.pins with nmi := low, ackNmi := ident }
      | .request .segt low ident => { s.pins with segt := low, ackSegt := ident }
      | .request .vi low ident => { s.pins with vi := low, ackVi := ident }
      | .request .nvi low ident => { s.pins with nvi := low, ackNvi := ident }
      | .reset low => { s.pins with reset := low }
      | .stop low => { s.pins with stop := low }
      | .wait low => { s.pins with wait := low }
      | .busreq low writes => { s.pins with busreq := low, dma := s.pins.dma ++ writes }
      | .micro mi settled => { s.pins with mi := mi, miSettled := settled }
      | .device words => { s.pins with ioInput := s.pins.ioInput ++ words }
      | .epu words => { s.pins with epuOutput := s.pins.epuOutput ++ words }
      | .refresh => s.pins

/-- The words that an Extended Processing Unit has taken are on record, and it has supplied none (R440). -/
def EpuTook (s t : State) (words : List Word) : Prop :=
  t.events = .epu true words :: s.events ∧ t.pins = s.pins ∧ SameInternals s t

/-- An Extended Processing Unit has supplied the `n` words `w` (R440): the platform's, as far as it has them ready. -/
def EpuGave (s t : State) (n : Nat) (w : Nat → Word) : Prop :=
  (∀ k v, k < n → s.pins.epuOutput[k]? = some v → w k = v)
    ∧ t.events = .epu false ((List.range n).map w) :: s.events
    ∧ t.pins = { s.pins with epuOutput := s.pins.epuOutput.drop n } ∧ SameInternals s t

/-- The cells that a write cycle stores to. -/
def State.writtenCells (s : State) : Cycle → List Nat
  | .memory _ sp true byte a => s.cells sp a (if byte then .b else .w)
  | .memory _ _ false _ _ => []
  | .io _ _ _ _ => []
  | .acknowledge _ => []
  | .epu _ => []
  | .internal => []
  | .refresh => []

/-- The first words that R131 and R132 leave unassigned: by the upper byte, and within a group by fields A and B. -/
def unassignedWord (w : Word) : Bool :=
  let a := (w.extractLsb' 4 4).toNat
  let b := (w.extractLsb' 0 4).toNat
  match (w.extractLsb' 8 8).toNat with
  | 0x36 | 0x38 | 0x78 | 0x7E | 0x9D | 0x9F | 0xB9 | 0xBF => true
  | 0x0C | 0x4C | 0x4D => !([0, 1, 2, 4, 5, 6, 8].contains b)
  | 0x8C => !([0, 1, 2, 4, 6, 8, 9].contains b)
  | 0x0D => !([0, 1, 2, 4, 5, 6, 8, 9].contains b)
  | 0x8D => decide (8 < b) || (b == 7 && a != 0)
  | 0x1C | 0x5C => !([1, 8, 9].contains b)
  | 0x9C => b != 8
  | 0x1F | 0x5F | 0x39 | 0x79 | 0xB0 => b != 0
  | 0x9E => a != 0
  | 0xB1 => !([0, 7, 10].contains b)
  | 0xB2 => [5, 7, 13, 15].contains b
  | 0x3A | 0x3B => decide (11 < b)
  | 0xB8 => b % 2 == 1
  | 0xBA | 0xBB => [3, 5, 7, 11, 13, 15].contains b
  | 0x7A => a != 0 || b != 0
  | 0x7B => b != 13 && (a != 0 || !([0, 8, 9, 10].contains b))
  | 0x7C => a != 0 || decide (7 < b)
  | 0x7D => decide (b % 8 < 2)
  | _ => false

/-- The bits of a second word that R126 and R330 fix for a first word, and their values: must-be-zero bits, and the 1110
that ends TRTIRB and TRTDRB. -/
def fixedBits (w : Word) : Option (Word × Word) :=
  let a := (w.extractLsb' 4 4).toNat
  let b := (w.extractLsb' 0 4).toNat
  match (w.extractLsb' 8 8).toNat with
  | 0x70 | 0x71 | 0x72 | 0x73 | 0x74 | 0x75 | 0x77 => some (0xF0FF, 0)
  | 0x1C | 0x5C => if b = 1 ∨ b = 9 then some (0xF0F0, 0) else none
  | 0x22 | 0x23 | 0x24 | 0x25 | 0x26 | 0x27 => if a = 0 then some (0xF0FF, 0) else none
  | 0xB2 => if [3, 11].contains b then some (0xF0FF, 0) else none
  | 0xB3 => if [3, 7, 11, 15].contains b then some (0xF0FF, 0) else none
  | 0x3A | 0x3B => if [0, 1, 2, 3, 8, 9, 10, 11].contains b then some (0xF007, 0) else none
  | 0xBA | 0xBB =>
    if [1, 9].contains b then some (0xF007, 0)
    else if [0, 2, 4, 6, 8, 10, 12, 14].contains b then some (0xF000, 0) else none
  | 0xB8 =>
    if [0, 2, 4, 8, 10, 12].contains b then some (0xF00F, 0)
    else if [6, 14].contains b then some (0xF00F, 14) else none
  | _ => none

/-- Where the address of a direct or indexed operand begins, in words after the first (R122, R126). -/
def addressWord (w : Word) : Option Nat :=
  let upper := (w.extractLsb' 8 8).toNat
  if upper = 0x4E ∨ upper = 0x4F then none
  else if upper = 0x5C then some (if (w.extractLsb' 0 4).toNat = 8 then 0 else 1)
  else if (0x40 ≤ upper ∧ upper < 0x70) ∨ upper = 0x76 ∨ upper = 0x79 then some 0 else none

end Sys2Proof.Machine

/-! ## Reset, memory, registers -/

/-- R54, R520, D9: the machine right after reset. System mode before the reads is the model's choice (log entry 8). -/
def Obligations.ResetStateIsIdleInSystemMode : Prop :=
  State.reset.system = true ∧ State.reset.refresh.enable = false ∧ State.reset.moPinLow = false
    ∧ State.reset.halted = false ∧ State.reset.busackLow = false ∧ State.reset.nmiLatch = false
    ∧ State.reset.resetPending = true

/-- R520, R521, R523: a step with RESET Low, and the step of the reset reads. The NMI latch after the reads holds an
edge of that same step: the model's choice (log entry 9). -/
def Obligations.ResetSequenceLoadsProgramStatus : Prop :=
  (∀ s : State, s.turns = [] → s.pins.reset = true →
    Completes (step s) fun t =>
      t.refresh.enable = false ∧ t.moLow = false ∧ t.busGranted = false ∧ t.halted = false ∧ t.accepted = none
        ∧ t.nmiLatch = false ∧ t.resetPending = true ∧ t.mem = s.mem)
  ∧ ∀ s : State, s.turns = [] → s.pins.reset = false → s.pins.busreq = false → s.busGranted = false →
      s.pins.wait = false → s.resetPending = true →
    Completes (step s) fun t =>
      t.refresh.enable = false ∧ t.moLow = false ∧ t.busGranted = false ∧ t.halted = false ∧ t.accepted = none
        ∧ t.nmiLatch = (s.pins.nmi && !s.nmiLevel) ∧ t.resetPending = false ∧ t.mem = s.mem
        ∧ FcwLoaded s t (s.peekWord ⟨true, .code⟩ ⟨0, 2⟩)
        ∧ if s.isZ8001 then
            t.pcSeg = (s.peekWord ⟨true, .code⟩ ⟨0, 4⟩).extractLsb' 8 7 ∧ t.pc = s.peekWord ⟨true, .code⟩ ⟨0, 6⟩
          else t.pc = s.peekWord ⟨true, .code⟩ ⟨0, 4⟩

/-- R74, R75, R76: bytes, words and long words are stored most significant byte first, read back, and nothing else
changes. Where the memory map has no windows the bytes of an operand, of a transfer of several words and of an entry's
frame have cells of their own (R72); that a map may send parts of a space elsewhere is the model's form of D2 (log entry
2). -/
def Obligations.MemoryIsBigEndianAndReadsBack : Prop :=
  ∀ (s : State) (sp : Space) (a : Addr),
    (∀ z v, HoldsMem s (s.poke z sp a v) z sp a v)
      ∧ (s.platform.memoryMap.windows = [] →
          (∀ z, (s.cells sp a z).Nodup) ∧ (∀ n ≤ 32768, (s.wordCells sp a n).Nodup) ∧ s.frameCells.Nodup)
      ∧ (a.off.getLsbD 0 = false →
          s.peek .w sp a = s.peekByte sp a ++ s.peekByte sp (a.add 1)
            ∧ s.peek .l sp a = s.peek .w sp a ++ s.peek .w sp (a.add 2)
            ∧ ∀ v : Word, Present s .w sp a →
                (s.poke .w sp a v).peekByte sp a = v.extractLsb' 8 8
                  ∧ (s.poke .w sp a v).peekByte sp (a.add 1) = v.extractLsb' 0 8)

/-- R22, R23: the sixteen byte registers are the halves of R0 to R7; pairs and quadruples are word registers, most
significant first. -/
def Obligations.RegistersAlias : Prop :=
  ∀ s : State,
    (∀ n : Reg, n.toNat < 8 →
      s.regByte n = (s.reg n).extractLsb' 8 8 ∧ s.regByte (n + 8) = (s.reg n).extractLsb' 0 8
        ∧ ∀ v, (s.setRegByte n v).reg n = v ++ (s.reg n).extractLsb' 0 8
          ∧ (s.setRegByte (n + 8) v).reg n = (s.reg n).extractLsb' 8 8 ++ v)
    ∧ (∀ k v q, q ≠ k &&& 7 → (s.setRegByte k v).reg q = s.reg q)
    ∧ (∀ n v, pairOk n = true →
        (s.setRegLong n v).reg n = v.extractLsb' 16 16 ∧ (s.setRegLong n v).reg (n + 1) = v.extractLsb' 0 16
          ∧ (∀ q, q ≠ n → q ≠ n + 1 → (s.setRegLong n v).reg q = s.reg q)
          ∧ ∀ w, (s.setReg (n + 1) w).regLong n = s.reg n ++ w)
    ∧ ∀ n v, quadOk n = true →
        (s.setRegQuad n v).reg n = v.extractLsb' 48 16 ∧ (s.setRegQuad n v).reg (n + 1) = v.extractLsb' 32 16
          ∧ (s.setRegQuad n v).reg (n + 2) = v.extractLsb' 16 16 ∧ (s.setRegQuad n v).reg (n + 3) = v.extractLsb' 0 16
          ∧ ∀ q, q ∉ quadRegs n → (s.setRegQuad n v).reg q = s.reg q

/-- R26: which copies register numbers 14 and 15 name, in both modes of both versions; every register reads back what
was written, no other register and no other copy changes. -/
def Obligations.StackPointerCopiesFollowMode : Prop :=
  ∀ s : State,
    (s.system = true → s.reg 15 = s.regs[15] ∧ s.reg 14 = s.regs[14])
      ∧ (s.system = false → s.reg 15 = s.normalR15
          ∧ s.reg 14 = if s.isZ8001 then s.normalR14 else s.regs[14])
      ∧ (∀ r : Reg, r.toNat < 14 → s.reg r = s.regs[r.toNat]'r.isLt)
      ∧ ∀ (r : Reg) (v : Word), (s.setReg r v).reg r = v ∧ SameRegs s (s.setReg r v) [r]

/-- R116 to R121: the effective addresses of the memory modes, with every form of a direct address (R122); and the class
of the access (R73): stack where the address register is the implied stack pointer of R26, else data. That an index
register never makes an access a stack access is the model's reading of R73 (log entry 20). -/
def Obligations.EffectiveAddresses : Prop :=
  ∀ (s : State) (r x : Reg) (a : AbsAddr) (disp off : Word) (seg : BitVec 7) (short : Byte),
    (s.segmented = false → s.addrReg r = ⟨s.codeSeg, s.reg r⟩)
      ∧ (s.segmented = true → s.addrReg r = ⟨(s.reg r).extractLsb' 8 7, s.reg (r + 1)⟩)
      ∧ s.memAddr (.ir r) = s.addrReg r
      ∧ s.memAddr (.da (.near off)) = ⟨s.codeSeg, off⟩
      ∧ s.memAddr (.da (.short seg short)) = ⟨seg, short.setWidth 16⟩
      ∧ s.memAddr (.da (.long seg off)) = ⟨seg, off⟩
      ∧ s.memAddr (.x (.near off) x) = ⟨s.codeSeg, off + s.reg x⟩
      ∧ s.memAddr (.x (.short seg short) x) = ⟨seg, short.setWidth 16 + s.reg x⟩
      ∧ s.memAddr (.x (.long seg off) x) = ⟨seg, off + s.reg x⟩
      ∧ s.xmemAddr (.ba r disp) = ⟨(s.addrReg r).seg, (s.addrReg r).off + disp⟩
      ∧ s.xmemAddr (.bx r x) = ⟨(s.addrReg r).seg, (s.addrReg r).off + s.reg x⟩
      ∧ (let ofReg : Space := ⟨s.system, if r = (if s.segmented then 14 else 15) then .stack else .data⟩
        s.memSpace (.ir r) = ofReg ∧ s.xmemSpace (.ba r disp) = ofReg ∧ s.xmemSpace (.bx r x) = ofReg)
      ∧ s.memSpace (.da a) = ⟨s.system, .data⟩ ∧ s.memSpace (.x a x) = ⟨s.system, .data⟩
      ∧ ∀ m, s.xmemAddr (.mem m) = s.memAddr m ∧ s.xmemSpace (.mem m) = s.memSpace m

/-- R130: the sixteen condition codes; code `c + 8` is the negation of code `c`. -/
def Obligations.ConditionCodes : Prop :=
  ∀ f : Flags,
    (f.holds (.ofBits 0) = false)
      ∧ (f.holds (.ofBits 1) = true ↔ (f.s ^^ f.v) = true)
      ∧ (f.holds (.ofBits 2) = true ↔ f.z = true ∨ (f.s ^^ f.v) = true)
      ∧ (f.holds (.ofBits 3) = true ↔ f.c = true ∨ f.z = true)
      ∧ (f.holds (.ofBits 4) = true ↔ f.v = true)
      ∧ (f.holds (.ofBits 5) = true ↔ f.s = true)
      ∧ (f.holds (.ofBits 6) = true ↔ f.z = true)
      ∧ (f.holds (.ofBits 7) = true ↔ f.c = true)
      ∧ ∀ c : BitVec 4, f.holds (.ofBits (c + 8)) = !f.holds (.ofBits c)

/-! ## Decoding and the step -/

/-- A step runs the instruction that the words at the program counter decode to, records its machine cycles, samples the
requests at its end and latches NMI (R89, R452, R45); a stop of the instruction is a stop of the step. From every state
the first word that a step runs is what memory holds, or one that a store replaced and that is on record for this address
(R94, R95); a record is for the fetch after an instruction in sequence only, or for the one after a repeating block
instruction. These are the model's choices: the record (log entry 12, where D10 would refuse the program), that the request accepted is kept for a later step (log entry 28), the list of cycles (log entry 42) and what
a memory management unit makes of it (log entry 44). -/
def Obligations.StepRunsDecodedInstruction : Prop :=
  (∀ s : State, s.firstCodeWord = s.peekWord (s.space .code) s.pcAddr
    ∨ ∃ x ∈ s.stale, x.addr = s.pcAddr ∧ s.firstCodeWord = x.word)
  ∧ (∀ (s t : State) (next : Addr), ∀ x ∈ s.staleAfter t next,
      x.addr = next
        ∧ (t.pcAddr = next ∨ (t.pcAddr = s.pcAddr ∧ blockOpcode s.firstCodeWord = true))
        ∧ (x ∈ s.stale ∨ x.word = s.peekWord (s.space .code) next))
  ∧ ∀ (s : State) (i : Instr) (rest : List Word), s.Quiet →
    decode s.segmented
      ((List.range 4).map fun n => s.peekWord (s.space .code) (s.pcAddr.add (BitVec.ofNat 16 (2 * n)))) =
        .ok (i, rest) →
    i.wellFormed s.segmented = true →
    let cycles := s.stepCycles i (4 - rest.length)
    step s =
      match exec i s with
      | .next t => .next
          { t.afterCycles cycles with
            accepted := s.sample (t.afterCycles cycles)
            stale := s.staleAfter t (s.pcAddr.add (BitVec.ofNat 16 (2 * (4 - rest.length))))
            nmiLatch := t.nmiLatch || (t.pins.nmi && !t.nmiLevel)
            nmiLevel := t.pins.nmi
            tick := t.tick + 1 }
      | .fault e => .fault e
      | .refused e => .refused e

/-- Words written out from the encoding tables decode to their instructions. -/
def Obligations.WordsDecode : Prop :=
  decode false [0x8121] = .ok (.add 1 (.reg 2), [])
    ∧ decode false [0x0701, 0x00FF] = .ok (.and 1 (.imm 0x00FF), [])
    ∧ decode false [0x7621, 0x4000] = .ok (.lda 1 (.mem (.x (.near 0x4000) 2)), [])
    ∧ decode false [0x1C41, 0x0102] = .ok (.ldm .load (.ir 4) 1 2, [])
    ∧ decode true [0x6101, 0x8500, 0x1234] = .ok (.ld (.load 1 (.mem (.da (.long 5 0x1234)))), [])
    ∧ decode false [0x5E0E, 0x1000] = .ok (.jp .ne (.da (.near 0x1000)), [])
    ∧ decode false [0xF082] = .ok (.djnz 0 2, [])
    ∧ decode false [0x2504, 0x0300] = .ok (.set (.dynamic 3 4), [])
    ∧ decode false [0xB311, 0xFFFC] = .ok (.srl 1 0xFFFC, [])
    ∧ decode false [0xBB11, 0x0328] = .ok (.ldi 1 3 2, [])
    ∧ decode false [0x3B14, 0xFF80] = .ok (.inw 1 (.direct 0xFF80), [])
    ∧ decode false [0x7D1A] = .ok (.ldctl .write 1 .fcw, [])
    ∧ decode false [0x8E00, 0x1234] = .ok (.extended .op8E 0 0x1234, [])

/-- Decoding the words of a well-formed instruction gives it back, in either mode, and leaves the words after it: no
bit of an encoding is dropped (R111 to R134). -/
def Obligations.DecodeOfEncode : Prop :=
  ∀ (seg : Bool) (i : Instr) (ws : List Word), i.wellFormed seg = true →
    decode seg (encode i ++ ws) = .ok (i, ws)

/-- R110: what the decoder reads is 1 to 4 words long, at most 3 in nonsegmented mode, as long as the encoding of the
instruction, and with 4 words at hand it never runs out of words. -/
def Obligations.InstructionsAreOneToFourWords : Prop :=
  ∀ (seg : Bool) (ws : List Word),
    (∀ i rest, decode seg ws = .ok (i, rest) →
      ∃ read, ws = read ++ rest ∧ read.length = (encode i).length ∧ 1 ≤ read.length ∧ read.length ≤ 4
        ∧ (seg = false → read.length ≤ 3))
    ∧ (4 ≤ ws.length → decode seg ws ≠ .error .truncated)

/-! ## Invariants -/

/-- The invariant holds right after reset. -/
def Obligations.ResetKeepsToTheInvariant : Prop := State.reset.Inv

/-- Every step keeps the invariant: the canonical form of memory, bit 0 of the refresh counter (R37), and on a Z8002
SEG = 0 and no segment trap (R33, R458). -/
def Obligations.StepKeepsTheInvariant : Prop :=
  ∀ s t : State, s.Inv → step s = .next t → t.Inv

/-- R491, R492, R28: an instruction that normal mode may run, traps apart, leaves the mode and FCW[15:8], the system
stack pointer, the control registers, MO and the pins as they are, and makes no I/O cycle. -/
def Obligations.NormalModeCannotTouchSystemState : Prop :=
  ∀ (s t : State) (i : Instr), s.system = false → privilegedInstr i = false → trappingInstr i = false →
    exec i s = .next t →
    t.fcw.extractLsb' 8 8 = s.fcw.extractLsb' 8 8 ∧ t.otherCopies = s.otherCopies ∧ t.regs[15] = s.regs[15]
      ∧ SameSpecials s t

/-- A CPU step changes no parameter of the platform and no pin but for what it takes from the other agents: at most one
device's answer, words of an Extended Processing Unit, and, of a bus requester that has the bus, all its writes; and it
adds events before those it found (R9, R10, R91, R560, R82). A CPU turn with further turns listed after it is that same step
with those turns kept. Every other agent of R10 moves in a turn of its own, which changes its own lines and what it has
ready; the NMI detector sees the line. The queues, the list of events and the list of turns are the model's form (log
entries 26, 31, 33, 46). -/
def Obligations.StepKeepsPlatformAndPins : Prop :=
  (∀ s t : State, s.turns = [] → step s = .next t →
    t.platform = s.platform ∧ t.turns = []
      ∧ t.pins = { s.pins with ioInput := t.pins.ioInput, epuOutput := t.pins.epuOutput, dma := t.pins.dma }
      ∧ (t.pins.ioInput = s.pins.ioInput ∨ t.pins.ioInput = s.pins.ioInput.tail)
      ∧ (∃ n, t.pins.epuOutput = s.pins.epuOutput.drop n)
      ∧ (t.pins.dma = s.pins.dma ∨ (s.pins.busreq = true ∧ s.busGranted = true ∧ t.pins.dma = []))
      ∧ ∃ new, t.events = new ++ s.events)
  ∧ (∀ (s : State) rest, s.turns = .cpu :: rest →
      step s = afterwards (step { s with turns := [] }) fun t => { t with turns := rest })
  ∧ ∀ (s : State) a rest, s.turns = .agent a :: rest →
      Completes (step s) fun t => AgentMoved { s with turns := rest } t a

/-! ## Load and exchange -/

/-- LDB, LD, LDL in their load forms (R153). -/
def Obligations.LoadsWriteRegister : Prop := LoadClaim .ldb ∧ LoadClaim .ld ∧ LoadClaim .ldl

/-- LDB, LD, LDL in their store forms (R153). -/
def Obligations.StoresWriteMemory : Prop := StoreClaim .ldb ∧ StoreClaim .ld ∧ StoreClaim .ldl

/-- LDRB, LDR, LDRL (R158). -/
def Obligations.RelativeLoadsUseProgramMemory : Prop :=
  RelativeClaim .b .ldrb ∧ RelativeClaim .w .ldr ∧ RelativeClaim .l .ldrl

/-- LDA, LDAR, LDK (R154, R155, R156): an address, in segmented mode in a pair; bits 15 and 7:0 of its segment word
are open (U8). -/
def Obligations.AddressAndConstantLoads : Prop :=
  ∀ (s : State) (d : Reg),
    (s.segmented = false →
      (∀ a, Completes (exec (.lda d a) s) fun t => Writes s t .w (.reg d) (s.xmemAddr a).off 0 (1 + xmemWords a))
        ∧ ∀ disp, Completes (exec (.ldar d disp) s) fun t => Writes s t .w (.reg d) (s.pc + 4 + disp) 0 2)
    ∧ (s.segmented = true →
      (∀ a, Completes (exec (.lda d a) s) fun t =>
          segOf (t.reg d) = (s.xmemAddr a).seg ∧ t.reg (d + 1) = (s.xmemAddr a).off
            ∧ Frame s t [d, d + 1] 0 (1 + xmemWords a))
        ∧ ∀ disp, Completes (exec (.ldar d disp) s) fun t =>
          segOf (t.reg d) = s.codeSeg ∧ t.reg (d + 1) = s.pc + 4 + disp ∧ Frame s t [d, d + 1] 0 2)
    ∧ ∀ n, Completes (exec (.ldk d n) s) fun t => Writes s t .w (.reg d) (n.setWidth 16) 0 1

/-- LDM (R157): `n + 1` words from one address, computed at the start, to or from registers whose numbers wrap. -/
def Obligations.LoadMultipleMovesRegisters : Prop :=
  ∀ (s : State) (m : Mem) (r : Reg) (n : BitVec 4), s.accessOk .w (s.memAddr m) = true →
    Completes (exec (.ldm .load m r n) s) (fun t =>
        (∀ k ≤ n.toNat, t.reg (r + BitVec.ofNat 4 k) =
            s.peekWord (s.memSpace m) ((s.memAddr m).add (BitVec.ofNat 16 (2 * k))))
          ∧ Frame s t ((List.range (n.toNat + 1)).map fun k => r + BitVec.ofNat 4 k) 0 (2 + m.words.length))
      ∧ Completes (exec (.ldm .store m r n) s) (fun t =>
        (Storage s (s.wordCells (s.memSpace m) (s.memAddr m) (n.toNat + 1)) → ∀ k ≤ n.toNat,
            t.peekWord (s.memSpace m) ((s.memAddr m).add (BitVec.ofNat 16 (2 * k))) = s.reg (r + BitVec.ofNat 4 k))
          ∧ SameMemoryBut s t (s.wordCells (s.memSpace m) (s.memAddr m) (n.toNat + 1))
          ∧ StoreFrame s t [] 0 (2 + m.words.length))

/-- CLR, CLRB (R151), COM, COMB (R232, R230), NEG, NEGB (R200): C of NEG unless the operand is 0, V only at the most
negative number. DA and H after NEGB stay: the model's choice (U9, log entry 14). -/
def Obligations.ClearComplementNegate : Prop :=
  ModifyClaim .b .clrb (fun _ => 0) 0 (fun _ _ _ => True)
    ∧ ModifyClaim .w .clr (fun _ => 0) 0 (fun _ _ _ => True)
    ∧ ModifyClaim .b .comb (fun x => ~~~x) 0x0070 (fun _ r f => ZeroSign r f ∧ EvenParity r f)
    ∧ ModifyClaim .w .com (fun x => ~~~x) 0x0060 (fun _ r f => ZeroSign r f)
    ∧ ModifyClaim .b .negb (fun x => -x) flagMask (fun x r f => SubN 0 x false r f
      ∧ (f.c = true ↔ x ≠ 0) ∧ (f.v = true ↔ x = 0x80))
    ∧ ModifyClaim .w .neg (fun x => -x) flagMask (fun x r f => SubN 0 x false r f
      ∧ (f.c = true ↔ x ≠ 0) ∧ (f.v = true ↔ x = 0x8000))

/-- EX, EXB (R152). -/
def Obligations.ExchangeSwapsOperands : Prop := ExchangeClaim .b .exb ∧ ExchangeClaim .w .ex

/-- PUSH, PUSHL (R160), POP, POPL (R159). The open datum is the model's reading of U7 (log entry 18). -/
def Obligations.StackTransfers : Prop :=
  PushClaim .l .pushl
    ∧ PushClaim .w (fun sp src => .push sp (match src with | .reg r => .reg r | .mem m => .mem m))
    ∧ PopClaim .l .popl ∧ PopClaim .w .pop
    ∧ ∀ (s : State) (sp : Reg) (v : Word), s.accessOk .w (s.addrReg sp) = true →
        Completes (exec (.push sp (.imm v)) s) fun t => Pushed s t .w sp v ∧ StoreFrame s t [s.offReg sp] 0 2

/-! ## Arithmetic -/

/-- ADDB, ADD, ADDL, SUBB, SUB, SUBL (R190, R192, R202), ADCB, ADC, SBCB, SBC (R191, R201). -/
def Obligations.AddAndSubtract : Prop :=
  AluClaim .b .addb byteFlagMask (fun a b r f => AddN a b false r f ∧ AddH a b false f)
    ∧ AluClaim .w .add flagMask (fun a b r f => AddN a b false r f)
    ∧ AluClaim .l .addl flagMask (fun a b r f => AddN a b false r f)
    ∧ AluClaim .b .subb byteFlagMask (fun a b r f => SubN a b false r f ∧ SubH a b false f)
    ∧ AluClaim .w .sub flagMask (fun a b r f => SubN a b false r f)
    ∧ AluClaim .l .subl flagMask (fun a b r f => SubN a b false r f)
    ∧ CarryClaim .b .adcb byteFlagMask (fun a b c r f => AddN a b c r f ∧ AddH a b c f)
    ∧ CarryClaim .w .adc flagMask AddN
    ∧ CarryClaim .b .sbcb byteFlagMask (fun a b c r f => SubN a b c r f ∧ SubH a b c f)
    ∧ CarryClaim .w .sbc flagMask SubN

/-- What the sums and differences of every width compute (R190): V says that the exact signed result does not fit, C that
the exact unsigned result does not; the byte forms set the same C and V. -/
def Obligations.OverflowAndCarryMeanRange : Prop :=
  (∀ (z : Size) (a b : BitVec z.bits) (cin : Bool) (f : Flags),
    ((addFlags a b cin f).v = true ↔ a.toInt + b.toInt + cin.toNat ≠ (addResult a b cin).toInt)
      ∧ ((addFlags a b cin f).c = true ↔ a.toNat + b.toNat + cin.toNat ≠ (addResult a b cin).toNat)
      ∧ ((subFlags a b cin f).v = true ↔ a.toInt - b.toInt - cin.toNat ≠ (subResult a b cin).toInt)
      ∧ ((subFlags a b cin f).c = true ↔ (a.toNat : Int) - b.toNat - cin.toNat ≠ (subResult a b cin).toNat))
  ∧ ∀ (a b : Byte) (cin : Bool) (f : Flags),
    (byteAddFlags a b cin f).v = (addFlags a b cin f).v ∧ (byteAddFlags a b cin f).c = (addFlags a b cin f).c
      ∧ (byteSubFlags a b cin f).v = (subFlags a b cin f).v ∧ (byteSubFlags a b cin f).c = (subFlags a b cin f).c

/-- CPB, CP, CPL (R193). DA and H after CPB stay (R193, U9, log entry 14). -/
def Obligations.CompareSetsFlagsOnly : Prop := CompareClaim .cpb ∧ CompareClaim .cp ∧ CompareClaim .cpl

/-- INCB, INC, DECB, DEC (R195, R198). DA and H after the byte forms stay: the model's choice (U9, log entry 14). -/
def Obligations.IncrementAndDecrement : Prop :=
  StepByClaim .b .incb (fun a b r f => AddN a b false r f) ∧ StepByClaim .w .inc (fun a b r f => AddN a b false r f)
    ∧ StepByClaim .b .decb (fun a b r f => SubN a b false r f)
    ∧ StepByClaim .w .dec (fun a b r f => SubN a b false r f)

/-- MULT, MULTL (R199): the exact signed product of the low half of the destination and the source. -/
def Obligations.MultiplyGivesExactProduct : Prop :=
  ∀ (s : State) (d : Reg),
    (∀ src : Src .w, s.srcOk src = true →
      Completes (exec (.mult d src) s) fun t =>
        (t.regLong d).toInt = (s.reg (d + 1)).toInt * (s.src src).toInt
          ∧ ProductFlags 16 ((s.reg (d + 1)).toInt * (s.src src).toInt) t.flags
          ∧ Frame s t [d, d + 1] flagMask (1 + src.words.length))
    ∧ ∀ src : Src .l, s.srcOk src = true →
      Completes (exec (.multl d src) s) fun t =>
        (t.regQuad d).toInt = (s.regLong (d + 2)).toInt * (s.src src).toInt
          ∧ ProductFlags 32 ((s.regLong (d + 2)).toInt * (s.src src).toInt) t.flags
          ∧ Frame s t (quadRegs d) flagMask (1 + src.words.length)

/-- DIV, DIVL (R196): remainder in the high half, quotient in the low; no case stops. The open destination on overflow
and division by zero is U10 (log entry 15). -/
def Obligations.DivideTruncatesTowardZero : Prop :=
  ∀ (s : State) (d : Reg),
    (∀ src : Src .w, s.srcOk src = true →
      Completes (exec (.div d src) s) fun t =>
        Divided 16 (s.regLong d).toInt (s.src src).toInt (t.reg (d + 1)) (t.reg d) t.flags
          ∧ Frame s t [d, d + 1] flagMask (1 + src.words.length))
    ∧ ∀ src : Src .l, s.srcOk src = true →
      Completes (exec (.divl d src) s) fun t =>
        Divided 32 (s.regQuad d).toInt (s.src src).toInt (t.regLong (d + 2)) (t.regLong d) t.flags
          ∧ Frame s t (quadRegs d) flagMask (1 + src.words.length)

/-- EXTSB, EXTS, EXTSL (R197): the value of the low half as a signed number. -/
def Obligations.ExtendSignKeepsTheValue : Prop :=
  ∀ (s : State) (d : Reg),
    Completes (exec (.extsb d) s) (fun t =>
        (t.reg d).toInt = ((s.reg d).extractLsb' 0 8).toInt ∧ Frame s t [d] 0 1)
      ∧ Completes (exec (.exts d) s) (fun t =>
        (t.regLong d).toInt = (s.reg (d + 1)).toInt ∧ t.reg (d + 1) = s.reg (d + 1) ∧ Frame s t [d] 0 1)
      ∧ Completes (exec (.extsl d) s) (fun t =>
        (t.regQuad d).toInt = (s.regLong (d + 2)).toInt ∧ t.regLong (d + 2) = s.regLong (d + 2)
          ∧ Frame s t [d, d + 1] 0 1)

/-- DAB (R194): the correction, C, Z, S; DA and H stay, P/V is open (U9). -/
def Obligations.DecimalAdjust : Prop :=
  ∀ (s : State) (d : Reg),
    Completes (exec (.dab d) s) fun t =>
      ∃ r : Byte, Writes s t .b (.reg d) r flagMask 1 ∧ ZeroSign r t.flags
        ∧ if s.flags.d then
            r.toNat = (256 + (s.regByte d).toNat - (if s.flags.h then 0x06 else 0)
                - (if s.flags.c then 0x60 else 0)) % 256
              ∧ t.flags.c = s.flags.c
          else
            r.toNat = ((s.regByte d).toNat + (if s.flags.h ∨ 9 < (s.regByte d).toNat % 16 then 0x06 else 0)
                + (if s.flags.c ∨ 0x99 < (s.regByte d).toNat then 0x60 else 0)) % 256
              ∧ (t.flags.c = true ↔ s.flags.c = true ∨ 0x99 < (s.regByte d).toNat)

/-- ADDB then DAB adds, and SUBB then DAB subtracts, two packed decimal bytes, with C as the decimal carry or borrow
(R194). -/
def Obligations.DecimalAdjustMakesDecimalSums : Prop :=
  ∀ (s : State) (d q : Reg) (a b : Nat), a < 100 → b < 100 →
    (s.regByte d).toNat = a / 10 * 16 + a % 10 → (s.regByte q).toNat = b / 10 * 16 + b % 10 →
    Completes (exec (.addb d (.reg q)) s) (fun t =>
        Completes (exec (.dab d) t) fun u =>
          (u.regByte d).toNat = (a + b) % 100 / 10 * 16 + (a + b) % 10 ∧ (u.flags.c = true ↔ 100 ≤ a + b))
      ∧ Completes (exec (.subb d (.reg q)) s) (fun t =>
        Completes (exec (.dab d) t) fun u =>
          (u.regByte d).toNat = (100 + a - b) % 100 / 10 * 16 + (100 + a - b) % 10
            ∧ (u.flags.c = true ↔ a < b))

/-! ## Logic and bits -/

/-- ANDB, AND, ORB, OR, XORB, XOR (R230, R231, R233, R236). -/
def Obligations.LogicOperations : Prop :=
  LogicByteClaim .andb (fun a b => a &&& b) ∧ LogicWordClaim .and (fun a b => a &&& b)
    ∧ LogicByteClaim .orb (fun a b => a ||| b) ∧ LogicWordClaim .or (fun a b => a ||| b)
    ∧ LogicByteClaim .xorb (fun a b => a ^^^ b) ∧ LogicWordClaim .xor (fun a b => a ^^^ b)

/-- TESTB, TEST, TESTL, BITB, BIT (R230, R234, R280, R281): flags only. -/
def Obligations.TestsSetFlagsOnly : Prop :=
  TestClaim .b .testb 0x0070 (fun x f => ZeroSign x f ∧ EvenParity x f)
    ∧ TestClaim .w .test 0x0060 (fun x f => ZeroSign x f) ∧ TestClaim .l .testl 0x0060 (fun x f => ZeroSign x f)
    ∧ BitTestClaim .b .bitb ∧ BitTestClaim .w .bit ∧ BitNumberClaim

/-- SETB, SET, RESB, RES (R280, R282, R283), TSETB, TSET (R284); TCCB, TCC (R235) set bit 0 where the condition holds and
otherwise leave the register as it is. -/
def Obligations.BitsAreSetAndReset : Prop :=
  BitWriteClaim .b true .setb ∧ BitWriteClaim .w true .set ∧ BitWriteClaim .b false .resb
    ∧ BitWriteClaim .w false .res ∧ BitNumberClaim
    ∧ ModifyClaim .b .tsetb (fun _ => 0xFF) 0x0020 (fun x _ f => f.s = x.msb)
    ∧ ModifyClaim .w .tset (fun _ => 0xFFFF) 0x0020 (fun x _ f => f.s = x.msb)
    ∧ ∀ (s : State) (c : Cond) (d : Reg),
        Completes (exec (.tccb c d) s) (fun t =>
            Writes s t .b (.reg d) (if s.flags.holds c then s.regByte d ||| 1 else s.regByte d) 0 1)
          ∧ Completes (exec (.tcc c d) s) (fun t =>
            Writes s t .w (.reg d) (if s.flags.holds c then s.reg d ||| 1 else s.reg d) 0 1)

/-- RL, RR, RLC, RRC and their byte forms (R302, R303, R305, R306): a rotation of N bits with C the last bit moved, or
of the N + 1 bits that C and the operand are. V of a rotate by 2 is as R302 reads it (U12, log entry 17). -/
def Obligations.RotatesMoveBits : Prop :=
  RotateClaim .b .rlb RotatedLeft ∧ RotateClaim .w .rl RotatedLeft
    ∧ RotateClaim .b .rrb RotatedRight ∧ RotateClaim .w .rr RotatedRight
    ∧ RotateClaim .b .rlcb RotatedLeftThroughCarry ∧ RotateClaim .w .rlc RotatedLeftThroughCarry
    ∧ RotateClaim .b .rrcb RotatedRightThroughCarry ∧ RotateClaim .w .rrc RotatedRightThroughCarry

/-- RLDB, RRDB (R304, R307): three digits rotate through source and link; Z from the link, S open. -/
def Obligations.DigitRotates : Prop :=
  ∀ (s : State) (l q : Reg), l ≠ q →
    Completes (exec (.rldb l q) s) (fun t =>
        t.regByte q = (s.regByte q).extractLsb' 0 4 ++ (s.regByte l).extractLsb' 0 4
          ∧ t.regByte l = (s.regByte l).extractLsb' 4 4 ++ (s.regByte q).extractLsb' 4 4
          ∧ (t.flags.z = true ↔ t.regByte l = 0) ∧ (∀ k, k ≠ l → k ≠ q → t.regByte k = s.regByte k)
          ∧ Frame s t [l &&& 7, q &&& 7] 0x0060 1)
      ∧ Completes (exec (.rrdb l q) s) (fun t =>
        t.regByte q = (s.regByte l).extractLsb' 0 4 ++ (s.regByte q).extractLsb' 4 4
          ∧ t.regByte l = (s.regByte l).extractLsb' 4 4 ++ (s.regByte q).extractLsb' 0 4
          ∧ (t.flags.z = true ↔ t.regByte l = 0) ∧ (∀ k, k ≠ l → k ≠ q → t.regByte k = s.regByte k)
          ∧ Frame s t [l &&& 7, q &&& 7] 0x0060 1)

/-- The static shifts SLL, SRL, SLA, SRA (R301, R310 to R313) and the dynamic ones SDL, SDA (R301, R308, R309) of
bytes, words and long words. C at count 0 is as the rule says (log entry 17). A count beyond the width is refused, as R301
and U12 have it, on a platform that says so; that another one runs it, with an open result, C and V, and Z and S of that
result, is the model's choice (log entry 16). -/
def Obligations.ShiftsMoveBits : Prop :=
  StaticShiftClaim .b false .sllb ∧ StaticShiftClaim .b false .srlb ∧ StaticShiftClaim .w false .sll
    ∧ StaticShiftClaim .w false .srl ∧ StaticShiftClaim .l false .slll ∧ StaticShiftClaim .l false .srll
    ∧ StaticShiftClaim .b true .slab ∧ StaticShiftClaim .b true .srab ∧ StaticShiftClaim .w true .sla
    ∧ StaticShiftClaim .w true .sra ∧ StaticShiftClaim .l true .slal ∧ StaticShiftClaim .l true .sral
    ∧ DynamicShiftClaim .b false .sdlb ∧ DynamicShiftClaim .w false .sdl ∧ DynamicShiftClaim .l false .sdll
    ∧ DynamicShiftClaim .b true .sdab ∧ DynamicShiftClaim .w true .sda ∧ DynamicShiftClaim .l true .sdal

/-! ## Program control -/

/-- JP, JR, DJNZ, DBJNZ (R253, R255, R256). -/
def Obligations.JumpsSetTheProgramCounter : Prop :=
  (∀ (s : State) (c : Cond) (m : Mem),
    Completes (exec (.jp c m) s) fun t =>
      Quietly s t [] 0
        ∧ if s.flags.holds c then JumpedTo s t (s.memAddr m) else Passed s t (1 + m.words.length))
  ∧ (∀ (s : State) (c : Cond) (disp : BitVec 8),
    Completes (exec (.jr c disp) s) fun t =>
      Quietly s t [] 0 ∧ t.pcSeg = s.pcSeg
        ∧ t.pc = if s.flags.holds c then s.pc + 2 + 2 * disp.signExtend 16 else s.pc + 2)
  ∧ CountedJumpClaim .w .djnz ∧ CountedJumpClaim .b .dbjnz

/-- CALL, CALR (R251, R252). The target is computed after the push, as R251 writes it, so with the stack pointer moved (log
entry 18); spare bits of the segment word are open (log entry 19). -/
def Obligations.CallsPushTheReturnAddress : Prop :=
  ∀ s : State, s.accessOk .w (s.addrReg s.spReg) = true →
    (∀ m, Completes (exec (.call m) s) fun t =>
      ReturnPushed s t (1 + m.words.length)
        ∧ JumpedTo s t ((s.bump s.spReg (-BitVec.ofNat 16 s.returnSize.bytes)).memAddr m)
        ∧ SameRegs s t [s.offReg s.spReg] ∧ SameFcw s t 0 ∧ SameSpecials s t)
    ∧ ∀ disp, Completes (exec (.calr disp) s) fun t =>
      ReturnPushed s t 1 ∧ t.pc = s.pc + 2 - 2 * disp.signExtend 16 ∧ t.pcSeg = s.pcSeg
        ∧ SameRegs s t [s.offReg s.spReg] ∧ SameFcw s t 0 ∧ SameSpecials s t

/-- RET (R257); where the condition is false the stack is not touched. -/
def Obligations.ReturnPopsTheProgramCounter : Prop :=
  ∀ (s : State) (c : Cond),
    (s.flags.holds c = false → Completes (exec (.ret c) s) fun t => Frame s t [] 0 1)
    ∧ (s.flags.holds c = true → s.accessOk .w (s.addrReg s.spReg) = true →
      Completes (exec (.ret c) s) fun t =>
        Quietly s t [s.offReg s.spReg] 0
          ∧ if s.segmented then
              t.pcSeg = ((s.peek .l (s.space .stack) (s.addrReg s.spReg)).extractLsb' 24 7)
                ∧ t.pc = (s.peek .l (s.space .stack) (s.addrReg s.spReg)).extractLsb' 0 16
                ∧ t.reg (s.offReg s.spReg) = s.reg (s.offReg s.spReg) + 4
            else
              t.pc = s.peek .w (s.space .stack) (s.addrReg s.spReg) ∧ t.pcSeg = s.pcSeg
                ∧ t.reg (s.offReg s.spReg) = s.reg (s.offReg s.spReg) + 2)

/-- IRET and LDPS in system mode (R254, R418): the program status is loaded from the system stack, or from the block.
-/
def Obligations.ProgramStatusLoads : Prop :=
  (∀ s : State, s.system = true → (s.isZ8001 = true → s.segmented = true) → s.accessOk .w s.systemSp = true →
    Completes (exec .iret s) fun t =>
      FcwLoaded s t (s.peekWord systemStack (s.systemSp.add 2))
        ∧ (if s.isZ8001 then
            JumpedTo s t ⟨segOf (s.peekWord systemStack (s.systemSp.add 4)),
                s.peekWord systemStack (s.systemSp.add 6)⟩
              ∧ t.regs = s.regs.set 15 (s.regs[15] + 8)
          else t.pc = s.peekWord systemStack (s.systemSp.add 4) ∧ t.pcSeg = s.pcSeg
              ∧ t.regs = s.regs.set 15 (s.regs[15] + 6))
        ∧ t.normalR14 = s.normalR14 ∧ t.normalR15 = s.normalR15 ∧ t.mem = s.mem ∧ SameSpecials s t)
  ∧ ∀ (s : State) (m : Mem), s.system = true → s.accessOk .w (s.memAddr m) = true →
    Completes (exec (.ldps m) s) fun t =>
      (if s.segmented then
          FcwLoaded s t (s.peekWord (s.space .data) ((s.memAddr m).add 2))
            ∧ JumpedTo s t ⟨segOf (s.peekWord (s.space .data) ((s.memAddr m).add 4)),
                s.peekWord (s.space .data) ((s.memAddr m).add 6)⟩
        else
          FcwLoaded s t (s.peekWord (s.space .data) ((s.memAddr m).add 0))
            ∧ t.pc = s.peekWord (s.space .data) ((s.memAddr m).add 2) ∧ t.pcSeg = s.pcSeg)
        ∧ t.regs = s.regs ∧ t.normalR14 = s.normalR14 ∧ t.normalR15 = s.normalR15 ∧ t.mem = s.mem ∧ SameSpecials s t

/-! ## Block, string and translate instructions -/

/-- CPI, CPIR, CPD, CPDR (R334 to R338), CPSI, CPSIR, CPSD, CPSDR (R339 to R343) and their byte forms. A step is one
iteration: the model's choice (log entry 34). -/
def Obligations.BlockAndStringComparesIterate : Prop :=
  BlockCompareClaim .b true false .cpib ∧ BlockCompareClaim .b true true .cpirb
    ∧ BlockCompareClaim .b false false .cpdb ∧ BlockCompareClaim .b false true .cpdrb
    ∧ BlockCompareClaim .w true false .cpi ∧ BlockCompareClaim .w true true .cpir
    ∧ BlockCompareClaim .w false false .cpd ∧ BlockCompareClaim .w false true .cpdr
    ∧ StringCompareClaim .b true false .cpsib ∧ StringCompareClaim .b true true .cpsirb
    ∧ StringCompareClaim .b false false .cpsdb ∧ StringCompareClaim .b false true .cpsdrb
    ∧ StringCompareClaim .w true false .cpsi ∧ StringCompareClaim .w true true .cpsir
    ∧ StringCompareClaim .w false false .cpsd ∧ StringCompareClaim .w false true .cpsdr

/-- LDI, LDIR, LDD, LDDR and their byte forms (R344 to R348). A step is one iteration (log entry 34). -/
def Obligations.BlockMovesIterate : Prop :=
  BlockMoveClaim .b true false .ldib ∧ BlockMoveClaim .b true true .ldirb
    ∧ BlockMoveClaim .b false false .lddb ∧ BlockMoveClaim .b false true .lddrb
    ∧ BlockMoveClaim .w true false .ldi ∧ BlockMoveClaim .w true true .ldir
    ∧ BlockMoveClaim .w false false .ldd ∧ BlockMoveClaim .w false true .lddr

/-- TRIB, TRIRB, TRDB, TRDRB (R349 to R353), TRTIB, TRTIRB, TRTDB, TRTDRB (R354 to R358). A step is one iteration (log
entry 34); the table pointer is a pair in segmented mode (log entry 21). -/
def Obligations.TranslatesIterate : Prop :=
  TranslateClaim true false .trib ∧ TranslateClaim true true .trirb
    ∧ TranslateClaim false false .trdb ∧ TranslateClaim false true .trdrb
    ∧ TranslateTestClaim true false .trtib ∧ TranslateTestClaim true true .trtirb
    ∧ TranslateTestClaim false false .trtdb ∧ TranslateTestClaim false true .trtdrb

/-! ## Input and output -/

/-- INB, IN, SINB, SIN, OUTB, OUT, SOUTB, SOUT (R382, R384, R389, R394, R399). The queue of answers is the model's
form of `IoRead` (log entry 31). -/
def Obligations.SingleTransfers : Prop :=
  (∀ q, InputClaim .b false (fun d => .inb d (.reg q)) (fun s => s.reg q) 1)
    ∧ (∀ p, InputClaim .b false (fun d => .inb d (.direct p)) (fun _ => p) 2)
    ∧ (∀ q, InputClaim .w false (fun d => .inw d (.reg q)) (fun s => s.reg q) 1)
    ∧ (∀ p, InputClaim .w false (fun d => .inw d (.direct p)) (fun _ => p) 2)
    ∧ (∀ p, InputClaim .b true (fun d => .sinb d p) (fun _ => p) 2)
    ∧ (∀ p, InputClaim .w true (fun d => .sin d p) (fun _ => p) 2)
    ∧ (∀ q, OutputClaim .b false (fun r => .outb (.reg q) r) (fun s => s.reg q) 1)
    ∧ (∀ p, OutputClaim .b false (fun r => .outb (.direct p) r) (fun _ => p) 2)
    ∧ (∀ q, OutputClaim .w false (fun r => .out (.reg q) r) (fun s => s.reg q) 1)
    ∧ (∀ p, OutputClaim .w false (fun r => .out (.direct p) r) (fun _ => p) 2)
    ∧ (∀ p, OutputClaim .b true (fun r => .soutb p r) (fun _ => p) 2)
    ∧ ∀ p, OutputClaim .w true (fun r => .sout p r) (fun _ => p) 2

/-- The block input (R383, R385 to R388, R395 to R398) and output instructions (R390 to R393, R400 to R403). A step is
one iteration (log entry 34); the queue of answers and the list of events are the model's form of `IoRead` and `IoWrite`
(log entry 31). -/
def Obligations.BlockTransfersIterate : Prop :=
  BlockInputClaim .b false true false .inib ∧ BlockInputClaim .b false true true .inirb
    ∧ BlockInputClaim .b false false false .indb ∧ BlockInputClaim .b false false true .indrb
    ∧ BlockInputClaim .b true true false .sinib ∧ BlockInputClaim .b true true true .sinirb
    ∧ BlockInputClaim .b true false false .sindb ∧ BlockInputClaim .b true false true .sindrb
    ∧ BlockInputClaim .w false true false .ini ∧ BlockInputClaim .w false true true .inir
    ∧ BlockInputClaim .w false false false .ind ∧ BlockInputClaim .w false false true .indr
    ∧ BlockInputClaim .w true true false .sini ∧ BlockInputClaim .w true true true .sinir
    ∧ BlockInputClaim .w true false false .sind ∧ BlockInputClaim .w true false true .sindr
    ∧ BlockOutputClaim .b false true false .outib ∧ BlockOutputClaim .b false true true .otirb
    ∧ BlockOutputClaim .b false false false .outdb ∧ BlockOutputClaim .b false false true .otdrb
    ∧ BlockOutputClaim .b true true false .soutib ∧ BlockOutputClaim .b true true true .sotirb
    ∧ BlockOutputClaim .b true false false .soutdb ∧ BlockOutputClaim .b true false true .sotdrb
    ∧ BlockOutputClaim .w false true false .outi ∧ BlockOutputClaim .w false true true .otir
    ∧ BlockOutputClaim .w false false false .outd ∧ BlockOutputClaim .w false false true .otdr
    ∧ BlockOutputClaim .w true true false .souti ∧ BlockOutputClaim .w true true true .sotir
    ∧ BlockOutputClaim .w true false false .soutd ∧ BlockOutputClaim .w true false true .sotdr

/-! ## CPU control -/

/-- SETFLG, RESFLG, COMFLG, NOP, LDCTLB (R411, R417, R428, R429, R430), in any mode; bits 1:0 of FLAGS loaded with 1
are open (U1). -/
def Obligations.FlagInstructions : Prop :=
  ∀ s : State,
    (∀ f : BitVec 4,
      Completes (exec (.setflg f) s) (fun t =>
          t.fcw.extractLsb' 4 4 = s.fcw.extractLsb' 4 4 ||| f ∧ Frame s t [] flagMask 1)
        ∧ Completes (exec (.resflg f) s) (fun t =>
          t.fcw.extractLsb' 4 4 = s.fcw.extractLsb' 4 4 &&& ~~~f ∧ Frame s t [] flagMask 1)
        ∧ Completes (exec (.comflg f) s) (fun t =>
          t.fcw.extractLsb' 4 4 = s.fcw.extractLsb' 4 4 ^^^ f ∧ Frame s t [] flagMask 1))
    ∧ Completes (exec .nop s) (fun t => Frame s t [] 0 1)
    ∧ ∀ r,
      Completes (exec (.ldctlb .read r) s) (fun t => Writes s t .b (.reg r) (s.fcw.extractLsb' 0 8) 0 1)
        ∧ Completes (exec (.ldctlb .write r) s) (fun t =>
          (∀ i, 2 ≤ i → i < 8 → t.fcw.getLsbD i = (s.regByte r).getLsbD i)
            ∧ (∀ i, i < 2 → (s.regByte r).getLsbD i = false → t.fcw.getLsbD i = false)
            ∧ Frame s t [] 0x00FF 1)

/-- LDCTL in system mode (R416, R38, R28): every control register is read and written; the ROW field of REFRESH reads
as any even value (D12); a segment register of a Z8002 is refused (U2). The refusal is the model's choice (log entry 25),
and so are the free ROW (log entry 32) and that the low byte of PSAP and PSAPOFF, and the spare bits of PSAPSEG, read
back as written (log entry 7): R36 and R416 say only that they are to be written 0. -/
def Obligations.ControlRegisterTransfers : Prop :=
  ∀ (s : State) (r : Reg), s.system = true →
    Completes (exec (.ldctl .read r .fcw) s) (fun t =>
        Writes s t .w (.reg r) (if s.isZ8001 then s.fcw else s.fcw &&& 0x7FFF) 0 1)
    ∧ Completes (exec (.ldctl .write r .fcw) s) (fun t => FcwLoaded s t (s.reg r)
        ∧ t.regs = s.regs ∧ t.normalR14 = s.normalR14 ∧ t.normalR15 = s.normalR15 ∧ t.mem = s.mem
        ∧ SameSpecials s t ∧ Passed s t 1)
    ∧ (∃ row : BitVec 9, row.getLsbD 0 = false ∧
        exec (.ldctl .read r .refresh) s =
          .next ((({ s with refresh := { s.refresh with row := row } } : State).setReg r
            (BitVec.ofBool s.refresh.enable ++ s.refresh.rate ++ row)).advance 1))
    ∧ Completes (exec (.ldctl .write r .refresh) s) (fun t =>
        t = ({ s with refresh := t.refresh } : State).advance 1
          ∧ t.refresh.enable = (s.reg r).getLsbD 15 ∧ t.refresh.rate = (s.reg r).extractLsb' 9 6
          ∧ t.refresh.row.extractLsb' 1 8 = (s.reg r).extractLsb' 1 8 ∧ t.refresh.row.getLsbD 0 = false)
    ∧ Completes (exec (.ldctl .read r .psapOff) s) (fun t => Writes s t .w (.reg r) s.psapOff 0 1)
    ∧ exec (.ldctl .write r .psapOff) s = .next (({ s with psapOff := s.reg r } : State).advance 1)
    ∧ Completes (exec (.ldctl .read r .nspOff) s) (fun t => Writes s t .w (.reg r) s.normalR15 0 1)
    ∧ exec (.ldctl .write r .nspOff) s = .next (({ s with normalR15 := s.reg r } : State).advance 1)
    ∧ (s.isZ8001 = true →
        Completes (exec (.ldctl .read r .psapSeg) s) (fun t => Writes s t .w (.reg r) s.psapSeg 0 1)
          ∧ exec (.ldctl .write r .psapSeg) s = .next (({ s with psapSeg := s.reg r } : State).advance 1)
          ∧ Completes (exec (.ldctl .read r .nspSeg) s) (fun t => Writes s t .w (.reg r) s.normalR14 0 1)
          ∧ exec (.ldctl .write r .nspSeg) s = .next (({ s with normalR14 := s.reg r } : State).advance 1))
    ∧ (s.isZ8001 = false → ∀ dir,
        exec (.ldctl dir r .psapSeg) s = .refused .absentControlRegister
          ∧ exec (.ldctl dir r .nspSeg) s = .refused .absentControlRegister)

/-- EI, DI, HALT, MSET, MRES, MBIT, MREQ in system mode (R412 to R414, R424 to R427), with the polarity of MI that
R424 and R425 give (U13). The polarity is the model's choice of parameter (log entry 27). -/
def Obligations.SystemControlInstructions : Prop :=
  ∀ s : State, s.system = true →
    (∀ v n : Bool,
      Completes (exec (.ei v n) s) (fun t => t = { s with fcw := t.fcw, pc := s.pc + 2 }
          ∧ SameFcw s t 0x1800 ∧ (t.fcw.getLsbD 12 = if v then s.fcw.getLsbD 12 else true)
          ∧ (t.fcw.getLsbD 11 = if n then s.fcw.getLsbD 11 else true))
        ∧ Completes (exec (.di v n) s) (fun t => t = { s with fcw := t.fcw, pc := s.pc + 2 }
          ∧ SameFcw s t 0x1800 ∧ (t.fcw.getLsbD 12 = if v then s.fcw.getLsbD 12 else false)
          ∧ (t.fcw.getLsbD 11 = if n then s.fcw.getLsbD 11 else false)))
    ∧ exec .halt s = .next { s with pc := s.pc + 2, halted := true }
    ∧ exec .mset s = .next { s with pc := s.pc + 2, moLow := true }
    ∧ exec .mres s = .next { s with pc := s.pc + 2, moLow := false }
    ∧ (s.platform.micro.invertMi = false →
        Completes (exec .mbit s) fun t => t.flags.s = s.pins.mi ∧ Frame s t [] 0x0020 1)
    ∧ ∀ d, s.platform.micro = { invertMi := false, invertS := false, invertZ := false } →
        Completes (exec (.mreq d) s) fun t =>
          (s.pins.mi = true → t.flags.z = false ∧ t.flags.s = false ∧ t.moLow = false ∧ t.reg d = s.reg d)
            ∧ (s.pins.mi = false → t.flags.z = true ∧ t.flags.s = s.pins.miSettled ∧ t.moLow = s.pins.miSettled
                ∧ t.reg d = 0)
            ∧ SameRegs s t [d] ∧ SameFcw s t 0x0060 ∧ SameMemory s t ∧ Passed s t 1
            ∧ SameSpecials { s with moLow := t.moLow } t

/-! ## Traps, requests and holds -/

/-- SC and the extended instructions with EPA = 0, in any mode (R258, R440, R460, R464, R470, R471): the entry, with
the instruction word as identifier and the address after the first word as saved PC; nothing else changes. The saved
PC of an extended instruction is the model's reading of R460 (log entry 38). -/
def Obligations.SystemCallAndExtendedTraps : Prop :=
  ∀ s : State, s.accessOk .w s.systemSp = true →
    (∀ i, Completes (exec (.sc i) s) fun t =>
      Entered s t (.trap .systemCall) (0x7F#8 ++ i) ⟨s.codeSeg, s.pc + 2⟩ ∧ SameSpecials s t)
    ∧ (s.epa = false → ∀ op e e1, Completes (exec (.extended op e e1) s) fun t =>
      Entered s t (.trap .extended) (op.byte ++ e) ⟨s.codeSeg, s.pc + 2⟩ ∧ SameSpecials s t)

/-- R462, R135: the privileged instructions are those whose first word has a privileged opcode; in normal mode each
raises the privileged-instruction trap, with its first word as identifier and its address plus 2 as saved PC, and does
nothing else. -/
def Obligations.PrivilegedInstructionsTrapInNormalMode : Prop :=
  (∀ i : Instr, privilegedOpcode ((encode i).headD 0) = privilegedInstr i)
    ∧ ∀ (s : State) (i : Instr), s.system = false → privilegedInstr i = true → s.accessOk .w s.systemSp = true →
      Completes (exec i s) fun t =>
        Entered s t (.trap .privileged) ((encode i).headD 0) ⟨s.codeSeg, s.pc + 2⟩ ∧ SameSpecials s t

/-- R476, R478: where the program status area is and where each entry stands in it. -/
def Obligations.ProgramStatusAreaLayout : Prop :=
  ∀ (s : State) (ident : Word),
    let word := fun (off : Nat) => s.peekWord ⟨true, .code⟩
      ⟨if s.isZ8001 then s.psapSeg.extractLsb' 8 7 else 0, (s.psapOff &&& 0xFF00) + BitVec.ofNat 16 off⟩
    (s.isZ8001 = false → ∀ c off, (c, off) ∈ [(Cause.trap .extended, 4), (.trap .privileged, 8), (.trap .systemCall, 12),
        (.request .segt, 16), (.request .nmi, 20), (.request .nvi, 24)] →
      s.psaFcw c = word off ∧ (s.psaPc c ident).off = word (off + 2))
    ∧ (s.isZ8001 = false → s.psaFcw (.request .vi) = word 28
      ∧ (s.psaPc (.request .vi) ident).off = word (30 + 2 * (ident.extractLsb' 0 8).toNat))
    ∧ (s.isZ8001 = true → ∀ c off, (c, off) ∈ [(Cause.trap .extended, 8), (.trap .privileged, 16),
        (.trap .systemCall, 24), (.request .segt, 32), (.request .nmi, 40), (.request .nvi, 48)] →
      s.psaFcw c = word (off + 2) ∧ s.psaPc c ident = ⟨(word (off + 4)).extractLsb' 8 7, word (off + 6)⟩)
    ∧ (s.isZ8001 = true → s.psaFcw (.request .vi) = word 58
      ∧ s.psaPc (.request .vi) ident = ⟨(word (60 + 2 * (ident.extractLsb' 0 8).toNat)).extractLsb' 8 7,
          word (62 + 2 * (ident.extractLsb' 0 8).toNat)⟩)

/-- IRET takes a trap back, from either mode and on both versions: after the entry of an SC whose handler runs in system
mode (on a Z8001 segmented, as IRET needs), with storage under the system stack, IRET restores the PC after the SC, the
registers of both modes and, reserved bits apart, the FCW (R254, R471, R482). -/
def Obligations.ReturnUndoesEntry : Prop :=
  ∀ (s t : State) (i : Byte), s.accessOk .w s.systemSp = true → Storage s s.frameCells →
    exec (.sc i) s = .next t → t.system = true → (t.isZ8001 = true → t.segmented = true) →
    Completes (exec .iret t) fun u =>
      u.pc = s.pc + 2 ∧ u.pcSeg = s.pcSeg ∧ u.regs = s.regs ∧ u.normalR14 = s.normalR14 ∧ u.normalR15 = s.normalR15
        ∧ FcwLoaded s u s.fcw

/-- R470, R474, R46, D8: the entry of an accepted request: the acknowledge cycle after an ignored fetch, the
identifier of the request, the PC of the instruction not executed (R32); FCW and PC are those that the request's entry in
the program status area holds once the frame is pushed. That an odd PC is entered too is the model's choice (log entry 5),
and so is that the record of words fetched ahead ends there (log entry 12). The NMI latch is cleared by its own acknowledge, which takes in an edge of the same step: the
model's choice (log entry 9). So are that the entry is a step of its own (log entry 28), that the identifiers are pins,
with a free low byte for the segment trap (log entry 30), the list of cycles (log entry 42) and the request of a memory
management unit (log entry 44). -/
def Obligations.AcceptedRequestIsEntered : Prop :=
  ∀ (s : State) (r : Request), s.Free → s.accepted = some r → s.accessOk .w s.systemSp = true →
    Completes (step s) fun t =>
      ∃ ident : Word,
        (match r with
          | .nmi => ident = s.pins.ackNmi
          | .segt => ident.extractLsb' 8 8 =
              match s.mmuRequest with | some b => b | none => s.pins.ackSegt.extractLsb' 8 8
          | .vi => ident = s.pins.ackVi
          | .nvi => ident = s.pins.ackNvi)
        ∧ Entered s { t with tick := s.tick } (.request r) ident ⟨s.codeSeg, s.pc⟩
        ∧ t.tick = s.tick + 1
        ∧ t.identTemp = ident ∧ t.accepted = none ∧ t.halted = false ∧ t.stale = []
        ∧ t.events = .acknowledge r ident
            :: .ignoredFetch (s.cell ⟨s.system, .code⟩ ⟨s.codeSeg, s.pc⟩) :: s.events
        ∧ t.bus = .memory .firstFetch ⟨s.system, .code⟩ false false ⟨s.codeSeg, s.pc⟩
            :: .acknowledge r :: s.entryCycles (.request r) ident
        ∧ (t.nmiLatch = match r with
            | .nmi => false
            | .segt | .vi | .nvi => s.nmiLatch || (s.pins.nmi && !s.nmiLevel))
        ∧ t.nmiLevel = s.pins.nmi
        ∧ (s.platform.mmu = [] → t.mmuRequest = if r = .segt then none else s.mmuRequest)
        ∧ t.platform = s.platform ∧ t.pins = s.pins ∧ t.psapSeg = s.psapSeg ∧ t.psapOff = s.psapOff
        ∧ t.refresh = s.refresh ∧ t.moLow = s.moLow ∧ t.busGranted = s.busGranted ∧ t.resetPending = s.resetPending

/-- R454, R455, R458, R87: which request is accepted at the end of an instruction that made the cycles `cs` and led from
`s` to `t`, with the enables that it leaves (D14): NMI first, then the segment trap of a Z8001, then VI under VIE, then
NVI under NVIE. A segment trap is requested by the platform's pin, or by a memory management unit that holds a request or
whose rules name one of the cycles; it keeps its first request (log entry 44). The enables that count are the platform's
choice (log entry 29). -/
def Obligations.HighestEnabledRequestIsAccepted : Prop :=
  ∀ (s t : State) (n : Nat) (cs : List Cycle), t.platform.enableDelay = false →
    let u := s.finish n cs t
    let nmi := t.nmiLatch = true ∨ (t.pins.nmi = true ∧ t.nmiLevel = false)
    let named := ∃ c ∈ cs, ∃ rule ∈ t.platform.mmu, c.asks rule = true
    let segt := t.isZ8001 = true ∧ (t.pins.segt = true ∨ (∃ b, t.mmuRequest = some b) ∨ named)
    let vi := t.pins.vi = true ∧ t.fcw.getLsbD 12 = true
    let nvi := t.pins.nvi = true ∧ t.fcw.getLsbD 11 = true
    (u.accepted = some .nmi ↔ nmi)
      ∧ (u.accepted = some .segt ↔ ¬nmi ∧ segt)
      ∧ (u.accepted = some .vi ↔ ¬nmi ∧ ¬segt ∧ vi)
      ∧ (u.accepted = some .nvi ↔ ¬nmi ∧ ¬segt ∧ ¬vi ∧ nvi)
      ∧ (u.accepted = none ↔ ¬nmi ∧ ¬segt ∧ ¬vi ∧ ¬nvi)
      ∧ (∀ b, t.mmuRequest = some b → u.mmuRequest = some b)
      ∧ (t.mmuRequest = none → t.isZ8001 = true → ∀ before c after, cs = before ++ c :: after →
          (∀ c' ∈ before, ∀ rule ∈ t.platform.mmu, c'.asks rule = false) →
          ∀ first rule last, t.platform.mmu = first ++ rule :: last → (∀ rule' ∈ first, c.asks rule' = false) →
          c.asks rule = true → u.mmuRequest = some rule.ident)

/-- R48, R453, R83, R91, R505: a halted CPU without a request, WAIT, a bus request and STOP hold the CPU: a step changes
the NMI detector, the step counter and the list of cycles only, STOP the refresh counter too, a bus request the grant; a
bus requester that has the bus makes its writes, each cell holding the last byte written to it; a halted CPU with a
request that is let through takes its entry. A hold is a step of its own: the model's choice (log entries 32, 33, 37). -/
def Obligations.HoldsAndHalt : Prop :=
  ∀ s : State, s.turns = [] → s.pins.reset = false →
    (s.pins.busreq = true → s.busGranted = false → step s = .next ({ s with busGranted := true } : State).settle)
    ∧ (s.pins.busreq = true → s.busGranted = true →
        Completes (step s) fun t =>
          t = ({ s with mem := t.mem, pins := { s.pins with dma := [] } } : State).settle
            ∧ SameMemoryBut s { t with tick := s.tick } (s.pins.dma.map fun w => s.cell w.space w.addr)
            ∧ ∀ before w after, s.pins.dma = before ++ w :: after →
                (∀ w' ∈ after, s.cell w'.space w'.addr ≠ s.cell w.space w.addr) →
                s.absentCell (s.cell w.space w.addr) = false → t.peekByte w.space w.addr = w.value)
    ∧ (s.pins.busreq = false → s.busGranted = true → step s = .next ({ s with busGranted := false } : State).settle)
    ∧ (s.pins.busreq = false → s.busGranted = false → s.pins.wait = true → step s = .next s.settle)
    ∧ (s.pins.busreq = false → s.busGranted = false → s.pins.wait = false → s.resetPending = false →
        s.pins.stop = true →
        ∃ row : BitVec 9, row.getLsbD 0 = false ∧
          step s = .next ({ s with refresh := { s.refresh with row := row }, bus := [.refresh] } : State).settle)
    ∧ (s.Free → s.accepted = none → s.halted = true →
        (s.nmiLatch = false → (s.pins.nmi = true → s.nmiLevel = true) →
          (s.isZ8001 = true → s.pins.segt = false ∧ s.mmuRequest = none) →
          (s.pins.vi = true → s.fcw.getLsbD 12 = false) → (s.pins.nvi = true → s.fcw.getLsbD 11 = false) →
          step s = .next ({ s with bus := [.internal] } : State).settle)
        ∧ ∀ r, s.pick (s.fcw.getLsbD 12) (s.fcw.getLsbD 11) = some r → step s = step { s with accepted := some r })

/-- Where the machine stops, each by its name: an odd program counter (R78, D6); a first word that the opcode map leaves
unassigned, and no other (R131, R132, U2); a must-be-zero bit of a second word (R126, U3) or of a long address (R122); a
word or long word at an odd address on a platform that refuses it, whichever instruction accesses it (R79, D5); an
extended instruction with EPA = 1 that no EPU takes (U14); IRET on a nonsegmented Z8001 (U11); a program that runs
ill-formed operands (U4, U6). Each stop is the model's choice (log entries 4, 5, 22 to 26). -/
def Obligations.StopsByName : Prop :=
  (∀ s : State, s.Free → s.accepted = none → s.halted = false → s.pc.getLsbD 0 = true → step s = .fault .oddPc)
  ∧ (∀ seg (w : Word) ws, decode seg (w :: ws) = .error .unassigned ↔ unassignedWord w = true)
  ∧ (∀ seg (w v : Word) ws fixed, fixedBits w = some fixed → v &&& fixed.1 ≠ fixed.2 →
      decode seg (w :: v :: ws) = .error .mustBeZero)
  ∧ (∀ (w v : Word) ws k, unassignedWord w = false → addressWord w = some k → ws[k]? = some v → v.msb = true →
      v.extractLsb' 0 8 ≠ 0 → decode true (w :: ws) = .error .mustBeZero)
  ∧ (∀ (s : State) e, s.Quiet →
      decode s.segmented
        ((List.range 4).map fun n => s.peekWord (s.space .code) (s.pcAddr.add (BitVec.ofNat 16 (2 * n)))) = .error e →
      (e = .unassigned → step s = .refused .unassignedOpcode)
        ∧ (e = .mustBeZero →
          (s.system = true ∨ privilegedOpcode (s.peekWord (s.space .code) s.pcAddr) = false) →
          step s = .refused .mustBeZero))
  ∧ (∀ (s : State) (i : Instr),
      (s.platform.oddWord = .refuse →
        (exec i s = .refused .oddWordAddress ↔
          ∃ use sp write a, Cycle.memory use sp write false a ∈ s.instrCycles i ∧ a.off.getLsbD 0 = true))
      ∧ (s.platform.oddWord = .clearBit0 → exec i s ≠ .refused .oddWordAddress))
  ∧ (∀ (s : State) op e e1, s.epa = true →
      (∀ row ∈ s.platform.epu, row.op = op → row.e = e → row.e1 ≠ e1) →
      exec (.extended op e e1) s = .refused .noEpu)
  ∧ (∀ s : State, s.system = true → s.isZ8001 = true → s.segmented = false →
      exec .iret s = .refused .iretNonsegmented)
  ∧ ∀ (s : State) (i : Instr) (rest : List Word), s.Quiet →
      decode s.segmented
        ((List.range 4).map fun n => s.peekWord (s.space .code) (s.pcAddr.add (BitVec.ofNat 16 (2 * n)))) =
          .ok (i, rest) →
      i.wellFormed s.segmented = false → (s.system = true ∨ privilegedInstr i = false) →
      step s = .refused .registerField

/-! ## Extended Processing Units and the bus -/

/-- An extended instruction with EPA = 1 that an Extended Processing Unit of the platform takes (R134, R440): the unit
works alone; or 1 to 16 words go from memory or registers to it, or from it to memory or registers, the address being
computed once; or its flags go to FCW[7:0], where bits 1:0 set to 1 are open (U1). The instruction passes both its words.
The table of the units' templates, the queue of the words they supply (an open value where it is empty), that flags are
the low byte of such a word, and the events are the model's form (log entry 26). -/
def Obligations.ExtendedInstructionsWithAUnit : Prop :=
  ∀ (s : State) (op : ExtOp) (e : Byte) (e1 : Word), s.epa = true →
    let run := exec (.extended op e e1) s
    (s.epuAction op e e1 = some .internal → Completes run fun t => Frame s t [] 0 2)
    ∧ (∀ m n, s.epuAction op e e1 = some (.fromMemory m n) → s.accessOk .w (s.memAddr m) = true →
        Completes run fun t =>
          EpuTook s t ((List.range (n.toNat + 1)).map fun k =>
              s.peekWord (s.memSpace m) ((s.memAddr m).add (BitVec.ofNat 16 (2 * k))))
            ∧ SameRegs s t [] ∧ SameFcw s t 0 ∧ SameMemory s t ∧ Passed s t 2)
    ∧ (∀ r n, s.epuAction op e e1 = some (.fromRegs r n) →
        Completes run fun t =>
          EpuTook s t ((List.range (n.toNat + 1)).map fun k => s.reg (r + BitVec.ofNat 4 k))
            ∧ SameRegs s t [] ∧ SameFcw s t 0 ∧ SameMemory s t ∧ Passed s t 2)
    ∧ (∀ m n, s.epuAction op e e1 = some (.toMemory m n) → s.accessOk .w (s.memAddr m) = true →
        Completes run fun t => ∃ w : Nat → Word,
          EpuGave s t (n.toNat + 1) w
            ∧ (Storage s (s.wordCells (s.memSpace m) (s.memAddr m) (n.toNat + 1)) → ∀ k ≤ n.toNat,
                t.peekWord (s.memSpace m) ((s.memAddr m).add (BitVec.ofNat 16 (2 * k))) = w k)
            ∧ SameMemoryBut s t (s.wordCells (s.memSpace m) (s.memAddr m) (n.toNat + 1))
            ∧ SameRegs s t [] ∧ SameFcw s t 0 ∧ Passed s t 2)
    ∧ (∀ r n, s.epuAction op e e1 = some (.toRegs r n) →
        Completes run fun t => ∃ w : Nat → Word,
          EpuGave s t (n.toNat + 1) w ∧ (∀ k ≤ n.toNat, t.reg (r + BitVec.ofNat 4 k) = w k)
            ∧ SameRegs s t ((List.range (n.toNat + 1)).map fun k => r + BitVec.ofNat 4 k)
            ∧ SameFcw s t 0 ∧ SameMemory s t ∧ Passed s t 2)
    ∧ (s.epuAction op e e1 = some .toFlags →
        Completes run fun t => ∃ w : Nat → Word,
          EpuGave s t 1 w ∧ (∀ i, 2 ≤ i → i < 8 → t.fcw.getLsbD i = (w 0).getLsbD i)
            ∧ (∀ i, i < 2 → (w 0).getLsbD i = false → t.fcw.getLsbD i = false)
            ∧ SameRegs s t [] ∧ SameFcw s t 0x00FF ∧ SameMemory s t ∧ Passed s t 2)

/-- R80, R89: every change that an instruction makes to memory is a write cycle that it puts on the bus, at the address
and of the width of that cycle, and with no write cycle memory stays as it is. The list of cycles is the model's form of
R52 and R540 (log entry 42). -/
def Obligations.WriteCyclesAccountForMemory : Prop :=
  ∀ (s t : State) (i : Instr), exec i s = .next t →
    SameMemoryBut s t ((s.instrCycles i).flatMap s.writtenCells)
end

