-- ==== Sys2Proof/Laws/State.lean ====
section
/-! SUPPORT. One lemma for each field of the state that an update leaves alone. Each is true by unfolding. -/

namespace Sys2Proof.Machine

variable (s : State)

/-! ### setReg -/

@[simp] theorem State.setReg_platform (r : Reg) (v : Word) : (s.setReg r v).platform = s.platform := rfl
@[simp] theorem State.setReg_pins (r : Reg) (v : Word) : (s.setReg r v).pins = s.pins := rfl
@[simp] theorem State.setReg_pcSeg (r : Reg) (v : Word) : (s.setReg r v).pcSeg = s.pcSeg := rfl
@[simp] theorem State.setReg_pc (r : Reg) (v : Word) : (s.setReg r v).pc = s.pc := rfl
@[simp] theorem State.setReg_fcw (r : Reg) (v : Word) : (s.setReg r v).fcw = s.fcw := rfl
@[simp] theorem State.setReg_psapSeg (r : Reg) (v : Word) : (s.setReg r v).psapSeg = s.psapSeg := rfl
@[simp] theorem State.setReg_psapOff (r : Reg) (v : Word) : (s.setReg r v).psapOff = s.psapOff := rfl
@[simp] theorem State.setReg_refresh (r : Reg) (v : Word) : (s.setReg r v).refresh = s.refresh := rfl
@[simp] theorem State.setReg_nmiLatch (r : Reg) (v : Word) : (s.setReg r v).nmiLatch = s.nmiLatch := rfl
@[simp] theorem State.setReg_nmiLevel (r : Reg) (v : Word) : (s.setReg r v).nmiLevel = s.nmiLevel := rfl
@[simp] theorem State.setReg_halted (r : Reg) (v : Word) : (s.setReg r v).halted = s.halted := rfl
@[simp] theorem State.setReg_moLow (r : Reg) (v : Word) : (s.setReg r v).moLow = s.moLow := rfl
@[simp] theorem State.setReg_busGranted (r : Reg) (v : Word) : (s.setReg r v).busGranted = s.busGranted := rfl
@[simp] theorem State.setReg_identTemp (r : Reg) (v : Word) : (s.setReg r v).identTemp = s.identTemp := rfl
@[simp] theorem State.setReg_mem (r : Reg) (v : Word) : (s.setReg r v).mem = s.mem := rfl
@[simp] theorem State.setReg_resetPending (r : Reg) (v : Word) : (s.setReg r v).resetPending = s.resetPending := rfl
@[simp] theorem State.setReg_accepted (r : Reg) (v : Word) : (s.setReg r v).accepted = s.accepted := rfl
@[simp] theorem State.setReg_stale (r : Reg) (v : Word) : (s.setReg r v).stale = s.stale := rfl
@[simp] theorem State.setReg_turns (r : Reg) (v : Word) : (s.setReg r v).turns = s.turns := rfl
@[simp] theorem State.setReg_mmuRequest (r : Reg) (v : Word) : (s.setReg r v).mmuRequest = s.mmuRequest := rfl
@[simp] theorem State.setReg_bus (r : Reg) (v : Word) : (s.setReg r v).bus = s.bus := rfl
@[simp] theorem State.setReg_events (r : Reg) (v : Word) : (s.setReg r v).events = s.events := rfl
@[simp] theorem State.setReg_tick (r : Reg) (v : Word) : (s.setReg r v).tick = s.tick := rfl

/-! ### setRegByte -/

@[simp] theorem State.setRegByte_platform (r : Reg) (v : Byte) : (s.setRegByte r v).platform = s.platform := by
  simp only [State.setRegByte, State.setReg_platform]
@[simp] theorem State.setRegByte_pins (r : Reg) (v : Byte) : (s.setRegByte r v).pins = s.pins := by
  simp only [State.setRegByte, State.setReg_pins]
@[simp] theorem State.setRegByte_pcSeg (r : Reg) (v : Byte) : (s.setRegByte r v).pcSeg = s.pcSeg := by
  simp only [State.setRegByte, State.setReg_pcSeg]
@[simp] theorem State.setRegByte_pc (r : Reg) (v : Byte) : (s.setRegByte r v).pc = s.pc := by
  simp only [State.setRegByte, State.setReg_pc]
@[simp] theorem State.setRegByte_fcw (r : Reg) (v : Byte) : (s.setRegByte r v).fcw = s.fcw := by
  simp only [State.setRegByte, State.setReg_fcw]
@[simp] theorem State.setRegByte_psapSeg (r : Reg) (v : Byte) : (s.setRegByte r v).psapSeg = s.psapSeg := by
  simp only [State.setRegByte, State.setReg_psapSeg]
@[simp] theorem State.setRegByte_psapOff (r : Reg) (v : Byte) : (s.setRegByte r v).psapOff = s.psapOff := by
  simp only [State.setRegByte, State.setReg_psapOff]
@[simp] theorem State.setRegByte_refresh (r : Reg) (v : Byte) : (s.setRegByte r v).refresh = s.refresh := by
  simp only [State.setRegByte, State.setReg_refresh]
@[simp] theorem State.setRegByte_nmiLatch (r : Reg) (v : Byte) : (s.setRegByte r v).nmiLatch = s.nmiLatch := by
  simp only [State.setRegByte, State.setReg_nmiLatch]
@[simp] theorem State.setRegByte_nmiLevel (r : Reg) (v : Byte) : (s.setRegByte r v).nmiLevel = s.nmiLevel := by
  simp only [State.setRegByte, State.setReg_nmiLevel]
@[simp] theorem State.setRegByte_halted (r : Reg) (v : Byte) : (s.setRegByte r v).halted = s.halted := by
  simp only [State.setRegByte, State.setReg_halted]
@[simp] theorem State.setRegByte_moLow (r : Reg) (v : Byte) : (s.setRegByte r v).moLow = s.moLow := by
  simp only [State.setRegByte, State.setReg_moLow]
@[simp] theorem State.setRegByte_busGranted (r : Reg) (v : Byte) : (s.setRegByte r v).busGranted = s.busGranted := by
  simp only [State.setRegByte, State.setReg_busGranted]
@[simp] theorem State.setRegByte_identTemp (r : Reg) (v : Byte) : (s.setRegByte r v).identTemp = s.identTemp := by
  simp only [State.setRegByte, State.setReg_identTemp]
@[simp] theorem State.setRegByte_mem (r : Reg) (v : Byte) : (s.setRegByte r v).mem = s.mem := by
  simp only [State.setRegByte, State.setReg_mem]
@[simp] theorem State.setRegByte_resetPending (r : Reg) (v : Byte) :
    (s.setRegByte r v).resetPending = s.resetPending := by
  simp only [State.setRegByte, State.setReg_resetPending]
@[simp] theorem State.setRegByte_accepted (r : Reg) (v : Byte) : (s.setRegByte r v).accepted = s.accepted := by
  simp only [State.setRegByte, State.setReg_accepted]
@[simp] theorem State.setRegByte_stale (r : Reg) (v : Byte) : (s.setRegByte r v).stale = s.stale := by
  simp only [State.setRegByte, State.setReg_stale]
@[simp] theorem State.setRegByte_turns (r : Reg) (v : Byte) : (s.setRegByte r v).turns = s.turns := by
  simp only [State.setRegByte, State.setReg_turns]
@[simp] theorem State.setRegByte_mmuRequest (r : Reg) (v : Byte) : (s.setRegByte r v).mmuRequest = s.mmuRequest := by
  simp only [State.setRegByte, State.setReg_mmuRequest]
@[simp] theorem State.setRegByte_bus (r : Reg) (v : Byte) : (s.setRegByte r v).bus = s.bus := by
  simp only [State.setRegByte, State.setReg_bus]
@[simp] theorem State.setRegByte_events (r : Reg) (v : Byte) : (s.setRegByte r v).events = s.events := by
  simp only [State.setRegByte, State.setReg_events]
@[simp] theorem State.setRegByte_tick (r : Reg) (v : Byte) : (s.setRegByte r v).tick = s.tick := by
  simp only [State.setRegByte, State.setReg_tick]

/-! ### setRegLong -/

@[simp] theorem State.setRegLong_platform (r : Reg) (v : Long) : (s.setRegLong r v).platform = s.platform := by
  simp only [State.setRegLong, State.setReg_platform]
@[simp] theorem State.setRegLong_pins (r : Reg) (v : Long) : (s.setRegLong r v).pins = s.pins := by
  simp only [State.setRegLong, State.setReg_pins]
@[simp] theorem State.setRegLong_pcSeg (r : Reg) (v : Long) : (s.setRegLong r v).pcSeg = s.pcSeg := by
  simp only [State.setRegLong, State.setReg_pcSeg]
@[simp] theorem State.setRegLong_pc (r : Reg) (v : Long) : (s.setRegLong r v).pc = s.pc := by
  simp only [State.setRegLong, State.setReg_pc]
@[simp] theorem State.setRegLong_fcw (r : Reg) (v : Long) : (s.setRegLong r v).fcw = s.fcw := by
  simp only [State.setRegLong, State.setReg_fcw]
@[simp] theorem State.setRegLong_psapSeg (r : Reg) (v : Long) : (s.setRegLong r v).psapSeg = s.psapSeg := by
  simp only [State.setRegLong, State.setReg_psapSeg]
@[simp] theorem State.setRegLong_psapOff (r : Reg) (v : Long) : (s.setRegLong r v).psapOff = s.psapOff := by
  simp only [State.setRegLong, State.setReg_psapOff]
@[simp] theorem State.setRegLong_refresh (r : Reg) (v : Long) : (s.setRegLong r v).refresh = s.refresh := by
  simp only [State.setRegLong, State.setReg_refresh]
@[simp] theorem State.setRegLong_nmiLatch (r : Reg) (v : Long) : (s.setRegLong r v).nmiLatch = s.nmiLatch := by
  simp only [State.setRegLong, State.setReg_nmiLatch]
@[simp] theorem State.setRegLong_nmiLevel (r : Reg) (v : Long) : (s.setRegLong r v).nmiLevel = s.nmiLevel := by
  simp only [State.setRegLong, State.setReg_nmiLevel]
@[simp] theorem State.setRegLong_halted (r : Reg) (v : Long) : (s.setRegLong r v).halted = s.halted := by
  simp only [State.setRegLong, State.setReg_halted]
@[simp] theorem State.setRegLong_moLow (r : Reg) (v : Long) : (s.setRegLong r v).moLow = s.moLow := by
  simp only [State.setRegLong, State.setReg_moLow]
@[simp] theorem State.setRegLong_busGranted (r : Reg) (v : Long) : (s.setRegLong r v).busGranted = s.busGranted := by
  simp only [State.setRegLong, State.setReg_busGranted]
@[simp] theorem State.setRegLong_identTemp (r : Reg) (v : Long) : (s.setRegLong r v).identTemp = s.identTemp := by
  simp only [State.setRegLong, State.setReg_identTemp]
@[simp] theorem State.setRegLong_mem (r : Reg) (v : Long) : (s.setRegLong r v).mem = s.mem := by
  simp only [State.setRegLong, State.setReg_mem]
@[simp] theorem State.setRegLong_resetPending (r : Reg) (v : Long) :
    (s.setRegLong r v).resetPending = s.resetPending := by
  simp only [State.setRegLong, State.setReg_resetPending]
@[simp] theorem State.setRegLong_accepted (r : Reg) (v : Long) : (s.setRegLong r v).accepted = s.accepted := by
  simp only [State.setRegLong, State.setReg_accepted]
@[simp] theorem State.setRegLong_stale (r : Reg) (v : Long) : (s.setRegLong r v).stale = s.stale := by
  simp only [State.setRegLong, State.setReg_stale]
@[simp] theorem State.setRegLong_turns (r : Reg) (v : Long) : (s.setRegLong r v).turns = s.turns := by
  simp only [State.setRegLong, State.setReg_turns]
@[simp] theorem State.setRegLong_mmuRequest (r : Reg) (v : Long) : (s.setRegLong r v).mmuRequest = s.mmuRequest := by
  simp only [State.setRegLong, State.setReg_mmuRequest]
@[simp] theorem State.setRegLong_bus (r : Reg) (v : Long) : (s.setRegLong r v).bus = s.bus := by
  simp only [State.setRegLong, State.setReg_bus]
@[simp] theorem State.setRegLong_events (r : Reg) (v : Long) : (s.setRegLong r v).events = s.events := by
  simp only [State.setRegLong, State.setReg_events]
@[simp] theorem State.setRegLong_tick (r : Reg) (v : Long) : (s.setRegLong r v).tick = s.tick := by
  simp only [State.setRegLong, State.setReg_tick]

/-! ### setRegQuad -/

@[simp] theorem State.setRegQuad_platform (r : Reg) (v : Quad) : (s.setRegQuad r v).platform = s.platform := by
  simp only [State.setRegQuad, State.setRegLong_platform]
@[simp] theorem State.setRegQuad_pins (r : Reg) (v : Quad) : (s.setRegQuad r v).pins = s.pins := by
  simp only [State.setRegQuad, State.setRegLong_pins]
@[simp] theorem State.setRegQuad_pcSeg (r : Reg) (v : Quad) : (s.setRegQuad r v).pcSeg = s.pcSeg := by
  simp only [State.setRegQuad, State.setRegLong_pcSeg]
@[simp] theorem State.setRegQuad_pc (r : Reg) (v : Quad) : (s.setRegQuad r v).pc = s.pc := by
  simp only [State.setRegQuad, State.setRegLong_pc]
@[simp] theorem State.setRegQuad_fcw (r : Reg) (v : Quad) : (s.setRegQuad r v).fcw = s.fcw := by
  simp only [State.setRegQuad, State.setRegLong_fcw]
@[simp] theorem State.setRegQuad_psapSeg (r : Reg) (v : Quad) : (s.setRegQuad r v).psapSeg = s.psapSeg := by
  simp only [State.setRegQuad, State.setRegLong_psapSeg]
@[simp] theorem State.setRegQuad_psapOff (r : Reg) (v : Quad) : (s.setRegQuad r v).psapOff = s.psapOff := by
  simp only [State.setRegQuad, State.setRegLong_psapOff]
@[simp] theorem State.setRegQuad_refresh (r : Reg) (v : Quad) : (s.setRegQuad r v).refresh = s.refresh := by
  simp only [State.setRegQuad, State.setRegLong_refresh]
@[simp] theorem State.setRegQuad_nmiLatch (r : Reg) (v : Quad) : (s.setRegQuad r v).nmiLatch = s.nmiLatch := by
  simp only [State.setRegQuad, State.setRegLong_nmiLatch]
@[simp] theorem State.setRegQuad_nmiLevel (r : Reg) (v : Quad) : (s.setRegQuad r v).nmiLevel = s.nmiLevel := by
  simp only [State.setRegQuad, State.setRegLong_nmiLevel]
@[simp] theorem State.setRegQuad_halted (r : Reg) (v : Quad) : (s.setRegQuad r v).halted = s.halted := by
  simp only [State.setRegQuad, State.setRegLong_halted]
@[simp] theorem State.setRegQuad_moLow (r : Reg) (v : Quad) : (s.setRegQuad r v).moLow = s.moLow := by
  simp only [State.setRegQuad, State.setRegLong_moLow]
@[simp] theorem State.setRegQuad_busGranted (r : Reg) (v : Quad) : (s.setRegQuad r v).busGranted = s.busGranted := by
  simp only [State.setRegQuad, State.setRegLong_busGranted]
@[simp] theorem State.setRegQuad_identTemp (r : Reg) (v : Quad) : (s.setRegQuad r v).identTemp = s.identTemp := by
  simp only [State.setRegQuad, State.setRegLong_identTemp]
@[simp] theorem State.setRegQuad_mem (r : Reg) (v : Quad) : (s.setRegQuad r v).mem = s.mem := by
  simp only [State.setRegQuad, State.setRegLong_mem]
@[simp] theorem State.setRegQuad_resetPending (r : Reg) (v : Quad) :
    (s.setRegQuad r v).resetPending = s.resetPending := by
  simp only [State.setRegQuad, State.setRegLong_resetPending]
@[simp] theorem State.setRegQuad_accepted (r : Reg) (v : Quad) : (s.setRegQuad r v).accepted = s.accepted := by
  simp only [State.setRegQuad, State.setRegLong_accepted]
@[simp] theorem State.setRegQuad_stale (r : Reg) (v : Quad) : (s.setRegQuad r v).stale = s.stale := by
  simp only [State.setRegQuad, State.setRegLong_stale]
@[simp] theorem State.setRegQuad_turns (r : Reg) (v : Quad) : (s.setRegQuad r v).turns = s.turns := by
  simp only [State.setRegQuad, State.setRegLong_turns]
@[simp] theorem State.setRegQuad_mmuRequest (r : Reg) (v : Quad) : (s.setRegQuad r v).mmuRequest = s.mmuRequest := by
  simp only [State.setRegQuad, State.setRegLong_mmuRequest]
@[simp] theorem State.setRegQuad_bus (r : Reg) (v : Quad) : (s.setRegQuad r v).bus = s.bus := by
  simp only [State.setRegQuad, State.setRegLong_bus]
@[simp] theorem State.setRegQuad_events (r : Reg) (v : Quad) : (s.setRegQuad r v).events = s.events := by
  simp only [State.setRegQuad, State.setRegLong_events]
@[simp] theorem State.setRegQuad_tick (r : Reg) (v : Quad) : (s.setRegQuad r v).tick = s.tick := by
  simp only [State.setRegQuad, State.setRegLong_tick]

/-! ### setRegOf -/

@[simp] theorem State.setRegOf_platform (z : Size) (r : Reg) (v : BitVec z.bits) :
    (s.setRegOf z r v).platform = s.platform := by
  cases z <;>
    simp only [State.setRegOf, State.setRegByte_platform, State.setReg_platform, State.setRegLong_platform]
@[simp] theorem State.setRegOf_pins (z : Size) (r : Reg) (v : BitVec z.bits) : (s.setRegOf z r v).pins = s.pins := by
  cases z <;>
    simp only [State.setRegOf, State.setRegByte_pins, State.setReg_pins, State.setRegLong_pins]
@[simp] theorem State.setRegOf_pcSeg (z : Size) (r : Reg) (v : BitVec z.bits) :
    (s.setRegOf z r v).pcSeg = s.pcSeg := by
  cases z <;>
    simp only [State.setRegOf, State.setRegByte_pcSeg, State.setReg_pcSeg, State.setRegLong_pcSeg]
@[simp] theorem State.setRegOf_pc (z : Size) (r : Reg) (v : BitVec z.bits) : (s.setRegOf z r v).pc = s.pc := by
  cases z <;>
    simp only [State.setRegOf, State.setRegByte_pc, State.setReg_pc, State.setRegLong_pc]
@[simp] theorem State.setRegOf_fcw (z : Size) (r : Reg) (v : BitVec z.bits) : (s.setRegOf z r v).fcw = s.fcw := by
  cases z <;>
    simp only [State.setRegOf, State.setRegByte_fcw, State.setReg_fcw, State.setRegLong_fcw]
@[simp] theorem State.setRegOf_psapSeg (z : Size) (r : Reg) (v : BitVec z.bits) :
    (s.setRegOf z r v).psapSeg = s.psapSeg := by
  cases z <;>
    simp only [State.setRegOf, State.setRegByte_psapSeg, State.setReg_psapSeg, State.setRegLong_psapSeg]
@[simp] theorem State.setRegOf_psapOff (z : Size) (r : Reg) (v : BitVec z.bits) :
    (s.setRegOf z r v).psapOff = s.psapOff := by
  cases z <;>
    simp only [State.setRegOf, State.setRegByte_psapOff, State.setReg_psapOff, State.setRegLong_psapOff]
@[simp] theorem State.setRegOf_refresh (z : Size) (r : Reg) (v : BitVec z.bits) :
    (s.setRegOf z r v).refresh = s.refresh := by
  cases z <;>
    simp only [State.setRegOf, State.setRegByte_refresh, State.setReg_refresh, State.setRegLong_refresh]
@[simp] theorem State.setRegOf_nmiLatch (z : Size) (r : Reg) (v : BitVec z.bits) :
    (s.setRegOf z r v).nmiLatch = s.nmiLatch := by
  cases z <;>
    simp only [State.setRegOf, State.setRegByte_nmiLatch, State.setReg_nmiLatch, State.setRegLong_nmiLatch]
@[simp] theorem State.setRegOf_nmiLevel (z : Size) (r : Reg) (v : BitVec z.bits) :
    (s.setRegOf z r v).nmiLevel = s.nmiLevel := by
  cases z <;>
    simp only [State.setRegOf, State.setRegByte_nmiLevel, State.setReg_nmiLevel, State.setRegLong_nmiLevel]
@[simp] theorem State.setRegOf_halted (z : Size) (r : Reg) (v : BitVec z.bits) :
    (s.setRegOf z r v).halted = s.halted := by
  cases z <;>
    simp only [State.setRegOf, State.setRegByte_halted, State.setReg_halted, State.setRegLong_halted]
@[simp] theorem State.setRegOf_moLow (z : Size) (r : Reg) (v : BitVec z.bits) :
    (s.setRegOf z r v).moLow = s.moLow := by
  cases z <;>
    simp only [State.setRegOf, State.setRegByte_moLow, State.setReg_moLow, State.setRegLong_moLow]
@[simp] theorem State.setRegOf_busGranted (z : Size) (r : Reg) (v : BitVec z.bits) :
    (s.setRegOf z r v).busGranted = s.busGranted := by
  cases z <;>
    simp only [State.setRegOf, State.setRegByte_busGranted, State.setReg_busGranted, State.setRegLong_busGranted]
@[simp] theorem State.setRegOf_identTemp (z : Size) (r : Reg) (v : BitVec z.bits) :
    (s.setRegOf z r v).identTemp = s.identTemp := by
  cases z <;>
    simp only [State.setRegOf, State.setRegByte_identTemp, State.setReg_identTemp, State.setRegLong_identTemp]
@[simp] theorem State.setRegOf_mem (z : Size) (r : Reg) (v : BitVec z.bits) : (s.setRegOf z r v).mem = s.mem := by
  cases z <;>
    simp only [State.setRegOf, State.setRegByte_mem, State.setReg_mem, State.setRegLong_mem]
@[simp] theorem State.setRegOf_resetPending (z : Size) (r : Reg) (v : BitVec z.bits) :
    (s.setRegOf z r v).resetPending = s.resetPending := by
  cases z <;>
    simp only [State.setRegOf, State.setRegByte_resetPending, State.setReg_resetPending, State.setRegLong_resetPending]
@[simp] theorem State.setRegOf_accepted (z : Size) (r : Reg) (v : BitVec z.bits) :
    (s.setRegOf z r v).accepted = s.accepted := by
  cases z <;>
    simp only [State.setRegOf, State.setRegByte_accepted, State.setReg_accepted, State.setRegLong_accepted]
@[simp] theorem State.setRegOf_stale (z : Size) (r : Reg) (v : BitVec z.bits) :
    (s.setRegOf z r v).stale = s.stale := by
  cases z <;>
    simp only [State.setRegOf, State.setRegByte_stale, State.setReg_stale, State.setRegLong_stale]
@[simp] theorem State.setRegOf_turns (z : Size) (r : Reg) (v : BitVec z.bits) :
    (s.setRegOf z r v).turns = s.turns := by
  cases z <;>
    simp only [State.setRegOf, State.setRegByte_turns, State.setReg_turns, State.setRegLong_turns]
@[simp] theorem State.setRegOf_mmuRequest (z : Size) (r : Reg) (v : BitVec z.bits) :
    (s.setRegOf z r v).mmuRequest = s.mmuRequest := by
  cases z <;>
    simp only [State.setRegOf, State.setRegByte_mmuRequest, State.setReg_mmuRequest, State.setRegLong_mmuRequest]
@[simp] theorem State.setRegOf_bus (z : Size) (r : Reg) (v : BitVec z.bits) : (s.setRegOf z r v).bus = s.bus := by
  cases z <;>
    simp only [State.setRegOf, State.setRegByte_bus, State.setReg_bus, State.setRegLong_bus]
@[simp] theorem State.setRegOf_events (z : Size) (r : Reg) (v : BitVec z.bits) :
    (s.setRegOf z r v).events = s.events := by
  cases z <;>
    simp only [State.setRegOf, State.setRegByte_events, State.setReg_events, State.setRegLong_events]
@[simp] theorem State.setRegOf_tick (z : Size) (r : Reg) (v : BitVec z.bits) : (s.setRegOf z r v).tick = s.tick := by
  cases z <;>
    simp only [State.setRegOf, State.setRegByte_tick, State.setReg_tick, State.setRegLong_tick]

/-! ### bump -/

@[simp] theorem State.bump_platform (r : Reg) (w : Word) : (s.bump r w).platform = s.platform := by
  simp only [State.bump, State.setReg_platform]
@[simp] theorem State.bump_pins (r : Reg) (w : Word) : (s.bump r w).pins = s.pins := by
  simp only [State.bump, State.setReg_pins]
@[simp] theorem State.bump_pcSeg (r : Reg) (w : Word) : (s.bump r w).pcSeg = s.pcSeg := by
  simp only [State.bump, State.setReg_pcSeg]
@[simp] theorem State.bump_pc (r : Reg) (w : Word) : (s.bump r w).pc = s.pc := by
  simp only [State.bump, State.setReg_pc]
@[simp] theorem State.bump_fcw (r : Reg) (w : Word) : (s.bump r w).fcw = s.fcw := by
  simp only [State.bump, State.setReg_fcw]
@[simp] theorem State.bump_psapSeg (r : Reg) (w : Word) : (s.bump r w).psapSeg = s.psapSeg := by
  simp only [State.bump, State.setReg_psapSeg]
@[simp] theorem State.bump_psapOff (r : Reg) (w : Word) : (s.bump r w).psapOff = s.psapOff := by
  simp only [State.bump, State.setReg_psapOff]
@[simp] theorem State.bump_refresh (r : Reg) (w : Word) : (s.bump r w).refresh = s.refresh := by
  simp only [State.bump, State.setReg_refresh]
@[simp] theorem State.bump_nmiLatch (r : Reg) (w : Word) : (s.bump r w).nmiLatch = s.nmiLatch := by
  simp only [State.bump, State.setReg_nmiLatch]
@[simp] theorem State.bump_nmiLevel (r : Reg) (w : Word) : (s.bump r w).nmiLevel = s.nmiLevel := by
  simp only [State.bump, State.setReg_nmiLevel]
@[simp] theorem State.bump_halted (r : Reg) (w : Word) : (s.bump r w).halted = s.halted := by
  simp only [State.bump, State.setReg_halted]
@[simp] theorem State.bump_moLow (r : Reg) (w : Word) : (s.bump r w).moLow = s.moLow := by
  simp only [State.bump, State.setReg_moLow]
@[simp] theorem State.bump_busGranted (r : Reg) (w : Word) : (s.bump r w).busGranted = s.busGranted := by
  simp only [State.bump, State.setReg_busGranted]
@[simp] theorem State.bump_identTemp (r : Reg) (w : Word) : (s.bump r w).identTemp = s.identTemp := by
  simp only [State.bump, State.setReg_identTemp]
@[simp] theorem State.bump_mem (r : Reg) (w : Word) : (s.bump r w).mem = s.mem := by
  simp only [State.bump, State.setReg_mem]
@[simp] theorem State.bump_resetPending (r : Reg) (w : Word) : (s.bump r w).resetPending = s.resetPending := by
  simp only [State.bump, State.setReg_resetPending]
@[simp] theorem State.bump_accepted (r : Reg) (w : Word) : (s.bump r w).accepted = s.accepted := by
  simp only [State.bump, State.setReg_accepted]
@[simp] theorem State.bump_stale (r : Reg) (w : Word) : (s.bump r w).stale = s.stale := by
  simp only [State.bump, State.setReg_stale]
@[simp] theorem State.bump_turns (r : Reg) (w : Word) : (s.bump r w).turns = s.turns := by
  simp only [State.bump, State.setReg_turns]
@[simp] theorem State.bump_mmuRequest (r : Reg) (w : Word) : (s.bump r w).mmuRequest = s.mmuRequest := by
  simp only [State.bump, State.setReg_mmuRequest]
@[simp] theorem State.bump_bus (r : Reg) (w : Word) : (s.bump r w).bus = s.bus := by
  simp only [State.bump, State.setReg_bus]
@[simp] theorem State.bump_events (r : Reg) (w : Word) : (s.bump r w).events = s.events := by
  simp only [State.bump, State.setReg_events]
@[simp] theorem State.bump_tick (r : Reg) (w : Word) : (s.bump r w).tick = s.tick := by
  simp only [State.bump, State.setReg_tick]

/-! ### drop -/

@[simp] theorem State.drop_platform (z : Size) (r : Reg) : (s.drop z r).platform = s.platform := by
  simp only [State.drop, State.bump_platform]
@[simp] theorem State.drop_pins (z : Size) (r : Reg) : (s.drop z r).pins = s.pins := by
  simp only [State.drop, State.bump_pins]
@[simp] theorem State.drop_pcSeg (z : Size) (r : Reg) : (s.drop z r).pcSeg = s.pcSeg := by
  simp only [State.drop, State.bump_pcSeg]
@[simp] theorem State.drop_pc (z : Size) (r : Reg) : (s.drop z r).pc = s.pc := by
  simp only [State.drop, State.bump_pc]
@[simp] theorem State.drop_fcw (z : Size) (r : Reg) : (s.drop z r).fcw = s.fcw := by
  simp only [State.drop, State.bump_fcw]
@[simp] theorem State.drop_psapSeg (z : Size) (r : Reg) : (s.drop z r).psapSeg = s.psapSeg := by
  simp only [State.drop, State.bump_psapSeg]
@[simp] theorem State.drop_psapOff (z : Size) (r : Reg) : (s.drop z r).psapOff = s.psapOff := by
  simp only [State.drop, State.bump_psapOff]
@[simp] theorem State.drop_refresh (z : Size) (r : Reg) : (s.drop z r).refresh = s.refresh := by
  simp only [State.drop, State.bump_refresh]
@[simp] theorem State.drop_nmiLatch (z : Size) (r : Reg) : (s.drop z r).nmiLatch = s.nmiLatch := by
  simp only [State.drop, State.bump_nmiLatch]
@[simp] theorem State.drop_nmiLevel (z : Size) (r : Reg) : (s.drop z r).nmiLevel = s.nmiLevel := by
  simp only [State.drop, State.bump_nmiLevel]
@[simp] theorem State.drop_halted (z : Size) (r : Reg) : (s.drop z r).halted = s.halted := by
  simp only [State.drop, State.bump_halted]
@[simp] theorem State.drop_moLow (z : Size) (r : Reg) : (s.drop z r).moLow = s.moLow := by
  simp only [State.drop, State.bump_moLow]
@[simp] theorem State.drop_busGranted (z : Size) (r : Reg) : (s.drop z r).busGranted = s.busGranted := by
  simp only [State.drop, State.bump_busGranted]
@[simp] theorem State.drop_identTemp (z : Size) (r : Reg) : (s.drop z r).identTemp = s.identTemp := by
  simp only [State.drop, State.bump_identTemp]
@[simp] theorem State.drop_mem (z : Size) (r : Reg) : (s.drop z r).mem = s.mem := by
  simp only [State.drop, State.bump_mem]
@[simp] theorem State.drop_resetPending (z : Size) (r : Reg) : (s.drop z r).resetPending = s.resetPending := by
  simp only [State.drop, State.bump_resetPending]
@[simp] theorem State.drop_accepted (z : Size) (r : Reg) : (s.drop z r).accepted = s.accepted := by
  simp only [State.drop, State.bump_accepted]
@[simp] theorem State.drop_stale (z : Size) (r : Reg) : (s.drop z r).stale = s.stale := by
  simp only [State.drop, State.bump_stale]
@[simp] theorem State.drop_turns (z : Size) (r : Reg) : (s.drop z r).turns = s.turns := by
  simp only [State.drop, State.bump_turns]
@[simp] theorem State.drop_mmuRequest (z : Size) (r : Reg) : (s.drop z r).mmuRequest = s.mmuRequest := by
  simp only [State.drop, State.bump_mmuRequest]
@[simp] theorem State.drop_bus (z : Size) (r : Reg) : (s.drop z r).bus = s.bus := by
  simp only [State.drop, State.bump_bus]
@[simp] theorem State.drop_events (z : Size) (r : Reg) : (s.drop z r).events = s.events := by
  simp only [State.drop, State.bump_events]
@[simp] theorem State.drop_tick (z : Size) (r : Reg) : (s.drop z r).tick = s.tick := by
  simp only [State.drop, State.bump_tick]

/-! ### countDown -/

@[simp] theorem State.countDown_platform (r : Reg) : (s.countDown r).platform = s.platform := by
  simp only [State.countDown, State.setReg_platform]
@[simp] theorem State.countDown_pins (r : Reg) : (s.countDown r).pins = s.pins := by
  simp only [State.countDown, State.setReg_pins]
@[simp] theorem State.countDown_pcSeg (r : Reg) : (s.countDown r).pcSeg = s.pcSeg := by
  simp only [State.countDown, State.setReg_pcSeg]
@[simp] theorem State.countDown_pc (r : Reg) : (s.countDown r).pc = s.pc := by
  simp only [State.countDown, State.setReg_pc]
@[simp] theorem State.countDown_fcw (r : Reg) : (s.countDown r).fcw = s.fcw := by
  simp only [State.countDown, State.setReg_fcw]
@[simp] theorem State.countDown_psapSeg (r : Reg) : (s.countDown r).psapSeg = s.psapSeg := by
  simp only [State.countDown, State.setReg_psapSeg]
@[simp] theorem State.countDown_psapOff (r : Reg) : (s.countDown r).psapOff = s.psapOff := by
  simp only [State.countDown, State.setReg_psapOff]
@[simp] theorem State.countDown_refresh (r : Reg) : (s.countDown r).refresh = s.refresh := by
  simp only [State.countDown, State.setReg_refresh]
@[simp] theorem State.countDown_nmiLatch (r : Reg) : (s.countDown r).nmiLatch = s.nmiLatch := by
  simp only [State.countDown, State.setReg_nmiLatch]
@[simp] theorem State.countDown_nmiLevel (r : Reg) : (s.countDown r).nmiLevel = s.nmiLevel := by
  simp only [State.countDown, State.setReg_nmiLevel]
@[simp] theorem State.countDown_halted (r : Reg) : (s.countDown r).halted = s.halted := by
  simp only [State.countDown, State.setReg_halted]
@[simp] theorem State.countDown_moLow (r : Reg) : (s.countDown r).moLow = s.moLow := by
  simp only [State.countDown, State.setReg_moLow]
@[simp] theorem State.countDown_busGranted (r : Reg) : (s.countDown r).busGranted = s.busGranted := by
  simp only [State.countDown, State.setReg_busGranted]
@[simp] theorem State.countDown_identTemp (r : Reg) : (s.countDown r).identTemp = s.identTemp := by
  simp only [State.countDown, State.setReg_identTemp]
@[simp] theorem State.countDown_mem (r : Reg) : (s.countDown r).mem = s.mem := by
  simp only [State.countDown, State.setReg_mem]
@[simp] theorem State.countDown_resetPending (r : Reg) : (s.countDown r).resetPending = s.resetPending := by
  simp only [State.countDown, State.setReg_resetPending]
@[simp] theorem State.countDown_accepted (r : Reg) : (s.countDown r).accepted = s.accepted := by
  simp only [State.countDown, State.setReg_accepted]
@[simp] theorem State.countDown_stale (r : Reg) : (s.countDown r).stale = s.stale := by
  simp only [State.countDown, State.setReg_stale]
@[simp] theorem State.countDown_turns (r : Reg) : (s.countDown r).turns = s.turns := by
  simp only [State.countDown, State.setReg_turns]
@[simp] theorem State.countDown_mmuRequest (r : Reg) : (s.countDown r).mmuRequest = s.mmuRequest := by
  simp only [State.countDown, State.setReg_mmuRequest]
@[simp] theorem State.countDown_bus (r : Reg) : (s.countDown r).bus = s.bus := by
  simp only [State.countDown, State.setReg_bus]
@[simp] theorem State.countDown_events (r : Reg) : (s.countDown r).events = s.events := by
  simp only [State.countDown, State.setReg_events]
@[simp] theorem State.countDown_tick (r : Reg) : (s.countDown r).tick = s.tick := by
  simp only [State.countDown, State.setReg_tick]

/-! ### pokeByte -/

@[simp] theorem State.pokeByte_platform (sp : Space) (a : Addr) (v : Byte) :
    (s.pokeByte sp a v).platform = s.platform :=
  rfl
@[simp] theorem State.pokeByte_pins (sp : Space) (a : Addr) (v : Byte) : (s.pokeByte sp a v).pins = s.pins := rfl
@[simp] theorem State.pokeByte_regs (sp : Space) (a : Addr) (v : Byte) : (s.pokeByte sp a v).regs = s.regs := rfl
@[simp] theorem State.pokeByte_normalR14 (sp : Space) (a : Addr) (v : Byte) :
    (s.pokeByte sp a v).normalR14 = s.normalR14 :=
  rfl
@[simp] theorem State.pokeByte_normalR15 (sp : Space) (a : Addr) (v : Byte) :
    (s.pokeByte sp a v).normalR15 = s.normalR15 :=
  rfl
@[simp] theorem State.pokeByte_pcSeg (sp : Space) (a : Addr) (v : Byte) : (s.pokeByte sp a v).pcSeg = s.pcSeg := rfl
@[simp] theorem State.pokeByte_pc (sp : Space) (a : Addr) (v : Byte) : (s.pokeByte sp a v).pc = s.pc := rfl
@[simp] theorem State.pokeByte_fcw (sp : Space) (a : Addr) (v : Byte) : (s.pokeByte sp a v).fcw = s.fcw := rfl
@[simp] theorem State.pokeByte_psapSeg (sp : Space) (a : Addr) (v : Byte) : (s.pokeByte sp a v).psapSeg = s.psapSeg :=
  rfl
@[simp] theorem State.pokeByte_psapOff (sp : Space) (a : Addr) (v : Byte) : (s.pokeByte sp a v).psapOff = s.psapOff :=
  rfl
@[simp] theorem State.pokeByte_refresh (sp : Space) (a : Addr) (v : Byte) : (s.pokeByte sp a v).refresh = s.refresh :=
  rfl
@[simp] theorem State.pokeByte_nmiLatch (sp : Space) (a : Addr) (v : Byte) :
    (s.pokeByte sp a v).nmiLatch = s.nmiLatch :=
  rfl
@[simp] theorem State.pokeByte_nmiLevel (sp : Space) (a : Addr) (v : Byte) :
    (s.pokeByte sp a v).nmiLevel = s.nmiLevel :=
  rfl
@[simp] theorem State.pokeByte_halted (sp : Space) (a : Addr) (v : Byte) :
    (s.pokeByte sp a v).halted = s.halted := rfl
@[simp] theorem State.pokeByte_moLow (sp : Space) (a : Addr) (v : Byte) : (s.pokeByte sp a v).moLow = s.moLow := rfl
@[simp] theorem State.pokeByte_busGranted (sp : Space) (a : Addr) (v : Byte) :
    (s.pokeByte sp a v).busGranted = s.busGranted :=
  rfl
@[simp] theorem State.pokeByte_identTemp (sp : Space) (a : Addr) (v : Byte) :
    (s.pokeByte sp a v).identTemp = s.identTemp :=
  rfl
@[simp] theorem State.pokeByte_resetPending (sp : Space) (a : Addr) (v : Byte) :
    (s.pokeByte sp a v).resetPending = s.resetPending :=
  rfl
@[simp] theorem State.pokeByte_accepted (sp : Space) (a : Addr) (v : Byte) :
    (s.pokeByte sp a v).accepted = s.accepted :=
  rfl
@[simp] theorem State.pokeByte_stale (sp : Space) (a : Addr) (v : Byte) : (s.pokeByte sp a v).stale = s.stale := rfl
@[simp] theorem State.pokeByte_turns (sp : Space) (a : Addr) (v : Byte) : (s.pokeByte sp a v).turns = s.turns := rfl
@[simp] theorem State.pokeByte_mmuRequest (sp : Space) (a : Addr) (v : Byte) :
    (s.pokeByte sp a v).mmuRequest = s.mmuRequest := rfl
@[simp] theorem State.pokeByte_bus (sp : Space) (a : Addr) (v : Byte) : (s.pokeByte sp a v).bus = s.bus := rfl
@[simp] theorem State.pokeByte_events (sp : Space) (a : Addr) (v : Byte) :
    (s.pokeByte sp a v).events = s.events := rfl
@[simp] theorem State.pokeByte_tick (sp : Space) (a : Addr) (v : Byte) : (s.pokeByte sp a v).tick = s.tick := rfl

/-! ### pokeWord -/

@[simp] theorem State.pokeWord_platform (sp : Space) (a : Addr) (v : Word) :
    (s.pokeWord sp a v).platform = s.platform := by
  simp only [State.pokeWord, State.pokeByte_platform]
@[simp] theorem State.pokeWord_pins (sp : Space) (a : Addr) (v : Word) : (s.pokeWord sp a v).pins = s.pins := by
  simp only [State.pokeWord, State.pokeByte_pins]
@[simp] theorem State.pokeWord_regs (sp : Space) (a : Addr) (v : Word) : (s.pokeWord sp a v).regs = s.regs := by
  simp only [State.pokeWord, State.pokeByte_regs]
@[simp] theorem State.pokeWord_normalR14 (sp : Space) (a : Addr) (v : Word) :
    (s.pokeWord sp a v).normalR14 = s.normalR14 := by
  simp only [State.pokeWord, State.pokeByte_normalR14]
@[simp] theorem State.pokeWord_normalR15 (sp : Space) (a : Addr) (v : Word) :
    (s.pokeWord sp a v).normalR15 = s.normalR15 := by
  simp only [State.pokeWord, State.pokeByte_normalR15]
@[simp] theorem State.pokeWord_pcSeg (sp : Space) (a : Addr) (v : Word) : (s.pokeWord sp a v).pcSeg = s.pcSeg := by
  simp only [State.pokeWord, State.pokeByte_pcSeg]
@[simp] theorem State.pokeWord_pc (sp : Space) (a : Addr) (v : Word) : (s.pokeWord sp a v).pc = s.pc := by
  simp only [State.pokeWord, State.pokeByte_pc]
@[simp] theorem State.pokeWord_fcw (sp : Space) (a : Addr) (v : Word) : (s.pokeWord sp a v).fcw = s.fcw := by
  simp only [State.pokeWord, State.pokeByte_fcw]
@[simp] theorem State.pokeWord_psapSeg (sp : Space) (a : Addr) (v : Word) :
    (s.pokeWord sp a v).psapSeg = s.psapSeg := by
  simp only [State.pokeWord, State.pokeByte_psapSeg]
@[simp] theorem State.pokeWord_psapOff (sp : Space) (a : Addr) (v : Word) :
    (s.pokeWord sp a v).psapOff = s.psapOff := by
  simp only [State.pokeWord, State.pokeByte_psapOff]
@[simp] theorem State.pokeWord_refresh (sp : Space) (a : Addr) (v : Word) :
    (s.pokeWord sp a v).refresh = s.refresh := by
  simp only [State.pokeWord, State.pokeByte_refresh]
@[simp] theorem State.pokeWord_nmiLatch (sp : Space) (a : Addr) (v : Word) :
    (s.pokeWord sp a v).nmiLatch = s.nmiLatch := by
  simp only [State.pokeWord, State.pokeByte_nmiLatch]
@[simp] theorem State.pokeWord_nmiLevel (sp : Space) (a : Addr) (v : Word) :
    (s.pokeWord sp a v).nmiLevel = s.nmiLevel := by
  simp only [State.pokeWord, State.pokeByte_nmiLevel]
@[simp] theorem State.pokeWord_halted (sp : Space) (a : Addr) (v : Word) : (s.pokeWord sp a v).halted = s.halted := by
  simp only [State.pokeWord, State.pokeByte_halted]
@[simp] theorem State.pokeWord_moLow (sp : Space) (a : Addr) (v : Word) : (s.pokeWord sp a v).moLow = s.moLow := by
  simp only [State.pokeWord, State.pokeByte_moLow]
@[simp] theorem State.pokeWord_busGranted (sp : Space) (a : Addr) (v : Word) :
    (s.pokeWord sp a v).busGranted = s.busGranted := by
  simp only [State.pokeWord, State.pokeByte_busGranted]
@[simp] theorem State.pokeWord_identTemp (sp : Space) (a : Addr) (v : Word) :
    (s.pokeWord sp a v).identTemp = s.identTemp := by
  simp only [State.pokeWord, State.pokeByte_identTemp]
@[simp] theorem State.pokeWord_resetPending (sp : Space) (a : Addr) (v : Word) :
    (s.pokeWord sp a v).resetPending = s.resetPending := by
  simp only [State.pokeWord, State.pokeByte_resetPending]
@[simp] theorem State.pokeWord_accepted (sp : Space) (a : Addr) (v : Word) :
    (s.pokeWord sp a v).accepted = s.accepted := by
  simp only [State.pokeWord, State.pokeByte_accepted]
@[simp] theorem State.pokeWord_stale (sp : Space) (a : Addr) (v : Word) : (s.pokeWord sp a v).stale = s.stale := by
  simp only [State.pokeWord, State.pokeByte_stale]
@[simp] theorem State.pokeWord_turns (sp : Space) (a : Addr) (v : Word) : (s.pokeWord sp a v).turns = s.turns := by
  simp only [State.pokeWord, State.pokeByte_turns]
@[simp] theorem State.pokeWord_mmuRequest (sp : Space) (a : Addr) (v : Word) :
    (s.pokeWord sp a v).mmuRequest = s.mmuRequest := by
  simp only [State.pokeWord, State.pokeByte_mmuRequest]
@[simp] theorem State.pokeWord_bus (sp : Space) (a : Addr) (v : Word) : (s.pokeWord sp a v).bus = s.bus := by
  simp only [State.pokeWord, State.pokeByte_bus]
@[simp] theorem State.pokeWord_events (sp : Space) (a : Addr) (v : Word) : (s.pokeWord sp a v).events = s.events := by
  simp only [State.pokeWord, State.pokeByte_events]
@[simp] theorem State.pokeWord_tick (sp : Space) (a : Addr) (v : Word) : (s.pokeWord sp a v).tick = s.tick := by
  simp only [State.pokeWord, State.pokeByte_tick]

/-! ### pokeLong -/

@[simp] theorem State.pokeLong_platform (sp : Space) (a : Addr) (v : Long) :
    (s.pokeLong sp a v).platform = s.platform := by
  simp only [State.pokeLong, State.pokeWord_platform]
@[simp] theorem State.pokeLong_pins (sp : Space) (a : Addr) (v : Long) : (s.pokeLong sp a v).pins = s.pins := by
  simp only [State.pokeLong, State.pokeWord_pins]
@[simp] theorem State.pokeLong_regs (sp : Space) (a : Addr) (v : Long) : (s.pokeLong sp a v).regs = s.regs := by
  simp only [State.pokeLong, State.pokeWord_regs]
@[simp] theorem State.pokeLong_normalR14 (sp : Space) (a : Addr) (v : Long) :
    (s.pokeLong sp a v).normalR14 = s.normalR14 := by
  simp only [State.pokeLong, State.pokeWord_normalR14]
@[simp] theorem State.pokeLong_normalR15 (sp : Space) (a : Addr) (v : Long) :
    (s.pokeLong sp a v).normalR15 = s.normalR15 := by
  simp only [State.pokeLong, State.pokeWord_normalR15]
@[simp] theorem State.pokeLong_pcSeg (sp : Space) (a : Addr) (v : Long) : (s.pokeLong sp a v).pcSeg = s.pcSeg := by
  simp only [State.pokeLong, State.pokeWord_pcSeg]
@[simp] theorem State.pokeLong_pc (sp : Space) (a : Addr) (v : Long) : (s.pokeLong sp a v).pc = s.pc := by
  simp only [State.pokeLong, State.pokeWord_pc]
@[simp] theorem State.pokeLong_fcw (sp : Space) (a : Addr) (v : Long) : (s.pokeLong sp a v).fcw = s.fcw := by
  simp only [State.pokeLong, State.pokeWord_fcw]
@[simp] theorem State.pokeLong_psapSeg (sp : Space) (a : Addr) (v : Long) :
    (s.pokeLong sp a v).psapSeg = s.psapSeg := by
  simp only [State.pokeLong, State.pokeWord_psapSeg]
@[simp] theorem State.pokeLong_psapOff (sp : Space) (a : Addr) (v : Long) :
    (s.pokeLong sp a v).psapOff = s.psapOff := by
  simp only [State.pokeLong, State.pokeWord_psapOff]
@[simp] theorem State.pokeLong_refresh (sp : Space) (a : Addr) (v : Long) :
    (s.pokeLong sp a v).refresh = s.refresh := by
  simp only [State.pokeLong, State.pokeWord_refresh]
@[simp] theorem State.pokeLong_nmiLatch (sp : Space) (a : Addr) (v : Long) :
    (s.pokeLong sp a v).nmiLatch = s.nmiLatch := by
  simp only [State.pokeLong, State.pokeWord_nmiLatch]
@[simp] theorem State.pokeLong_nmiLevel (sp : Space) (a : Addr) (v : Long) :
    (s.pokeLong sp a v).nmiLevel = s.nmiLevel := by
  simp only [State.pokeLong, State.pokeWord_nmiLevel]
@[simp] theorem State.pokeLong_halted (sp : Space) (a : Addr) (v : Long) : (s.pokeLong sp a v).halted = s.halted := by
  simp only [State.pokeLong, State.pokeWord_halted]
@[simp] theorem State.pokeLong_moLow (sp : Space) (a : Addr) (v : Long) : (s.pokeLong sp a v).moLow = s.moLow := by
  simp only [State.pokeLong, State.pokeWord_moLow]
@[simp] theorem State.pokeLong_busGranted (sp : Space) (a : Addr) (v : Long) :
    (s.pokeLong sp a v).busGranted = s.busGranted := by
  simp only [State.pokeLong, State.pokeWord_busGranted]
@[simp] theorem State.pokeLong_identTemp (sp : Space) (a : Addr) (v : Long) :
    (s.pokeLong sp a v).identTemp = s.identTemp := by
  simp only [State.pokeLong, State.pokeWord_identTemp]
@[simp] theorem State.pokeLong_resetPending (sp : Space) (a : Addr) (v : Long) :
    (s.pokeLong sp a v).resetPending = s.resetPending := by
  simp only [State.pokeLong, State.pokeWord_resetPending]
@[simp] theorem State.pokeLong_accepted (sp : Space) (a : Addr) (v : Long) :
    (s.pokeLong sp a v).accepted = s.accepted := by
  simp only [State.pokeLong, State.pokeWord_accepted]
@[simp] theorem State.pokeLong_stale (sp : Space) (a : Addr) (v : Long) : (s.pokeLong sp a v).stale = s.stale := by
  simp only [State.pokeLong, State.pokeWord_stale]
@[simp] theorem State.pokeLong_turns (sp : Space) (a : Addr) (v : Long) : (s.pokeLong sp a v).turns = s.turns := by
  simp only [State.pokeLong, State.pokeWord_turns]
@[simp] theorem State.pokeLong_mmuRequest (sp : Space) (a : Addr) (v : Long) :
    (s.pokeLong sp a v).mmuRequest = s.mmuRequest := by
  simp only [State.pokeLong, State.pokeWord_mmuRequest]
@[simp] theorem State.pokeLong_bus (sp : Space) (a : Addr) (v : Long) : (s.pokeLong sp a v).bus = s.bus := by
  simp only [State.pokeLong, State.pokeWord_bus]
@[simp] theorem State.pokeLong_events (sp : Space) (a : Addr) (v : Long) : (s.pokeLong sp a v).events = s.events := by
  simp only [State.pokeLong, State.pokeWord_events]
@[simp] theorem State.pokeLong_tick (sp : Space) (a : Addr) (v : Long) : (s.pokeLong sp a v).tick = s.tick := by
  simp only [State.pokeLong, State.pokeWord_tick]

/-! ### poke -/

@[simp] theorem State.poke_platform (z : Size) (sp : Space) (a : Addr) (v : BitVec z.bits) :
    (s.poke z sp a v).platform = s.platform := by
  cases z <;>
    simp only [State.poke, State.pokeByte_platform, State.pokeWord_platform, State.pokeLong_platform]
@[simp] theorem State.poke_pins (z : Size) (sp : Space) (a : Addr) (v : BitVec z.bits) :
    (s.poke z sp a v).pins = s.pins := by
  cases z <;>
    simp only [State.poke, State.pokeByte_pins, State.pokeWord_pins, State.pokeLong_pins]
@[simp] theorem State.poke_regs (z : Size) (sp : Space) (a : Addr) (v : BitVec z.bits) :
    (s.poke z sp a v).regs = s.regs := by
  cases z <;>
    simp only [State.poke, State.pokeByte_regs, State.pokeWord_regs, State.pokeLong_regs]
@[simp] theorem State.poke_normalR14 (z : Size) (sp : Space) (a : Addr) (v : BitVec z.bits) :
    (s.poke z sp a v).normalR14 = s.normalR14 := by
  cases z <;>
    simp only [State.poke, State.pokeByte_normalR14, State.pokeWord_normalR14, State.pokeLong_normalR14]
@[simp] theorem State.poke_normalR15 (z : Size) (sp : Space) (a : Addr) (v : BitVec z.bits) :
    (s.poke z sp a v).normalR15 = s.normalR15 := by
  cases z <;>
    simp only [State.poke, State.pokeByte_normalR15, State.pokeWord_normalR15, State.pokeLong_normalR15]
@[simp] theorem State.poke_pcSeg (z : Size) (sp : Space) (a : Addr) (v : BitVec z.bits) :
    (s.poke z sp a v).pcSeg = s.pcSeg := by
  cases z <;>
    simp only [State.poke, State.pokeByte_pcSeg, State.pokeWord_pcSeg, State.pokeLong_pcSeg]
@[simp] theorem State.poke_pc (z : Size) (sp : Space) (a : Addr) (v : BitVec z.bits) :
    (s.poke z sp a v).pc = s.pc := by
  cases z <;>
    simp only [State.poke, State.pokeByte_pc, State.pokeWord_pc, State.pokeLong_pc]
@[simp] theorem State.poke_fcw (z : Size) (sp : Space) (a : Addr) (v : BitVec z.bits) :
    (s.poke z sp a v).fcw = s.fcw := by
  cases z <;>
    simp only [State.poke, State.pokeByte_fcw, State.pokeWord_fcw, State.pokeLong_fcw]
@[simp] theorem State.poke_psapSeg (z : Size) (sp : Space) (a : Addr) (v : BitVec z.bits) :
    (s.poke z sp a v).psapSeg = s.psapSeg := by
  cases z <;>
    simp only [State.poke, State.pokeByte_psapSeg, State.pokeWord_psapSeg, State.pokeLong_psapSeg]
@[simp] theorem State.poke_psapOff (z : Size) (sp : Space) (a : Addr) (v : BitVec z.bits) :
    (s.poke z sp a v).psapOff = s.psapOff := by
  cases z <;>
    simp only [State.poke, State.pokeByte_psapOff, State.pokeWord_psapOff, State.pokeLong_psapOff]
@[simp] theorem State.poke_refresh (z : Size) (sp : Space) (a : Addr) (v : BitVec z.bits) :
    (s.poke z sp a v).refresh = s.refresh := by
  cases z <;>
    simp only [State.poke, State.pokeByte_refresh, State.pokeWord_refresh, State.pokeLong_refresh]
@[simp] theorem State.poke_nmiLatch (z : Size) (sp : Space) (a : Addr) (v : BitVec z.bits) :
    (s.poke z sp a v).nmiLatch = s.nmiLatch := by
  cases z <;>
    simp only [State.poke, State.pokeByte_nmiLatch, State.pokeWord_nmiLatch, State.pokeLong_nmiLatch]
@[simp] theorem State.poke_nmiLevel (z : Size) (sp : Space) (a : Addr) (v : BitVec z.bits) :
    (s.poke z sp a v).nmiLevel = s.nmiLevel := by
  cases z <;>
    simp only [State.poke, State.pokeByte_nmiLevel, State.pokeWord_nmiLevel, State.pokeLong_nmiLevel]
@[simp] theorem State.poke_halted (z : Size) (sp : Space) (a : Addr) (v : BitVec z.bits) :
    (s.poke z sp a v).halted = s.halted := by
  cases z <;>
    simp only [State.poke, State.pokeByte_halted, State.pokeWord_halted, State.pokeLong_halted]
@[simp] theorem State.poke_moLow (z : Size) (sp : Space) (a : Addr) (v : BitVec z.bits) :
    (s.poke z sp a v).moLow = s.moLow := by
  cases z <;>
    simp only [State.poke, State.pokeByte_moLow, State.pokeWord_moLow, State.pokeLong_moLow]
@[simp] theorem State.poke_busGranted (z : Size) (sp : Space) (a : Addr) (v : BitVec z.bits) :
    (s.poke z sp a v).busGranted = s.busGranted := by
  cases z <;>
    simp only [State.poke, State.pokeByte_busGranted, State.pokeWord_busGranted, State.pokeLong_busGranted]
@[simp] theorem State.poke_identTemp (z : Size) (sp : Space) (a : Addr) (v : BitVec z.bits) :
    (s.poke z sp a v).identTemp = s.identTemp := by
  cases z <;>
    simp only [State.poke, State.pokeByte_identTemp, State.pokeWord_identTemp, State.pokeLong_identTemp]
@[simp] theorem State.poke_resetPending (z : Size) (sp : Space) (a : Addr) (v : BitVec z.bits) :
    (s.poke z sp a v).resetPending = s.resetPending := by
  cases z <;>
    simp only [State.poke, State.pokeByte_resetPending, State.pokeWord_resetPending, State.pokeLong_resetPending]
@[simp] theorem State.poke_accepted (z : Size) (sp : Space) (a : Addr) (v : BitVec z.bits) :
    (s.poke z sp a v).accepted = s.accepted := by
  cases z <;>
    simp only [State.poke, State.pokeByte_accepted, State.pokeWord_accepted, State.pokeLong_accepted]
@[simp] theorem State.poke_stale (z : Size) (sp : Space) (a : Addr) (v : BitVec z.bits) :
    (s.poke z sp a v).stale = s.stale := by
  cases z <;>
    simp only [State.poke, State.pokeByte_stale, State.pokeWord_stale, State.pokeLong_stale]
@[simp] theorem State.poke_turns (z : Size) (sp : Space) (a : Addr) (v : BitVec z.bits) :
    (s.poke z sp a v).turns = s.turns := by
  cases z <;>
    simp only [State.poke, State.pokeByte_turns, State.pokeWord_turns, State.pokeLong_turns]
@[simp] theorem State.poke_mmuRequest (z : Size) (sp : Space) (a : Addr) (v : BitVec z.bits) :
    (s.poke z sp a v).mmuRequest = s.mmuRequest := by
  cases z <;>
    simp only [State.poke, State.pokeByte_mmuRequest, State.pokeWord_mmuRequest, State.pokeLong_mmuRequest]
@[simp] theorem State.poke_bus (z : Size) (sp : Space) (a : Addr) (v : BitVec z.bits) :
    (s.poke z sp a v).bus = s.bus := by
  cases z <;>
    simp only [State.poke, State.pokeByte_bus, State.pokeWord_bus, State.pokeLong_bus]
@[simp] theorem State.poke_events (z : Size) (sp : Space) (a : Addr) (v : BitVec z.bits) :
    (s.poke z sp a v).events = s.events := by
  cases z <;>
    simp only [State.poke, State.pokeByte_events, State.pokeWord_events, State.pokeLong_events]
@[simp] theorem State.poke_tick (z : Size) (sp : Space) (a : Addr) (v : BitVec z.bits) :
    (s.poke z sp a v).tick = s.tick := by
  cases z <;>
    simp only [State.poke, State.pokeByte_tick, State.pokeWord_tick, State.pokeLong_tick]

/-! ### push -/

@[simp] theorem State.push_platform (z : Size) (r : Reg) (v : BitVec z.bits) :
    (s.push z r v).platform = s.platform := by
  simp only [State.push, State.poke_platform, State.bump_platform]
@[simp] theorem State.push_pins (z : Size) (r : Reg) (v : BitVec z.bits) : (s.push z r v).pins = s.pins := by
  simp only [State.push, State.poke_pins, State.bump_pins]
@[simp] theorem State.push_pcSeg (z : Size) (r : Reg) (v : BitVec z.bits) : (s.push z r v).pcSeg = s.pcSeg := by
  simp only [State.push, State.poke_pcSeg, State.bump_pcSeg]
@[simp] theorem State.push_pc (z : Size) (r : Reg) (v : BitVec z.bits) : (s.push z r v).pc = s.pc := by
  simp only [State.push, State.poke_pc, State.bump_pc]
@[simp] theorem State.push_fcw (z : Size) (r : Reg) (v : BitVec z.bits) : (s.push z r v).fcw = s.fcw := by
  simp only [State.push, State.poke_fcw, State.bump_fcw]
@[simp] theorem State.push_psapSeg (z : Size) (r : Reg) (v : BitVec z.bits) : (s.push z r v).psapSeg = s.psapSeg := by
  simp only [State.push, State.poke_psapSeg, State.bump_psapSeg]
@[simp] theorem State.push_psapOff (z : Size) (r : Reg) (v : BitVec z.bits) : (s.push z r v).psapOff = s.psapOff := by
  simp only [State.push, State.poke_psapOff, State.bump_psapOff]
@[simp] theorem State.push_refresh (z : Size) (r : Reg) (v : BitVec z.bits) : (s.push z r v).refresh = s.refresh := by
  simp only [State.push, State.poke_refresh, State.bump_refresh]
@[simp] theorem State.push_nmiLatch (z : Size) (r : Reg) (v : BitVec z.bits) :
    (s.push z r v).nmiLatch = s.nmiLatch := by
  simp only [State.push, State.poke_nmiLatch, State.bump_nmiLatch]
@[simp] theorem State.push_nmiLevel (z : Size) (r : Reg) (v : BitVec z.bits) :
    (s.push z r v).nmiLevel = s.nmiLevel := by
  simp only [State.push, State.poke_nmiLevel, State.bump_nmiLevel]
@[simp] theorem State.push_halted (z : Size) (r : Reg) (v : BitVec z.bits) : (s.push z r v).halted = s.halted := by
  simp only [State.push, State.poke_halted, State.bump_halted]
@[simp] theorem State.push_moLow (z : Size) (r : Reg) (v : BitVec z.bits) : (s.push z r v).moLow = s.moLow := by
  simp only [State.push, State.poke_moLow, State.bump_moLow]
@[simp] theorem State.push_busGranted (z : Size) (r : Reg) (v : BitVec z.bits) :
    (s.push z r v).busGranted = s.busGranted := by
  simp only [State.push, State.poke_busGranted, State.bump_busGranted]
@[simp] theorem State.push_identTemp (z : Size) (r : Reg) (v : BitVec z.bits) :
    (s.push z r v).identTemp = s.identTemp := by
  simp only [State.push, State.poke_identTemp, State.bump_identTemp]
@[simp] theorem State.push_resetPending (z : Size) (r : Reg) (v : BitVec z.bits) :
    (s.push z r v).resetPending = s.resetPending := by
  simp only [State.push, State.poke_resetPending, State.bump_resetPending]
@[simp] theorem State.push_accepted (z : Size) (r : Reg) (v : BitVec z.bits) :
    (s.push z r v).accepted = s.accepted := by
  simp only [State.push, State.poke_accepted, State.bump_accepted]
@[simp] theorem State.push_stale (z : Size) (r : Reg) (v : BitVec z.bits) : (s.push z r v).stale = s.stale := by
  simp only [State.push, State.poke_stale, State.bump_stale]
@[simp] theorem State.push_turns (z : Size) (r : Reg) (v : BitVec z.bits) : (s.push z r v).turns = s.turns := by
  simp only [State.push, State.poke_turns, State.bump_turns]
@[simp] theorem State.push_mmuRequest (z : Size) (r : Reg) (v : BitVec z.bits) :
    (s.push z r v).mmuRequest = s.mmuRequest := by
  simp only [State.push, State.poke_mmuRequest, State.bump_mmuRequest]
@[simp] theorem State.push_bus (z : Size) (r : Reg) (v : BitVec z.bits) : (s.push z r v).bus = s.bus := by
  simp only [State.push, State.poke_bus, State.bump_bus]
@[simp] theorem State.push_events (z : Size) (r : Reg) (v : BitVec z.bits) : (s.push z r v).events = s.events := by
  simp only [State.push, State.poke_events, State.bump_events]
@[simp] theorem State.push_tick (z : Size) (r : Reg) (v : BitVec z.bits) : (s.push z r v).tick = s.tick := by
  simp only [State.push, State.poke_tick, State.bump_tick]

/-! ### setFlags -/

@[simp] theorem State.setFlags_platform (f : Flags) : (s.setFlags f).platform = s.platform := rfl
@[simp] theorem State.setFlags_pins (f : Flags) : (s.setFlags f).pins = s.pins := rfl
@[simp] theorem State.setFlags_regs (f : Flags) : (s.setFlags f).regs = s.regs := rfl
@[simp] theorem State.setFlags_normalR14 (f : Flags) : (s.setFlags f).normalR14 = s.normalR14 := rfl
@[simp] theorem State.setFlags_normalR15 (f : Flags) : (s.setFlags f).normalR15 = s.normalR15 := rfl
@[simp] theorem State.setFlags_pcSeg (f : Flags) : (s.setFlags f).pcSeg = s.pcSeg := rfl
@[simp] theorem State.setFlags_pc (f : Flags) : (s.setFlags f).pc = s.pc := rfl
@[simp] theorem State.setFlags_psapSeg (f : Flags) : (s.setFlags f).psapSeg = s.psapSeg := rfl
@[simp] theorem State.setFlags_psapOff (f : Flags) : (s.setFlags f).psapOff = s.psapOff := rfl
@[simp] theorem State.setFlags_refresh (f : Flags) : (s.setFlags f).refresh = s.refresh := rfl
@[simp] theorem State.setFlags_nmiLatch (f : Flags) : (s.setFlags f).nmiLatch = s.nmiLatch := rfl
@[simp] theorem State.setFlags_nmiLevel (f : Flags) : (s.setFlags f).nmiLevel = s.nmiLevel := rfl
@[simp] theorem State.setFlags_halted (f : Flags) : (s.setFlags f).halted = s.halted := rfl
@[simp] theorem State.setFlags_moLow (f : Flags) : (s.setFlags f).moLow = s.moLow := rfl
@[simp] theorem State.setFlags_busGranted (f : Flags) : (s.setFlags f).busGranted = s.busGranted := rfl
@[simp] theorem State.setFlags_identTemp (f : Flags) : (s.setFlags f).identTemp = s.identTemp := rfl
@[simp] theorem State.setFlags_mem (f : Flags) : (s.setFlags f).mem = s.mem := rfl
@[simp] theorem State.setFlags_resetPending (f : Flags) : (s.setFlags f).resetPending = s.resetPending := rfl
@[simp] theorem State.setFlags_accepted (f : Flags) : (s.setFlags f).accepted = s.accepted := rfl
@[simp] theorem State.setFlags_stale (f : Flags) : (s.setFlags f).stale = s.stale := rfl
@[simp] theorem State.setFlags_turns (f : Flags) : (s.setFlags f).turns = s.turns := rfl
@[simp] theorem State.setFlags_mmuRequest (f : Flags) : (s.setFlags f).mmuRequest = s.mmuRequest := rfl
@[simp] theorem State.setFlags_bus (f : Flags) : (s.setFlags f).bus = s.bus := rfl
@[simp] theorem State.setFlags_events (f : Flags) : (s.setFlags f).events = s.events := rfl
@[simp] theorem State.setFlags_tick (f : Flags) : (s.setFlags f).tick = s.tick := rfl

/-! ### advance -/

@[simp] theorem State.advance_platform (n : Nat) : (s.advance n).platform = s.platform := rfl
@[simp] theorem State.advance_pins (n : Nat) : (s.advance n).pins = s.pins := rfl
@[simp] theorem State.advance_regs (n : Nat) : (s.advance n).regs = s.regs := rfl
@[simp] theorem State.advance_normalR14 (n : Nat) : (s.advance n).normalR14 = s.normalR14 := rfl
@[simp] theorem State.advance_normalR15 (n : Nat) : (s.advance n).normalR15 = s.normalR15 := rfl
@[simp] theorem State.advance_pcSeg (n : Nat) : (s.advance n).pcSeg = s.pcSeg := rfl
@[simp] theorem State.advance_fcw (n : Nat) : (s.advance n).fcw = s.fcw := rfl
@[simp] theorem State.advance_psapSeg (n : Nat) : (s.advance n).psapSeg = s.psapSeg := rfl
@[simp] theorem State.advance_psapOff (n : Nat) : (s.advance n).psapOff = s.psapOff := rfl
@[simp] theorem State.advance_refresh (n : Nat) : (s.advance n).refresh = s.refresh := rfl
@[simp] theorem State.advance_nmiLatch (n : Nat) : (s.advance n).nmiLatch = s.nmiLatch := rfl
@[simp] theorem State.advance_nmiLevel (n : Nat) : (s.advance n).nmiLevel = s.nmiLevel := rfl
@[simp] theorem State.advance_halted (n : Nat) : (s.advance n).halted = s.halted := rfl
@[simp] theorem State.advance_moLow (n : Nat) : (s.advance n).moLow = s.moLow := rfl
@[simp] theorem State.advance_busGranted (n : Nat) : (s.advance n).busGranted = s.busGranted := rfl
@[simp] theorem State.advance_identTemp (n : Nat) : (s.advance n).identTemp = s.identTemp := rfl
@[simp] theorem State.advance_mem (n : Nat) : (s.advance n).mem = s.mem := rfl
@[simp] theorem State.advance_resetPending (n : Nat) : (s.advance n).resetPending = s.resetPending := rfl
@[simp] theorem State.advance_accepted (n : Nat) : (s.advance n).accepted = s.accepted := rfl
@[simp] theorem State.advance_stale (n : Nat) : (s.advance n).stale = s.stale := rfl
@[simp] theorem State.advance_turns (n : Nat) : (s.advance n).turns = s.turns := rfl
@[simp] theorem State.advance_mmuRequest (n : Nat) : (s.advance n).mmuRequest = s.mmuRequest := rfl
@[simp] theorem State.advance_bus (n : Nat) : (s.advance n).bus = s.bus := rfl
@[simp] theorem State.advance_events (n : Nat) : (s.advance n).events = s.events := rfl
@[simp] theorem State.advance_tick (n : Nat) : (s.advance n).tick = s.tick := rfl

/-! ### jumpBy -/

@[simp] theorem State.jumpBy_platform (w : Word) : (s.jumpBy w).platform = s.platform := rfl
@[simp] theorem State.jumpBy_pins (w : Word) : (s.jumpBy w).pins = s.pins := rfl
@[simp] theorem State.jumpBy_regs (w : Word) : (s.jumpBy w).regs = s.regs := rfl
@[simp] theorem State.jumpBy_normalR14 (w : Word) : (s.jumpBy w).normalR14 = s.normalR14 := rfl
@[simp] theorem State.jumpBy_normalR15 (w : Word) : (s.jumpBy w).normalR15 = s.normalR15 := rfl
@[simp] theorem State.jumpBy_pcSeg (w : Word) : (s.jumpBy w).pcSeg = s.pcSeg := rfl
@[simp] theorem State.jumpBy_fcw (w : Word) : (s.jumpBy w).fcw = s.fcw := rfl
@[simp] theorem State.jumpBy_psapSeg (w : Word) : (s.jumpBy w).psapSeg = s.psapSeg := rfl
@[simp] theorem State.jumpBy_psapOff (w : Word) : (s.jumpBy w).psapOff = s.psapOff := rfl
@[simp] theorem State.jumpBy_refresh (w : Word) : (s.jumpBy w).refresh = s.refresh := rfl
@[simp] theorem State.jumpBy_nmiLatch (w : Word) : (s.jumpBy w).nmiLatch = s.nmiLatch := rfl
@[simp] theorem State.jumpBy_nmiLevel (w : Word) : (s.jumpBy w).nmiLevel = s.nmiLevel := rfl
@[simp] theorem State.jumpBy_halted (w : Word) : (s.jumpBy w).halted = s.halted := rfl
@[simp] theorem State.jumpBy_moLow (w : Word) : (s.jumpBy w).moLow = s.moLow := rfl
@[simp] theorem State.jumpBy_busGranted (w : Word) : (s.jumpBy w).busGranted = s.busGranted := rfl
@[simp] theorem State.jumpBy_identTemp (w : Word) : (s.jumpBy w).identTemp = s.identTemp := rfl
@[simp] theorem State.jumpBy_mem (w : Word) : (s.jumpBy w).mem = s.mem := rfl
@[simp] theorem State.jumpBy_resetPending (w : Word) : (s.jumpBy w).resetPending = s.resetPending := rfl
@[simp] theorem State.jumpBy_accepted (w : Word) : (s.jumpBy w).accepted = s.accepted := rfl
@[simp] theorem State.jumpBy_stale (w : Word) : (s.jumpBy w).stale = s.stale := rfl
@[simp] theorem State.jumpBy_turns (w : Word) : (s.jumpBy w).turns = s.turns := rfl
@[simp] theorem State.jumpBy_mmuRequest (w : Word) : (s.jumpBy w).mmuRequest = s.mmuRequest := rfl
@[simp] theorem State.jumpBy_bus (w : Word) : (s.jumpBy w).bus = s.bus := rfl
@[simp] theorem State.jumpBy_events (w : Word) : (s.jumpBy w).events = s.events := rfl
@[simp] theorem State.jumpBy_tick (w : Word) : (s.jumpBy w).tick = s.tick := rfl

/-! ### endBlock -/

@[simp] theorem State.endBlock_platform (b c : Bool) : (s.endBlock b c).platform = s.platform := rfl
@[simp] theorem State.endBlock_pins (b c : Bool) : (s.endBlock b c).pins = s.pins := rfl
@[simp] theorem State.endBlock_regs (b c : Bool) : (s.endBlock b c).regs = s.regs := rfl
@[simp] theorem State.endBlock_normalR14 (b c : Bool) : (s.endBlock b c).normalR14 = s.normalR14 := rfl
@[simp] theorem State.endBlock_normalR15 (b c : Bool) : (s.endBlock b c).normalR15 = s.normalR15 := rfl
@[simp] theorem State.endBlock_pcSeg (b c : Bool) : (s.endBlock b c).pcSeg = s.pcSeg := rfl
@[simp] theorem State.endBlock_fcw (b c : Bool) : (s.endBlock b c).fcw = s.fcw := rfl
@[simp] theorem State.endBlock_psapSeg (b c : Bool) : (s.endBlock b c).psapSeg = s.psapSeg := rfl
@[simp] theorem State.endBlock_psapOff (b c : Bool) : (s.endBlock b c).psapOff = s.psapOff := rfl
@[simp] theorem State.endBlock_refresh (b c : Bool) : (s.endBlock b c).refresh = s.refresh := rfl
@[simp] theorem State.endBlock_nmiLatch (b c : Bool) : (s.endBlock b c).nmiLatch = s.nmiLatch := rfl
@[simp] theorem State.endBlock_nmiLevel (b c : Bool) : (s.endBlock b c).nmiLevel = s.nmiLevel := rfl
@[simp] theorem State.endBlock_halted (b c : Bool) : (s.endBlock b c).halted = s.halted := rfl
@[simp] theorem State.endBlock_moLow (b c : Bool) : (s.endBlock b c).moLow = s.moLow := rfl
@[simp] theorem State.endBlock_busGranted (b c : Bool) : (s.endBlock b c).busGranted = s.busGranted := rfl
@[simp] theorem State.endBlock_identTemp (b c : Bool) : (s.endBlock b c).identTemp = s.identTemp := rfl
@[simp] theorem State.endBlock_mem (b c : Bool) : (s.endBlock b c).mem = s.mem := rfl
@[simp] theorem State.endBlock_resetPending (b c : Bool) : (s.endBlock b c).resetPending = s.resetPending := rfl
@[simp] theorem State.endBlock_accepted (b c : Bool) : (s.endBlock b c).accepted = s.accepted := rfl
@[simp] theorem State.endBlock_stale (b c : Bool) : (s.endBlock b c).stale = s.stale := rfl
@[simp] theorem State.endBlock_turns (b c : Bool) : (s.endBlock b c).turns = s.turns := rfl
@[simp] theorem State.endBlock_mmuRequest (b c : Bool) : (s.endBlock b c).mmuRequest = s.mmuRequest := rfl
@[simp] theorem State.endBlock_bus (b c : Bool) : (s.endBlock b c).bus = s.bus := rfl
@[simp] theorem State.endBlock_events (b c : Bool) : (s.endBlock b c).events = s.events := rfl
@[simp] theorem State.endBlock_tick (b c : Bool) : (s.endBlock b c).tick = s.tick := rfl

/-! ### setPc -/

@[simp] theorem State.setPc_platform (a : Addr) : (s.setPc a).platform = s.platform := rfl
@[simp] theorem State.setPc_pins (a : Addr) : (s.setPc a).pins = s.pins := rfl
@[simp] theorem State.setPc_regs (a : Addr) : (s.setPc a).regs = s.regs := rfl
@[simp] theorem State.setPc_normalR14 (a : Addr) : (s.setPc a).normalR14 = s.normalR14 := rfl
@[simp] theorem State.setPc_normalR15 (a : Addr) : (s.setPc a).normalR15 = s.normalR15 := rfl
@[simp] theorem State.setPc_fcw (a : Addr) : (s.setPc a).fcw = s.fcw := rfl
@[simp] theorem State.setPc_psapSeg (a : Addr) : (s.setPc a).psapSeg = s.psapSeg := rfl
@[simp] theorem State.setPc_psapOff (a : Addr) : (s.setPc a).psapOff = s.psapOff := rfl
@[simp] theorem State.setPc_refresh (a : Addr) : (s.setPc a).refresh = s.refresh := rfl
@[simp] theorem State.setPc_nmiLatch (a : Addr) : (s.setPc a).nmiLatch = s.nmiLatch := rfl
@[simp] theorem State.setPc_nmiLevel (a : Addr) : (s.setPc a).nmiLevel = s.nmiLevel := rfl
@[simp] theorem State.setPc_halted (a : Addr) : (s.setPc a).halted = s.halted := rfl
@[simp] theorem State.setPc_moLow (a : Addr) : (s.setPc a).moLow = s.moLow := rfl
@[simp] theorem State.setPc_busGranted (a : Addr) : (s.setPc a).busGranted = s.busGranted := rfl
@[simp] theorem State.setPc_identTemp (a : Addr) : (s.setPc a).identTemp = s.identTemp := rfl
@[simp] theorem State.setPc_mem (a : Addr) : (s.setPc a).mem = s.mem := rfl
@[simp] theorem State.setPc_resetPending (a : Addr) : (s.setPc a).resetPending = s.resetPending := rfl
@[simp] theorem State.setPc_accepted (a : Addr) : (s.setPc a).accepted = s.accepted := rfl
@[simp] theorem State.setPc_stale (a : Addr) : (s.setPc a).stale = s.stale := rfl
@[simp] theorem State.setPc_turns (a : Addr) : (s.setPc a).turns = s.turns := rfl
@[simp] theorem State.setPc_mmuRequest (a : Addr) : (s.setPc a).mmuRequest = s.mmuRequest := rfl
@[simp] theorem State.setPc_bus (a : Addr) : (s.setPc a).bus = s.bus := rfl
@[simp] theorem State.setPc_events (a : Addr) : (s.setPc a).events = s.events := rfl
@[simp] theorem State.setPc_tick (a : Addr) : (s.setPc a).tick = s.tick := rfl

/-! ### ioRead -/

@[simp] theorem State.ioRead_platform (b : Bool) (p : Word) (z : Size) : (s.ioRead b p z).platform = s.platform := rfl
@[simp] theorem State.ioRead_regs (b : Bool) (p : Word) (z : Size) : (s.ioRead b p z).regs = s.regs := rfl
@[simp] theorem State.ioRead_normalR14 (b : Bool) (p : Word) (z : Size) : (s.ioRead b p z).normalR14 = s.normalR14 :=
  rfl
@[simp] theorem State.ioRead_normalR15 (b : Bool) (p : Word) (z : Size) : (s.ioRead b p z).normalR15 = s.normalR15 :=
  rfl
@[simp] theorem State.ioRead_pcSeg (b : Bool) (p : Word) (z : Size) : (s.ioRead b p z).pcSeg = s.pcSeg := rfl
@[simp] theorem State.ioRead_pc (b : Bool) (p : Word) (z : Size) : (s.ioRead b p z).pc = s.pc := rfl
@[simp] theorem State.ioRead_fcw (b : Bool) (p : Word) (z : Size) : (s.ioRead b p z).fcw = s.fcw := rfl
@[simp] theorem State.ioRead_psapSeg (b : Bool) (p : Word) (z : Size) : (s.ioRead b p z).psapSeg = s.psapSeg := rfl
@[simp] theorem State.ioRead_psapOff (b : Bool) (p : Word) (z : Size) : (s.ioRead b p z).psapOff = s.psapOff := rfl
@[simp] theorem State.ioRead_refresh (b : Bool) (p : Word) (z : Size) : (s.ioRead b p z).refresh = s.refresh := rfl
@[simp] theorem State.ioRead_nmiLatch (b : Bool) (p : Word) (z : Size) : (s.ioRead b p z).nmiLatch = s.nmiLatch := rfl
@[simp] theorem State.ioRead_nmiLevel (b : Bool) (p : Word) (z : Size) : (s.ioRead b p z).nmiLevel = s.nmiLevel := rfl
@[simp] theorem State.ioRead_halted (b : Bool) (p : Word) (z : Size) : (s.ioRead b p z).halted = s.halted := rfl
@[simp] theorem State.ioRead_moLow (b : Bool) (p : Word) (z : Size) : (s.ioRead b p z).moLow = s.moLow := rfl
@[simp] theorem State.ioRead_busGranted (b : Bool) (p : Word) (z : Size) :
    (s.ioRead b p z).busGranted = s.busGranted :=
  rfl
@[simp] theorem State.ioRead_identTemp (b : Bool) (p : Word) (z : Size) : (s.ioRead b p z).identTemp = s.identTemp :=
  rfl
@[simp] theorem State.ioRead_mem (b : Bool) (p : Word) (z : Size) : (s.ioRead b p z).mem = s.mem := rfl
@[simp] theorem State.ioRead_resetPending (b : Bool) (p : Word) (z : Size) :
    (s.ioRead b p z).resetPending = s.resetPending :=
  rfl
@[simp] theorem State.ioRead_accepted (b : Bool) (p : Word) (z : Size) : (s.ioRead b p z).accepted = s.accepted := rfl
@[simp] theorem State.ioRead_stale (b : Bool) (p : Word) (z : Size) : (s.ioRead b p z).stale = s.stale := rfl
@[simp] theorem State.ioRead_turns (b : Bool) (p : Word) (z : Size) : (s.ioRead b p z).turns = s.turns := rfl
@[simp] theorem State.ioRead_mmuRequest (b : Bool) (p : Word) (z : Size) :
    (s.ioRead b p z).mmuRequest = s.mmuRequest := rfl
@[simp] theorem State.ioRead_bus (b : Bool) (p : Word) (z : Size) : (s.ioRead b p z).bus = s.bus := rfl
@[simp] theorem State.ioRead_tick (b : Bool) (p : Word) (z : Size) : (s.ioRead b p z).tick = s.tick := rfl

/-! ### ioWrite -/

@[simp] theorem State.ioWrite_platform (b : Bool) (p : Word) (z : Size) (v : BitVec z.bits) :
    (s.ioWrite b p z v).platform = s.platform :=
  rfl
@[simp] theorem State.ioWrite_pins (b : Bool) (p : Word) (z : Size) (v : BitVec z.bits) :
    (s.ioWrite b p z v).pins = s.pins :=
  rfl
@[simp] theorem State.ioWrite_regs (b : Bool) (p : Word) (z : Size) (v : BitVec z.bits) :
    (s.ioWrite b p z v).regs = s.regs :=
  rfl
@[simp] theorem State.ioWrite_normalR14 (b : Bool) (p : Word) (z : Size) (v : BitVec z.bits) :
    (s.ioWrite b p z v).normalR14 = s.normalR14 :=
  rfl
@[simp] theorem State.ioWrite_normalR15 (b : Bool) (p : Word) (z : Size) (v : BitVec z.bits) :
    (s.ioWrite b p z v).normalR15 = s.normalR15 :=
  rfl
@[simp] theorem State.ioWrite_pcSeg (b : Bool) (p : Word) (z : Size) (v : BitVec z.bits) :
    (s.ioWrite b p z v).pcSeg = s.pcSeg :=
  rfl
@[simp] theorem State.ioWrite_pc (b : Bool) (p : Word) (z : Size) (v : BitVec z.bits) :
    (s.ioWrite b p z v).pc = s.pc :=
  rfl
@[simp] theorem State.ioWrite_fcw (b : Bool) (p : Word) (z : Size) (v : BitVec z.bits) :
    (s.ioWrite b p z v).fcw = s.fcw :=
  rfl
@[simp] theorem State.ioWrite_psapSeg (b : Bool) (p : Word) (z : Size) (v : BitVec z.bits) :
    (s.ioWrite b p z v).psapSeg = s.psapSeg :=
  rfl
@[simp] theorem State.ioWrite_psapOff (b : Bool) (p : Word) (z : Size) (v : BitVec z.bits) :
    (s.ioWrite b p z v).psapOff = s.psapOff :=
  rfl
@[simp] theorem State.ioWrite_refresh (b : Bool) (p : Word) (z : Size) (v : BitVec z.bits) :
    (s.ioWrite b p z v).refresh = s.refresh :=
  rfl
@[simp] theorem State.ioWrite_nmiLatch (b : Bool) (p : Word) (z : Size) (v : BitVec z.bits) :
    (s.ioWrite b p z v).nmiLatch = s.nmiLatch :=
  rfl
@[simp] theorem State.ioWrite_nmiLevel (b : Bool) (p : Word) (z : Size) (v : BitVec z.bits) :
    (s.ioWrite b p z v).nmiLevel = s.nmiLevel :=
  rfl
@[simp] theorem State.ioWrite_halted (b : Bool) (p : Word) (z : Size) (v : BitVec z.bits) :
    (s.ioWrite b p z v).halted = s.halted :=
  rfl
@[simp] theorem State.ioWrite_moLow (b : Bool) (p : Word) (z : Size) (v : BitVec z.bits) :
    (s.ioWrite b p z v).moLow = s.moLow :=
  rfl
@[simp] theorem State.ioWrite_busGranted (b : Bool) (p : Word) (z : Size) (v : BitVec z.bits) :
    (s.ioWrite b p z v).busGranted = s.busGranted :=
  rfl
@[simp] theorem State.ioWrite_identTemp (b : Bool) (p : Word) (z : Size) (v : BitVec z.bits) :
    (s.ioWrite b p z v).identTemp = s.identTemp :=
  rfl
@[simp] theorem State.ioWrite_mem (b : Bool) (p : Word) (z : Size) (v : BitVec z.bits) :
    (s.ioWrite b p z v).mem = s.mem :=
  rfl
@[simp] theorem State.ioWrite_resetPending (b : Bool) (p : Word) (z : Size) (v : BitVec z.bits) :
    (s.ioWrite b p z v).resetPending = s.resetPending :=
  rfl
@[simp] theorem State.ioWrite_accepted (b : Bool) (p : Word) (z : Size) (v : BitVec z.bits) :
    (s.ioWrite b p z v).accepted = s.accepted :=
  rfl
@[simp] theorem State.ioWrite_stale (b : Bool) (p : Word) (z : Size) (v : BitVec z.bits) :
    (s.ioWrite b p z v).stale = s.stale :=
  rfl
@[simp] theorem State.ioWrite_turns (b : Bool) (p : Word) (z : Size) (v : BitVec z.bits) :
    (s.ioWrite b p z v).turns = s.turns :=
  rfl
@[simp] theorem State.ioWrite_mmuRequest (b : Bool) (p : Word) (z : Size) (v : BitVec z.bits) :
    (s.ioWrite b p z v).mmuRequest = s.mmuRequest :=
  rfl
@[simp] theorem State.ioWrite_bus (b : Bool) (p : Word) (z : Size) (v : BitVec z.bits) :
    (s.ioWrite b p z v).bus = s.bus :=
  rfl
@[simp] theorem State.ioWrite_tick (b : Bool) (p : Word) (z : Size) (v : BitVec z.bits) :
    (s.ioWrite b p z v).tick = s.tick :=
  rfl

/-! ### writeFcw -/

@[simp] theorem State.writeFcw_platform (w : Word) : (s.writeFcw w).platform = s.platform := rfl
@[simp] theorem State.writeFcw_pins (w : Word) : (s.writeFcw w).pins = s.pins := rfl
@[simp] theorem State.writeFcw_regs (w : Word) : (s.writeFcw w).regs = s.regs := rfl
@[simp] theorem State.writeFcw_normalR14 (w : Word) : (s.writeFcw w).normalR14 = s.normalR14 := rfl
@[simp] theorem State.writeFcw_normalR15 (w : Word) : (s.writeFcw w).normalR15 = s.normalR15 := rfl
@[simp] theorem State.writeFcw_pcSeg (w : Word) : (s.writeFcw w).pcSeg = s.pcSeg := rfl
@[simp] theorem State.writeFcw_pc (w : Word) : (s.writeFcw w).pc = s.pc := rfl
@[simp] theorem State.writeFcw_psapSeg (w : Word) : (s.writeFcw w).psapSeg = s.psapSeg := rfl
@[simp] theorem State.writeFcw_psapOff (w : Word) : (s.writeFcw w).psapOff = s.psapOff := rfl
@[simp] theorem State.writeFcw_refresh (w : Word) : (s.writeFcw w).refresh = s.refresh := rfl
@[simp] theorem State.writeFcw_nmiLatch (w : Word) : (s.writeFcw w).nmiLatch = s.nmiLatch := rfl
@[simp] theorem State.writeFcw_nmiLevel (w : Word) : (s.writeFcw w).nmiLevel = s.nmiLevel := rfl
@[simp] theorem State.writeFcw_halted (w : Word) : (s.writeFcw w).halted = s.halted := rfl
@[simp] theorem State.writeFcw_moLow (w : Word) : (s.writeFcw w).moLow = s.moLow := rfl
@[simp] theorem State.writeFcw_busGranted (w : Word) : (s.writeFcw w).busGranted = s.busGranted := rfl
@[simp] theorem State.writeFcw_identTemp (w : Word) : (s.writeFcw w).identTemp = s.identTemp := rfl
@[simp] theorem State.writeFcw_mem (w : Word) : (s.writeFcw w).mem = s.mem := rfl
@[simp] theorem State.writeFcw_resetPending (w : Word) : (s.writeFcw w).resetPending = s.resetPending := rfl
@[simp] theorem State.writeFcw_accepted (w : Word) : (s.writeFcw w).accepted = s.accepted := rfl
@[simp] theorem State.writeFcw_stale (w : Word) : (s.writeFcw w).stale = s.stale := rfl
@[simp] theorem State.writeFcw_turns (w : Word) : (s.writeFcw w).turns = s.turns := rfl
@[simp] theorem State.writeFcw_mmuRequest (w : Word) : (s.writeFcw w).mmuRequest = s.mmuRequest := rfl
@[simp] theorem State.writeFcw_bus (w : Word) : (s.writeFcw w).bus = s.bus := rfl
@[simp] theorem State.writeFcw_events (w : Word) : (s.writeFcw w).events = s.events := rfl
@[simp] theorem State.writeFcw_tick (w : Word) : (s.writeFcw w).tick = s.tick := rfl

/-! ### writeFlagsByte -/

@[simp] theorem State.writeFlagsByte_platform (v : Byte) : (s.writeFlagsByte v).platform = s.platform := rfl
@[simp] theorem State.writeFlagsByte_pins (v : Byte) : (s.writeFlagsByte v).pins = s.pins := rfl
@[simp] theorem State.writeFlagsByte_regs (v : Byte) : (s.writeFlagsByte v).regs = s.regs := rfl
@[simp] theorem State.writeFlagsByte_normalR14 (v : Byte) : (s.writeFlagsByte v).normalR14 = s.normalR14 := rfl
@[simp] theorem State.writeFlagsByte_normalR15 (v : Byte) : (s.writeFlagsByte v).normalR15 = s.normalR15 := rfl
@[simp] theorem State.writeFlagsByte_pcSeg (v : Byte) : (s.writeFlagsByte v).pcSeg = s.pcSeg := rfl
@[simp] theorem State.writeFlagsByte_pc (v : Byte) : (s.writeFlagsByte v).pc = s.pc := rfl
@[simp] theorem State.writeFlagsByte_psapSeg (v : Byte) : (s.writeFlagsByte v).psapSeg = s.psapSeg := rfl
@[simp] theorem State.writeFlagsByte_psapOff (v : Byte) : (s.writeFlagsByte v).psapOff = s.psapOff := rfl
@[simp] theorem State.writeFlagsByte_refresh (v : Byte) : (s.writeFlagsByte v).refresh = s.refresh := rfl
@[simp] theorem State.writeFlagsByte_nmiLatch (v : Byte) : (s.writeFlagsByte v).nmiLatch = s.nmiLatch := rfl
@[simp] theorem State.writeFlagsByte_nmiLevel (v : Byte) : (s.writeFlagsByte v).nmiLevel = s.nmiLevel := rfl
@[simp] theorem State.writeFlagsByte_halted (v : Byte) : (s.writeFlagsByte v).halted = s.halted := rfl
@[simp] theorem State.writeFlagsByte_moLow (v : Byte) : (s.writeFlagsByte v).moLow = s.moLow := rfl
@[simp] theorem State.writeFlagsByte_busGranted (v : Byte) : (s.writeFlagsByte v).busGranted = s.busGranted := rfl
@[simp] theorem State.writeFlagsByte_identTemp (v : Byte) : (s.writeFlagsByte v).identTemp = s.identTemp := rfl
@[simp] theorem State.writeFlagsByte_mem (v : Byte) : (s.writeFlagsByte v).mem = s.mem := rfl
@[simp] theorem State.writeFlagsByte_resetPending (v : Byte) :
    (s.writeFlagsByte v).resetPending = s.resetPending := rfl
@[simp] theorem State.writeFlagsByte_accepted (v : Byte) : (s.writeFlagsByte v).accepted = s.accepted := rfl
@[simp] theorem State.writeFlagsByte_stale (v : Byte) : (s.writeFlagsByte v).stale = s.stale := rfl
@[simp] theorem State.writeFlagsByte_turns (v : Byte) : (s.writeFlagsByte v).turns = s.turns := rfl
@[simp] theorem State.writeFlagsByte_mmuRequest (v : Byte) : (s.writeFlagsByte v).mmuRequest = s.mmuRequest := rfl
@[simp] theorem State.writeFlagsByte_bus (v : Byte) : (s.writeFlagsByte v).bus = s.bus := rfl
@[simp] theorem State.writeFlagsByte_events (v : Byte) : (s.writeFlagsByte v).events = s.events := rfl
@[simp] theorem State.writeFlagsByte_tick (v : Byte) : (s.writeFlagsByte v).tick = s.tick := rfl

/-! ### drawRow -/

@[simp] theorem State.drawRow_platform : (s.drawRow).platform = s.platform := rfl
@[simp] theorem State.drawRow_pins : (s.drawRow).pins = s.pins := rfl
@[simp] theorem State.drawRow_regs : (s.drawRow).regs = s.regs := rfl
@[simp] theorem State.drawRow_normalR14 : (s.drawRow).normalR14 = s.normalR14 := rfl
@[simp] theorem State.drawRow_normalR15 : (s.drawRow).normalR15 = s.normalR15 := rfl
@[simp] theorem State.drawRow_pcSeg : (s.drawRow).pcSeg = s.pcSeg := rfl
@[simp] theorem State.drawRow_pc : (s.drawRow).pc = s.pc := rfl
@[simp] theorem State.drawRow_fcw : (s.drawRow).fcw = s.fcw := rfl
@[simp] theorem State.drawRow_psapSeg : (s.drawRow).psapSeg = s.psapSeg := rfl
@[simp] theorem State.drawRow_psapOff : (s.drawRow).psapOff = s.psapOff := rfl
@[simp] theorem State.drawRow_nmiLatch : (s.drawRow).nmiLatch = s.nmiLatch := rfl
@[simp] theorem State.drawRow_nmiLevel : (s.drawRow).nmiLevel = s.nmiLevel := rfl
@[simp] theorem State.drawRow_halted : (s.drawRow).halted = s.halted := rfl
@[simp] theorem State.drawRow_moLow : (s.drawRow).moLow = s.moLow := rfl
@[simp] theorem State.drawRow_busGranted : (s.drawRow).busGranted = s.busGranted := rfl
@[simp] theorem State.drawRow_identTemp : (s.drawRow).identTemp = s.identTemp := rfl
@[simp] theorem State.drawRow_mem : (s.drawRow).mem = s.mem := rfl
@[simp] theorem State.drawRow_resetPending : (s.drawRow).resetPending = s.resetPending := rfl
@[simp] theorem State.drawRow_accepted : (s.drawRow).accepted = s.accepted := rfl
@[simp] theorem State.drawRow_stale : (s.drawRow).stale = s.stale := rfl
@[simp] theorem State.drawRow_turns : (s.drawRow).turns = s.turns := rfl
@[simp] theorem State.drawRow_mmuRequest : (s.drawRow).mmuRequest = s.mmuRequest := rfl
@[simp] theorem State.drawRow_bus : (s.drawRow).bus = s.bus := rfl
@[simp] theorem State.drawRow_events : (s.drawRow).events = s.events := rfl
@[simp] theorem State.drawRow_tick : (s.drawRow).tick = s.tick := rfl

/-! ### pushSystem -/

@[simp] theorem State.pushSystem_platform (v : Word) : (s.pushSystem v).platform = s.platform := by
  simp only [State.pushSystem, State.pokeWord_platform]
@[simp] theorem State.pushSystem_pins (v : Word) : (s.pushSystem v).pins = s.pins := by
  simp only [State.pushSystem, State.pokeWord_pins]
@[simp] theorem State.pushSystem_normalR14 (v : Word) : (s.pushSystem v).normalR14 = s.normalR14 := by
  simp only [State.pushSystem, State.pokeWord_normalR14]
@[simp] theorem State.pushSystem_normalR15 (v : Word) : (s.pushSystem v).normalR15 = s.normalR15 := by
  simp only [State.pushSystem, State.pokeWord_normalR15]
@[simp] theorem State.pushSystem_pcSeg (v : Word) : (s.pushSystem v).pcSeg = s.pcSeg := by
  simp only [State.pushSystem, State.pokeWord_pcSeg]
@[simp] theorem State.pushSystem_pc (v : Word) : (s.pushSystem v).pc = s.pc := by
  simp only [State.pushSystem, State.pokeWord_pc]
@[simp] theorem State.pushSystem_fcw (v : Word) : (s.pushSystem v).fcw = s.fcw := by
  simp only [State.pushSystem, State.pokeWord_fcw]
@[simp] theorem State.pushSystem_psapSeg (v : Word) : (s.pushSystem v).psapSeg = s.psapSeg := by
  simp only [State.pushSystem, State.pokeWord_psapSeg]
@[simp] theorem State.pushSystem_psapOff (v : Word) : (s.pushSystem v).psapOff = s.psapOff := by
  simp only [State.pushSystem, State.pokeWord_psapOff]
@[simp] theorem State.pushSystem_refresh (v : Word) : (s.pushSystem v).refresh = s.refresh := by
  simp only [State.pushSystem, State.pokeWord_refresh]
@[simp] theorem State.pushSystem_nmiLatch (v : Word) : (s.pushSystem v).nmiLatch = s.nmiLatch := by
  simp only [State.pushSystem, State.pokeWord_nmiLatch]
@[simp] theorem State.pushSystem_nmiLevel (v : Word) : (s.pushSystem v).nmiLevel = s.nmiLevel := by
  simp only [State.pushSystem, State.pokeWord_nmiLevel]
@[simp] theorem State.pushSystem_halted (v : Word) : (s.pushSystem v).halted = s.halted := by
  simp only [State.pushSystem, State.pokeWord_halted]
@[simp] theorem State.pushSystem_moLow (v : Word) : (s.pushSystem v).moLow = s.moLow := by
  simp only [State.pushSystem, State.pokeWord_moLow]
@[simp] theorem State.pushSystem_busGranted (v : Word) : (s.pushSystem v).busGranted = s.busGranted := by
  simp only [State.pushSystem, State.pokeWord_busGranted]
@[simp] theorem State.pushSystem_identTemp (v : Word) : (s.pushSystem v).identTemp = s.identTemp := by
  simp only [State.pushSystem, State.pokeWord_identTemp]
@[simp] theorem State.pushSystem_resetPending (v : Word) : (s.pushSystem v).resetPending = s.resetPending := by
  simp only [State.pushSystem, State.pokeWord_resetPending]
@[simp] theorem State.pushSystem_accepted (v : Word) : (s.pushSystem v).accepted = s.accepted := by
  simp only [State.pushSystem, State.pokeWord_accepted]
@[simp] theorem State.pushSystem_stale (v : Word) : (s.pushSystem v).stale = s.stale := by
  simp only [State.pushSystem, State.pokeWord_stale]
@[simp] theorem State.pushSystem_turns (v : Word) : (s.pushSystem v).turns = s.turns := by
  simp only [State.pushSystem, State.pokeWord_turns]
@[simp] theorem State.pushSystem_mmuRequest (v : Word) : (s.pushSystem v).mmuRequest = s.mmuRequest := by
  simp only [State.pushSystem, State.pokeWord_mmuRequest]
@[simp] theorem State.pushSystem_bus (v : Word) : (s.pushSystem v).bus = s.bus := by
  simp only [State.pushSystem, State.pokeWord_bus]
@[simp] theorem State.pushSystem_events (v : Word) : (s.pushSystem v).events = s.events := by
  simp only [State.pushSystem, State.pokeWord_events]
@[simp] theorem State.pushSystem_tick (v : Word) : (s.pushSystem v).tick = s.tick := by
  simp only [State.pushSystem, State.pokeWord_tick]

/-! ### epuGive -/

@[simp] theorem State.epuGive_platform (n : Nat) : (s.epuGive n).platform = s.platform := rfl
@[simp] theorem State.epuGive_regs (n : Nat) : (s.epuGive n).regs = s.regs := rfl
@[simp] theorem State.epuGive_normalR14 (n : Nat) : (s.epuGive n).normalR14 = s.normalR14 := rfl
@[simp] theorem State.epuGive_normalR15 (n : Nat) : (s.epuGive n).normalR15 = s.normalR15 := rfl
@[simp] theorem State.epuGive_pcSeg (n : Nat) : (s.epuGive n).pcSeg = s.pcSeg := rfl
@[simp] theorem State.epuGive_pc (n : Nat) : (s.epuGive n).pc = s.pc := rfl
@[simp] theorem State.epuGive_fcw (n : Nat) : (s.epuGive n).fcw = s.fcw := rfl
@[simp] theorem State.epuGive_psapSeg (n : Nat) : (s.epuGive n).psapSeg = s.psapSeg := rfl
@[simp] theorem State.epuGive_psapOff (n : Nat) : (s.epuGive n).psapOff = s.psapOff := rfl
@[simp] theorem State.epuGive_refresh (n : Nat) : (s.epuGive n).refresh = s.refresh := rfl
@[simp] theorem State.epuGive_nmiLatch (n : Nat) : (s.epuGive n).nmiLatch = s.nmiLatch := rfl
@[simp] theorem State.epuGive_nmiLevel (n : Nat) : (s.epuGive n).nmiLevel = s.nmiLevel := rfl
@[simp] theorem State.epuGive_halted (n : Nat) : (s.epuGive n).halted = s.halted := rfl
@[simp] theorem State.epuGive_moLow (n : Nat) : (s.epuGive n).moLow = s.moLow := rfl
@[simp] theorem State.epuGive_busGranted (n : Nat) : (s.epuGive n).busGranted = s.busGranted := rfl
@[simp] theorem State.epuGive_identTemp (n : Nat) : (s.epuGive n).identTemp = s.identTemp := rfl
@[simp] theorem State.epuGive_mem (n : Nat) : (s.epuGive n).mem = s.mem := rfl
@[simp] theorem State.epuGive_resetPending (n : Nat) : (s.epuGive n).resetPending = s.resetPending := rfl
@[simp] theorem State.epuGive_accepted (n : Nat) : (s.epuGive n).accepted = s.accepted := rfl
@[simp] theorem State.epuGive_stale (n : Nat) : (s.epuGive n).stale = s.stale := rfl
@[simp] theorem State.epuGive_turns (n : Nat) : (s.epuGive n).turns = s.turns := rfl
@[simp] theorem State.epuGive_mmuRequest (n : Nat) : (s.epuGive n).mmuRequest = s.mmuRequest := rfl
@[simp] theorem State.epuGive_bus (n : Nat) : (s.epuGive n).bus = s.bus := rfl
@[simp] theorem State.epuGive_tick (n : Nat) : (s.epuGive n).tick = s.tick := rfl

/-! ### epuTake -/

@[simp] theorem State.epuTake_platform (ws : List Word) : (s.epuTake ws).platform = s.platform := rfl
@[simp] theorem State.epuTake_pins (ws : List Word) : (s.epuTake ws).pins = s.pins := rfl
@[simp] theorem State.epuTake_regs (ws : List Word) : (s.epuTake ws).regs = s.regs := rfl
@[simp] theorem State.epuTake_normalR14 (ws : List Word) : (s.epuTake ws).normalR14 = s.normalR14 := rfl
@[simp] theorem State.epuTake_normalR15 (ws : List Word) : (s.epuTake ws).normalR15 = s.normalR15 := rfl
@[simp] theorem State.epuTake_pcSeg (ws : List Word) : (s.epuTake ws).pcSeg = s.pcSeg := rfl
@[simp] theorem State.epuTake_pc (ws : List Word) : (s.epuTake ws).pc = s.pc := rfl
@[simp] theorem State.epuTake_fcw (ws : List Word) : (s.epuTake ws).fcw = s.fcw := rfl
@[simp] theorem State.epuTake_psapSeg (ws : List Word) : (s.epuTake ws).psapSeg = s.psapSeg := rfl
@[simp] theorem State.epuTake_psapOff (ws : List Word) : (s.epuTake ws).psapOff = s.psapOff := rfl
@[simp] theorem State.epuTake_refresh (ws : List Word) : (s.epuTake ws).refresh = s.refresh := rfl
@[simp] theorem State.epuTake_nmiLatch (ws : List Word) : (s.epuTake ws).nmiLatch = s.nmiLatch := rfl
@[simp] theorem State.epuTake_nmiLevel (ws : List Word) : (s.epuTake ws).nmiLevel = s.nmiLevel := rfl
@[simp] theorem State.epuTake_halted (ws : List Word) : (s.epuTake ws).halted = s.halted := rfl
@[simp] theorem State.epuTake_moLow (ws : List Word) : (s.epuTake ws).moLow = s.moLow := rfl
@[simp] theorem State.epuTake_busGranted (ws : List Word) : (s.epuTake ws).busGranted = s.busGranted := rfl
@[simp] theorem State.epuTake_identTemp (ws : List Word) : (s.epuTake ws).identTemp = s.identTemp := rfl
@[simp] theorem State.epuTake_mem (ws : List Word) : (s.epuTake ws).mem = s.mem := rfl
@[simp] theorem State.epuTake_resetPending (ws : List Word) : (s.epuTake ws).resetPending = s.resetPending := rfl
@[simp] theorem State.epuTake_accepted (ws : List Word) : (s.epuTake ws).accepted = s.accepted := rfl
@[simp] theorem State.epuTake_stale (ws : List Word) : (s.epuTake ws).stale = s.stale := rfl
@[simp] theorem State.epuTake_turns (ws : List Word) : (s.epuTake ws).turns = s.turns := rfl
@[simp] theorem State.epuTake_mmuRequest (ws : List Word) : (s.epuTake ws).mmuRequest = s.mmuRequest := rfl
@[simp] theorem State.epuTake_bus (ws : List Word) : (s.epuTake ws).bus = s.bus := rfl
@[simp] theorem State.epuTake_tick (ws : List Word) : (s.epuTake ws).tick = s.tick := rfl

/-! ### Transfers of several words -/

/-- A fold keeps what each of its steps keeps. -/
theorem foldl_keeps {α β γ : Type} (p : α → γ) {f : α → β → α} (h : ∀ a b, p (f a b) = p a) (l : List β) :
    ∀ a, p (l.foldl f a) = p a := by
  induction l with
  | nil => exact fun _ => rfl
  | cons b l ih => exact fun a => (ih (f a b)).trans (h a b)

/-! ### setRegs -/

@[simp] theorem State.setRegs_platform (r : Reg) (n : Nat) (f : Nat → Word) :
    (s.setRegs r n f).platform = s.platform := 
  foldl_keeps State.platform (fun _ _ => State.setReg_platform _ _ _) _ s
@[simp] theorem State.setRegs_pins (r : Reg) (n : Nat) (f : Nat → Word) : (s.setRegs r n f).pins = s.pins := 
  foldl_keeps State.pins (fun _ _ => State.setReg_pins _ _ _) _ s
@[simp] theorem State.setRegs_pcSeg (r : Reg) (n : Nat) (f : Nat → Word) : (s.setRegs r n f).pcSeg = s.pcSeg := 
  foldl_keeps State.pcSeg (fun _ _ => State.setReg_pcSeg _ _ _) _ s
@[simp] theorem State.setRegs_pc (r : Reg) (n : Nat) (f : Nat → Word) : (s.setRegs r n f).pc = s.pc := 
  foldl_keeps State.pc (fun _ _ => State.setReg_pc _ _ _) _ s
@[simp] theorem State.setRegs_fcw (r : Reg) (n : Nat) (f : Nat → Word) : (s.setRegs r n f).fcw = s.fcw := 
  foldl_keeps State.fcw (fun _ _ => State.setReg_fcw _ _ _) _ s
@[simp] theorem State.setRegs_psapSeg (r : Reg) (n : Nat) (f : Nat → Word) : (s.setRegs r n f).psapSeg = s.psapSeg := 
  foldl_keeps State.psapSeg (fun _ _ => State.setReg_psapSeg _ _ _) _ s
@[simp] theorem State.setRegs_psapOff (r : Reg) (n : Nat) (f : Nat → Word) : (s.setRegs r n f).psapOff = s.psapOff := 
  foldl_keeps State.psapOff (fun _ _ => State.setReg_psapOff _ _ _) _ s
@[simp] theorem State.setRegs_refresh (r : Reg) (n : Nat) (f : Nat → Word) : (s.setRegs r n f).refresh = s.refresh := 
  foldl_keeps State.refresh (fun _ _ => State.setReg_refresh _ _ _) _ s
@[simp] theorem State.setRegs_nmiLatch (r : Reg) (n : Nat) (f : Nat → Word) :
    (s.setRegs r n f).nmiLatch = s.nmiLatch := 
  foldl_keeps State.nmiLatch (fun _ _ => State.setReg_nmiLatch _ _ _) _ s
@[simp] theorem State.setRegs_nmiLevel (r : Reg) (n : Nat) (f : Nat → Word) :
    (s.setRegs r n f).nmiLevel = s.nmiLevel := 
  foldl_keeps State.nmiLevel (fun _ _ => State.setReg_nmiLevel _ _ _) _ s
@[simp] theorem State.setRegs_halted (r : Reg) (n : Nat) (f : Nat → Word) : (s.setRegs r n f).halted = s.halted := 
  foldl_keeps State.halted (fun _ _ => State.setReg_halted _ _ _) _ s
@[simp] theorem State.setRegs_moLow (r : Reg) (n : Nat) (f : Nat → Word) : (s.setRegs r n f).moLow = s.moLow := 
  foldl_keeps State.moLow (fun _ _ => State.setReg_moLow _ _ _) _ s
@[simp] theorem State.setRegs_busGranted (r : Reg) (n : Nat) (f : Nat → Word) :
    (s.setRegs r n f).busGranted = s.busGranted := 
  foldl_keeps State.busGranted (fun _ _ => State.setReg_busGranted _ _ _) _ s
@[simp] theorem State.setRegs_identTemp (r : Reg) (n : Nat) (f : Nat → Word) :
    (s.setRegs r n f).identTemp = s.identTemp := 
  foldl_keeps State.identTemp (fun _ _ => State.setReg_identTemp _ _ _) _ s
@[simp] theorem State.setRegs_mem (r : Reg) (n : Nat) (f : Nat → Word) : (s.setRegs r n f).mem = s.mem := 
  foldl_keeps State.mem (fun _ _ => State.setReg_mem _ _ _) _ s
@[simp] theorem State.setRegs_resetPending (r : Reg) (n : Nat) (f : Nat → Word) :
    (s.setRegs r n f).resetPending = s.resetPending := 
  foldl_keeps State.resetPending (fun _ _ => State.setReg_resetPending _ _ _) _ s
@[simp] theorem State.setRegs_accepted (r : Reg) (n : Nat) (f : Nat → Word) :
    (s.setRegs r n f).accepted = s.accepted := 
  foldl_keeps State.accepted (fun _ _ => State.setReg_accepted _ _ _) _ s
@[simp] theorem State.setRegs_stale (r : Reg) (n : Nat) (f : Nat → Word) : (s.setRegs r n f).stale = s.stale := 
  foldl_keeps State.stale (fun _ _ => State.setReg_stale _ _ _) _ s
@[simp] theorem State.setRegs_turns (r : Reg) (n : Nat) (f : Nat → Word) : (s.setRegs r n f).turns = s.turns := 
  foldl_keeps State.turns (fun _ _ => State.setReg_turns _ _ _) _ s
@[simp] theorem State.setRegs_mmuRequest (r : Reg) (n : Nat) (f : Nat → Word) :
    (s.setRegs r n f).mmuRequest = s.mmuRequest := 
  foldl_keeps State.mmuRequest (fun _ _ => State.setReg_mmuRequest _ _ _) _ s
@[simp] theorem State.setRegs_bus (r : Reg) (n : Nat) (f : Nat → Word) : (s.setRegs r n f).bus = s.bus := 
  foldl_keeps State.bus (fun _ _ => State.setReg_bus _ _ _) _ s
@[simp] theorem State.setRegs_events (r : Reg) (n : Nat) (f : Nat → Word) : (s.setRegs r n f).events = s.events := 
  foldl_keeps State.events (fun _ _ => State.setReg_events _ _ _) _ s
@[simp] theorem State.setRegs_tick (r : Reg) (n : Nat) (f : Nat → Word) : (s.setRegs r n f).tick = s.tick := 
  foldl_keeps State.tick (fun _ _ => State.setReg_tick _ _ _) _ s

/-! ### pokeWords -/

@[simp] theorem State.pokeWords_platform (sp : Space) (a : Addr) (n : Nat) (f : Nat → Word) :
    (s.pokeWords sp a n f).platform = s.platform := 
  foldl_keeps State.platform (fun _ _ => State.pokeWord_platform _ _ _ _) _ s
@[simp] theorem State.pokeWords_pins (sp : Space) (a : Addr) (n : Nat) (f : Nat → Word) :
    (s.pokeWords sp a n f).pins = s.pins := 
  foldl_keeps State.pins (fun _ _ => State.pokeWord_pins _ _ _ _) _ s
@[simp] theorem State.pokeWords_regs (sp : Space) (a : Addr) (n : Nat) (f : Nat → Word) :
    (s.pokeWords sp a n f).regs = s.regs := 
  foldl_keeps State.regs (fun _ _ => State.pokeWord_regs _ _ _ _) _ s
@[simp] theorem State.pokeWords_normalR14 (sp : Space) (a : Addr) (n : Nat) (f : Nat → Word) :
    (s.pokeWords sp a n f).normalR14 = s.normalR14 := 
  foldl_keeps State.normalR14 (fun _ _ => State.pokeWord_normalR14 _ _ _ _) _ s
@[simp] theorem State.pokeWords_normalR15 (sp : Space) (a : Addr) (n : Nat) (f : Nat → Word) :
    (s.pokeWords sp a n f).normalR15 = s.normalR15 := 
  foldl_keeps State.normalR15 (fun _ _ => State.pokeWord_normalR15 _ _ _ _) _ s
@[simp] theorem State.pokeWords_pcSeg (sp : Space) (a : Addr) (n : Nat) (f : Nat → Word) :
    (s.pokeWords sp a n f).pcSeg = s.pcSeg := 
  foldl_keeps State.pcSeg (fun _ _ => State.pokeWord_pcSeg _ _ _ _) _ s
@[simp] theorem State.pokeWords_pc (sp : Space) (a : Addr) (n : Nat) (f : Nat → Word) :
    (s.pokeWords sp a n f).pc = s.pc := 
  foldl_keeps State.pc (fun _ _ => State.pokeWord_pc _ _ _ _) _ s
@[simp] theorem State.pokeWords_fcw (sp : Space) (a : Addr) (n : Nat) (f : Nat → Word) :
    (s.pokeWords sp a n f).fcw = s.fcw := 
  foldl_keeps State.fcw (fun _ _ => State.pokeWord_fcw _ _ _ _) _ s
@[simp] theorem State.pokeWords_psapSeg (sp : Space) (a : Addr) (n : Nat) (f : Nat → Word) :
    (s.pokeWords sp a n f).psapSeg = s.psapSeg := 
  foldl_keeps State.psapSeg (fun _ _ => State.pokeWord_psapSeg _ _ _ _) _ s
@[simp] theorem State.pokeWords_psapOff (sp : Space) (a : Addr) (n : Nat) (f : Nat → Word) :
    (s.pokeWords sp a n f).psapOff = s.psapOff := 
  foldl_keeps State.psapOff (fun _ _ => State.pokeWord_psapOff _ _ _ _) _ s
@[simp] theorem State.pokeWords_refresh (sp : Space) (a : Addr) (n : Nat) (f : Nat → Word) :
    (s.pokeWords sp a n f).refresh = s.refresh := 
  foldl_keeps State.refresh (fun _ _ => State.pokeWord_refresh _ _ _ _) _ s
@[simp] theorem State.pokeWords_nmiLatch (sp : Space) (a : Addr) (n : Nat) (f : Nat → Word) :
    (s.pokeWords sp a n f).nmiLatch = s.nmiLatch := 
  foldl_keeps State.nmiLatch (fun _ _ => State.pokeWord_nmiLatch _ _ _ _) _ s
@[simp] theorem State.pokeWords_nmiLevel (sp : Space) (a : Addr) (n : Nat) (f : Nat → Word) :
    (s.pokeWords sp a n f).nmiLevel = s.nmiLevel := 
  foldl_keeps State.nmiLevel (fun _ _ => State.pokeWord_nmiLevel _ _ _ _) _ s
@[simp] theorem State.pokeWords_halted (sp : Space) (a : Addr) (n : Nat) (f : Nat → Word) :
    (s.pokeWords sp a n f).halted = s.halted := 
  foldl_keeps State.halted (fun _ _ => State.pokeWord_halted _ _ _ _) _ s
@[simp] theorem State.pokeWords_moLow (sp : Space) (a : Addr) (n : Nat) (f : Nat → Word) :
    (s.pokeWords sp a n f).moLow = s.moLow := 
  foldl_keeps State.moLow (fun _ _ => State.pokeWord_moLow _ _ _ _) _ s
@[simp] theorem State.pokeWords_busGranted (sp : Space) (a : Addr) (n : Nat) (f : Nat → Word) :
    (s.pokeWords sp a n f).busGranted = s.busGranted := 
  foldl_keeps State.busGranted (fun _ _ => State.pokeWord_busGranted _ _ _ _) _ s
@[simp] theorem State.pokeWords_identTemp (sp : Space) (a : Addr) (n : Nat) (f : Nat → Word) :
    (s.pokeWords sp a n f).identTemp = s.identTemp := 
  foldl_keeps State.identTemp (fun _ _ => State.pokeWord_identTemp _ _ _ _) _ s
@[simp] theorem State.pokeWords_resetPending (sp : Space) (a : Addr) (n : Nat) (f : Nat → Word) :
    (s.pokeWords sp a n f).resetPending = s.resetPending := 
  foldl_keeps State.resetPending (fun _ _ => State.pokeWord_resetPending _ _ _ _) _ s
@[simp] theorem State.pokeWords_accepted (sp : Space) (a : Addr) (n : Nat) (f : Nat → Word) :
    (s.pokeWords sp a n f).accepted = s.accepted := 
  foldl_keeps State.accepted (fun _ _ => State.pokeWord_accepted _ _ _ _) _ s
@[simp] theorem State.pokeWords_stale (sp : Space) (a : Addr) (n : Nat) (f : Nat → Word) :
    (s.pokeWords sp a n f).stale = s.stale := 
  foldl_keeps State.stale (fun _ _ => State.pokeWord_stale _ _ _ _) _ s
@[simp] theorem State.pokeWords_turns (sp : Space) (a : Addr) (n : Nat) (f : Nat → Word) :
    (s.pokeWords sp a n f).turns = s.turns := 
  foldl_keeps State.turns (fun _ _ => State.pokeWord_turns _ _ _ _) _ s
@[simp] theorem State.pokeWords_mmuRequest (sp : Space) (a : Addr) (n : Nat) (f : Nat → Word) :
    (s.pokeWords sp a n f).mmuRequest = s.mmuRequest := 
  foldl_keeps State.mmuRequest (fun _ _ => State.pokeWord_mmuRequest _ _ _ _) _ s
@[simp] theorem State.pokeWords_bus (sp : Space) (a : Addr) (n : Nat) (f : Nat → Word) :
    (s.pokeWords sp a n f).bus = s.bus := 
  foldl_keeps State.bus (fun _ _ => State.pokeWord_bus _ _ _ _) _ s
@[simp] theorem State.pokeWords_events (sp : Space) (a : Addr) (n : Nat) (f : Nat → Word) :
    (s.pokeWords sp a n f).events = s.events := 
  foldl_keeps State.events (fun _ _ => State.pokeWord_events _ _ _ _) _ s
@[simp] theorem State.pokeWords_tick (sp : Space) (a : Addr) (n : Nat) (f : Nat → Word) :
    (s.pokeWords sp a n f).tick = s.tick := 
  foldl_keeps State.tick (fun _ _ => State.pokeWord_tick _ _ _ _) _ s

/-! ### afterCycles -/

@[simp] theorem State.afterCycles_platform (cs : List Cycle) : (s.afterCycles cs).platform = s.platform := rfl
@[simp] theorem State.afterCycles_pins (cs : List Cycle) : (s.afterCycles cs).pins = s.pins := rfl
@[simp] theorem State.afterCycles_regs (cs : List Cycle) : (s.afterCycles cs).regs = s.regs := rfl
@[simp] theorem State.afterCycles_normalR14 (cs : List Cycle) : (s.afterCycles cs).normalR14 = s.normalR14 := rfl
@[simp] theorem State.afterCycles_normalR15 (cs : List Cycle) : (s.afterCycles cs).normalR15 = s.normalR15 := rfl
@[simp] theorem State.afterCycles_pcSeg (cs : List Cycle) : (s.afterCycles cs).pcSeg = s.pcSeg := rfl
@[simp] theorem State.afterCycles_pc (cs : List Cycle) : (s.afterCycles cs).pc = s.pc := rfl
@[simp] theorem State.afterCycles_fcw (cs : List Cycle) : (s.afterCycles cs).fcw = s.fcw := rfl
@[simp] theorem State.afterCycles_psapSeg (cs : List Cycle) : (s.afterCycles cs).psapSeg = s.psapSeg := rfl
@[simp] theorem State.afterCycles_psapOff (cs : List Cycle) : (s.afterCycles cs).psapOff = s.psapOff := rfl
@[simp] theorem State.afterCycles_refresh (cs : List Cycle) : (s.afterCycles cs).refresh = s.refresh := rfl
@[simp] theorem State.afterCycles_nmiLatch (cs : List Cycle) : (s.afterCycles cs).nmiLatch = s.nmiLatch := rfl
@[simp] theorem State.afterCycles_nmiLevel (cs : List Cycle) : (s.afterCycles cs).nmiLevel = s.nmiLevel := rfl
@[simp] theorem State.afterCycles_halted (cs : List Cycle) : (s.afterCycles cs).halted = s.halted := rfl
@[simp] theorem State.afterCycles_moLow (cs : List Cycle) : (s.afterCycles cs).moLow = s.moLow := rfl
@[simp] theorem State.afterCycles_busGranted (cs : List Cycle) : (s.afterCycles cs).busGranted = s.busGranted := rfl
@[simp] theorem State.afterCycles_identTemp (cs : List Cycle) : (s.afterCycles cs).identTemp = s.identTemp := rfl
@[simp] theorem State.afterCycles_mem (cs : List Cycle) : (s.afterCycles cs).mem = s.mem := rfl
@[simp] theorem State.afterCycles_resetPending (cs : List Cycle) :
    (s.afterCycles cs).resetPending = s.resetPending := rfl
@[simp] theorem State.afterCycles_accepted (cs : List Cycle) : (s.afterCycles cs).accepted = s.accepted := rfl
@[simp] theorem State.afterCycles_stale (cs : List Cycle) : (s.afterCycles cs).stale = s.stale := rfl
@[simp] theorem State.afterCycles_turns (cs : List Cycle) : (s.afterCycles cs).turns = s.turns := rfl
@[simp] theorem State.afterCycles_events (cs : List Cycle) : (s.afterCycles cs).events = s.events := rfl
@[simp] theorem State.afterCycles_tick (cs : List Cycle) : (s.afterCycles cs).tick = s.tick := rfl

end Sys2Proof.Machine
end

