-- ==== Sys2Proof/Laws/Memory.lean ====
section
/-! SUPPORT. Memory as a list of cells: reading after writing, and the canonical form. -/

namespace Sys2Proof.Machine

/-! ### Reading after writing -/

theorem Memory.read_erase (m : Memory) (k j : Nat) :
    Memory.read (Memory.erase m k) j = if j = k then 0 else Memory.read m j := by
  induction m with
  | nil => simp [Memory.erase, Memory.read]
  | cons c m ih =>
    rcases eq_or_ne j k with rfl | hj
    · by_cases h : c.1 = j <;> simp_all [Memory.erase, Memory.read]
    · by_cases h : c.1 = k
      · have : c.1 ≠ j := fun e => hj (e ▸ h)
        simp_all [Memory.erase, Memory.read]
      · by_cases hc : c.1 = j <;> simp_all [Memory.erase, Memory.read]

theorem Memory.read_insert_erased (m : Memory) (k j : Nat) (v : Byte) :
    Memory.read (Memory.insert (Memory.erase m k) k v) j = if j = k then v else Memory.read m j := by
  induction m with
  | nil => rcases eq_or_ne j k with rfl | hj <;> simp_all [Memory.erase, Memory.insert, Memory.read, Ne.symm]
  | cons c m ih =>
    by_cases h : c.1 = k
    · rcases eq_or_ne j k with rfl | hj
      · simp_all [Memory.erase]
      · have : c.1 ≠ j := fun e => hj (e ▸ h)
        simp_all [Memory.erase, Memory.read]
    · by_cases hk : k < c.1
      · rcases eq_or_ne j k with rfl | hj
        · simp [Memory.erase, h, Memory.insert, hk, Memory.read]
        · simp [Memory.erase, h, Memory.insert, hk, Memory.read, hj.symm, Memory.read_erase, hj]
      · simp only [Memory.erase, h, if_false, Memory.insert, hk, Memory.read, ih]
        rcases eq_or_ne j k with rfl | hj <;> simp_all

/-- A read after a write: the cell written holds the byte, every other cell reads as before. -/
theorem Memory.read_write (m : Memory) (k j : Nat) (v : Byte) :
    (m.write k v).read j = if j = k then v else m.read j := by
  rw [Memory.write]
  split
  · next h => rw [Memory.read_erase, h]
  · exact Memory.read_insert_erased m k j v

/-! ### The canonical form -/

theorem Memory.above_erase {m : Memory} {b k : Nat} (h : Memory.above b m = true) :
    Memory.above b (Memory.erase m k) = true := by
  induction m with
  | nil => rfl
  | cons c m ih =>
    simp only [Memory.above, Bool.and_eq_true, decide_eq_true_eq] at h
    by_cases hk : c.1 = k <;> simp [Memory.erase, hk, Memory.above, ih h.2]
    omega

theorem Memory.above_insert {m : Memory} {b k : Nat} {v : Byte} (h : Memory.above b m = true) (hk : b < k) :
    Memory.above b (Memory.insert m k v) = true := by
  induction m with
  | nil => simp [Memory.insert, Memory.above, hk]
  | cons c m ih =>
    simp only [Memory.above, Bool.and_eq_true, decide_eq_true_eq] at h
    by_cases hc : k < c.1 <;> simp [Memory.insert, hc, Memory.above, h.1, h.2, hk, ih h.2]

theorem Memory.above_le {m : Memory} {b c : Nat} (h : Memory.above c m = true) (hb : b ≤ c) :
    Memory.above b m = true := by
  induction m with
  | nil => rfl
  | cons d m ih =>
    simp only [Memory.above, Bool.and_eq_true, decide_eq_true_eq] at h ⊢
    exact ⟨by omega, ih h.2⟩

theorem Memory.wf_erase {m : Memory} (k : Nat) (h : m.wf = true) : (Memory.erase m k).wf = true := by
  induction m with
  | nil => rfl
  | cons c m ih =>
    simp only [Memory.wf, Bool.and_eq_true, bne_iff_ne, ne_eq] at h
    by_cases hk : c.1 = k
    · simpa [Memory.erase, hk] using ih h.2
    · simpa [Memory.erase, hk, Memory.wf, ih h.2, Memory.above_erase h.1.2] using h.1.1

/-- The list holds no cell `k`. -/
def Memory.without (k : Nat) : Memory → Bool
  | [] => true
  | c :: m => decide (c.1 ≠ k) && Memory.without k m

theorem Memory.without_erase (m : Memory) (k : Nat) : Memory.without k (Memory.erase m k) = true := by
  induction m with
  | nil => rfl
  | cons c m ih =>
    by_cases hk : c.1 = k <;> simp [Memory.erase, hk, Memory.without, ih]

theorem Memory.wf_insert {m : Memory} {k : Nat} {v : Byte} (h : m.wf = true) (hw : Memory.without k m = true)
    (hv : v ≠ 0) : (Memory.insert m k v).wf = true := by
  induction m with
  | nil => simpa [Memory.insert, Memory.wf, Memory.above] using hv
  | cons c m ih =>
    simp only [Memory.wf, Bool.and_eq_true, bne_iff_ne, ne_eq] at h
    simp only [Memory.without, Bool.and_eq_true, decide_eq_true_eq] at hw
    by_cases hc : k < c.1
    · simp only [Memory.insert, hc, if_true, Memory.wf, Memory.above, Bool.and_eq_true, bne_iff_ne, ne_eq,
        decide_eq_true_eq]
      exact ⟨⟨hv, trivial, Memory.above_le h.1.2 (by omega)⟩, h.1, h.2⟩
    · simpa [Memory.insert, hc, Memory.wf, ih h.2 hw.2, Memory.above_insert h.1.2 (show c.1 < k by omega)]
        using h.1.1

/-- A write keeps the canonical form. -/
theorem Memory.wf_write {m : Memory} (k : Nat) (v : Byte) (h : m.wf = true) : (m.write k v).wf = true := by
  rw [Memory.write]
  split
  · exact Memory.wf_erase k h
  · next hv => exact Memory.wf_insert (Memory.wf_erase k h) (Memory.without_erase m k) hv

theorem Memory.read_of_above {m : Memory} {b k : Nat} (h : Memory.above b m = true) (hk : k ≤ b) :
    m.read k = 0 := by
  induction m with
  | nil => rfl
  | cons c m ih =>
    simp only [Memory.above, Bool.and_eq_true, decide_eq_true_eq] at h
    have : c.1 ≠ k := by omega
    simp [Memory.read, this, ih h.2]

/-- Two memories in canonical form that read alike are equal. -/
theorem Memory.eq_of_read {m n : Memory} (hm : m.wf = true) (hn : n.wf = true) (h : ∀ k, m.read k = n.read k) :
    m = n := by
  induction m generalizing n with
  | nil =>
    cases n with
    | nil => rfl
    | cons d n =>
      simp only [Memory.wf, Bool.and_eq_true, bne_iff_ne, ne_eq] at hn
      have := h d.1
      simp [Memory.read] at this
      exact absurd this.symm hn.1.1
  | cons c m ih =>
    simp only [Memory.wf, Bool.and_eq_true, bne_iff_ne, ne_eq] at hm
    cases n with
    | nil =>
      have := h c.1
      simp [Memory.read] at this
      exact absurd this hm.1.1
    | cons d n =>
      simp only [Memory.wf, Bool.and_eq_true, bne_iff_ne, ne_eq] at hn
      have hcd : c.1 = d.1 := by
        rcases Nat.lt_trichotomy c.1 d.1 with hlt | heq | hgt
        · have := h c.1
          simp [Memory.read, show d.1 ≠ c.1 by omega, Memory.read_of_above hn.1.2 (Nat.le_of_lt hlt)] at this
          exact absurd this hm.1.1
        · exact heq
        · have := h d.1
          simp [Memory.read, show c.1 ≠ d.1 by omega, Memory.read_of_above hm.1.2 (Nat.le_of_lt hgt)] at this
          exact absurd this.symm hn.1.1
      have hv : c.2 = d.2 := by
        have := h c.1
        simpa [Memory.read, hcd] using this
      have htail : m = n := by
        refine ih hm.2 hn.2 fun k => ?_
        by_cases hk : k ≤ c.1
        · rw [Memory.read_of_above hm.1.2 hk, Memory.read_of_above hn.1.2 (hcd ▸ hk)]
        · have := h k
          simpa [Memory.read, show c.1 ≠ k by omega, show d.1 ≠ k by omega] using this
      rw [htail, show c = d from Prod.ext hcd hv]

end Sys2Proof.Machine
end

