-- ==== Sys2Proof/Laws/Access.lean ====
section
/-! SUPPORT. What the operations leave readable: the mode, the registers and memory after an update of something else. -/

namespace Sys2Proof.Machine

variable {s t : State}

/-! ### An accessor depends on these fields only -/

theorem State.isZ8001_congr (hp : t.platform = s.platform) : t.isZ8001 = s.isZ8001 := by
  simp only [State.isZ8001, hp]

theorem State.system_congr (hf : t.fcw = s.fcw) : t.system = s.system := by simp only [State.system, hf]

theorem State.segmented_congr (hp : t.platform = s.platform) (hf : t.fcw = s.fcw) :
    t.segmented = s.segmented := by
  simp only [State.segmented, hf, State.isZ8001_congr hp]

theorem State.codeSeg_congr (hp : t.platform = s.platform) (hs : t.pcSeg = s.pcSeg) : t.codeSeg = s.codeSeg := by
  simp only [State.codeSeg, hs, State.isZ8001_congr hp]

theorem State.draw_congr (h : t.tick = s.tick) : t.draw = s.draw := by
  funext d w
  simp only [State.draw, h]

theorem State.reg_congr (hr : t.regs = s.regs) (h4 : t.normalR14 = s.normalR14) (h5 : t.normalR15 = s.normalR15)
    (hp : t.isZ8001 = s.isZ8001) (hs : t.system = s.system) : t.reg = s.reg := by
  funext r
  simp only [State.reg, State.namesNormal15, State.namesNormal14, hr, h4, h5, hp, hs]
  rfl

theorem State.regByte_congr (h : t.reg = s.reg) : t.regByte = s.regByte := by
  funext r
  simp only [State.regByte, h]

theorem State.regLong_congr (h : t.reg = s.reg) : t.regLong = s.regLong := by
  funext r
  simp only [State.regLong, h]

theorem State.regQuad_congr (h : t.reg = s.reg) : t.regQuad = s.regQuad := by
  funext r
  simp only [State.regQuad, State.regLong_congr h]

theorem State.regOf_congr (h : t.reg = s.reg) : t.regOf = s.regOf := by
  funext z r
  cases z <;> simp only [State.regOf, h, State.regByte_congr h, State.regLong_congr h]

theorem State.addrReg_congr (h : t.reg = s.reg) (hg : t.segmented = s.segmented) (hc : t.codeSeg = s.codeSeg) :
    t.addrReg = s.addrReg := by
  funext r
  simp only [State.addrReg, h, hg, hc]

theorem State.offReg_congr (hg : t.segmented = s.segmented) : t.offReg = s.offReg := by
  funext r
  simp only [State.offReg, hg]

theorem State.spReg_congr (hg : t.segmented = s.segmented) : t.spReg = s.spReg := by simp only [State.spReg, hg]

theorem State.space_congr (hs : t.system = s.system) : t.space = s.space := by
  funext c
  simp only [State.space, hs]

theorem State.regSpace_congr (hg : t.segmented = s.segmented) (hs : t.system = s.system) :
    t.regSpace = s.regSpace := by
  funext r
  simp only [State.regSpace, State.regClass, State.spReg_congr hg, State.space_congr hs]

theorem State.cell_congr (hp : t.platform = s.platform) : t.cell = s.cell := by
  funext sp a
  simp only [State.cell, hp]

theorem State.absentCell_congr (hp : t.platform = s.platform) : t.absentCell = s.absentCell := by
  funext k
  simp only [State.absentCell, hp]

theorem State.accessOk_congr (hp : t.platform = s.platform) : t.accessOk = s.accessOk := by
  funext z a
  simp only [State.accessOk, hp]

theorem State.peekByte_congr (hp : t.platform = s.platform) (hm : t.mem = s.mem) (ht : t.tick = s.tick) :
    t.peekByte = s.peekByte := by
  funext sp a
  simp only [State.peekByte, State.cell_congr hp, State.absentCell_congr hp, State.draw_congr ht, hm]

theorem State.peekWord_congr (h : t.peekByte = s.peekByte) : t.peekWord = s.peekWord := by
  funext sp a
  simp only [State.peekWord, h]

theorem State.peekLong_congr (h : t.peekByte = s.peekByte) : t.peekLong = s.peekLong := by
  funext sp a
  simp only [State.peekLong, State.peekWord_congr h]

theorem State.peek_congr (h : t.peekByte = s.peekByte) : t.peek = s.peek := by
  funext z sp a
  cases z <;> simp only [State.peek, h, State.peekWord_congr h, State.peekLong_congr h]

theorem State.memAddr_congr (h : t.reg = s.reg) (hg : t.segmented = s.segmented) (hc : t.codeSeg = s.codeSeg) :
    t.memAddr = s.memAddr := by
  have ha : t.absAddr = s.absAddr := by
    funext a
    cases a <;> simp only [State.absAddr, hc]
  funext m
  cases m <;> simp only [State.memAddr, h, ha, State.addrReg_congr h hg hc]

theorem State.memSpace_congr (hg : t.segmented = s.segmented) (hs : t.system = s.system) :
    t.memSpace = s.memSpace := by
  funext m
  cases m <;> simp only [State.memSpace, State.regSpace_congr hg hs, State.space_congr hs]

/-! ### Flags are FCW[7:2] -/

theorem fcw_parts_getLsbD (hi : BitVec 8) (c z n v d h : BitVec 1) (lo : BitVec 2) (i : Nat) :
    (hi ++ c ++ z ++ n ++ v ++ d ++ h ++ lo).getLsbD i =
      if i < 2 then lo.getLsbD i else if i < 3 then h.getLsbD (i - 2) else if i < 4 then d.getLsbD (i - 3)
      else if i < 5 then v.getLsbD (i - 4) else if i < 6 then n.getLsbD (i - 5)
      else if i < 7 then z.getLsbD (i - 6) else if i < 8 then c.getLsbD (i - 7) else hi.getLsbD (i - 8) := by
  simp only [BitVec.getLsbD_append, Nat.sub_sub]
  repeat' split
  all_goals first | rfl | omega

/-- The bits of an FCW outside FCW[7:2] are kept, each flag is the one given. -/
theorem withFlags_getLsbD (w : Word) (f : Flags) (i : Nat) :
    (withFlags w f).getLsbD i =
      match i with
      | 2 => f.h | 3 => f.d | 4 => f.v | 5 => f.s | 6 => f.z | 7 => f.c
      | _ => w.getLsbD i := by
  have h := fcw_parts_getLsbD (w.extractLsb' 8 8) (.ofBool f.c) (.ofBool f.z) (.ofBool f.s) (.ofBool f.v)
    (.ofBool f.d) (.ofBool f.h) (w.extractLsb' 0 2) i
  refine (show (withFlags w f).getLsbD i = _ from h).trans ?_
  rcases Nat.lt_or_ge i 16 with hi | hi
  · interval_cases i <;> simp
  · have hw : w.getLsbD i = false := BitVec.getLsbD_of_ge _ _ hi
    simp only [show ¬ i < 2 by omega, show ¬ i < 3 by omega, show ¬ i < 4 by omega, show ¬ i < 5 by omega,
      show ¬ i < 6 by omega, show ¬ i < 7 by omega, show ¬ i < 8 by omega, if_false]
    rw [BitVec.getLsbD_of_ge _ _ (by omega)]
    split <;> first | omega | exact hw.symm

@[simp] theorem flagsOf_withFlags (w : Word) (f : Flags) : flagsOf (withFlags w f) = f := by
  simp only [flagsOf, withFlags_getLsbD]

@[simp] theorem State.flags_setFlags (f : Flags) : (s.setFlags f).flags = f := flagsOf_withFlags _ _

@[simp] theorem State.system_setFlags (f : Flags) : (s.setFlags f).system = s.system := by
  simp only [State.system, State.setFlags, withFlags_getLsbD]

@[simp] theorem State.segmented_setFlags (f : Flags) : (s.setFlags f).segmented = s.segmented := by
  simp only [State.segmented, State.isZ8001, State.setFlags, withFlags_getLsbD]

variable (s)

/-! ### The accessors after the operations -/

@[simp] theorem State.isZ8001_setReg (r : Reg) (v : Word) :
    (s.setReg r v).isZ8001 = s.isZ8001 := State.isZ8001_congr (by simp)
@[simp] theorem State.system_setReg (r : Reg) (v : Word) :
    (s.setReg r v).system = s.system := State.system_congr (by simp)
@[simp] theorem State.segmented_setReg (r : Reg) (v : Word) :
    (s.setReg r v).segmented = s.segmented := State.segmented_congr (by simp) (by simp)
@[simp] theorem State.codeSeg_setReg (r : Reg) (v : Word) :
    (s.setReg r v).codeSeg = s.codeSeg := State.codeSeg_congr (by simp) (by simp)
@[simp] theorem State.offReg_setReg (r : Reg) (v : Word) :
    (s.setReg r v).offReg = s.offReg := State.offReg_congr (by simp)
@[simp] theorem State.spReg_setReg (r : Reg) (v : Word) :
    (s.setReg r v).spReg = s.spReg := State.spReg_congr (by simp)
@[simp] theorem State.regSpace_setReg (r : Reg) (v : Word) :
    (s.setReg r v).regSpace = s.regSpace := State.regSpace_congr (by simp) (by simp)
@[simp] theorem State.cell_setReg (r : Reg) (v : Word) :
    (s.setReg r v).cell = s.cell := State.cell_congr (by simp)
@[simp] theorem State.absentCell_setReg (r : Reg) (v : Word) :
    (s.setReg r v).absentCell = s.absentCell := State.absentCell_congr (by simp)
@[simp] theorem State.accessOk_setReg (r : Reg) (v : Word) :
    (s.setReg r v).accessOk = s.accessOk := State.accessOk_congr (by simp)
@[simp] theorem State.peekByte_setReg (r : Reg) (v : Word) :
    (s.setReg r v).peekByte = s.peekByte := State.peekByte_congr (by simp) (by simp) (by simp)
@[simp] theorem State.peek_setReg (r : Reg) (v : Word) :
    (s.setReg r v).peek = s.peek := State.peek_congr (by simp)
@[simp] theorem State.draw_setReg (r : Reg) (v : Word) :
    (s.setReg r v).draw = s.draw := State.draw_congr (by simp)
@[simp] theorem State.isZ8001_setRegOf (z : Size) (r : Reg) (v : BitVec z.bits) :
    (s.setRegOf z r v).isZ8001 = s.isZ8001 := State.isZ8001_congr (by simp)
@[simp] theorem State.system_setRegOf (z : Size) (r : Reg) (v : BitVec z.bits) :
    (s.setRegOf z r v).system = s.system := State.system_congr (by simp)
@[simp] theorem State.segmented_setRegOf (z : Size) (r : Reg) (v : BitVec z.bits) :
    (s.setRegOf z r v).segmented = s.segmented := State.segmented_congr (by simp) (by simp)
@[simp] theorem State.codeSeg_setRegOf (z : Size) (r : Reg) (v : BitVec z.bits) :
    (s.setRegOf z r v).codeSeg = s.codeSeg := State.codeSeg_congr (by simp) (by simp)
@[simp] theorem State.offReg_setRegOf (z : Size) (r : Reg) (v : BitVec z.bits) :
    (s.setRegOf z r v).offReg = s.offReg := State.offReg_congr (by simp)
@[simp] theorem State.spReg_setRegOf (z : Size) (r : Reg) (v : BitVec z.bits) :
    (s.setRegOf z r v).spReg = s.spReg := State.spReg_congr (by simp)
@[simp] theorem State.regSpace_setRegOf (z : Size) (r : Reg) (v : BitVec z.bits) :
    (s.setRegOf z r v).regSpace = s.regSpace := State.regSpace_congr (by simp) (by simp)
@[simp] theorem State.cell_setRegOf (z : Size) (r : Reg) (v : BitVec z.bits) :
    (s.setRegOf z r v).cell = s.cell := State.cell_congr (by simp)
@[simp] theorem State.absentCell_setRegOf (z : Size) (r : Reg) (v : BitVec z.bits) :
    (s.setRegOf z r v).absentCell = s.absentCell := State.absentCell_congr (by simp)
@[simp] theorem State.accessOk_setRegOf (z : Size) (r : Reg) (v : BitVec z.bits) :
    (s.setRegOf z r v).accessOk = s.accessOk := State.accessOk_congr (by simp)
@[simp] theorem State.peekByte_setRegOf (z : Size) (r : Reg) (v : BitVec z.bits) :
    (s.setRegOf z r v).peekByte = s.peekByte := State.peekByte_congr (by simp) (by simp) (by simp)
@[simp] theorem State.peek_setRegOf (z : Size) (r : Reg) (v : BitVec z.bits) :
    (s.setRegOf z r v).peek = s.peek := State.peek_congr (by simp)
@[simp] theorem State.draw_setRegOf (z : Size) (r : Reg) (v : BitVec z.bits) :
    (s.setRegOf z r v).draw = s.draw := State.draw_congr (by simp)
@[simp] theorem State.isZ8001_bump (r : Reg) (w : Word) :
    (s.bump r w).isZ8001 = s.isZ8001 := State.isZ8001_congr (by simp)
@[simp] theorem State.system_bump (r : Reg) (w : Word) :
    (s.bump r w).system = s.system := State.system_congr (by simp)
@[simp] theorem State.segmented_bump (r : Reg) (w : Word) :
    (s.bump r w).segmented = s.segmented := State.segmented_congr (by simp) (by simp)
@[simp] theorem State.codeSeg_bump (r : Reg) (w : Word) :
    (s.bump r w).codeSeg = s.codeSeg := State.codeSeg_congr (by simp) (by simp)
@[simp] theorem State.offReg_bump (r : Reg) (w : Word) :
    (s.bump r w).offReg = s.offReg := State.offReg_congr (by simp)
@[simp] theorem State.spReg_bump (r : Reg) (w : Word) :
    (s.bump r w).spReg = s.spReg := State.spReg_congr (by simp)
@[simp] theorem State.regSpace_bump (r : Reg) (w : Word) :
    (s.bump r w).regSpace = s.regSpace := State.regSpace_congr (by simp) (by simp)
@[simp] theorem State.cell_bump (r : Reg) (w : Word) :
    (s.bump r w).cell = s.cell := State.cell_congr (by simp)
@[simp] theorem State.absentCell_bump (r : Reg) (w : Word) :
    (s.bump r w).absentCell = s.absentCell := State.absentCell_congr (by simp)
@[simp] theorem State.accessOk_bump (r : Reg) (w : Word) :
    (s.bump r w).accessOk = s.accessOk := State.accessOk_congr (by simp)
@[simp] theorem State.peekByte_bump (r : Reg) (w : Word) :
    (s.bump r w).peekByte = s.peekByte := State.peekByte_congr (by simp) (by simp) (by simp)
@[simp] theorem State.peek_bump (r : Reg) (w : Word) :
    (s.bump r w).peek = s.peek := State.peek_congr (by simp)
@[simp] theorem State.draw_bump (r : Reg) (w : Word) :
    (s.bump r w).draw = s.draw := State.draw_congr (by simp)
@[simp] theorem State.isZ8001_countDown (r : Reg) :
    (s.countDown r).isZ8001 = s.isZ8001 := State.isZ8001_congr (by simp)
@[simp] theorem State.system_countDown (r : Reg) :
    (s.countDown r).system = s.system := State.system_congr (by simp)
@[simp] theorem State.segmented_countDown (r : Reg) :
    (s.countDown r).segmented = s.segmented := State.segmented_congr (by simp) (by simp)
@[simp] theorem State.codeSeg_countDown (r : Reg) :
    (s.countDown r).codeSeg = s.codeSeg := State.codeSeg_congr (by simp) (by simp)
@[simp] theorem State.offReg_countDown (r : Reg) :
    (s.countDown r).offReg = s.offReg := State.offReg_congr (by simp)
@[simp] theorem State.spReg_countDown (r : Reg) :
    (s.countDown r).spReg = s.spReg := State.spReg_congr (by simp)
@[simp] theorem State.regSpace_countDown (r : Reg) :
    (s.countDown r).regSpace = s.regSpace := State.regSpace_congr (by simp) (by simp)
@[simp] theorem State.cell_countDown (r : Reg) :
    (s.countDown r).cell = s.cell := State.cell_congr (by simp)
@[simp] theorem State.absentCell_countDown (r : Reg) :
    (s.countDown r).absentCell = s.absentCell := State.absentCell_congr (by simp)
@[simp] theorem State.accessOk_countDown (r : Reg) :
    (s.countDown r).accessOk = s.accessOk := State.accessOk_congr (by simp)
@[simp] theorem State.peekByte_countDown (r : Reg) :
    (s.countDown r).peekByte = s.peekByte := State.peekByte_congr (by simp) (by simp) (by simp)
@[simp] theorem State.peek_countDown (r : Reg) :
    (s.countDown r).peek = s.peek := State.peek_congr (by simp)
@[simp] theorem State.draw_countDown (r : Reg) :
    (s.countDown r).draw = s.draw := State.draw_congr (by simp)
@[simp] theorem State.isZ8001_poke (z : Size) (sp : Space) (a : Addr) (v : BitVec z.bits) :
    (s.poke z sp a v).isZ8001 = s.isZ8001 := State.isZ8001_congr (by simp)
@[simp] theorem State.system_poke (z : Size) (sp : Space) (a : Addr) (v : BitVec z.bits) :
    (s.poke z sp a v).system = s.system := State.system_congr (by simp)
@[simp] theorem State.segmented_poke (z : Size) (sp : Space) (a : Addr) (v : BitVec z.bits) :
    (s.poke z sp a v).segmented = s.segmented := State.segmented_congr (by simp) (by simp)
@[simp] theorem State.codeSeg_poke (z : Size) (sp : Space) (a : Addr) (v : BitVec z.bits) :
    (s.poke z sp a v).codeSeg = s.codeSeg := State.codeSeg_congr (by simp) (by simp)
@[simp] theorem State.reg_poke (z : Size) (sp : Space) (a : Addr) (v : BitVec z.bits) :
    (s.poke z sp a v).reg = s.reg := State.reg_congr (by simp) (by simp) (by simp) (by simp) (by simp)
@[simp] theorem State.regOf_poke (z : Size) (sp : Space) (a : Addr) (v : BitVec z.bits) :
    (s.poke z sp a v).regOf = s.regOf := State.regOf_congr (by simp)
@[simp] theorem State.addrReg_poke (z : Size) (sp : Space) (a : Addr) (v : BitVec z.bits) :
    (s.poke z sp a v).addrReg = s.addrReg := State.addrReg_congr (by simp) (by simp) (by simp)
@[simp] theorem State.offReg_poke (z : Size) (sp : Space) (a : Addr) (v : BitVec z.bits) :
    (s.poke z sp a v).offReg = s.offReg := State.offReg_congr (by simp)
@[simp] theorem State.spReg_poke (z : Size) (sp : Space) (a : Addr) (v : BitVec z.bits) :
    (s.poke z sp a v).spReg = s.spReg := State.spReg_congr (by simp)
@[simp] theorem State.regSpace_poke (z : Size) (sp : Space) (a : Addr) (v : BitVec z.bits) :
    (s.poke z sp a v).regSpace = s.regSpace := State.regSpace_congr (by simp) (by simp)
@[simp] theorem State.cell_poke (z : Size) (sp : Space) (a : Addr) (v : BitVec z.bits) :
    (s.poke z sp a v).cell = s.cell := State.cell_congr (by simp)
@[simp] theorem State.absentCell_poke (z : Size) (sp : Space) (a : Addr) (v : BitVec z.bits) :
    (s.poke z sp a v).absentCell = s.absentCell := State.absentCell_congr (by simp)
@[simp] theorem State.accessOk_poke (z : Size) (sp : Space) (a : Addr) (v : BitVec z.bits) :
    (s.poke z sp a v).accessOk = s.accessOk := State.accessOk_congr (by simp)
@[simp] theorem State.draw_poke (z : Size) (sp : Space) (a : Addr) (v : BitVec z.bits) :
    (s.poke z sp a v).draw = s.draw := State.draw_congr (by simp)
@[simp] theorem State.isZ8001_push (z : Size) (r : Reg) (v : BitVec z.bits) :
    (s.push z r v).isZ8001 = s.isZ8001 := State.isZ8001_congr (by simp)
@[simp] theorem State.system_push (z : Size) (r : Reg) (v : BitVec z.bits) :
    (s.push z r v).system = s.system := State.system_congr (by simp)
@[simp] theorem State.segmented_push (z : Size) (r : Reg) (v : BitVec z.bits) :
    (s.push z r v).segmented = s.segmented := State.segmented_congr (by simp) (by simp)
@[simp] theorem State.codeSeg_push (z : Size) (r : Reg) (v : BitVec z.bits) :
    (s.push z r v).codeSeg = s.codeSeg := State.codeSeg_congr (by simp) (by simp)
@[simp] theorem State.offReg_push (z : Size) (r : Reg) (v : BitVec z.bits) :
    (s.push z r v).offReg = s.offReg := State.offReg_congr (by simp)
@[simp] theorem State.spReg_push (z : Size) (r : Reg) (v : BitVec z.bits) :
    (s.push z r v).spReg = s.spReg := State.spReg_congr (by simp)
@[simp] theorem State.regSpace_push (z : Size) (r : Reg) (v : BitVec z.bits) :
    (s.push z r v).regSpace = s.regSpace := State.regSpace_congr (by simp) (by simp)
@[simp] theorem State.cell_push (z : Size) (r : Reg) (v : BitVec z.bits) :
    (s.push z r v).cell = s.cell := State.cell_congr (by simp)
@[simp] theorem State.absentCell_push (z : Size) (r : Reg) (v : BitVec z.bits) :
    (s.push z r v).absentCell = s.absentCell := State.absentCell_congr (by simp)
@[simp] theorem State.accessOk_push (z : Size) (r : Reg) (v : BitVec z.bits) :
    (s.push z r v).accessOk = s.accessOk := State.accessOk_congr (by simp)
@[simp] theorem State.draw_push (z : Size) (r : Reg) (v : BitVec z.bits) :
    (s.push z r v).draw = s.draw := State.draw_congr (by simp)
@[simp] theorem State.isZ8001_setFlags (f : Flags) :
    (s.setFlags f).isZ8001 = s.isZ8001 := State.isZ8001_congr (by simp)
@[simp] theorem State.codeSeg_setFlags (f : Flags) :
    (s.setFlags f).codeSeg = s.codeSeg := State.codeSeg_congr (by simp) (by simp)
@[simp] theorem State.reg_setFlags (f : Flags) :
    (s.setFlags f).reg = s.reg := State.reg_congr (by simp) (by simp) (by simp) (by simp) (by simp)
@[simp] theorem State.regOf_setFlags (f : Flags) :
    (s.setFlags f).regOf = s.regOf := State.regOf_congr (by simp)
@[simp] theorem State.addrReg_setFlags (f : Flags) :
    (s.setFlags f).addrReg = s.addrReg := State.addrReg_congr (by simp) (by simp) (by simp)
@[simp] theorem State.offReg_setFlags (f : Flags) :
    (s.setFlags f).offReg = s.offReg := State.offReg_congr (by simp)
@[simp] theorem State.spReg_setFlags (f : Flags) :
    (s.setFlags f).spReg = s.spReg := State.spReg_congr (by simp)
@[simp] theorem State.regSpace_setFlags (f : Flags) :
    (s.setFlags f).regSpace = s.regSpace := State.regSpace_congr (by simp) (by simp)
@[simp] theorem State.cell_setFlags (f : Flags) :
    (s.setFlags f).cell = s.cell := State.cell_congr (by simp)
@[simp] theorem State.absentCell_setFlags (f : Flags) :
    (s.setFlags f).absentCell = s.absentCell := State.absentCell_congr (by simp)
@[simp] theorem State.accessOk_setFlags (f : Flags) :
    (s.setFlags f).accessOk = s.accessOk := State.accessOk_congr (by simp)
@[simp] theorem State.peekByte_setFlags (f : Flags) :
    (s.setFlags f).peekByte = s.peekByte := State.peekByte_congr (by simp) (by simp) (by simp)
@[simp] theorem State.peek_setFlags (f : Flags) :
    (s.setFlags f).peek = s.peek := State.peek_congr (by simp)
@[simp] theorem State.draw_setFlags (f : Flags) :
    (s.setFlags f).draw = s.draw := State.draw_congr (by simp)
@[simp] theorem State.isZ8001_advance (n : Nat) :
    (s.advance n).isZ8001 = s.isZ8001 := State.isZ8001_congr (by simp)
@[simp] theorem State.system_advance (n : Nat) :
    (s.advance n).system = s.system := State.system_congr (by simp)
@[simp] theorem State.segmented_advance (n : Nat) :
    (s.advance n).segmented = s.segmented := State.segmented_congr (by simp) (by simp)
@[simp] theorem State.codeSeg_advance (n : Nat) :
    (s.advance n).codeSeg = s.codeSeg := State.codeSeg_congr (by simp) (by simp)
@[simp] theorem State.reg_advance (n : Nat) :
    (s.advance n).reg = s.reg := State.reg_congr (by simp) (by simp) (by simp) (by simp) (by simp)
@[simp] theorem State.regOf_advance (n : Nat) :
    (s.advance n).regOf = s.regOf := State.regOf_congr (by simp)
@[simp] theorem State.addrReg_advance (n : Nat) :
    (s.advance n).addrReg = s.addrReg := State.addrReg_congr (by simp) (by simp) (by simp)
@[simp] theorem State.offReg_advance (n : Nat) :
    (s.advance n).offReg = s.offReg := State.offReg_congr (by simp)
@[simp] theorem State.spReg_advance (n : Nat) :
    (s.advance n).spReg = s.spReg := State.spReg_congr (by simp)
@[simp] theorem State.regSpace_advance (n : Nat) :
    (s.advance n).regSpace = s.regSpace := State.regSpace_congr (by simp) (by simp)
@[simp] theorem State.cell_advance (n : Nat) :
    (s.advance n).cell = s.cell := State.cell_congr (by simp)
@[simp] theorem State.absentCell_advance (n : Nat) :
    (s.advance n).absentCell = s.absentCell := State.absentCell_congr (by simp)
@[simp] theorem State.accessOk_advance (n : Nat) :
    (s.advance n).accessOk = s.accessOk := State.accessOk_congr (by simp)
@[simp] theorem State.peekByte_advance (n : Nat) :
    (s.advance n).peekByte = s.peekByte := State.peekByte_congr (by simp) (by simp) (by simp)
@[simp] theorem State.peek_advance (n : Nat) :
    (s.advance n).peek = s.peek := State.peek_congr (by simp)
@[simp] theorem State.draw_advance (n : Nat) :
    (s.advance n).draw = s.draw := State.draw_congr (by simp)
@[simp] theorem State.isZ8001_jumpBy (w : Word) :
    (s.jumpBy w).isZ8001 = s.isZ8001 := State.isZ8001_congr (by simp)
@[simp] theorem State.system_jumpBy (w : Word) :
    (s.jumpBy w).system = s.system := State.system_congr (by simp)
@[simp] theorem State.segmented_jumpBy (w : Word) :
    (s.jumpBy w).segmented = s.segmented := State.segmented_congr (by simp) (by simp)
@[simp] theorem State.codeSeg_jumpBy (w : Word) :
    (s.jumpBy w).codeSeg = s.codeSeg := State.codeSeg_congr (by simp) (by simp)
@[simp] theorem State.reg_jumpBy (w : Word) :
    (s.jumpBy w).reg = s.reg := State.reg_congr (by simp) (by simp) (by simp) (by simp) (by simp)
@[simp] theorem State.regOf_jumpBy (w : Word) :
    (s.jumpBy w).regOf = s.regOf := State.regOf_congr (by simp)
@[simp] theorem State.addrReg_jumpBy (w : Word) :
    (s.jumpBy w).addrReg = s.addrReg := State.addrReg_congr (by simp) (by simp) (by simp)
@[simp] theorem State.offReg_jumpBy (w : Word) :
    (s.jumpBy w).offReg = s.offReg := State.offReg_congr (by simp)
@[simp] theorem State.spReg_jumpBy (w : Word) :
    (s.jumpBy w).spReg = s.spReg := State.spReg_congr (by simp)
@[simp] theorem State.regSpace_jumpBy (w : Word) :
    (s.jumpBy w).regSpace = s.regSpace := State.regSpace_congr (by simp) (by simp)
@[simp] theorem State.cell_jumpBy (w : Word) :
    (s.jumpBy w).cell = s.cell := State.cell_congr (by simp)
@[simp] theorem State.absentCell_jumpBy (w : Word) :
    (s.jumpBy w).absentCell = s.absentCell := State.absentCell_congr (by simp)
@[simp] theorem State.accessOk_jumpBy (w : Word) :
    (s.jumpBy w).accessOk = s.accessOk := State.accessOk_congr (by simp)
@[simp] theorem State.peekByte_jumpBy (w : Word) :
    (s.jumpBy w).peekByte = s.peekByte := State.peekByte_congr (by simp) (by simp) (by simp)
@[simp] theorem State.peek_jumpBy (w : Word) :
    (s.jumpBy w).peek = s.peek := State.peek_congr (by simp)
@[simp] theorem State.draw_jumpBy (w : Word) :
    (s.jumpBy w).draw = s.draw := State.draw_congr (by simp)
@[simp] theorem State.isZ8001_endBlock (b c : Bool) :
    (s.endBlock b c).isZ8001 = s.isZ8001 := State.isZ8001_congr (by simp)
@[simp] theorem State.system_endBlock (b c : Bool) :
    (s.endBlock b c).system = s.system := State.system_congr (by simp)
@[simp] theorem State.segmented_endBlock (b c : Bool) :
    (s.endBlock b c).segmented = s.segmented := State.segmented_congr (by simp) (by simp)
@[simp] theorem State.codeSeg_endBlock (b c : Bool) :
    (s.endBlock b c).codeSeg = s.codeSeg := State.codeSeg_congr (by simp) (by simp)
@[simp] theorem State.reg_endBlock (b c : Bool) :
    (s.endBlock b c).reg = s.reg := State.reg_congr (by simp) (by simp) (by simp) (by simp) (by simp)
@[simp] theorem State.regOf_endBlock (b c : Bool) :
    (s.endBlock b c).regOf = s.regOf := State.regOf_congr (by simp)
@[simp] theorem State.addrReg_endBlock (b c : Bool) :
    (s.endBlock b c).addrReg = s.addrReg := State.addrReg_congr (by simp) (by simp) (by simp)
@[simp] theorem State.offReg_endBlock (b c : Bool) :
    (s.endBlock b c).offReg = s.offReg := State.offReg_congr (by simp)
@[simp] theorem State.spReg_endBlock (b c : Bool) :
    (s.endBlock b c).spReg = s.spReg := State.spReg_congr (by simp)
@[simp] theorem State.regSpace_endBlock (b c : Bool) :
    (s.endBlock b c).regSpace = s.regSpace := State.regSpace_congr (by simp) (by simp)
@[simp] theorem State.cell_endBlock (b c : Bool) :
    (s.endBlock b c).cell = s.cell := State.cell_congr (by simp)
@[simp] theorem State.absentCell_endBlock (b c : Bool) :
    (s.endBlock b c).absentCell = s.absentCell := State.absentCell_congr (by simp)
@[simp] theorem State.accessOk_endBlock (b c : Bool) :
    (s.endBlock b c).accessOk = s.accessOk := State.accessOk_congr (by simp)
@[simp] theorem State.peekByte_endBlock (b c : Bool) :
    (s.endBlock b c).peekByte = s.peekByte := State.peekByte_congr (by simp) (by simp) (by simp)
@[simp] theorem State.peek_endBlock (b c : Bool) :
    (s.endBlock b c).peek = s.peek := State.peek_congr (by simp)
@[simp] theorem State.draw_endBlock (b c : Bool) :
    (s.endBlock b c).draw = s.draw := State.draw_congr (by simp)
@[simp] theorem State.isZ8001_setPc (a : Addr) :
    (s.setPc a).isZ8001 = s.isZ8001 := State.isZ8001_congr (by simp)
@[simp] theorem State.system_setPc (a : Addr) :
    (s.setPc a).system = s.system := State.system_congr (by simp)
@[simp] theorem State.segmented_setPc (a : Addr) :
    (s.setPc a).segmented = s.segmented := State.segmented_congr (by simp) (by simp)
@[simp] theorem State.reg_setPc (a : Addr) :
    (s.setPc a).reg = s.reg := State.reg_congr (by simp) (by simp) (by simp) (by simp) (by simp)
@[simp] theorem State.regOf_setPc (a : Addr) :
    (s.setPc a).regOf = s.regOf := State.regOf_congr (by simp)
@[simp] theorem State.offReg_setPc (a : Addr) :
    (s.setPc a).offReg = s.offReg := State.offReg_congr (by simp)
@[simp] theorem State.spReg_setPc (a : Addr) :
    (s.setPc a).spReg = s.spReg := State.spReg_congr (by simp)
@[simp] theorem State.regSpace_setPc (a : Addr) :
    (s.setPc a).regSpace = s.regSpace := State.regSpace_congr (by simp) (by simp)
@[simp] theorem State.cell_setPc (a : Addr) :
    (s.setPc a).cell = s.cell := State.cell_congr (by simp)
@[simp] theorem State.absentCell_setPc (a : Addr) :
    (s.setPc a).absentCell = s.absentCell := State.absentCell_congr (by simp)
@[simp] theorem State.accessOk_setPc (a : Addr) :
    (s.setPc a).accessOk = s.accessOk := State.accessOk_congr (by simp)
@[simp] theorem State.peekByte_setPc (a : Addr) :
    (s.setPc a).peekByte = s.peekByte := State.peekByte_congr (by simp) (by simp) (by simp)
@[simp] theorem State.peek_setPc (a : Addr) :
    (s.setPc a).peek = s.peek := State.peek_congr (by simp)
@[simp] theorem State.draw_setPc (a : Addr) :
    (s.setPc a).draw = s.draw := State.draw_congr (by simp)
@[simp] theorem State.isZ8001_ioRead (b : Bool) (p : Word) (z : Size) :
    (s.ioRead b p z).isZ8001 = s.isZ8001 := State.isZ8001_congr (by simp)
@[simp] theorem State.system_ioRead (b : Bool) (p : Word) (z : Size) :
    (s.ioRead b p z).system = s.system := State.system_congr (by simp)
@[simp] theorem State.segmented_ioRead (b : Bool) (p : Word) (z : Size) :
    (s.ioRead b p z).segmented = s.segmented := State.segmented_congr (by simp) (by simp)
@[simp] theorem State.codeSeg_ioRead (b : Bool) (p : Word) (z : Size) :
    (s.ioRead b p z).codeSeg = s.codeSeg := State.codeSeg_congr (by simp) (by simp)
@[simp] theorem State.reg_ioRead (b : Bool) (p : Word) (z : Size) :
    (s.ioRead b p z).reg = s.reg := State.reg_congr (by simp) (by simp) (by simp) (by simp) (by simp)
@[simp] theorem State.regOf_ioRead (b : Bool) (p : Word) (z : Size) :
    (s.ioRead b p z).regOf = s.regOf := State.regOf_congr (by simp)
@[simp] theorem State.addrReg_ioRead (b : Bool) (p : Word) (z : Size) :
    (s.ioRead b p z).addrReg = s.addrReg := State.addrReg_congr (by simp) (by simp) (by simp)
@[simp] theorem State.offReg_ioRead (b : Bool) (p : Word) (z : Size) :
    (s.ioRead b p z).offReg = s.offReg := State.offReg_congr (by simp)
@[simp] theorem State.spReg_ioRead (b : Bool) (p : Word) (z : Size) :
    (s.ioRead b p z).spReg = s.spReg := State.spReg_congr (by simp)
@[simp] theorem State.regSpace_ioRead (b : Bool) (p : Word) (z : Size) :
    (s.ioRead b p z).regSpace = s.regSpace := State.regSpace_congr (by simp) (by simp)
@[simp] theorem State.cell_ioRead (b : Bool) (p : Word) (z : Size) :
    (s.ioRead b p z).cell = s.cell := State.cell_congr (by simp)
@[simp] theorem State.absentCell_ioRead (b : Bool) (p : Word) (z : Size) :
    (s.ioRead b p z).absentCell = s.absentCell := State.absentCell_congr (by simp)
@[simp] theorem State.accessOk_ioRead (b : Bool) (p : Word) (z : Size) :
    (s.ioRead b p z).accessOk = s.accessOk := State.accessOk_congr (by simp)
@[simp] theorem State.peekByte_ioRead (b : Bool) (p : Word) (z : Size) :
    (s.ioRead b p z).peekByte = s.peekByte := State.peekByte_congr (by simp) (by simp) (by simp)
@[simp] theorem State.peek_ioRead (b : Bool) (p : Word) (z : Size) :
    (s.ioRead b p z).peek = s.peek := State.peek_congr (by simp)
@[simp] theorem State.draw_ioRead (b : Bool) (p : Word) (z : Size) :
    (s.ioRead b p z).draw = s.draw := State.draw_congr (by simp)
@[simp] theorem State.isZ8001_ioWrite (b : Bool) (p : Word) (z : Size) (v : BitVec z.bits) :
    (s.ioWrite b p z v).isZ8001 = s.isZ8001 := State.isZ8001_congr (by simp)
@[simp] theorem State.system_ioWrite (b : Bool) (p : Word) (z : Size) (v : BitVec z.bits) :
    (s.ioWrite b p z v).system = s.system := State.system_congr (by simp)
@[simp] theorem State.segmented_ioWrite (b : Bool) (p : Word) (z : Size) (v : BitVec z.bits) :
    (s.ioWrite b p z v).segmented = s.segmented := State.segmented_congr (by simp) (by simp)
@[simp] theorem State.codeSeg_ioWrite (b : Bool) (p : Word) (z : Size) (v : BitVec z.bits) :
    (s.ioWrite b p z v).codeSeg = s.codeSeg := State.codeSeg_congr (by simp) (by simp)
@[simp] theorem State.reg_ioWrite (b : Bool) (p : Word) (z : Size) (v : BitVec z.bits) :
    (s.ioWrite b p z v).reg = s.reg := State.reg_congr (by simp) (by simp) (by simp) (by simp) (by simp)
@[simp] theorem State.regOf_ioWrite (b : Bool) (p : Word) (z : Size) (v : BitVec z.bits) :
    (s.ioWrite b p z v).regOf = s.regOf := State.regOf_congr (by simp)
@[simp] theorem State.addrReg_ioWrite (b : Bool) (p : Word) (z : Size) (v : BitVec z.bits) :
    (s.ioWrite b p z v).addrReg = s.addrReg := State.addrReg_congr (by simp) (by simp) (by simp)
@[simp] theorem State.offReg_ioWrite (b : Bool) (p : Word) (z : Size) (v : BitVec z.bits) :
    (s.ioWrite b p z v).offReg = s.offReg := State.offReg_congr (by simp)
@[simp] theorem State.spReg_ioWrite (b : Bool) (p : Word) (z : Size) (v : BitVec z.bits) :
    (s.ioWrite b p z v).spReg = s.spReg := State.spReg_congr (by simp)
@[simp] theorem State.regSpace_ioWrite (b : Bool) (p : Word) (z : Size) (v : BitVec z.bits) :
    (s.ioWrite b p z v).regSpace = s.regSpace := State.regSpace_congr (by simp) (by simp)
@[simp] theorem State.cell_ioWrite (b : Bool) (p : Word) (z : Size) (v : BitVec z.bits) :
    (s.ioWrite b p z v).cell = s.cell := State.cell_congr (by simp)
@[simp] theorem State.absentCell_ioWrite (b : Bool) (p : Word) (z : Size) (v : BitVec z.bits) :
    (s.ioWrite b p z v).absentCell = s.absentCell := State.absentCell_congr (by simp)
@[simp] theorem State.accessOk_ioWrite (b : Bool) (p : Word) (z : Size) (v : BitVec z.bits) :
    (s.ioWrite b p z v).accessOk = s.accessOk := State.accessOk_congr (by simp)
@[simp] theorem State.peekByte_ioWrite (b : Bool) (p : Word) (z : Size) (v : BitVec z.bits) :
    (s.ioWrite b p z v).peekByte = s.peekByte := State.peekByte_congr (by simp) (by simp) (by simp)
@[simp] theorem State.peek_ioWrite (b : Bool) (p : Word) (z : Size) (v : BitVec z.bits) :
    (s.ioWrite b p z v).peek = s.peek := State.peek_congr (by simp)
@[simp] theorem State.draw_ioWrite (b : Bool) (p : Word) (z : Size) (v : BitVec z.bits) :
    (s.ioWrite b p z v).draw = s.draw := State.draw_congr (by simp)

end Sys2Proof.Machine
end

