-- ==== Sys2Proof/Laws/Registers.lean ====
section
/-! SUPPORT. Registers: reading after writing, for each operand size, and what a register write leaves alone. -/

namespace Sys2Proof.Machine

variable (s : State)

/-- A word register after a write of one. -/
theorem State.reg_setReg (r q : Reg) (v : Word) : (s.setReg r v).reg q = if q = r then v else s.reg q := by
  have hn : ∀ k : Reg, (s.setReg r v).namesNormal15 k = s.namesNormal15 k := fun k => by
    simp only [State.namesNormal15, State.system_setReg]
  have hm : ∀ k : Reg, (s.setReg r v).namesNormal14 k = s.namesNormal14 k := fun k => by
    simp only [State.namesNormal14, State.system_setReg, State.isZ8001_setReg]
  simp only [State.reg, hn, hm]
  rcases eq_or_ne q r with rfl | hq
  · by_cases h5 : s.namesNormal15 q <;> by_cases h4 : s.namesNormal14 q <;> simp [State.setReg, h5, h4]
  · have hne : r.toNat ≠ q.toNat := fun h => hq (BitVec.eq_of_toNat_eq h.symm)
    by_cases h5 : s.namesNormal15 q
    · have : s.namesNormal15 r = false := by
        simp only [State.namesNormal15, Bool.and_eq_true, beq_iff_eq] at h5
        have : r ≠ 15 := fun h => hq (h5.1.trans h.symm)
        simp only [State.namesNormal15, beq_eq_false_iff_ne.mpr this, Bool.false_and]
      simp [h5, this, hq, State.setReg]
    · by_cases h4 : s.namesNormal14 q
      · have : s.namesNormal14 r = false := by
          simp only [State.namesNormal14, Bool.and_eq_true, beq_iff_eq] at h4
          have : r ≠ 14 := fun h => hq (h4.1.1.trans h.symm)
          simp only [State.namesNormal14, beq_eq_false_iff_ne.mpr this, Bool.false_and]
        simp [h5, h4, this, hq, State.setReg]
      · by_cases hr : s.namesNormal15 r || s.namesNormal14 r <;>
          simp [h5, h4, hq, State.setReg, hr, hne]

@[simp] theorem State.reg_setReg_same (r : Reg) (v : Word) : (s.setReg r v).reg r = v := by
  simp [State.reg_setReg]

theorem State.reg_setReg_other {r q : Reg} (h : q ≠ r) (v : Word) : (s.setReg r v).reg q = s.reg q := by
  simp [State.reg_setReg, h]

/-- Byte registers k and j share a word register exactly when they agree in their low three bits (R22). -/
theorem byteReg_cases (k j : Reg) (h : k &&& 7 = j &&& 7) : k = j ∨ k.getLsbD 3 = !j.getLsbD 3 := by
  revert k j
  decide

theorem highByte_append (a b : Byte) : highByte (a ++ b) = a := by
  refine BitVec.eq_of_getLsbD_eq fun i hi => ?_
  have h := BitVec.getLsbD_append (x := a) (y := b) (i := 8 + i)
  rw [highByte, BitVec.getLsbD_extractLsb']
  simp only [hi, decide_true, Bool.true_and]
  exact h.trans (by simp)

theorem lowByte_append (a b : Byte) : lowByte (a ++ b) = b := by
  refine BitVec.eq_of_getLsbD_eq fun i hi => ?_
  have h := BitVec.getLsbD_append (x := a) (y := b) (i := 0 + i)
  rw [lowByte, BitVec.getLsbD_extractLsb']
  simp only [hi, decide_true, Bool.true_and]
  exact h.trans (by simp [hi])

/-- A byte register after a write of one: the other byte of the word stays (R22). -/
theorem State.regByte_setRegByte (k j : Reg) (v : Byte) :
    (s.setRegByte k v).regByte j = if j = k then v else s.regByte j := by
  simp only [State.regByte, State.setRegByte, State.reg_setReg]
  rcases eq_or_ne j k with rfl | hj
  · by_cases h : j.getLsbD 3 <;> simp only [h, if_true, if_false, Bool.false_eq_true, highByte_append, lowByte_append]
  · by_cases hw : j &&& 7 = k &&& 7
    · rcases byteReg_cases j k hw with rfl | h3
      · exact absurd rfl hj
      · by_cases h : k.getLsbD 3 <;>
          simp only [hw, h3, h, hj, if_true, if_false, Bool.not_true, Bool.not_false, Bool.false_eq_true,
            highByte_append, lowByte_append]
    · simp only [hw, hj, if_false]

theorem State.reg_setRegByte_other {k q : Reg} (h : q ≠ k &&& 7) (v : Byte) :
    (s.setRegByte k v).reg q = s.reg q := by
  simp only [State.setRegByte, State.reg_setReg, h, if_false]

theorem reg_succ_ne (r : Reg) : r + 1 ≠ r := by
  revert r
  decide

theorem State.reg_setRegLong (r q : Reg) (v : Long) :
    (s.setRegLong r v).reg q =
      if q = r + 1 then v.extractLsb' 0 16 else if q = r then v.extractLsb' 16 16 else s.reg q := by
  simp only [State.setRegLong, State.reg_setReg]

theorem long_halves (v : Long) : (v.extractLsb' 16 16 ++ v.extractLsb' 0 16 : Long) = v := by
  ext i hi
  simp only [BitVec.getElem_append, BitVec.getElem_extractLsb']
  split
  · simp [BitVec.getLsbD_eq_getElem hi]
  · next h => simp [show 16 + (i - 16) = i by omega, BitVec.getLsbD_eq_getElem hi]

@[simp] theorem State.regLong_setRegLong (r : Reg) (v : Long) : (s.setRegLong r v).regLong r = v := by
  simp only [State.regLong, State.reg_setRegLong, (reg_succ_ne r).symm, if_true, if_false]
  exact long_halves v

theorem quad_halves (v : Quad) : (v.extractLsb' 32 32 ++ v.extractLsb' 0 32 : Quad) = v := by
  ext i hi
  simp only [BitVec.getElem_append, BitVec.getElem_extractLsb']
  split
  · simp [BitVec.getLsbD_eq_getElem hi]
  · next h => simp [show 32 + (i - 32) = i by omega, BitVec.getLsbD_eq_getElem hi]

/-- The four registers of a quadruple are different (R23). -/
theorem reg_quad_ne (r : Reg) : r + 2 ≠ r ∧ r + 2 ≠ r + 1 ∧ r + 2 + 1 ≠ r ∧ r + 2 + 1 ≠ r + 1 := by
  revert r
  decide

@[simp] theorem State.regQuad_setRegQuad (r : Reg) (v : Quad) : (s.setRegQuad r v).regQuad r = v := by
  have hlow : (s.setRegQuad r v).regLong (r + 2) = v.extractLsb' 0 32 := by simp [State.setRegQuad]
  have hhigh : (s.setRegQuad r v).regLong r = v.extractLsb' 32 32 := by
    obtain ⟨h1, h2, h3, h4⟩ := reg_quad_ne r
    have : (s.setRegQuad r v).regLong r = (s.setRegLong r (v.extractLsb' 32 32)).regLong r := by
      simp only [State.regLong, State.setRegQuad, State.reg_setRegLong (s.setRegLong r _), h1.symm, h2.symm, h3.symm,
        h4.symm, if_false]
    simp [this]
  rw [State.regQuad, hlow, hhigh]
  exact quad_halves v

theorem State.reg_setRegQuad_other {r q : Reg} (h : q ∉ quadRegs r) (v : Quad) :
    (s.setRegQuad r v).reg q = s.reg q := by
  simp only [quadRegs, List.mem_cons, List.not_mem_nil, or_false, not_or] at h
  simp only [State.setRegQuad, State.reg_setRegLong, h, if_false]

/-- A register operand after it is written. -/
@[simp] theorem State.regOf_setRegOf (z : Size) (r : Reg) (v : BitVec z.bits) : (s.setRegOf z r v).regOf z r = v := by
  cases z
  · simp [State.regOf, State.setRegOf, State.regByte_setRegByte]
  · simp [State.regOf, State.setRegOf]
  · simp [State.regOf, State.setRegOf]

/-- The word registers outside a register operand keep their values. -/
theorem State.reg_setRegOf_other {z : Size} {r q : Reg} (h : q ∉ wordRegs z r) (v : BitVec z.bits) :
    (s.setRegOf z r v).reg q = s.reg q := by
  cases z
  · exact State.reg_setRegByte_other s (by simpa [wordRegs] using h) v
  · exact State.reg_setReg_other s (by simpa [wordRegs] using h) v
  · simp only [wordRegs, List.mem_cons, List.not_mem_nil, or_false, not_or] at h
    simp only [State.setRegOf, State.reg_setRegLong, h, if_false]

/-! ### The stack pointer copies of the other mode -/

@[simp] theorem State.otherCopies_setReg (r : Reg) (v : Word) : (s.setReg r v).otherCopies = s.otherCopies := by
  simp only [State.otherCopies, State.system_setReg, State.isZ8001_setReg]
  by_cases hs : s.system
  · simp [hs, State.setReg, State.namesNormal15, State.namesNormal14]
  · have h15 : r.toNat = 15 → r = 15 := fun h => BitVec.eq_of_toNat_eq h
    have h14 : r.toNat = 14 → r = 14 := fun h => BitVec.eq_of_toNat_eq h
    by_cases hz : s.isZ8001 <;> by_cases h5 : r = 15 <;> by_cases h4 : r = 14 <;>
      simp_all [State.setReg, State.namesNormal15, State.namesNormal14, Vector.getElem_set]

end Sys2Proof.Machine
end

