-- ==== Sys2Proof/Laws/Peek.lean ====
section
/-! SUPPORT. Memory through addresses: what a store leaves readable, for bytes, words and long words. -/

namespace Sys2Proof.Machine

variable (s : State)

/-! ### Cells of neighbouring addresses -/

/-- Where the map has no windows an address of a space and a segment is its cell's only one. -/
theorem State.cell_inj {sp : Space} {g : BitVec 7} {x y : Word} (hw : s.platform.memoryMap.windows = [])
    (h : s.cell sp ⟨g, x⟩ = s.cell sp ⟨g, y⟩) : x = y := by
  simp only [State.cell, cellOf, hw, List.find?_nil, Addr.linear] at h
  exact BitVec.eq_of_toNat_eq (by omega)

theorem Addr.even_off (a : Addr) : a.even.off.toNat = a.off.toNat / 2 * 2 := by
  have h : a.off &&& 0xFFFE = (a.off >>> 1) <<< 1 := by
    ext i hi
    interval_cases i <;> simp
  have hlt := a.off.isLt
  have h' : a.even.off.toNat = ((a.off >>> 1) <<< 1).toNat := congrArg BitVec.toNat h
  simp only [BitVec.toNat_shiftLeft, BitVec.toNat_ushiftRight, Nat.shiftLeft_eq, Nat.shiftRight_eq_div_pow] at h'
  omega

theorem Addr.add_off (a : Addr) (d : Word) : (a.add d).off.toNat = (a.off.toNat + d.toNat) % 65536 := by
  simp [Addr.add, BitVec.toNat_add]

theorem State.cell_ne {sp : Space} {a b : Addr} (hw : s.platform.memoryMap.windows = []) (hs : a.seg = b.seg)
    (h : a.off.toNat ≠ b.off.toNat) : s.cell sp a ≠ s.cell sp b := by
  obtain ⟨g, x⟩ := a
  obtain ⟨g', y⟩ := b
  obtain rfl : g = g' := hs
  exact fun e => h (congrArg BitVec.toNat (s.cell_inj hw e))

/-- Where the map has no windows the cells of `n` words in sequence are all different. -/
theorem State.nodup_wordCells (hw : s.platform.memoryMap.windows = []) (sp : Space) (a : Addr) {n : Nat}
    (hn : n ≤ 32768) : (s.wordCells sp a n).Nodup := by
  have hlt := a.off.isLt
  have h1 : (1 : Word).toNat = 1 := rfl
  refine List.nodup_flatMap.mpr ⟨fun k _ => ?_, ?_⟩
  · simp only [State.cells, List.nodup_cons, List.mem_singleton, List.not_mem_nil, not_false_iff, List.nodup_nil,
      and_true]
    refine s.cell_ne hw rfl ?_
    simp only [Addr.add_off, Addr.even_off, h1]
    omega
  · refine List.Pairwise.imp_of_mem ?_ List.nodup_range
    intro j k hj hk hjk x hx hy
    simp only [List.mem_range] at hj hk
    simp only [State.cells, List.mem_cons, List.not_mem_nil, or_false] at hx hy
    rcases hx with rfl | rfl <;> rcases hy with h | h <;> revert h <;>
      refine s.cell_ne hw rfl ?_ <;>
      simp only [Addr.add_off, Addr.even_off, h1, BitVec.toNat_ofNat] <;> omega

/-- Where the map has no windows the bytes of an operand have cells of their own. -/
theorem State.nodup_cells (hw : s.platform.memoryMap.windows = []) (z : Size) (sp : Space) (a : Addr) :
    (s.cells sp a z).Nodup := by
  have h0 : a.add 0#16 = a := by simp [Addr.add]
  cases z with
  | b => simp [State.cells]
  | w => simpa [State.wordCells, h0] using s.nodup_wordCells hw sp a (n := 1) (by omega)
  | l => simpa [State.wordCells, h0, State.cells, List.range_succ] using s.nodup_wordCells hw sp a (n := 2) (by omega)

/-! ### Reading after storing -/

theorem State.peekByte_pokeByte (sp sp' : Space) (a a' : Addr) (v : Byte) :
    (s.pokeByte sp a v).peekByte sp' a' =
      if s.cell sp' a' = s.cell sp a ∧ s.absentCell (s.cell sp a) = false then v else s.peekByte sp' a' := by
  have hc : (s.pokeByte sp a v).cell = s.cell := State.cell_congr (State.pokeByte_platform s sp a v)
  have ha : (s.pokeByte sp a v).absentCell = s.absentCell := State.absentCell_congr (State.pokeByte_platform s sp a v)
  have hd : (s.pokeByte sp a v).draw = s.draw := State.draw_congr (State.pokeByte_tick s sp a v)
  simp only [State.peekByte, hc, ha, hd]
  by_cases hk : s.absentCell (s.cell sp a) = true
  · simp [State.pokeByte, hk]
  · have hk' : s.absentCell (s.cell sp a) = false := by simpa using hk
    simp only [State.pokeByte, hk', Bool.false_eq_true, if_false, Memory.read_write, and_true]
    by_cases hj : s.cell sp' a' = s.cell sp a
    · simp [hj, hk']
    · simp [hj]

/-- A byte outside a stored byte reads as before. -/
theorem State.peekByte_pokeByte_other {sp sp' : Space} {a a' : Addr} (h : s.cell sp' a' ≠ s.cell sp a) (v : Byte) :
    (s.pokeByte sp a v).peekByte sp' a' = s.peekByte sp' a' := by
  simp [State.peekByte_pokeByte, h]

theorem State.cell_pokeWord (sp : Space) (a : Addr) (v : Word) : (s.pokeWord sp a v).cell = s.cell :=
  State.cell_congr (State.pokeWord_platform s sp a v)

theorem State.absentCell_pokeWord (sp : Space) (a : Addr) (v : Word) : (s.pokeWord sp a v).absentCell = s.absentCell :=
  State.absentCell_congr (State.pokeWord_platform s sp a v)

theorem State.peekByte_pokeWord_other {sp sp' : Space} {a a' : Addr} (h0 : s.cell sp' a' ≠ s.cell sp a.even)
    (h1 : s.cell sp' a' ≠ s.cell sp (a.even.add 1)) (v : Word) :
    (s.pokeWord sp a v).peekByte sp' a' = s.peekByte sp' a' := by
  have hc : (s.pokeByte sp a.even (highByte v)).cell = s.cell :=
    State.cell_congr (State.pokeByte_platform s sp a.even _)
  rw [State.pokeWord, State.peekByte_pokeByte_other _ (by rw [hc]; exact h1), State.peekByte_pokeByte_other _ h0]

theorem word_halves (v : Word) : (highByte v ++ lowByte v : Word) = v := by
  refine BitVec.eq_of_getLsbD_eq fun i hi => ?_
  have h := BitVec.getLsbD_append (x := highByte v) (y := lowByte v) (i := i)
  refine h.trans ?_
  split
  · next hl => simp only [lowByte, BitVec.getLsbD_extractLsb', hl, decide_true, Bool.true_and, Nat.zero_add]
  · next hl =>
    have : i - 8 < 8 := by omega
    simp only [highByte, BitVec.getLsbD_extractLsb', this, decide_true, Bool.true_and]
    congr 1
    omega

/-- A word reads back as it was stored, where storage answers it (R75). -/
theorem State.peekWord_pokeWord {sp : Space} {a : Addr} (v : Word) (h : Present s .w sp a) :
    (s.pokeWord sp a v).peekWord sp a = v := by
  have h0 : s.absentCell (s.cell sp a.even) = false := h.1 _ (by simp [State.cells])
  have h1 : s.absentCell (s.cell sp (a.even.add 1)) = false := h.1 _ (by simp [State.cells])
  have hne : s.cell sp a.even ≠ s.cell sp (a.even.add 1) := by simpa [State.cells] using h.2
  have hc : (s.pokeByte sp a.even (highByte v)).cell = s.cell :=
    State.cell_congr (State.pokeByte_platform s sp a.even _)
  have ha : (s.pokeByte sp a.even (highByte v)).absentCell = s.absentCell :=
    State.absentCell_congr (State.pokeByte_platform s sp a.even _)
  have hlo : (s.pokeWord sp a v).peekByte sp (a.even.add 1) = lowByte v := by
    simp only [State.pokeWord, State.peekByte_pokeByte, hc, ha, h1, and_self, if_true]
  have hhi : (s.pokeWord sp a v).peekByte sp a.even = highByte v := by
    simp only [State.pokeWord, State.peekByte_pokeByte, hc, h0, hne, false_and, and_self, if_false,
      if_true]
  rw [State.peekWord, hhi, hlo]
  exact word_halves v

/-- A word outside a stored word reads as before. -/
theorem State.peekWord_pokeWord_other {sp sp' : Space} {a a' : Addr} (v : Word)
    (h : s.cell sp' a'.even ≠ s.cell sp a.even ∧ s.cell sp' a'.even ≠ s.cell sp (a.even.add 1)
      ∧ s.cell sp' (a'.even.add 1) ≠ s.cell sp a.even ∧ s.cell sp' (a'.even.add 1) ≠ s.cell sp (a.even.add 1)) :
    (s.pokeWord sp a v).peekWord sp' a' = s.peekWord sp' a' := by
  rw [State.peekWord, State.peekByte_pokeWord_other s h.1 h.2.1, State.peekByte_pokeWord_other s h.2.2.1 h.2.2.2,
    State.peekWord]

/-- A long word reads back as it was stored, where storage answers it (R76). -/
theorem State.peekLong_pokeLong {sp : Space} {a : Addr} (v : Long) (h : Present s .l sp a) :
    (s.pokeLong sp a v).peekLong sp a = v := by
  obtain ⟨hp, hd⟩ := h
  simp only [State.cells, List.nodup_cons, List.mem_cons, List.not_mem_nil, or_false, not_or, not_false_iff,
    List.nodup_nil, and_true] at hd
  obtain ⟨⟨n01, n02, n03⟩, ⟨n12, n13⟩, n23⟩ := hd
  have hc := s.cell_pokeWord sp a (v.extractLsb' 16 16)
  have ha := s.absentCell_pokeWord sp a (v.extractLsb' 16 16)
  have hhi : (s.pokeLong sp a v).peekWord sp a = v.extractLsb' 16 16 := by
    rw [State.pokeLong, State.peekWord_pokeWord_other _ _ (by rw [hc]; exact ⟨n02, n03, n12, n13⟩)]
    exact State.peekWord_pokeWord s _
      ⟨fun k hk => hp k (by simp only [State.cells, List.mem_cons] at hk ⊢; tauto), by simpa [State.cells] using n01⟩
  have hlo : (s.pokeLong sp a v).peekWord sp (a.add 2) = v.extractLsb' 0 16 :=
    State.peekWord_pokeWord _ _
      ⟨fun k hk => by
        rw [ha]
        exact hp k (by simp only [State.cells, List.mem_cons, hc] at hk ⊢; tauto),
      by simpa [State.cells, hc] using n23⟩
  rw [State.peekLong, hhi, hlo]
  exact long_halves v

/-- An operand reads back as it was stored, where storage answers it (R75, R76). -/
theorem State.peek_poke {z : Size} {sp : Space} {a : Addr} (v : BitVec z.bits) (h : Present s z sp a) :
    (s.poke z sp a v).peek z sp a = v := by
  cases z
  · show (s.pokeByte sp a v).peekByte sp a = v
    simp [State.peekByte_pokeByte, h.1 (s.cell sp a) (by simp [State.cells])]
  · exact State.peekWord_pokeWord s v h
  · exact State.peekLong_pokeLong s v h

/-- A store changes no byte but its own (R75, R76, R79). -/
theorem State.sameMemoryBut_poke (z : Size) (sp : Space) (a : Addr) (v : BitVec z.bits) :
    SameMemoryBut s (s.poke z sp a v) (s.cells sp a z) := by
  intro sp' a' h
  cases z
  · simp only [State.cells, List.mem_singleton] at h
    exact State.peekByte_pokeByte_other s h v
  · simp only [State.cells, List.mem_cons, List.not_mem_nil, or_false, not_or] at h
    exact State.peekByte_pokeWord_other s h.1 h.2 v
  · simp only [State.cells, List.mem_cons, List.not_mem_nil, or_false, not_or] at h
    have hc := s.cell_pokeWord sp a (v.extractLsb' 16 16)
    exact (State.peekByte_pokeWord_other _ (by rw [hc]; exact h.2.2.1) (by rw [hc]; exact h.2.2.2) _).trans
      (State.peekByte_pokeWord_other s h.1 h.2.1 _)

/-! ### The canonical form -/

theorem State.wf_pokeByte (sp : Space) (a : Addr) (v : Byte) (h : s.mem.wf = true) :
    (s.pokeByte sp a v).mem.wf = true := by
  simp only [State.pokeByte]
  split
  · exact h
  · exact Memory.wf_write _ _ h

theorem State.wf_pokeWord (sp : Space) (a : Addr) (v : Word) (h : s.mem.wf = true) :
    (s.pokeWord sp a v).mem.wf = true :=
  State.wf_pokeByte _ _ _ _ (State.wf_pokeByte _ _ _ _ h)

theorem State.wf_poke (z : Size) (sp : Space) (a : Addr) (v : BitVec z.bits) (h : s.mem.wf = true) :
    (s.poke z sp a v).mem.wf = true := by
  cases z
  · exact State.wf_pokeByte s sp a v h
  · exact State.wf_pokeWord s sp a v h
  · exact State.wf_pokeWord _ _ _ _ (State.wf_pokeWord s sp a _ h)

end Sys2Proof.Machine
end

