-- ==== Sys2Proof/Laws/Frames.lean ====
section
/-! SUPPORT. Frames: what the shared operations leave unchanged, in the terms of Safety.lean. -/

namespace Sys2Proof.Machine

variable (s : State)

/-! ### The stack pointer copies of the other mode -/

theorem State.otherCopies_congr {s t : State} (hr : t.regs = s.regs) (h4 : t.normalR14 = s.normalR14)
    (h5 : t.normalR15 = s.normalR15) (hp : t.isZ8001 = s.isZ8001) (hs : t.system = s.system) :
    t.otherCopies = s.otherCopies := by
  simp only [State.otherCopies, hr, h4, h5, hp, hs]

@[simp] theorem State.otherCopies_setRegOf (z : Size) (r : Reg) (v : BitVec z.bits) :
    (s.setRegOf z r v).otherCopies = s.otherCopies := by
  cases z <;> simp [State.setRegOf, State.setRegByte, State.setRegLong]

@[simp] theorem State.otherCopies_setRegQuad (r : Reg) (v : Quad) : (s.setRegQuad r v).otherCopies = s.otherCopies := by
  simp [State.setRegQuad, State.setRegLong]

@[simp] theorem State.otherCopies_bump (r : Reg) (w : Word) : (s.bump r w).otherCopies = s.otherCopies := by
  simp [State.bump]

@[simp] theorem State.otherCopies_countDown (r : Reg) : (s.countDown r).otherCopies = s.otherCopies := by
  simp [State.countDown]

@[simp] theorem State.otherCopies_poke (z : Size) (sp : Space) (a : Addr) (v : BitVec z.bits) :
    (s.poke z sp a v).otherCopies = s.otherCopies :=
  State.otherCopies_congr (by simp) (by simp) (by simp) (by simp) (by simp)

@[simp] theorem State.otherCopies_setFlags (f : Flags) : (s.setFlags f).otherCopies = s.otherCopies :=
  State.otherCopies_congr (by simp) (by simp) (by simp) (by simp) (by simp)

@[simp] theorem State.otherCopies_advance (n : Nat) : (s.advance n).otherCopies = s.otherCopies :=
  State.otherCopies_congr (by simp) (by simp) (by simp) (by simp) (by simp)

@[simp] theorem State.otherCopies_endBlock (b c : Bool) : (s.endBlock b c).otherCopies = s.otherCopies :=
  State.otherCopies_congr (by simp) (by simp) (by simp) (by simp) (by simp)

@[simp] theorem State.otherCopies_ioRead (b : Bool) (p : Word) (z : Size) :
    (s.ioRead b p z).otherCopies = s.otherCopies :=
  State.otherCopies_congr (by simp) (by simp) (by simp) (by simp) (by simp)

@[simp] theorem State.otherCopies_ioWrite (b : Bool) (p : Word) (z : Size) (v : BitVec z.bits) :
    (s.ioWrite b p z v).otherCopies = s.otherCopies :=
  State.otherCopies_congr (by simp) (by simp) (by simp) (by simp) (by simp)

/-! ### FCW bits -/

/-- FCW[7:2] of a word with other flags, the rest as it was: outside `mask` nothing changes when every flag whose bit is
outside `mask` is the old one. -/
theorem sameFcw_withFlags (w : Word) (f : Flags) (mask : Word)
    (hc : mask.getLsbD 7 = false → f.c = w.getLsbD 7) (hz : mask.getLsbD 6 = false → f.z = w.getLsbD 6)
    (hs : mask.getLsbD 5 = false → f.s = w.getLsbD 5) (hv : mask.getLsbD 4 = false → f.v = w.getLsbD 4)
    (hd : mask.getLsbD 3 = false → f.d = w.getLsbD 3) (hh : mask.getLsbD 2 = false → f.h = w.getLsbD 2) :
    withFlags w f &&& ~~~mask = w &&& ~~~mask := by
  refine BitVec.eq_of_getLsbD_eq fun i hi => ?_
  simp only [BitVec.getLsbD_and, withFlags_getLsbD, BitVec.getLsbD_not, hi, decide_true, Bool.true_and]
  cases hm : mask.getLsbD i
  · interval_cases i <;> simp_all
  · simp

/-- C, Z, S, P/V may change, DA and H stay. -/
theorem sameFcw_setFlags_czsv (f : Flags) (hd : f.d = s.flags.d) (hh : f.h = s.flags.h) :
    SameFcw s (s.setFlags f) flagMask :=
  sameFcw_withFlags _ _ _ (fun h => absurd h (by decide)) (fun h => absurd h (by decide))
    (fun h => absurd h (by decide)) (fun h => absurd h (by decide)) (fun _ => hd) (fun _ => hh)

theorem sameFcw_setFlags_all (f : Flags) : SameFcw s (s.setFlags f) byteFlagMask :=
  sameFcw_withFlags _ _ _ (fun h => absurd h (by decide)) (fun h => absurd h (by decide))
    (fun h => absurd h (by decide)) (fun h => absurd h (by decide)) (fun h => absurd h (by decide))
    (fun h => absurd h (by decide))

/-! ### A register result and its flags -/

/-- What writing a register operand, the flags and the program counter does. -/
theorem wrote_reg (z : Size) (d : Reg) (v : BitVec z.bits) (f : Flags) (n : Nat) :
    let t := ((s.setRegOf z d v).setFlags f).advance n
    t.regOf z d = v ∧ t.flags = f ∧ (z = .b → ∀ k, k ≠ d → t.regByte k = s.regByte k)
      ∧ SameRegs s t (wordRegs z d) ∧ SameSpecials s t ∧ SameMemory s t ∧ Passed s t n
      ∧ t.fcw = withFlags s.fcw f := by
  refine ⟨by simp, ?_, ?_, ⟨fun r hr => ?_, by simp⟩, by simp [SameSpecials, SameInternals], fun sp a => by simp, ?_, ?_⟩
  · simp [State.flags, State.setFlags]
  · rintro rfl k hk
    have : (((s.setRegOf .b d v).setFlags f).advance n).regByte = (s.setRegOf .b d v).regByte :=
      State.regByte_congr (by simp)
    rw [this]
    simp [State.setRegOf, State.regByte_setRegByte, hk]
  · simp [State.reg_setRegOf_other s hr]
  · simp [Passed, State.advance]
  · simp [State.setFlags]

end Sys2Proof.Machine
end

