-- ==== Sys2Proof/Laws/Specs.lean ====
section
/-! SUPPORT. What each shared operation does, said once in the terms of Safety.lean: writing a register operand, writing
memory, adding, subtracting, logical flags. -/

namespace Sys2Proof.Machine

variable (s : State)

/-! ### One frame after another -/

theorem sameRegs_trans {s t u : State} {rs qs : List Reg} (h : SameRegs s t rs) (g : SameRegs t u qs) :
    SameRegs s u (rs ++ qs) := by
  refine ⟨fun r hr => ?_, g.2.trans h.2⟩
  simp only [List.mem_append, not_or] at hr
  exact (g.1 r hr.2).trans (h.1 r hr.1)

theorem sameInternals_trans {s t u : State} (h : SameInternals s t) (g : SameInternals t u) : SameInternals s u := by
  simp only [SameInternals] at *
  simp only [g, h, and_self]

theorem sameSpecials_trans {s t u : State} (h : SameSpecials s t) (g : SameSpecials t u) : SameSpecials s u :=
  ⟨sameInternals_trans h.1 g.1, g.2.1.trans h.2.1, g.2.2.trans h.2.2⟩

theorem sameFcw_trans {s t u : State} {mask : Word} (h : SameFcw s t mask) (g : SameFcw t u mask) :
    SameFcw s u mask := g.trans h

theorem quietly_trans {s t u : State} {rs qs : List Reg} {mask : Word} (h : Quietly s t rs mask)
    (g : Quietly t u qs mask) : Quietly s u (rs ++ qs) mask :=
  ⟨sameRegs_trans h.1 g.1, sameFcw_trans h.2.1 g.2.1, sameSpecials_trans h.2.2.1 g.2.2.1,
    fun sp a => (g.2.2.2 sp a).trans (h.2.2.2 sp a)⟩

theorem passed_trans {s t u : State} {m n : Nat} (h : Passed s t m) (g : Passed t u n) : Passed s u (m + n) := by
  refine ⟨?_, g.2.trans h.2⟩
  rw [g.1, h.1, Nat.mul_add, BitVec.ofNat_add, BitVec.add_assoc]

/-! ### Flags -/

theorem State.setFlags_flags : s.setFlags s.flags = s := by
  have : withFlags s.fcw s.flags = s.fcw := by
    refine BitVec.eq_of_getLsbD_eq fun i hi => ?_
    rw [withFlags_getLsbD]
    split <;> rfl
  simp [State.setFlags, this]

/-- Setting the old flags again changes nothing. -/
theorem sameFcw_setFlags_flags (mask : Word) : SameFcw s (s.setFlags s.flags) mask := by
  rw [State.setFlags_flags]
  rfl

/-- New flags change FCW bits in `mask` only when every flag outside `mask` is the old one. -/
theorem sameFcw_setFlags (f : Flags) (mask : Word)
    (hc : mask.getLsbD 7 = false → f.c = s.flags.c) (hz : mask.getLsbD 6 = false → f.z = s.flags.z)
    (hs : mask.getLsbD 5 = false → f.s = s.flags.s) (hv : mask.getLsbD 4 = false → f.v = s.flags.v)
    (hd : mask.getLsbD 3 = false → f.d = s.flags.d) (hh : mask.getLsbD 2 = false → f.h = s.flags.h) :
    SameFcw s (s.setFlags f) mask :=
  sameFcw_withFlags _ _ _ hc hz hs hv hd hh

/-- As `sameFcw_setFlags`, for any state whose FCW is the old one with other flags. -/
theorem sameFcw_of_fcw {s t : State} {f : Flags} {mask : Word} (h : t.fcw = withFlags s.fcw f)
    (hf : SameFcw s (s.setFlags f) mask) : SameFcw s t mask := by
  simpa [SameFcw, State.setFlags, h] using hf

theorem whenAligned_true {ok : Bool} (h : ok = true) (t : State) : whenAligned ok t = .next t := by
  simp [whenAligned, h]

theorem whenAligned_next {ok : Bool} {t u : State} (h : whenAligned ok t = .next u) : ok = true ∧ u = t := by
  unfold whenAligned at h
  split at h
  · next ho => exact ⟨ho, by injection h with h; exact h.symm⟩
  · cases h

/-! ### Writing one operand -/

/-- A register operand and flags are written. -/
theorem writes_reg (z : Size) (d : Reg) (v : BitVec z.bits) (f : Flags) (n : Nat) (mask : Word)
    (hf : SameFcw s (s.setFlags f) mask) :
    Writes s (((s.setRegOf z d v).setFlags f).advance n) z (.reg d) v mask n
      ∧ (((s.setRegOf z d v).setFlags f).advance n).flags = f := by
  obtain ⟨h1, h2, h3, h4, h5, h6, h7, h8⟩ := wrote_reg s z d v f n
  exact ⟨⟨⟨h1, h3⟩, ⟨h4, sameFcw_of_fcw h8 hf, h5, h6⟩, h7⟩, h2⟩

/-- A register operand is written, no flag. -/
theorem writes_reg_only (z : Size) (d : Reg) (v : BitVec z.bits) (n : Nat) :
    Writes s ((s.setRegOf z d v).advance n) z (.reg d) v 0 n := by
  have h := (writes_reg s z d v s.flags n 0 (sameFcw_setFlags_flags s 0)).1
  have e : (s.setRegOf z d v).setFlags s.flags = s.setRegOf z d v := by
    have : (s.setRegOf z d v).flags = s.flags := by simp [State.flags]
    rw [← this, State.setFlags_flags]
  rwa [e] at h

/-- A state whose memory is that of `s` after a store holds the stored value, and nothing else in memory changed. -/
theorem holdsMem_poke {z : Size} {sp : Space} {a : Addr} {v : BitVec z.bits} {t : State}
    (h : t.peekByte = (s.poke z sp a v).peekByte) : HoldsMem s t z sp a v :=
  ⟨fun hp => by rw [State.peek_congr h]; exact State.peek_poke s v hp,
   fun sp' a' hc => by rw [h]; exact State.sameMemoryBut_poke s z sp a v sp' a' hc⟩

theorem storeFrame_poke (z : Size) (sp : Space) (a : Addr) (v : BitVec z.bits) (f : Flags) (n : Nat) (mask : Word)
    (hf : SameFcw s (s.setFlags f) mask) :
    StoreFrame s (((s.poke z sp a v).setFlags f).advance n) [] mask n :=
  ⟨⟨fun r _ => by simp, by simp⟩, sameFcw_of_fcw (by simp [State.setFlags]) hf, by simp [SameSpecials, SameInternals],
    by simp [Passed, State.advance]⟩

theorem State.poke_setFlags_flags (z : Size) (sp : Space) (a : Addr) (v : BitVec z.bits) :
    (s.poke z sp a v).setFlags s.flags = s.poke z sp a v := by
  have : (s.poke z sp a v).flags = s.flags := by simp [State.flags]
  rw [← this, State.setFlags_flags]

/-- A store without flags. -/
theorem storeFrame_poke_only (z : Size) (sp : Space) (a : Addr) (v : BitVec z.bits) (n : Nat) :
    StoreFrame s ((s.poke z sp a v).advance n) [] 0 n := by
  have h := storeFrame_poke s z sp a v s.flags n 0 (sameFcw_setFlags_flags s 0)
  rwa [State.poke_setFlags_flags] at h

/-- A memory operand and flags are written. -/
theorem writes_mem (z : Size) (m : Mem) (v : BitVec z.bits) (f : Flags) (n : Nat) (mask : Word)
    (hf : SameFcw s (s.setFlags f) mask) :
    Writes s (((s.poke z (s.memSpace m) (s.memAddr m) v).setFlags f).advance n) z (.mem m) v mask n
      ∧ (((s.poke z (s.memSpace m) (s.memAddr m) v).setFlags f).advance n).flags = f :=
  ⟨⟨holdsMem_poke s (by simp), storeFrame_poke s z _ _ v f n mask hf⟩, by simp [State.flags, State.setFlags]⟩

/-- A destination operand and flags are written: what `State.modify` does. -/
theorem writes_dst (z : Size) (d : Dst) (v : BitVec z.bits) (f : Flags) (n : Nat) (mask : Word)
    (hf : SameFcw s (s.setFlags f) mask) :
    Writes s (((s.setDst z d v).setFlags f).advance n) z d v mask n
      ∧ (((s.setDst z d v).setFlags f).advance n).flags = f := by
  cases d with
  | reg r => exact writes_reg s z r v f n mask hf
  | mem m => exact writes_mem s z m v f n mask hf

/-- An instruction that writes flags only. -/
theorem frame_setFlags (f : Flags) (n : Nat) (mask : Word) (hf : SameFcw s (s.setFlags f) mask) :
    Frame s ((s.setFlags f).advance n) [] mask n ∧ ((s.setFlags f).advance n).flags = f :=
  ⟨⟨⟨⟨fun r _ => by simp, by simp⟩, sameFcw_of_fcw (by simp [State.setFlags]) hf,
    by simp [SameSpecials, SameInternals], fun sp a => by simp⟩, by simp [Passed, State.advance]⟩,
    by simp [State.flags, State.setFlags]⟩

/-- An instruction that only passes on. -/
theorem frame_advance (n : Nat) : Frame s (s.advance n) [] 0 n :=
  ⟨⟨⟨fun r _ => by simp, by simp⟩, by simp [SameFcw], by simp [SameSpecials, SameInternals], fun sp a => by simp⟩,
    by simp [Passed, State.advance]⟩

/-! ### Results and flags -/

theorem sub_mod_twice (m a b c : Nat) (hb : b < m) (hc : c ≤ 1) (hm : c < m) :
    (m - c + (m - b + a) % m) % m = (m + a - (b + c)) % m := by
  rw [Nat.add_mod_mod, show m - c + (m - b + a) = m + a - (b + c) + m by omega, Nat.add_mod_right]

theorem addN_add {n : Nat} (a b : BitVec n) (cin : Bool) (f : Flags) :
    AddN a b cin (addResult a b cin) (addFlags a b cin f) :=
  ⟨by simp [addResult, BitVec.toNat_add], by simp [addFlags], by simp [addFlags], by simp [addFlags], rfl⟩

theorem subN_sub {n : Nat} (hn : 0 < n) (a b : BitVec n) (bin : Bool) (f : Flags) :
    SubN a b bin (subResult a b bin) (subFlags a b bin f) := by
  have h2 : 2 ^ 1 ≤ 2 ^ n := Nat.pow_le_pow_right (by decide) hn
  have hc : bin.toNat < 2 ^ n := by cases bin <;> simp <;> omega
  refine ⟨?_, by simp [subFlags], by simp [subFlags], by simp [subFlags], rfl⟩
  simp only [subResult, BitVec.toNat_sub, BitVec.toNat_ofNat, Nat.mod_eq_of_lt hc]
  exact sub_mod_twice _ _ _ _ b.isLt (by cases bin <;> simp) hc

theorem addH_add (a b : Byte) (cin : Bool) (f : Flags) :
    AddN a b cin (addResult a b cin) (byteAddFlags a b cin f) ∧ AddH a b cin (byteAddFlags a b cin f) :=
  ⟨addN_add a b cin f, rfl, by simp [byteAddFlags]⟩

theorem subH_sub (a b : Byte) (bin : Bool) (f : Flags) :
    SubN a b bin (subResult a b bin) (byteSubFlags a b bin f) ∧ SubH a b bin (byteSubFlags a b bin f) :=
  ⟨subN_sub (by decide) a b bin f, rfl, by simp [byteSubFlags]⟩

theorem zeroSign_logic {n : Nat} (r : BitVec n) (f : Flags) : ZeroSign r (logicFlags r f) := by
  simp [ZeroSign, logicFlags]

theorem zeroSign_byteLogic (r : Byte) (f : Flags) : ZeroSign r (byteLogicFlags r f) := zeroSign_logic r f

theorem evenParity_byteLogic (r : Byte) (f : Flags) : EvenParity r (byteLogicFlags r f) := by
  show evenParity r = true ↔ _
  revert r
  decide

end Sys2Proof.Machine
end

