-- ==== Sys2Proof/Laws/Transfer.lean ====
section
/-! SUPPORT. What the stack operations, the program counter operations and the block operations do, in the terms of
Safety.lean. -/

namespace Sys2Proof.Machine

variable (s : State)

/-! ### The program counter -/

@[simp] theorem jumpedTo_setPc (a : Addr) : JumpedTo s (s.setPc a) a := ⟨rfl, rfl⟩

theorem passed_advance (n : Nat) : Passed s (s.advance n) n := ⟨rfl, rfl⟩

/-- Loading the program counter changes nothing else. -/
theorem quietly_setPc (a : Addr) : Quietly s (s.setPc a) [] 0 :=
  ⟨⟨fun r _ => by simp, State.otherCopies_congr rfl rfl rfl rfl rfl⟩, rfl, ⟨by simp [SameInternals], rfl, rfl⟩, fun _ _ => rfl⟩

theorem quietly_advance (n : Nat) : Quietly s (s.advance n) [] 0 := (frame_advance s n).1

theorem quietly_jumpBy (w : Word) : Quietly s (s.jumpBy w) [] 0 :=
  ⟨⟨fun r _ => by simp, State.otherCopies_congr rfl rfl rfl rfl rfl⟩, rfl, ⟨by simp [SameInternals], rfl, rfl⟩, fun _ _ => rfl⟩

/-! ### Moving an address register (R123) -/

theorem State.reg_bump_same (r : Reg) (w : Word) : (s.bump r w).reg (s.offReg r) = s.reg (s.offReg r) + w := by
  simp [State.bump]

theorem State.reg_bump_other {r q : Reg} (h : q ≠ s.offReg r) (w : Word) : (s.bump r w).reg q = s.reg q := by
  simp [State.bump, State.reg_setReg_other _ h]

/-- The registers that an address register is made of: its offset register is among them. -/
theorem State.offReg_mem (r : Reg) : s.offReg r ∈ ptrRegs s.segmented r := by
  simp only [State.offReg, ptrRegs]
  split <;> simp

/-- An address depends on the registers of its address register only. -/
theorem State.addrReg_eq {t : State} {r : Reg} (h : ∀ q ∈ ptrRegs s.segmented r, t.reg q = s.reg q)
    (hg : t.segmented = s.segmented) (hc : t.codeSeg = s.codeSeg) : t.addrReg r = s.addrReg r := by
  simp only [State.addrReg, hg, hc]
  split
  · next hs =>
    rw [h r (by simp [ptrRegs, hs]), h (r + 1) (by simp [ptrRegs, hs])]
  · rw [h r (by simp only [ptrRegs]; split <;> simp)]

/-- A memory operand that no changed register addresses has the same address (U7). -/
theorem State.memAddr_eq {t : State} {m : Mem} {rs : List Reg} (hm : memThrough s.segmented rs m = false)
    (h : ∀ q, q ∉ rs → t.reg q = s.reg q) (hg : t.segmented = s.segmented) (hc : t.codeSeg = s.codeSeg) :
    t.memAddr m = s.memAddr m := by
  have habs : ∀ a, t.absAddr a = s.absAddr a := fun a => by cases a <;> simp [State.absAddr, hc]
  cases m with
  | ir r =>
    refine s.addrReg_eq (fun q hq => h q fun hin => ?_) hg hc
    simp only [memThrough, List.any_eq_false] at hm
    exact hm q hq (by simpa using hin)
  | da a => exact habs a
  | x a r =>
    simp only [memThrough] at hm
    simp only [State.memAddr, habs]
    rw [h r (by simpa using hm)]

/-! ### The stack (R27, R159, R160) -/

/-- What `push` does. -/
theorem push_spec (z : Size) (r : Reg) (v : BitVec z.bits) :
    (s.push z r v).reg (s.offReg r) = s.reg (s.offReg r) - BitVec.ofNat 16 z.bytes
      ∧ HoldsMem s (s.push z r v) z (s.regSpace r) ((s.addrReg r).add (-BitVec.ofNat 16 z.bytes)) v
      ∧ SameRegs s (s.push z r v) [s.offReg r] ∧ SameSpecials s (s.push z r v) := by
  refine ⟨?_, ?_, ⟨fun q hq => ?_, ?_⟩, ?_⟩
  · simp only [State.push, State.reg_poke, State.reg_bump_same, BitVec.sub_eq_add_neg]
  · have h := holdsMem_poke (s.bump r (-BitVec.ofNat 16 z.bytes)) (z := z) (sp := s.regSpace r)
      (a := (s.addrReg r).add (-BitVec.ofNat 16 z.bytes)) (v := v) (t := s.push z r v) rfl
    have hc : (s.bump r (-BitVec.ofNat 16 z.bytes)).cells = s.cells := by
      funext sp a z
      cases z <;> simp [State.cells]
    refine ⟨fun hp => h.1 (by simpa [Present, Storage, State.absentCell, hc] using hp), fun sp a hn => ?_⟩
    have := h.2 sp a (by simpa [hc] using hn)
    simpa using this
  · simp only [List.mem_singleton] at hq
    simp only [State.push, State.reg_poke, State.reg_bump_other _ hq]
  · simp [State.push]
  · simp [State.push, SameSpecials, SameInternals]

/-- After a push every operand is at the address that moving the pointer gives it. -/
theorem State.memAddr_push (z : Size) (r : Reg) (v : BitVec z.bits) :
    (s.push z r v).memAddr = (s.bump r (-BitVec.ofNat 16 z.bytes)).memAddr :=
  State.memAddr_congr (by funext q; simp only [State.push, State.reg_poke]) (by simp [State.push]) (by simp [State.push])

/-- What moving the pointer of a `pop` does. -/
theorem drop_spec (z : Size) (r : Reg) :
    (s.drop z r).reg (s.offReg r) = s.reg (s.offReg r) + BitVec.ofNat 16 z.bytes
      ∧ Quietly s (s.drop z r) [s.offReg r] 0 ∧ Passed s (s.drop z r) 0 := by
  refine ⟨State.reg_bump_same _ _ _, ⟨⟨fun q hq => ?_, ?_⟩, ?_, ?_, fun sp a => ?_⟩, ?_⟩
  · simp only [List.mem_singleton] at hq
    exact State.reg_bump_other _ hq _
  · simp [State.drop]
  · simp [State.drop, SameFcw]
  · simp [State.drop, SameSpecials, SameInternals]
  · simp [State.drop]
  · simp [State.drop, Passed]

/-! ### Transfers of several words (R157, R440) -/

theorem State.setRegs_succ (r : Reg) (n : Nat) (f : Nat → Word) :
    s.setRegs r (n + 1) f = (s.setRegs r n f).setReg (r + BitVec.ofNat 4 n) (f n) := by
  simp only [State.setRegs, List.range_succ, List.foldl_append, List.foldl_cons, List.foldl_nil]

theorem State.pokeWords_succ (sp : Space) (a : Addr) (n : Nat) (f : Nat → Word) :
    s.pokeWords sp a (n + 1) f = (s.pokeWords sp a n f).pokeWord sp (a.add (BitVec.ofNat 16 (2 * n))) (f n) := by
  simp only [State.pokeWords, List.range_succ, List.foldl_append, List.foldl_cons, List.foldl_nil]

/-- What writing registers in sequence does: up to sixteen of them hold the values, no other has changed. -/
theorem setRegs_spec (r : Reg) (f : Nat → Word) : ∀ n, n ≤ 16 →
    (∀ k, k < n → (s.setRegs r n f).reg (r + BitVec.ofNat 4 k) = f k)
      ∧ Quietly s (s.setRegs r n f) ((List.range n).map fun k => r + BitVec.ofNat 4 k) 0
      ∧ Passed s (s.setRegs r n f) 0 := by
  intro n
  induction n with
  | zero =>
    refine fun _ => ⟨fun k hk => absurd hk (Nat.not_lt_zero k), ?_, ?_⟩
    · exact ⟨⟨fun _ _ => rfl, rfl⟩, rfl, ⟨by simp [SameInternals, State.setRegs], rfl, rfl⟩, fun _ _ => rfl⟩
    · simp [Passed, State.setRegs]
  | succ n ih =>
    intro hn
    obtain ⟨h1, h2, h3⟩ := ih (by omega)
    rw [State.setRegs_succ]
    refine ⟨fun k hk => ?_, ?_, ?_⟩
    · rcases Nat.lt_succ_iff_lt_or_eq.mp hk with hk | rfl
      · rw [State.reg_setReg_other]
        · exact h1 k hk
        · intro he
          have := congrArg BitVec.toNat (add_left_cancel he)
          simp only [BitVec.toNat_ofNat] at this
          omega
      · simp
    · have hq : Quietly (s.setRegs r n f) ((s.setRegs r n f).setReg (r + BitVec.ofNat 4 n) (f n))
          [r + BitVec.ofNat 4 n] 0 :=
        ⟨⟨fun q hq => State.reg_setReg_other _ (by simpa using hq) _, by simp⟩, by simp [SameFcw],
          by simp [SameSpecials, SameInternals], fun sp a => by simp⟩
      have := quietly_trans h2 hq
      rwa [List.range_succ, List.map_append]
    · exact ⟨by simp, by simp⟩

theorem storage_append {s : State} {l m : List Nat} (h : Storage s (l ++ m)) :
    Storage s l ∧ Storage s m ∧ ∀ k ∈ l, k ∉ m :=
  ⟨⟨fun k hk => h.1 k (List.mem_append_left _ hk), (List.nodup_append.mp h.2).1⟩,
    ⟨fun k hk => h.1 k (List.mem_append_right _ hk), (List.nodup_append.mp h.2).2.1⟩,
    fun k hk hm => (List.nodup_append.mp h.2).2.2 k hk k hm rfl⟩

theorem storage_congr {t : State} {l : List Nat} (h : t.platform = s.platform) : Storage t l ↔ Storage s l := by
  simp only [Storage, State.absentCell_congr h]

theorem cells_congr {t : State} (h : t.platform = s.platform) : t.cells = s.cells := by
  funext sp a z
  cases z <;> simp only [State.cells, State.cell_congr h]

/-- A word reads as before when a store is outside it. -/
theorem peekWord_sameMemoryBut {t : State} {cells : List Nat} (h : SameMemoryBut s t cells) {sp : Space} {a : Addr}
    (hd : ∀ k ∈ s.cells sp a .w, k ∉ cells) : t.peekWord sp a = s.peekWord sp a := by
  have h0 := h sp a.even (hd _ (by simp [State.cells]))
  have h1 := h sp (a.even.add 1) (hd _ (by simp [State.cells]))
  simp only [State.peekWord, h0, h1]

/-- What storing words in sequence does: where storage answers their cells they read back, and no other byte has
changed. -/
theorem pokeWords_spec (sp : Space) (a : Addr) (f : Nat → Word) (n : Nat) :
    (Storage s (s.wordCells sp a n) → ∀ k, k < n →
        (s.pokeWords sp a n f).peekWord sp (a.add (BitVec.ofNat 16 (2 * k))) = f k)
      ∧ SameMemoryBut s (s.pokeWords sp a n f) (s.wordCells sp a n) := by
  induction n with
  | zero => exact ⟨fun _ k hk => absurd hk (Nat.not_lt_zero k), fun _ _ _ => rfl⟩
  | succ n ih =>
    obtain ⟨h1, h2⟩ := ih
    have hp : (s.pokeWords sp a n f).platform = s.platform := by simp
    have hcells : s.wordCells sp a (n + 1) =
        s.wordCells sp a n ++ s.cells sp (a.add (BitVec.ofNat 16 (2 * n))) .w := by
      simp [State.wordCells, List.range_succ]
    have hlast := State.sameMemoryBut_poke (s.pokeWords sp a n f) .w sp (a.add (BitVec.ofNat 16 (2 * n))) (f n)
    rw [cells_congr s hp] at hlast
    rw [State.pokeWords_succ, hcells]
    refine ⟨fun hs k hk => ?_, fun sp' a' hn => ?_⟩
    · obtain ⟨hs1, hs2, hd⟩ := storage_append hs
      rcases Nat.lt_succ_iff_lt_or_eq.mp hk with hk | rfl
      · rw [← h1 hs1 k hk]
        refine peekWord_sameMemoryBut _ hlast fun c hc => hd c ?_
        rw [cells_congr s hp] at hc
        exact List.mem_flatMap.mpr ⟨k, List.mem_range.mpr hk, hc⟩
      · refine State.peekWord_pokeWord _ _ ?_
        simp only [Present, cells_congr s hp]
        exact (storage_congr s hp).mpr hs2
    · simp only [List.mem_append, not_or] at hn
      have hc := State.cell_congr hp
      exact (hlast sp' a' (by rw [hc]; exact hn.2)).trans (h2 sp' a' hn.1)

end Sys2Proof.Machine
end

