-- ==== Sys2Proof/Laws/Ordinary.lean ====
section
/-! SUPPORT. What every instruction that normal mode may run keeps, once for each operation they are made of. -/

namespace Sys2Proof.Machine

/-- What the operations of unprivileged instructions keep: FCW[15:8], the stack pointer copies of the other mode, in
normal mode the system copy of R15, the control registers, the pins, the events, and the canonical form of memory. -/
def Ordinary (s t : State) : Prop :=
  SameSpecials s t ∧ t.fcw.extractLsb' 8 8 = s.fcw.extractLsb' 8 8 ∧ t.otherCopies = s.otherCopies
    ∧ (s.system = false → t.regs[15] = s.regs[15]) ∧ (s.mem.wf = true → t.mem.wf = true)

theorem fcwHigh_getLsbD {v w : Word} (h : v.extractLsb' 8 8 = w.extractLsb' 8 8) {i : Nat} (h8 : 8 ≤ i) (hi : i < 16) :
    v.getLsbD i = w.getLsbD i := by
  have := congrArg (fun x : Byte => x.getLsbD (i - 8)) h
  simp only [BitVec.getLsbD_extractLsb', show i - 8 < 8 by omega, decide_true, Bool.true_and,
    show 8 + (i - 8) = i by omega] at this
  exact this

theorem Ordinary_system {s t : State} (h : Ordinary s t) : t.system = s.system :=
  fcwHigh_getLsbD h.2.1 (by omega) (by omega)

theorem ordinary_refl (s : State) : Ordinary s s := by simp [Ordinary, SameSpecials, SameInternals]

theorem ordinary_trans {s t u : State} (h : Ordinary s t) (g : Ordinary t u) : Ordinary s u :=
  ⟨sameSpecials_trans h.1 g.1, g.2.1.trans h.2.1, g.2.2.1.trans h.2.2.1,
    fun hs => (g.2.2.2.1 ((Ordinary_system h).trans hs)).trans (h.2.2.2.1 hs), fun hw => g.2.2.2.2 (h.2.2.2.2 hw)⟩

variable {s t : State}

theorem ordinary_setReg (h : Ordinary s t) (r : Reg) (v : Word) : Ordinary s (t.setReg r v) := by
  refine ordinary_trans h ⟨by simp [SameSpecials, SameInternals], by simp, by simp, fun hs => ?_, by simp⟩
  simp only [State.setReg, State.namesNormal15, State.namesNormal14, hs]
  by_cases h15 : r = 15
  · simp [h15]
  · have hn : r.toNat ≠ 15 := fun hk => h15 (BitVec.eq_of_toNat_eq hk)
    split
    · rfl
    · simp [hn]

theorem ordinary_setRegByte (h : Ordinary s t) (r : Reg) (v : Byte) : Ordinary s (t.setRegByte r v) :=
  ordinary_setReg h _ _

theorem ordinary_setRegLong (h : Ordinary s t) (r : Reg) (v : Long) : Ordinary s (t.setRegLong r v) :=
  ordinary_setReg (ordinary_setReg h _ _) _ _

theorem ordinary_setRegQuad (h : Ordinary s t) (r : Reg) (v : Quad) : Ordinary s (t.setRegQuad r v) :=
  ordinary_setRegLong (ordinary_setRegLong h _ _) _ _

theorem ordinary_setRegOf (h : Ordinary s t) (z : Size) (r : Reg) (v : BitVec z.bits) :
    Ordinary s (t.setRegOf z r v) := by
  cases z
  · exact ordinary_setRegByte h r v
  · exact ordinary_setReg h r v
  · exact ordinary_setRegLong h r v

theorem ordinary_bump (h : Ordinary s t) (r : Reg) (w : Word) : Ordinary s (t.bump r w) := ordinary_setReg h _ _

theorem ordinary_countDown (h : Ordinary s t) (r : Reg) : Ordinary s (t.countDown r) := ordinary_setReg h _ _

theorem ordinary_poke (h : Ordinary s t) (z : Size) (sp : Space) (a : Addr) (v : BitVec z.bits) :
    Ordinary s (t.poke z sp a v) :=
  ordinary_trans h ⟨by simp [SameSpecials, SameInternals], by simp, by simp, by simp, t.wf_poke z sp a v⟩

theorem ordinary_setFlags (h : Ordinary s t) (f : Flags) : Ordinary s (t.setFlags f) := by
  refine ordinary_trans h ⟨by simp [SameSpecials, SameInternals], ?_, by simp, by simp, by simp⟩
  refine BitVec.eq_of_getLsbD_eq fun i hi => ?_
  simp only [State.setFlags, BitVec.getLsbD_extractLsb', hi, decide_true, Bool.true_and, withFlags_getLsbD]
  split <;> first | omega | rfl

theorem ordinary_advance (h : Ordinary s t) (n : Nat) : Ordinary s (t.advance n) :=
  ordinary_trans h ⟨by simp [SameSpecials, SameInternals], by simp, by simp, by simp, by simp⟩

theorem ordinary_setPc (h : Ordinary s t) (a : Addr) : Ordinary s (t.setPc a) :=
  ordinary_trans h ⟨by simp [SameSpecials, SameInternals], by simp,
    State.otherCopies_congr rfl rfl rfl rfl rfl, by simp, by simp⟩

theorem ordinary_jumpBy (h : Ordinary s t) (w : Word) : Ordinary s (t.jumpBy w) :=
  ordinary_trans h ⟨by simp [SameSpecials, SameInternals], by simp,
    State.otherCopies_congr rfl rfl rfl rfl rfl, by simp, by simp⟩

theorem ordinary_endBlock (h : Ordinary s t) (b c : Bool) : Ordinary s (t.endBlock b c) :=
  ordinary_trans h ⟨by simp [SameSpecials, SameInternals], by simp, by simp, by simp, by simp⟩

theorem ordinary_push (h : Ordinary s t) (z : Size) (r : Reg) (v : BitVec z.bits) : Ordinary s (t.push z r v) :=
  ordinary_poke (ordinary_bump h _ _) _ _ _ _

theorem ordinary_setDst (h : Ordinary s t) (z : Size) (d : Dst) (v : BitVec z.bits) : Ordinary s (t.setDst z d v) := by
  cases d
  · exact ordinary_setRegOf h _ _ _
  · exact ordinary_poke h _ _ _ _

theorem ordinary_whenAligned {ok : Bool} {u : State} (hu : Ordinary s u) (h : whenAligned ok u = .next t) :
    Ordinary s t := by
  obtain ⟨_, rfl⟩ := whenAligned_next h
  exact hu

theorem ordinary_foldl {α : Type} {f : State → α → State} (hf : ∀ u x, Ordinary s u → Ordinary s (f u x)) (l : List α)
    (h : Ordinary s t) : Ordinary s (l.foldl f t) := by
  induction l generalizing t with
  | nil => exact h
  | cons x l ih => exact ih (hf t x h)

theorem ordinary_setRegs (h : Ordinary s t) (r : Reg) (n : Nat) (f : Nat → Word) : Ordinary s (t.setRegs r n f) :=
  ordinary_foldl (fun _ _ hu => ordinary_setReg hu _ _) _ h

theorem ordinary_pokeWords (h : Ordinary s t) (sp : Space) (a : Addr) (n : Nat) (f : Nat → Word) :
    Ordinary s (t.pokeWords sp a n f) :=
  ordinary_foldl (fun _ _ hu => ordinary_poke hu .w _ _ _) _ h

theorem ordinary_ldmLoad (h : Ordinary s t) (sp : Space) (a : Addr) (r : Reg) (n : Nat) :
    Ordinary s (t.ldmLoad sp a r n) := ordinary_setRegs h _ _ _

theorem ordinary_ldmStore (h : Ordinary s t) (sp : Space) (a : Addr) (r : Reg) (n : Nat) :
    Ordinary s (t.ldmStore sp a r n) := ordinary_pokeWords h _ _ _ _

theorem ordinary_mapFlags (f : BitVec 4 → BitVec 4) (h : s.mapFlags f = .next t) : Ordinary s t := by
  injection h with h
  subst h
  have hsame : (s.fcw.extractLsb' 8 8 ++ f (s.fcw.extractLsb' 4 4) ++ s.fcw.extractLsb' 0 4 : Word).extractLsb' 8 8 =
      s.fcw.extractLsb' 8 8 := by
    generalize s.fcw.extractLsb' 8 8 = a
    generalize f (s.fcw.extractLsb' 4 4) = b
    generalize s.fcw.extractLsb' 0 4 = c
    refine BitVec.eq_of_getLsbD_eq fun i hi => ?_
    have h1 := BitVec.getLsbD_append (x := a ++ b) (y := c) (i := 8 + i)
    have h2 := BitVec.getLsbD_append (x := a) (y := b) (i := 4 + i)
    rw [if_neg (by omega), show 8 + i - 4 = 4 + i by omega, h2, if_neg (by omega), Nat.add_sub_cancel_left] at h1
    rw [BitVec.getLsbD_extractLsb']
    simp only [hi, decide_true, Bool.true_and]
    exact h1
  refine ⟨by simp [SameSpecials, SameInternals], hsame, ?_, by simp, by simp⟩
  have hsys : (s.fcw.extractLsb' 8 8 ++ f (s.fcw.extractLsb' 4 4) ++ s.fcw.extractLsb' 0 4 : Word).getLsbD 14 =
      s.fcw.getLsbD 14 := fcwHigh_getLsbD hsame (by omega) (by omega)
  exact State.otherCopies_congr rfl rfl rfl rfl hsys

theorem ordinary_writeFlagsByte (h : Ordinary s t) (v : Byte) : Ordinary s (t.writeFlagsByte v) := by
  have hsame : (t.writeFlagsByte v).fcw.extractLsb' 8 8 = t.fcw.extractLsb' 8 8 :=
    highByte_append (t.fcw.extractLsb' 8 8) _
  refine ordinary_trans h ⟨by simp [SameSpecials, SameInternals, State.writeFlagsByte], hsame, ?_, fun _ => rfl, id⟩
  exact State.otherCopies_congr rfl rfl rfl rfl (fcwHigh_getLsbD hsame (by omega) (by omega))

theorem ordinary_setAddr (h : Ordinary s t) (d : Reg) (a : Addr) : Ordinary s (t.setAddr d a) := by
  unfold State.setAddr
  split
  · exact ordinary_setReg (ordinary_setReg h _ _) _ _
  · exact ordinary_setReg h _ _

theorem ordinary_pushPc (h : Ordinary s t) : Ordinary s t.pushPc := by
  unfold State.pushPc
  split
  · exact ordinary_push h _ _ _
  · exact ordinary_push h _ _ _

theorem ordinary_popPc (h : Ordinary s t) : Ordinary s t.popPc := by
  unfold State.popPc
  split
  · exact ordinary_setPc (ordinary_bump h _ _) _
  · exact ordinary_setPc (ordinary_bump h _ _) _

/-! ### The shapes that instructions share -/

theorem ordinary_next {u : State} (hu : Ordinary s u) (h : (.next u : Result) = .next t) : Ordinary s t := by
  injection h with h
  exact h ▸ hu

theorem ordinary_regFrom {z z' : Size} {d : Reg} {src : Src z} {r : BitVec z'.bits} {f : Flags}
    (h : s.regFrom (z' := z') d src r f = .next t) : Ordinary s t :=
  ordinary_whenAligned (ordinary_advance (ordinary_setFlags (ordinary_setRegOf (ordinary_refl s) _ _ _) _) _) h

theorem ordinary_flagsFrom {z : Size} {src : Src z} {f : Flags} (h : s.flagsFrom src f = .next t) : Ordinary s t :=
  ordinary_whenAligned (ordinary_advance (ordinary_setFlags (ordinary_refl s) _) _) h

theorem ordinary_modify {z : Size} {d : Dst} {v : BitVec z.bits} {f : Flags} (h : s.modify z d v f = .next t) :
    Ordinary s t :=
  ordinary_whenAligned (ordinary_advance (ordinary_setFlags (ordinary_setDst (ordinary_refl s) _ _ _) _) _) h

theorem ordinary_ld {z : Size} {a : LdArgs z} (h : s.ld a = .next t) : Ordinary s t := by
  cases a with
  | reg => exact ordinary_next (ordinary_advance (ordinary_setRegOf (ordinary_refl s) _ _ _) _) h
  | imm => exact ordinary_next (ordinary_advance (ordinary_setRegOf (ordinary_refl s) _ _ _) _) h
  | load => exact ordinary_whenAligned (ordinary_advance (ordinary_setRegOf (ordinary_refl s) _ _ _) _) h
  | store => exact ordinary_whenAligned (ordinary_advance (ordinary_poke (ordinary_refl s) _ _ _ _) _) h
  | storeImm => exact ordinary_whenAligned (ordinary_advance (ordinary_poke (ordinary_refl s) _ _ _ _) _) h
  | compact => exact ordinary_next (ordinary_advance (ordinary_setRegOf (ordinary_refl s) _ _ _) _) h

theorem ordinary_ldr {z : Size} {dir : Dir} {r : Reg} {n : Word} (h : s.ldr z dir r n = .next t) : Ordinary s t := by
  cases dir
  · exact ordinary_whenAligned (ordinary_advance (ordinary_setRegOf (ordinary_refl s) _ _ _) _) h
  · exact ordinary_whenAligned (ordinary_advance (ordinary_poke (ordinary_refl s) _ _ _ _) _) h

theorem ordinary_cp {z : Size} {a : CpArgs z} (h : s.cp a = .next t) : Ordinary s t := by
  cases a
  · exact ordinary_flagsFrom h
  · exact ordinary_whenAligned (ordinary_advance (ordinary_setFlags (ordinary_refl s) _) _) h

theorem ordinary_testDst {z : Size} {d : Dst} {f : Flags} (h : s.testDst z d f = .next t) : Ordinary s t :=
  ordinary_whenAligned (ordinary_advance (ordinary_setFlags (ordinary_refl s) _) _) h

theorem ordinary_bitWrite {z : Size} {a : BitArgs} {v : BitVec z.bits} (h : s.bitWrite z a v = .next t) :
    Ordinary s t :=
  ordinary_whenAligned (ordinary_advance (ordinary_setDst (ordinary_refl s) _ _ _) _) h

theorem ordinary_bitTest {z : Size} {a : BitArgs} (h : s.bitTest z a = .next t) : Ordinary s t :=
  ordinary_whenAligned (ordinary_advance (ordinary_setFlags (ordinary_refl s) _) _) h

theorem ordinary_tcc {z : Size} {c : Cond} {d : Reg} (h : s.tcc z c d = .next t) : Ordinary s t := by
  refine ordinary_next (ordinary_advance ?_ _) h
  split
  · exact ordinary_setRegOf (ordinary_refl s) _ _ _
  · exact ordinary_refl s

theorem ordinary_exchange {z : Size} {d : Reg} {src : Dst} (h : s.exchange z d src = .next t) : Ordinary s t :=
  ordinary_whenAligned (ordinary_advance (ordinary_setRegOf (ordinary_setDst (ordinary_refl s) _ _ _) _ _ _) _) h

theorem ordinary_pushFrom {z : Size} {sp : Reg} {src : Dst} (h : s.pushFrom z sp src = .next t) : Ordinary s t :=
  ordinary_whenAligned (ordinary_advance (ordinary_push (ordinary_refl s) _ _ _) _) h

theorem ordinary_popTo {z : Size} {d : Dst} {sp : Reg} (h : s.popTo z d sp = .next t) : Ordinary s t :=
  ordinary_whenAligned (ordinary_advance (ordinary_setDst (ordinary_bump (ordinary_refl s) _ _) _ _ _) _) h

theorem ordinary_djnz {z : Size} {r : Reg} {n : BitVec 7} (h : s.djnz z r n = .next t) : Ordinary s t := by
  refine ordinary_next ?_ h
  split
  · exact ordinary_advance (ordinary_setRegOf (ordinary_refl s) _ _ _) _
  · exact ordinary_jumpBy (ordinary_advance (ordinary_setRegOf (ordinary_refl s) _ _ _) _) _

theorem ordinary_rotateReg {z : Size} {one : BitVec z.bits → Bool → BitVec z.bits × Bool} {d : Reg} {two : Bool}
    (h : s.rotateReg z one d two = .next t) : Ordinary s t :=
  ordinary_next (ordinary_advance (ordinary_setFlags (ordinary_setRegOf (ordinary_refl s) _ _ _) _) _) h

theorem ordinary_shift {z : Size} {arith : Bool} {d : Reg} {k : Int} (h : s.shift z arith d k = .next t) :
    Ordinary s t := by
  simp only [State.shift] at h
  split at h
  · exact ordinary_next (ordinary_advance (ordinary_setFlags (ordinary_setRegOf (ordinary_refl s) _ _ _) _) _) h
  · cases h

theorem ordinary_blockCompare {z : Size} {up rep : Bool} {p r d : Reg} {c : Cond}
    (h : s.blockCompare z up rep p r d c = .next t) : Ordinary s t :=
  ordinary_whenAligned
    (ordinary_endBlock (ordinary_setFlags (ordinary_countDown (ordinary_bump (ordinary_refl s) _ _) _) _) _ _) h

theorem ordinary_blockCompareString {z : Size} {up rep : Bool} {p r d : Reg} {c : Cond}
    (h : s.blockCompareString z up rep p r d c = .next t) : Ordinary s t :=
  ordinary_whenAligned (ordinary_endBlock (ordinary_setFlags
    (ordinary_countDown (ordinary_bump (ordinary_bump (ordinary_refl s) _ _) _ _) _) _) _ _) h

theorem ordinary_blockMove {z : Size} {up rep : Bool} {p r d : Reg} (h : s.blockMove z up rep p r d = .next t) :
    Ordinary s t :=
  ordinary_whenAligned (ordinary_endBlock (ordinary_setFlags (ordinary_countDown
    (ordinary_bump (ordinary_bump (ordinary_poke (ordinary_refl s) _ _ _ _) _ _) _ _) _) _) _ _) h

theorem ordinary_translate {up rep : Bool} {d r q : Reg} (h : s.translate up rep d r q = .next t) : Ordinary s t :=
  ordinary_next (ordinary_endBlock (ordinary_setFlags (ordinary_countDown (ordinary_bump (ordinary_setRegByte
    (ordinary_poke (ordinary_refl s) .b _ _ _) _ _) _ _) _) _) _ _) h

theorem ordinary_translateTest {up rep : Bool} {p r q : Reg} (h : s.translateTest up rep p r q = .next t) :
    Ordinary s t :=
  ordinary_next (ordinary_endBlock (ordinary_setFlags (ordinary_countDown (ordinary_bump (ordinary_setRegByte
    (ordinary_refl s) _ _) _ _) _) _) _ _) h

end Sys2Proof.Machine
end

