-- ==== Sys2Proof/Laws/Blocks.lean ====
section
/-! SUPPORT. What the register rules of block instructions (R333, R383) say of the offset registers and the count, and what
an iteration leaves in them. -/

namespace Sys2Proof.Machine

theorem disjointRegs_ne {xs ys : List Reg} (h : disjointRegs xs ys = true) {x y : Reg} (hx : x ∈ xs) (hy : y ∈ ys) :
    x ≠ y := by
  simp only [disjointRegs, List.all_eq_true, Bool.not_eq_true'] at h
  rintro rfl
  have := h x hx
  simp_all

variable (s : State)

/-- The offset registers of a string compare or block move and its count are three registers. -/
theorem moveOk_ne {p r d : Reg} (h : moveOk s.segmented p r d = true) :
    s.offReg p ≠ r ∧ s.offReg d ≠ r ∧ s.offReg p ≠ s.offReg d := by
  simp only [moveOk, Bool.and_eq_true] at h
  obtain ⟨⟨⟨⟨_, _⟩, h1⟩, h2⟩, h3⟩ := h
  exact ⟨disjointRegs_ne h1 (s.offReg_mem p) (by simp), disjointRegs_ne h2 (s.offReg_mem d) (by simp),
    disjointRegs_ne h3 (s.offReg_mem p) (s.offReg_mem d)⟩

theorem compareOk_ne {z : Size} {p r d : Reg} (h : compareOk z s.segmented p r d = true) : s.offReg p ≠ r := by
  simp only [compareOk, Bool.and_eq_true] at h
  exact disjointRegs_ne h.1.1.2 (s.offReg_mem p) (by simp)

theorem blockIoOk_ne {m p r : Reg} (h : blockIoOk s.segmented m p r = true) : s.offReg m ≠ r := by
  simp only [blockIoOk, Bool.and_eq_true] at h
  exact disjointRegs_ne h.1.1.2 (s.offReg_mem m) (by simp)

/-- In a translate instruction R1, which holds RH1, is neither an offset register nor the count. -/
theorem translateOk_ne {d r q : Reg} (h : translateOk s.segmented d r q = true) :
    s.offReg q ≠ r ∧ s.offReg d ≠ r ∧ s.offReg q ≠ s.offReg d ∧ s.offReg d ≠ 1 ∧ r ≠ 1 := by
  simp only [translateOk, Bool.and_eq_true] at h
  obtain ⟨⟨⟨⟨hm, hd⟩, _⟩, _⟩, hr⟩ := h
  obtain ⟨h1, h2, h3⟩ := moveOk_ne s hm
  refine ⟨h1, h2, h3, ?_, by simpa using hr⟩
  simp only [moveOk, Bool.and_eq_true, addrRegOk, nonzero] at hm
  obtain ⟨⟨⟨⟨_, h0, _⟩, _⟩, _⟩, _⟩ := hm
  simp only [State.offReg]
  split
  · have key : ∀ x : Reg, (x != 0) = true → x + 1 ≠ 1 := by decide
    exact key d h0
  · simpa using hd

/-- What an iteration leaves in an offset register and in the count, other than each other. -/
theorem State.reg_iterated (p r q : Reg) (w : Word) :
    ((s.bump p w).countDown r).reg q =
      if q = r then (s.bump p w).reg r - 1 else if q = s.offReg p then s.reg q + w else s.reg q := by
  simp only [State.countDown, State.reg_setReg]
  split
  · rfl
  · simp only [State.bump, State.reg_setReg]
    split
    · next h => rw [h]
    · rfl

theorem stride_add (z : Size) (up : Bool) (x : Word) :
    x + stride z up = if up then x + BitVec.ofNat 16 z.bytes else x - BitVec.ofNat 16 z.bytes := by
  cases up
  · exact (BitVec.sub_eq_add_neg _ _).symm
  · rfl

/-- The end of an iteration (R332). -/
theorem blockEnd_endBlock {t : State} (h : t.pc = s.pc) (rep ended : Bool) :
    (t.endBlock rep ended).pc = if rep && !ended then s.pc else s.pc + 4 := by
  simp only [State.endBlock, h]

end Sys2Proof.Machine
end

