-- ==== Sys2Proof/Laws/Decode.lean ====
section
/-! SUPPORT. The fields of the words that the encoder writes, and what the operand parsers read from the operand words that
it writes. -/

namespace Sys2Proof

/-! ### Fields -/

/-- Bits of a word put together from four 4-bit fields. -/
theorem four_fields (a b c d : BitVec 4) (i : Nat) (hi : i < 16) :
    (a ++ b ++ c ++ d : Word).getLsbD i =
      if i < 4 then d.getLsbD i else if i < 8 then c.getLsbD (i - 4) else if i < 12 then b.getLsbD (i - 8)
      else a.getLsbD (i - 12) := by
  have h1 := BitVec.getLsbD_append (x := a ++ b ++ c) (y := d) (i := i)
  have h2 := BitVec.getLsbD_append (x := a ++ b) (y := c) (i := i - 4)
  have h3 := BitVec.getLsbD_append (x := a) (y := b) (i := i - 4 - 4)
  refine h1.trans ?_
  split
  · rfl
  · refine h2.trans ?_
    split
    · rw [if_pos (by omega)]
    · rw [if_neg (by omega)]
      refine h3.trans ?_
      split
      · rw [if_pos (by omega)]
        congr 1
      · rw [if_neg (by omega)]
        congr 1

theorem firstWord_bits (m : BitVec 2) (op : BitVec 6) (a b : BitVec 4) (i : Nat) :
    (firstWord m op a b).getLsbD i =
      if i < 4 then b.getLsbD i else if i < 8 then a.getLsbD (i - 4) else if i < 14 then op.getLsbD (i - 8)
      else m.getLsbD (i - 14) := by
  have h1 := BitVec.getLsbD_append (x := m ++ op ++ a) (y := b) (i := i)
  have h2 := BitVec.getLsbD_append (x := m ++ op) (y := a) (i := i - 4)
  have h3 := BitVec.getLsbD_append (x := m) (y := op) (i := i - 4 - 4)
  refine h1.trans ?_
  split
  · rfl
  · refine h2.trans ?_
    split
    · rw [if_pos (by omega)]
    · rw [if_neg (by omega)]
      refine h3.trans ?_
      split
      · rw [if_pos (by omega)]
        congr 1
      · rw [if_neg (by omega)]
        congr 1

@[simp] theorem fieldMode_firstWord (m : BitVec 2) (op : BitVec 6) (a b : BitVec 4) :
    fieldMode (firstWord m op a b) = m := by
  refine BitVec.eq_of_getLsbD_eq fun i hi => ?_
  simp only [fieldMode, BitVec.getLsbD_extractLsb', hi, decide_true, Bool.true_and, firstWord_bits]
  rw [if_neg (by omega), if_neg (by omega), if_neg (by omega), Nat.add_sub_cancel_left]

@[simp] theorem fieldOp_firstWord (m : BitVec 2) (op : BitVec 6) (a b : BitVec 4) :
    fieldOp (firstWord m op a b) = op := by
  refine BitVec.eq_of_getLsbD_eq fun i hi => ?_
  simp only [fieldOp, BitVec.getLsbD_extractLsb', hi, decide_true, Bool.true_and, firstWord_bits]
  rw [if_neg (by omega), if_neg (by omega), if_pos (by omega), Nat.add_sub_cancel_left]

@[simp] theorem fieldA_firstWord (m : BitVec 2) (op : BitVec 6) (a b : BitVec 4) :
    fieldA (firstWord m op a b) = a := by
  refine BitVec.eq_of_getLsbD_eq fun i hi => ?_
  simp only [fieldA, BitVec.getLsbD_extractLsb', hi, decide_true, Bool.true_and, firstWord_bits]
  rw [if_neg (by omega), if_pos (by omega), Nat.add_sub_cancel_left]

@[simp] theorem fieldB_firstWord (m : BitVec 2) (op : BitVec 6) (a b : BitVec 4) :
    fieldB (firstWord m op a b) = b := by
  refine BitVec.eq_of_getLsbD_eq fun i hi => ?_
  simp only [fieldB, BitVec.getLsbD_extractLsb', hi, decide_true, Bool.true_and, firstWord_bits]
  rw [if_pos (by omega), Nat.zero_add]

theorem secondWord_bits (r a b : BitVec 4) (i : Nat) (hi : i < 16) :
    (secondWord r a b).getLsbD i =
      if i < 4 then b.getLsbD i else if i < 8 then a.getLsbD (i - 4) else if i < 12 then r.getLsbD (i - 8)
      else false := by
  rw [secondWord, four_fields _ _ _ _ _ hi]
  split <;> [skip; split <;> [skip; split]] <;> simp

@[simp] theorem fieldTop_secondWord (r a b : BitVec 4) : fieldTop (secondWord r a b) = 0 := by
  refine BitVec.eq_of_getLsbD_eq fun i hi => ?_
  simp only [fieldTop, BitVec.getLsbD_extractLsb', hi, decide_true, Bool.true_and]
  rw [secondWord_bits _ _ _ _ (by omega), if_neg (by omega), if_neg (by omega), if_neg (by omega)]
  simp

@[simp] theorem fieldX_secondWord (r a b : BitVec 4) : fieldX (secondWord r a b) = r := by
  refine BitVec.eq_of_getLsbD_eq fun i hi => ?_
  simp only [fieldX, BitVec.getLsbD_extractLsb', hi, decide_true, Bool.true_and]
  rw [secondWord_bits _ _ _ _ (by omega), if_neg (by omega), if_neg (by omega), if_pos (by omega),
    Nat.add_sub_cancel_left]

@[simp] theorem fieldA_secondWord (r a b : BitVec 4) : fieldA (secondWord r a b) = a := by
  refine BitVec.eq_of_getLsbD_eq fun i hi => ?_
  simp only [fieldA, BitVec.getLsbD_extractLsb', hi, decide_true, Bool.true_and]
  rw [secondWord_bits _ _ _ _ (by omega), if_neg (by omega), if_pos (by omega), Nat.add_sub_cancel_left]

@[simp] theorem fieldB_secondWord (r a b : BitVec 4) : fieldB (secondWord r a b) = b := by
  refine BitVec.eq_of_getLsbD_eq fun i hi => ?_
  simp only [fieldB, BitVec.getLsbD_extractLsb', hi, decide_true, Bool.true_and]
  rw [secondWord_bits _ _ _ _ (by omega), if_pos (by omega), Nat.zero_add]

@[simp] theorem lowByte_secondWord (r : BitVec 4) : lowByte (secondWord r 0 0) = 0 := by
  refine BitVec.eq_of_getLsbD_eq fun i hi => ?_
  simp only [lowByte, BitVec.getLsbD_extractLsb', hi, decide_true, Bool.true_and]
  rw [secondWord_bits _ _ _ _ (by omega)]
  split <;> [skip; split] <;> simp_all

@[simp] theorem Cond.ofBits_bits (c : Cond) : Cond.ofBits c.bits = c := by cases c <;> rfl

@[simp] theorem CtlReg.ofBits_bits (c : CtlReg) : CtlReg.ofBits c.bits = some c := by cases c <;> rfl

/-! ### Operand words -/

theorem Mem.mode_ne_modeR (m : Mem) : m.mode ≠ modeR := by
  cases m <;> simp [Mem.mode, modeIr, modeDa, modeR]

@[simp] theorem parseRegWord_secondWord (r : Reg) (ws : List Word) :
    parseRegWord (secondWord r 0 0 :: ws) = .ok (r, ws) := by
  simp only [parseRegWord, parseWord, bind, Except.bind, pure, Except.pure, fieldTop_secondWord, lowByte_secondWord,
    fieldX_secondWord, and_self, if_true]

@[simp] theorem parseLdmWord_secondWord (r n : BitVec 4) (ws : List Word) :
    parseLdmWord (secondWord r 0 n :: ws) = .ok ((r, n), ws) := by
  simp [parseLdmWord, parseWord, bind, Except.bind, pure, Except.pure]

@[simp] theorem parseBlockWord_secondWord (r a b : BitVec 4) (ws : List Word) :
    parseBlockWord (secondWord r a b :: ws) = .ok ((r, a, b), ws) := by
  simp [parseBlockWord, parseWord, bind, Except.bind, pure, Except.pure]

theorem parseImm_immWords (z : Size) (v : BitVec z.bits) (ws : List Word) :
    parseImm z (immWords z v ++ ws) = .ok (v, ws) := by
  cases z
  · have h : lowByte (v ++ v) = v := by
      refine BitVec.eq_of_getLsbD_eq fun i hi => ?_
      have ha := BitVec.getLsbD_append (x := v) (y := v) (i := i)
      rw [if_pos hi] at ha
      simp only [lowByte, BitVec.getLsbD_extractLsb', hi, decide_true, Bool.true_and, Nat.zero_add]
      exact ha
    exact congrArg (fun x : Byte => (Except.ok (x, ws) : Except DecodeError (Byte × List Word))) h
  · rfl
  · have h : (v.extractLsb' 16 16 ++ v.extractLsb' 0 16 : Long) = v := by
      refine BitVec.eq_of_getLsbD_eq fun i hi => ?_
      have ha := BitVec.getLsbD_append (x := v.extractLsb' 16 16) (y := v.extractLsb' 0 16) (i := i)
      refine ha.trans ?_
      split
      · next h => simp only [BitVec.getLsbD_extractLsb', h, decide_true, Bool.true_and, Nat.zero_add]
      · next h =>
        rw [BitVec.getLsbD_extractLsb', show 16 + (i - 16) = i by omega]
        simp [show i - 16 < 16 by omega]
    exact congrArg (fun x : Long => (Except.ok (x, ws) : Except DecodeError (Long × List Word))) h

/-- The fields of a segment word: a bit, the segment number, a byte (R122). -/
theorem segmentWord_bits (x : BitVec 1) (g : BitVec 7) (o : BitVec 8) :
    (x ++ g ++ o : Word).msb = x.getLsbD 0 ∧ (x ++ g ++ o : Word).extractLsb' 8 7 = g ∧ lowByte (x ++ g ++ o) = o := by
  have h1 : ∀ i, (x ++ g ++ o : Word).getLsbD i = if i < 8 then o.getLsbD i else (x ++ g).getLsbD (i - 8) :=
    fun i => BitVec.getLsbD_append (x := x ++ g) (y := o) (i := i)
  have h2 : ∀ i, (x ++ g).getLsbD i = if i < 7 then g.getLsbD i else x.getLsbD (i - 7) :=
    fun i => BitVec.getLsbD_append (x := x) (y := g) (i := i)
  refine ⟨?_, BitVec.eq_of_getLsbD_eq fun i hi => ?_, BitVec.eq_of_getLsbD_eq fun i hi => ?_⟩
  · rw [BitVec.msb_eq_getLsbD_last]
    exact ((h1 15).trans (if_neg (by omega))).trans ((h2 7).trans (if_neg (by omega)))
  · rw [BitVec.getLsbD_extractLsb']
    simp only [hi, decide_true, Bool.true_and]
    refine ((h1 _).trans (if_neg (by omega))).trans ((h2 _).trans ?_)
    rw [if_pos (by omega), Nat.add_sub_cancel_left]
  · rw [lowByte, BitVec.getLsbD_extractLsb']
    simp only [hi, decide_true, Bool.true_and, Nat.zero_add]
    exact (h1 i).trans (if_pos hi)

theorem parseAddr_words (seg : Bool) (a : AbsAddr) (ws : List Word) (h : a.ok seg = true) :
    parseAddr seg (a.words ++ ws) = .ok (a, ws) := by
  cases a with
  | near off =>
    have : seg = false := by simpa [AbsAddr.ok] using h
    subst this
    rfl
  | short g o =>
    have : seg = true := h
    subst this
    obtain ⟨h1, h2, h3⟩ := segmentWord_bits 0#1 g o
    simp only [AbsAddr.words, List.cons_append, List.nil_append, parseAddr, parseWord, bind, Except.bind, pure,
      Except.pure]
    simp [h1, h2, h3]
  | long g off =>
    have : seg = true := h
    subst this
    obtain ⟨h1, h2, h3⟩ := segmentWord_bits 1#1 g 0#8
    simp only [AbsAddr.words, List.cons_append, List.nil_append, parseAddr, parseWord, bind, Except.bind, pure,
      Except.pure]
    simp [h1, h2, h3]

theorem parseMem_words (seg : Bool) (m : Mem) (ws : List Word) (h : m.ok seg = true) :
    parseMem seg m.mode m.field (m.words ++ ws) = .ok (m, ws) := by
  cases m with
  | ir r => rfl
  | da a =>
    have := parseAddr_words seg a ws h
    simp [parseMem, Mem.mode, Mem.field, Mem.words, modeIr, modeDa, this, bind, Except.bind, pure, Except.pure]
  | x a r =>
    simp only [Mem.ok, Bool.and_eq_true] at h
    have := parseAddr_words seg a ws h.1
    have hr : r ≠ 0 := by simpa [nonzero] using h.2
    simp [parseMem, Mem.mode, Mem.field, Mem.words, modeIr, modeDa, this, bind, Except.bind, pure, Except.pure]
    exact if_neg hr

theorem parseDst_words (seg : Bool) (z : Size) (d : Dst) (ws : List Word) (h : d.ok z seg = true) :
    parseDst seg d.mode d.field (d.words ++ ws) = .ok (d, ws) := by
  cases d with
  | reg r => rfl
  | mem m =>
    have := parseMem_words seg m ws h
    simp [parseDst, Dst.mode, Dst.field, Dst.words, m.mode_ne_modeR, this, bind, Except.bind, pure, Except.pure]

theorem parseSrc_words (seg : Bool) {z : Size} (src : Src z) (ws : List Word) (h : src.ok seg = true) :
    parseSrc z seg src.mode src.field (src.words ++ ws) = .ok (src, ws) := by
  cases src with
  | reg r => rfl
  | imm v =>
    have := parseImm_immWords z v ws
    simp [parseSrc, Src.mode, Src.field, Src.words, modeIr, modeR, this, bind, Except.bind, pure, Except.pure]
  | mem m =>
    have hm := parseMem_words seg m ws h
    have hne : ¬(m.mode = modeIr ∧ m.field = 0) := by
      rintro ⟨h1, h2⟩
      cases m with
      | ir r =>
        simp only [Src.ok, Mem.ok, addrRegOk, nonzero, Bool.and_eq_true] at h
        exact absurd h2 (by simpa using h.1 : ¬r = 0)
      | da a => exact absurd h1 (by simp [Mem.mode, modeDa, modeIr])
      | x a r => exact absurd h1 (by simp [Mem.mode, modeDa, modeIr])
    simp only [parseSrc, Src.mode, Src.field, Src.words, m.mode_ne_modeR, hne, if_false, hm, bind, Except.bind, pure,
      Except.pure]

end Sys2Proof
end

