-- ==== Sys2Proof/Laws/Exceptions.lean ====
section
/-! SUPPORT. Loading the FCW, the frame of an entry, taking an exception and the program status it loads. -/

namespace Sys2Proof.Machine

variable (s : State)

/-! ### Loading the FCW (R33, R416, U1) -/

theorem State.getLsbD_reserved (mask v : Word) (i : Nat) :
    (mask.getLsbD i = false → (s.reserved mask v).getLsbD i = v.getLsbD i)
      ∧ (v.getLsbD i = false → (s.reserved mask v).getLsbD i = false) := by
  unfold State.reserved
  split
  · exact ⟨fun _ => rfl, id⟩
  · refine ⟨fun h => ?_, fun h => ?_⟩
    · by_cases hi : i < 16
      · simp only [BitVec.getLsbD_or, BitVec.getLsbD_and, BitVec.getLsbD_not, hi, h]
        simp
      · rw [BitVec.getLsbD_of_ge _ _ (by omega), BitVec.getLsbD_of_ge _ _ (by omega)]
    · simp only [BitVec.getLsbD_or, BitVec.getLsbD_and, h]
      simp

theorem State.getLsbD_fcwBits (v : Word) (i : Nat) (hi : i < 16) :
    (s.fcwBits v).getLsbD i = (v.getLsbD i && (i != 15 || s.isZ8001)) := by
  unfold State.fcwBits
  split
  · next h => simp [h]
  · next h =>
    rw [BitVec.getLsbD_and]
    interval_cases i <;> simp [h]

/-- What loading the FCW does. -/
theorem fcwLoaded_writeFcw {t : State} (w : Word) (hp : t.platform = s.platform) :
    FcwLoaded s (t.writeFcw w) w := by
  intro i hi
  have h := t.getLsbD_reserved 0x0703 w i
  have hz : t.isZ8001 = s.isZ8001 := State.isZ8001_congr hp
  show if fcwReservedBit i = true then _ → (t.fcwBits (t.reserved 0x0703 w)).getLsbD i = false
    else (t.fcwBits (t.reserved 0x0703 w)).getLsbD i = _
  rw [t.getLsbD_fcwBits _ i hi, hz]
  split
  · intro hw
    rw [h.2 hw]
    rfl
  · next hr =>
    rw [h.1]
    have : ∀ i < 16, fcwReservedBit i = false → (0x0703 : Word).getLsbD i = false := by decide
    exact this i hi (by simpa using hr)

theorem fcwLoaded_congr {t u : State} {w : Word} (h : FcwLoaded s t w) (hf : u.fcw = t.fcw) : FcwLoaded s u w := by
  simpa [FcwLoaded, hf] using h

/-! ### The system stack (R470, R471) -/

/-- The cells of `n` words below the system stack pointer, the first `k` left out. -/
def State.belowCells (s : State) (k n : Nat) : List Nat :=
  (List.range n).flatMap fun j => s.cells systemStack (s.belowSystemSp (k + 1 + j)) .w

theorem State.belowCells_succ (k n : Nat) :
    s.belowCells k (n + 1) = s.cells systemStack (s.belowSystemSp (k + 1)) .w ++ s.belowCells (k + 1) n := by
  simp only [State.belowCells, List.range_succ_eq_map, List.flatMap_cons, List.flatMap_map, Nat.add_zero]
  congr 2
  funext j
  rw [show k + 1 + j.succ = k + 1 + 1 + j by omega]

theorem State.frameCells_eq : s.frameCells = s.belowCells 0 s.frameLength := by
  simp only [State.frameCells, State.belowCells, Nat.zero_add, Nat.add_comm]

/-- Where the map has no windows the bytes of an entry's frame have cells of their own. -/
theorem State.nodup_frameCells (hw : s.platform.memoryMap.windows = []) : s.frameCells.Nodup := by
  have key : ∀ k, k < 5 → (-BitVec.ofNat 16 (2 * k)).toNat = (65536 - 2 * k) % 65536 := fun k hk => by
    simp only [BitVec.toNat_neg, BitVec.toNat_ofNat]
    omega
  have hlen : s.frameLength ≤ 4 := by
    unfold State.frameLength
    split <;> omega
  have h1 : (1 : Word).toNat = 1 := rfl
  have hlt := s.systemSp.off.isLt
  refine List.nodup_flatMap.mpr ⟨fun k _ => s.nodup_cells hw .w _ _, ?_⟩
  refine List.Pairwise.imp_of_mem ?_ List.nodup_range
  intro j k hj hk hjk x hx hy
  simp only [List.mem_range] at hj hk
  simp only [State.cells, List.mem_cons, List.not_mem_nil, or_false] at hx hy
  rcases hx with rfl | rfl <;> rcases hy with h | h <;> revert h <;> refine s.cell_ne hw rfl ?_ <;>
    simp only [State.belowSystemSp, Addr.add_off, Addr.even_off, key _ (show j + 1 < 5 by omega),
      key _ (show k + 1 < 5 by omega), h1] <;> omega

theorem State.belowSystemSp_eq {s t : State} (k : Nat) (hp : t.platform = s.platform) (hr : t.regs = s.regs) :
    t.belowSystemSp k = s.belowSystemSp k := by
  simp only [State.belowSystemSp, State.systemSp, State.isZ8001_congr hp, hr]

/-- One push on the system stack. -/
theorem pushSystem_spec (k : Nat) (t : State) (v : Word) (hp : t.platform = s.platform)
    (h15 : t.regs = s.regs.set 15 (s.belowSystemSp k).off) :
    t.pushSystem v =
      State.pokeWord { t with regs := s.regs.set 15 (s.belowSystemSp (k + 1)).off } systemStack
        (s.belowSystemSp (k + 1)) v := by
  have hsp : t.systemSp.add (-2) = s.belowSystemSp (k + 1) := by
    simp only [State.systemSp, State.belowSystemSp, State.isZ8001_congr hp, h15, Addr.add]
    have ha : ∀ x : Word, x + -BitVec.ofNat 16 (2 * k) + -BitVec.ofNat 16 2 = x + -BitVec.ofNat 16 (2 * (k + 1)) :=
      fun x => by rw [Nat.mul_add, BitVec.ofNat_add, BitVec.neg_add, BitVec.sub_eq_add_neg, BitVec.add_assoc,
        Nat.mul_one]
    have h14 : ∀ x, (s.regs.set 15 x)[14] = s.regs[14] := fun x => by simp
    simp only [Vector.getElem_set_self, h14]
    exact congrArg (Addr.mk _) (ha _)
  unfold State.pushSystem
  rw [hsp, h15]
  congr 2
  simp

/-- Everything that pushes on the system stack leave as it was. -/
def SameButStack (t u : State) : Prop :=
  u = { t with regs := u.regs, mem := u.mem }

/-- Pushing words on the system stack, the first `k` words of it being used already: where storage answers their cells
they read back, and no other byte has changed. -/
theorem pushAll_spec (ws : List Word) : ∀ (k : Nat) (t : State),
    t.platform = s.platform → t.regs = s.regs.set 15 (s.belowSystemSp k).off →
    let u := ws.foldl State.pushSystem t
    SameButStack t u ∧ u.regs = s.regs.set 15 (s.belowSystemSp (k + ws.length)).off
      ∧ SameMemoryBut t u (s.belowCells k ws.length)
      ∧ (Storage s (s.belowCells k ws.length) → ∀ j (hj : j < ws.length),
          u.peekWord systemStack (s.belowSystemSp (k + 1 + j)) = ws[j]) := by
  induction ws with
  | nil =>
    intro k t hp h15
    exact ⟨rfl, h15, fun _ _ _ => rfl, fun _ j hj => absurd hj (Nat.not_lt_zero j)⟩
  | cons w ws ih =>
    intro k t hp h15
    have h1 := pushSystem_spec s k t w hp h15
    have hp1 : (t.pushSystem w).platform = s.platform := by rw [h1]; simpa using hp
    obtain ⟨i1, i2, i3, i4⟩ := ih (k + 1) (t.pushSystem w) hp1 (by rw [h1]; simp)
    have hfirst : SameMemoryBut t (t.pushSystem w) (s.cells systemStack (s.belowSystemSp (k + 1)) .w) := by
      have h := State.sameMemoryBut_poke { t with regs := s.regs.set 15 (s.belowSystemSp (k + 1)).off } .w systemStack
        (s.belowSystemSp (k + 1)) w
      rw [cells_congr s (t := { t with regs := s.regs.set 15 (s.belowSystemSp (k + 1)).off }) hp] at h
      rw [h1]
      exact h
    simp only [List.foldl_cons, List.length_cons, State.belowCells_succ]
    refine ⟨?_, ?_, fun sp a hn => ?_, fun hs j hj => ?_⟩
    · simp only [SameButStack] at i1 ⊢
      rw [i1, h1]
      rfl
    · rw [i2]
      congr 3
      omega
    · simp only [List.mem_append, not_or] at hn
      refine (i3 sp a ?_).trans (hfirst sp a hn.1)
      rw [State.cell_congr hp1, ← State.cell_congr hp]
      exact hn.2
    · obtain ⟨hs1, hs2, hd⟩ := storage_append hs
      cases j with
      | zero =>
        have hread : (t.pushSystem w).peekWord systemStack (s.belowSystemSp (k + 1)) = w := by
          rw [h1]
          refine State.peekWord_pokeWord _ _ ?_
          simp only [Present, cells_congr s (t := { t with regs := s.regs.set 15 (s.belowSystemSp (k + 1)).off }) hp]
          exact (storage_congr s (by exact hp)).mpr hs1
        refine Eq.trans (peekWord_sameMemoryBut _ i3 fun c hc => hd c ?_) hread
        rwa [cells_congr s hp1] at hc
      | succ j =>
        rw [show k + 1 + (j + 1) = k + 1 + 1 + j by omega]
        exact i4 hs2 j (by simpa using hj)

theorem segOf_segWord (d : Draw) (g : BitVec 7) : segOf (s.segWord d g) = g := by
  refine BitVec.eq_of_getLsbD_eq fun i hi => ?_
  simp only [segOf, State.segWord, BitVec.getLsbD_extractLsb', hi, decide_true, Bool.true_and]
  have h1 := BitVec.getLsbD_append (x := (s.draw d 16).extractLsb' 15 1 ++ g) (y := (s.draw d 16).extractLsb' 0 8)
    (i := 8 + i)
  have h2 := BitVec.getLsbD_append (x := (s.draw d 16).extractLsb' 15 1) (y := g) (i := i)
  rw [if_neg (by omega), Nat.add_sub_cancel_left, h2, if_pos hi] at h1
  exact h1

theorem State.frame_length (saved : Addr) (ident : Word) : (s.frame saved ident).length = s.frameLength := by
  unfold State.frame State.frameLength
  split <;> rfl

/-- Steps 3 and 4 of R470: what saving the status leaves (R471, R472). -/
theorem saveStatus_spec (saved : Addr) (ident : Word) {t : State}
    (hm : t.peekByte = (s.saveStatus saved ident).peekByte) (hr : t.regs = (s.saveStatus saved ident).regs) :
    FramePushed s t saved ident ∧ SameButStack { s with fcw := s.fcw ||| 0x4000 } (s.saveStatus saved ident) := by
  have h15 : ({ s with fcw := s.fcw ||| 0x4000 } : State).regs = s.regs.set 15 (s.belowSystemSp 0).off := by
    have h0 : (s.belowSystemSp 0).off = s.regs[15] := by simp [State.belowSystemSp, State.systemSp, Addr.add]
    rw [h0]
    exact (Vector.set_getElem_self _).symm
  obtain ⟨h1, h2, h3, h4⟩ := pushAll_spec s (s.frame saved ident) 0 { s with fcw := s.fcw ||| 0x4000 } rfl h15
  have hc : s.belowCells 0 (s.frame saved ident).length = s.frameCells := by rw [s.frame_length, ← s.frameCells_eq]
  rw [hc] at h3 h4
  rw [s.frame_length, Nat.zero_add] at h2
  refine ⟨⟨fun hs => ?_, fun sp a hn => ?_, hr.trans h2⟩, h1⟩
  · have hw : ∀ j (hj : j < (s.frame saved ident).length),
        t.peekWord systemStack (s.belowSystemSp (j + 1)) = (s.frame saved ident)[j] := fun j hj => by
      have := h4 hs j hj
      rw [Nat.zero_add, Nat.add_comm] at this
      rw [State.peekWord_congr hm]
      exact this
    unfold FrameWords
    by_cases hz : s.isZ8001 = true
    · have hf : s.frame saved ident = [saved.off, s.segWord .entrySegment saved.seg, s.readFcw, ident] := by
        simp only [State.frame, hz, if_true]
      simp only [hf] at hw
      rw [if_pos hz]
      refine ⟨hw 0 (by simp), (congrArg segOf (hw 1 (by simp))).trans (segOf_segWord s _ _), (hw 2 (by simp)).trans ?_,
        hw 3 (by simp)⟩
      show s.readFcw = s.fcw
      simp only [State.readFcw, State.fcwBits, hz, if_true]
    · have hf : s.frame saved ident = [saved.off, s.readFcw, ident] := by
        simp only [State.frame, hz, if_false, Bool.false_eq_true]
      simp only [hf] at hw
      rw [if_neg hz]
      refine ⟨hw 0 (by simp), (hw 1 (by simp)).trans ?_, hw 2 (by simp)⟩
      show s.readFcw = s.fcw &&& 0x7FFF
      simp only [State.readFcw, State.fcwBits, hz, if_false, Bool.false_eq_true]
  · rw [hm]
    exact h3 sp a hn

/-- What taking an exception does (R470 steps 3 to 6). -/
theorem entered_enter (c : Cause) (ident : Word) (saved : Addr) {t : State}
    (h : s.enter c ident saved = .next t) :
    Entered s t c ident saved ∧ SameSpecials s t ∧ s.accessOk .w s.systemSp = true := by
  obtain ⟨hok, rfl⟩ := whenAligned_next h
  obtain ⟨hf, hs⟩ := saveStatus_spec s saved ident
    (t := (s.saveStatus saved ident).loadStatus c ident)
    (State.peekByte_congr (by simp [State.loadStatus]) (by simp [State.loadStatus]) (by simp [State.loadStatus]))
    (by simp [State.loadStatus])
  have hplat : (s.saveStatus saved ident).platform = s.platform := by rw [hs]
  have hz : (s.saveStatus saved ident).isZ8001 = s.isZ8001 := State.isZ8001_congr hplat
  have hseg : (s.saveStatus saved ident).pcSeg = s.pcSeg := by rw [hs]
  have hpw : ∀ u : State, u.platform = (s.saveStatus saved ident).platform →
      u.mem = (s.saveStatus saved ident).mem → u.tick = (s.saveStatus saved ident).tick →
      u.psapSeg = (s.saveStatus saved ident).psapSeg → u.psapOff = (s.saveStatus saved ident).psapOff →
      u.psaWord = (s.saveStatus saved ident).psaWord := fun u h1 h2 h3 h4 h5 => by
    funext off
    simp only [State.psaWord, State.psaBase, State.peekWord_congr (State.peekByte_congr h1 h2 h3), h4, h5,
      State.isZ8001_congr h1]
  have hpsa := hpw ((s.saveStatus saved ident).loadStatus c ident) (by simp [State.loadStatus])
    (by simp [State.loadStatus]) (by simp [State.loadStatus]) (by simp [State.loadStatus]) (by simp [State.loadStatus])
  have hzt : ((s.saveStatus saved ident).loadStatus c ident).isZ8001 = (s.saveStatus saved ident).isZ8001 :=
    State.isZ8001_congr (by simp [State.loadStatus])
  refine ⟨⟨hf, ?_, ?_, ?_, ?_⟩, ?_, hok⟩
  · simp only [State.loadStatus, State.writeFcw_normalR14, State.setPc_normalR14]
    rw [hs]
  · simp only [State.loadStatus, State.writeFcw_normalR15, State.setPc_normalR15]
    rw [hs]
  · have hl : FcwLoaded s ((s.saveStatus saved ident).loadStatus c ident) ((s.saveStatus saved ident).psaFcw c) :=
      fcwLoaded_writeFcw s _ (by simpa using hplat)
    have he : ((s.saveStatus saved ident).loadStatus c ident).psaFcw c = (s.saveStatus saved ident).psaFcw c := by
      simp only [State.psaFcw, hpsa, hzt]
    rwa [he]
  · have he : ((s.saveStatus saved ident).loadStatus c ident).psaPc c ident = (s.saveStatus saved ident).psaPc c ident := by
      simp only [State.psaPc, hpsa, hzt]
    rw [he]
    refine ⟨by simp [State.loadStatus, State.setPc], ?_⟩
    simp only [State.loadStatus, State.writeFcw_pcSeg, State.setPc, hz, hseg]
  · simp only [SameSpecials, SameInternals, State.loadStatus]
    rw [hs]
    simp

theorem wf_pushAll (ws : List Word) : ∀ t : State, t.mem.wf = true → (ws.foldl State.pushSystem t).mem.wf = true := by
  induction ws with
  | nil => exact fun t h => h
  | cons w ws ih => exact fun t h => ih _ (State.wf_pokeWord _ _ _ _ h)

/-- Taking an exception keeps the canonical form of memory. -/
theorem wf_enter (c : Cause) (ident : Word) (saved : Addr) {t : State} (h : s.enter c ident saved = .next t)
    (hw : s.mem.wf = true) : t.mem.wf = true := by
  obtain ⟨_, rfl⟩ := whenAligned_next h
  simp only [State.loadStatus, State.writeFcw_mem, State.setPc_mem]
  exact wf_pushAll (s.frame saved ident) { s with fcw := s.fcw ||| 0x4000 } hw

end Sys2Proof.Machine
end

