-- ==== Sys2Proof/Laws/Step.lean ====
section
/-! SUPPORT. What a step can do, said once: the holds, the entry of a request, one instruction. -/

namespace Sys2Proof.Machine

variable (s : State)

/-- A privileged instruction in normal mode is the entry of its trap (R462). -/
theorem privileged_normal (i : Instr) (e : Result) (h : s.system = false) :
    s.privileged i e = s.enter (.trap .privileged) i.identifier (s.pcAddr.add 2) := by
  simp only [State.privileged, h, Bool.false_eq_true, if_false]

theorem privileged_system (i : Instr) (e : Result) (h : s.system = true) : s.privileged i e = e := by
  simp only [State.privileged, h, if_true]

/-- What a bus requester's step does: it is granted the bus, or its writes are made and nothing else changes (R91). -/
theorem busRequest_cases :
    (s.busGranted = false ∧ s.busRequest = { s with busGranted := true })
      ∨ (s.busGranted = true
        ∧ s.busRequest = { s with pins := { s.pins with dma := [] }, mem := s.busRequest.mem }
        ∧ SameMemoryBut s s.busRequest (s.pins.dma.map fun w => s.cell w.space w.addr)
        ∧ (s.mem.wf = true → s.busRequest.mem.wf = true)) := by
  by_cases hg : s.busGranted = true
  · refine .inr ⟨hg, ?_⟩
    have key : ∀ (ws : List BusWrite) (t : State),
        let u := ws.foldl (fun t w => t.pokeByte w.space w.addr w.value) t
        u = { t with mem := u.mem } ∧ SameMemoryBut t u (ws.map fun w => t.cell w.space w.addr)
          ∧ (t.mem.wf = true → u.mem.wf = true) := by
      intro ws
      induction ws with
      | nil => exact fun t => ⟨rfl, fun _ _ _ => rfl, id⟩
      | cons w ws ih =>
        intro t
        obtain ⟨h1, h2, h3⟩ := ih (t.pokeByte w.space w.addr w.value)
        refine ⟨?_, fun sp a hn => ?_, fun hw => h3 (State.wf_pokeByte _ _ _ _ hw)⟩
        · rw [List.foldl_cons, h1]
          rfl
        · simp only [List.map_cons, List.mem_cons, not_or] at hn
          exact (h2 sp a hn.2).trans (State.peekByte_pokeByte_other t hn.1 _)
    obtain ⟨h1, h2, h3⟩ := key s.pins.dma s
    refine ⟨?_, ?_, ?_⟩
    · simp only [State.busRequest, hg, if_true]
    · rw [h1] at h2
      simp only [State.busRequest, hg, if_true]
      exact h2
    · simp only [State.busRequest, hg, if_true]
      exact h3
  · simp only [Bool.not_eq_true] at hg
    exact .inl ⟨hg, by simp only [State.busRequest, hg, Bool.false_eq_true, if_false]⟩

theorem afterwards_next {r : Result} {f : State → State} {t : State} (h : afterwards r f = .next t) :
    ∃ u, r = .next u ∧ t = f u := by
  cases r with
  | next u => exact ⟨u, rfl, by injection h with h; exact h.symm⟩
  | fault e => cases h
  | refused e => cases h

/-- A step that holds the CPU, or waits. -/
def Held (s u : State) : Prop :=
  u = s.resetLow ∨ u = s.busRequest ∨ u = { s with busGranted := false } ∨ u = s
    ∨ u = s.resetReads.afterCycles s.resetCycles ∨ u = s.drawRow.afterCycles [.refresh]
    ∨ u = s.afterCycles [.internal]

/-- Everything a step that answers a next state can have done: it held the CPU, entered a request, ran one instruction, or
took the privileged-instruction trap of a first word whose later words are no instruction. -/
theorem cycle_cases {ex : Instr → State → Result} {t : State} (h : s.cycle ex = .next t) :
    (∃ u, Held s u ∧ t = u.settle)
      ∨ (∃ r u, s.enterRequest r = .next u ∧ t = (u.afterCycles (s.requestCycles r)).settle)
      ∨ (∃ i n u, s.runs i = true ∧ ex i s = .next u ∧ t = s.finish n (s.stepCycles i n) u)
      ∨ ∃ u, s.enter (.trap .privileged) s.firstCodeWord (s.pcAddr.add 2) = .next u
          ∧ t = s.finish 2 (s.fetchCycles 1 ++ s.entryCycles (.trap .privileged) s.firstCodeWord) u := by
  have held : ∀ {u : State}, Held s u → (.next u.settle : Result) = .next t → ∃ u, Held s u ∧ t = u.settle :=
    fun {u} hu he => ⟨u, hu, by injection he with he; exact he.symm⟩
  simp only [State.cycle] at h
  split at h
  · exact .inl (held (.inl rfl) h)
  split at h
  · exact .inl (held (.inr (.inl rfl)) h)
  split at h
  · exact .inl (held (.inr (.inr (.inl rfl))) h)
  split at h
  · exact .inl (held (.inr (.inr (.inr (.inl rfl)))) h)
  split at h
  · exact .inl (held (.inr (.inr (.inr (.inr (.inl rfl))))) h)
  split at h
  · exact .inl (held (.inr (.inr (.inr (.inr (.inr (.inl rfl)))))) h)
  split at h
  · next r _ =>
    obtain ⟨u, hu, ht⟩ := afterwards_next h
    exact .inr (.inl ⟨r, u, hu, ht⟩)
  · split at h
    · split at h
      · next r _ =>
        obtain ⟨u, hu, ht⟩ := afterwards_next h
        exact .inr (.inl ⟨r, u, hu, ht⟩)
      · exact .inl (held (.inr (.inr (.inr (.inr (.inr (.inr rfl)))))) h)
    · simp only [State.runInstruction] at h
      split at h
      · cases h
      · split at h
        · next i rest _ =>
          split at h
          · next hr =>
            obtain ⟨u, hu, ht⟩ := afterwards_next h
            exact .inr (.inr (.inl ⟨i, _, u, hr, hu, ht⟩))
          · cases h
        · split at h
          · obtain ⟨u, hu, ht⟩ := afterwards_next h
            exact .inr (.inr (.inr ⟨u, hu, ht⟩))
          · cases h
        · cases h
        · cases h

/-- What the step of an agent other than the CPU can change (R10): the pins, the NMI detector and the step counter; a
refresh cycle the row and the list of cycles instead of the pins. -/
theorem agentStep_cases (a : AgentAction) :
    s.agentStep a = ({ s with pins := s.pins.act a } : State).settle
      ∨ a = .refresh ∧ s.agentStep a = s.refreshCycle.settle
        ∧ (s.refreshCycle = s ∨ s.refreshCycle = { s.drawRow with bus := [.refresh] }) := by
  cases a
  case refresh =>
    refine .inr ⟨rfl, rfl, ?_⟩
    simp only [State.refreshCycle]
    split
    · exact .inr rfl
    · exact .inl rfl
  all_goals exact .inl rfl

/-- Everything a step of the machine can be: a step of the CPU, with the turns after it kept, or one of another agent. -/
theorem turn_cases {ex : Instr → State → Result} {t : State} (h : s.turn ex = .next t) :
    (s.turns = [] ∧ s.cycle ex = .next t)
      ∨ (∃ rest u, s.turns = .cpu :: rest ∧ ({ s with turns := [] } : State).cycle ex = .next u
          ∧ t = { u with turns := rest })
      ∨ ∃ a rest, s.turns = .agent a :: rest ∧ t = State.agentStep { s with turns := rest } a := by
  simp only [State.turn] at h
  split at h
  · next hn => exact .inl ⟨hn, h⟩
  · next rest hn =>
    obtain ⟨u, hu, ht⟩ := afterwards_next h
    exact .inr (.inl ⟨rest, u, hn, hu, ht⟩)
  · next a rest hn => exact .inr (.inr ⟨a, rest, hn, by injection h with h; exact h.symm⟩)

end Sys2Proof.Machine
end

