-- ==== Sys2Proof/Tests/Slice0.lean ====
section
/-! SUPPORT. Tests: ill-formed terms that `WellFormed` refuses, words written out from the encodings of spec/30_encoding.md
and spec/opcode_table.json, one step of the vectors of spec/95_test_vectors.md, and a witness for the hypotheses of every
statement. -/

namespace Sys2Proof.Tests

-- One theorem at a time: a hundred kernel checks side by side would need a thread each.
set_option Elab.async false

open Sys2Proof Sys2Proof.Machine

/-! ## WellFormed refuses (smoke test) -/

theorem test_ill_formed_registers :
    ([.addl 3 (.reg 2), .addl 2 (.reg 3), .mult 5 (.reg 2), .multl 6 (.reg 2), .divl 4 (.reg 1), .exts 3, .extsl 2,
      .testl (.reg 5), .pushl 15 (.reg 3), .popl (.reg 7) 15, .ldl (.reg 1 2), .ldrl .load 3 0, .slll 1 1,
      .sdll 1 2] : List Instr).all
      (fun i => !i.wellFormed false) = true := by decide +kernel

theorem test_ill_formed_addresses :
    ([.add 1 (.mem (.ir 0)), .add 1 (.mem (.x (.near 4) 0)), .add 1 (.mem (.da (.short 1 2))),
      .add 1 (.mem (.da (.long 1 2))), .ld (.load 1 (.ba 0 2)), .ld (.load 1 (.bx 0 2)), .ld (.load 1 (.bx 2 0)),
      .lda 1 (.mem (.ir 2)), .push 0 (.reg 1), .pop (.reg 1) 0, .jp .t (.ir 0), .inw 1 (.reg 0),
      .out (.reg 0) 1] : List Instr).all
      (fun i => !i.wellFormed false) = true := by decide +kernel

theorem test_ill_formed_segmented_addresses :
    ([.add 1 (.mem (.ir 3)), .add 1 (.mem (.da (.near 4))), .lda 3 (.mem (.da (.long 1 2))), .ldar 3 4,
      .push 15 (.reg 1), .ld (.load 1 (.ba 3 2))] : List Instr).all (fun i => !i.wellFormed true) = true := by
  decide +kernel

theorem test_ill_formed_immediates_and_counts :
    ([.ldl (.storeImm (.ir 2) 1), .ld (.compact 1 2), .cpl (.memImm (.ir 2) 1), .setb (.static (.reg 1) 8),
      .set (.dynamic 1 0), .sll 1 0xFFFF, .srl 1 4, .rldb 3 3] : List Instr).all
      (fun i => !i.wellFormed false) = true := by decide +kernel

theorem test_ill_formed_overlaps :
    ([.cpib 2 2 3 .eq, .cpib 2 3 10 .eq, .cpib 2 3 11 .eq, .ldi 2 3 2, .ldi 2 2 4, .ldi 2 4 4, .trib 1 2 3,
      .trib 2 1 3, .trib 2 3 2, .ini 2 2 4, .ini 2 3 2, .outi 2 3 0, .soutib 2 3 3] : List Instr).all
      (fun i => !i.wellFormed false) = true := by decide +kernel

theorem test_ill_formed_segmented_overlaps :
    ([.ldi 2 3 4, .ldi 2 5 4, .ini 2 5 4, .cpi 2 4 3 .eq] : List Instr).all (fun i => !i.wellFormed true) = true := by
  decide +kernel

/-! ## Words written out from the encodings -/

/-- Each row's words decode to its instruction, with nothing left over, and are its encoding. -/
def reads (rows : List (Bool × List Word × Instr)) : Bool :=
  rows.all fun r => decide (decode r.1 r.2.1 = .ok (r.2.2, [])) && decide (encode r.2.2 = r.2.1)

theorem test_decode_arithmetic_and_logic_1 : reads [
    (false, [0x8029], .addb 9 (.reg 2)), (false, [0x0101, 0x8001], .add 1 (.imm 0x8001)),
    (false, [0x0209, 0x5A5A], .subb 9 (.imm 0x5A)), (false, [0x03A1], .sub 1 (.mem (.ir 10))),
    (false, [0x4409, 0x6002], .orb 9 (.mem (.da (.near 0x6002)))),
    (false, [0x4531, 0x6002], .or 1 (.mem (.x (.near 0x6002) 3))),
    (false, [0x4639, 0x6002], .andb 9 (.mem (.x (.near 0x6002) 3))), (false, [0x8721], .and 1 (.reg 2)),
    (false, [0x08A9], .xorb 9 (.mem (.ir 10))), (false, [0x4901, 0x6002], .xor 1 (.mem (.da (.near 0x6002)))),
    (false, [0x1204, 0x8001, 0x0002], .subl 4 (.imm 0x80010002)), (false, [0x9624], .addl 4 (.reg 2)),
    (false, [0x5834, 0x6002], .multl 4 (.mem (.x (.near 0x6002) 3))), (false, [0x19A6], .mult 6 (.mem (.ir 10))),
    (false, [0x1A0C, 0x8001, 0x0002], .divl 12 (.imm 0x80010002)), (false, [0x9B26], .div 6 (.reg 2)),
    (false, [0x0C41, 0x0D0D], .cpb (.memImm (.ir 4) 0x0D)),
    (false, [0x4D41, 0x6002, 0x0100], .cp (.memImm (.x (.near 0x6002) 4) 0x0100)),
    (false, [0x9042], .cpl (.reg 2 (.reg 4)))] = true := by decide +kernel

theorem test_decode_load_and_exchange_1 : reads [
    (false, [0xC805], .ldb (.compact 8 0x05)), (false, [0x7249, 0x0500], .ldb (.store (.bx 4 5) 9)),
    (false, [0x6132, 0x5000], .ld (.load 2 (.mem (.x (.near 0x5000) 3)))),
    (false, [0x4D05, 0x5000, 0x1234], .ld (.storeImm (.da (.near 0x5000)) 0x1234)),
    (true, [0x2121], .ld (.load 1 (.mem (.ir 2)))),
    (true, [0x6F21, 0x0320], .ld (.store (.mem (.x (.short 3 0x20) 2)) 1)),
    (false, [0x3752, 0xFFFE], .ldl (.store (.ba 5 0xFFFE) 2)),
    (false, [0x1402, 0x1122, 0x3344], .ldl (.imm 2 0x11223344)), (false, [0x3009, 0x00FC], .ldrb .load 9 0x00FC),
    (false, [0x3301, 0xFF00], .ldr .store 1 0xFF00), (false, [0x3502, 0x0010], .ldrl .load 2 0x0010),
    (false, [0x7441, 0x0500], .lda 1 (.bx 4 5)),
    (true, [0x7602, 0x8500, 0x1234], .lda 2 (.mem (.da (.long 5 0x1234)))),
    (false, [0x3401, 0x000C], .ldar 1 0x000C), (false, [0xBD59], .ldk 5 9),
    (false, [0x5C01, 0x0E02, 0x6000], .ldm .load (.da (.near 0x6000)) 14 2),
    (false, [0x1C49, 0x010F], .ldm .store (.ir 4) 1 15), (false, [0x8C58], .clrb (.reg 5)),
    (false, [0x0D58], .clr (.mem (.ir 5))), (false, [0x91F2], .pushl 15 (.reg 2))] = true := by decide +kernel

theorem test_decode_load_and_exchange_2 : reads [
    (false, [0x0DF9, 0x1234], .push 15 (.imm 0x1234)),
    (false, [0x53E3, 0x6000], .push 14 (.mem (.x (.near 0x6000) 3))), (false, [0x15F4], .popl (.mem (.ir 4)) 15),
    (false, [0x97F1], .pop (.reg 1) 15), (false, [0xAC29], .exb 9 (.reg 2)),
    (false, [0x6D01, 0x6000], .ex 1 (.mem (.da (.near 0x6000))))] = true := by decide +kernel

theorem test_decode_single_operand_and_bits_1 : reads [
    (false, [0x8C90], .comb (.reg 9)), (false, [0x4D90, 0x6000], .com (.mem (.x (.near 0x6000) 9))),
    (false, [0x0C92], .negb (.mem (.ir 9))), (false, [0x8D92], .neg (.reg 9)),
    (false, [0x4C04, 0x6000], .testb (.mem (.da (.near 0x6000)))), (false, [0x0D94], .test (.mem (.ir 9))),
    (false, [0x9C28], .testl (.reg 2)), (false, [0x8C96], .tsetb (.reg 9)),
    (true, [0x4D06, 0x0320], .tset (.mem (.da (.short 3 0x20)))), (false, [0xA89F], .incb (.reg 9) 15),
    (false, [0x6990, 0x6000], .inc (.mem (.x (.near 0x6000) 9)) 0), (false, [0x2A93], .decb (.mem (.ir 9)) 3),
    (false, [0x6B03, 0x6000], .dec (.mem (.da (.near 0x6000))) 3), (false, [0xA297], .resb (.static (.reg 9) 7)),
    (false, [0x239F], .res (.static (.mem (.ir 9)) 15)),
    (false, [0x6401, 0x6000], .setb (.static (.mem (.da (.near 0x6000))) 1)),
    (false, [0x2504, 0x0300], .set (.dynamic 3 4)),
    (false, [0x6691, 0x6000], .bitb (.static (.mem (.x (.near 0x6000) 9)) 1)),
    (false, [0xA79F], .bit (.static (.reg 9) 15)),
    (false, [0x2604, 0x0B00], .bitb (.dynamic 11 4))] = true := by decide +kernel

theorem test_decode_single_operand_and_bits_2 : reads [
    (false, [0xAE91], .tccb .lt 9), (false, [0xAF9E], .tcc .ne 9), (false, [0xB080], .dab 8),
    (false, [0xB110], .extsb 1), (false, [0xB12A], .exts 2), (false, [0xB147], .extsl 4),
    (false, [0xB429], .adcb 9 2), (false, [0xB529], .adc 9 2), (false, [0xB629], .sbcb 9 2),
    (false, [0xB729], .sbc 9 2)] = true := by decide +kernel

theorem test_decode_rotates_and_shifts_1 : reads [
    (false, [0xBC29], .rrdb 9 2), (false, [0xBE29], .rldb 9 2), (false, [0xB290], .rlb 9 false),
    (false, [0xB392], .rl 9 true), (false, [0xB294], .rrb 9 false), (false, [0xB396], .rr 9 true),
    (false, [0xB298], .rlcb 9 false), (false, [0xB39A], .rlc 9 true), (false, [0xB29C], .rrcb 9 false),
    (false, [0xB39E], .rrc 9 true), (false, [0xB261, 0x0004], .sllb 6 0x0004),
    (false, [0xB261, 0xFFFD], .srlb 6 0xFFFD), (false, [0xB361, 0x0004], .sll 6 0x0004),
    (false, [0xB361, 0xFFFD], .srl 6 0xFFFD), (false, [0xB365, 0x0004], .slll 6 0x0004),
    (false, [0xB365, 0xFFFD], .srll 6 0xFFFD), (false, [0xB269, 0x0004], .slab 6 0x0004),
    (false, [0xB269, 0xFFFD], .srab 6 0xFFFD), (false, [0xB369, 0x0004], .sla 6 0x0004),
    (false, [0xB369, 0xFFFD], .sra 6 0xFFFD)] = true := by decide +kernel

theorem test_decode_rotates_and_shifts_2 : reads [
    (false, [0xB36D, 0x0004], .slal 6 0x0004), (false, [0xB36D, 0xFFFD], .sral 6 0xFFFD),
    (false, [0xB263, 0x0900], .sdlb 6 9), (false, [0xB363, 0x0900], .sdl 6 9), (false, [0xB367, 0x0900], .sdll 6 9),
    (false, [0xB26B, 0x0900], .sdab 6 9), (false, [0xB36B, 0x0900], .sda 6 9),
    (false, [0xB36F, 0x0900], .sdal 6 9)] = true := by decide +kernel

theorem test_decode_program_control_1 : reads [
    (false, [0x5E96, 0x6000], .jp .eq (.x (.near 0x6000) 9)), (false, [0x1E48], .jp .t (.ir 4)),
    (true, [0x5F00, 0x8500, 0x2000], .call (.da (.long 5 0x2000))), (false, [0x1F40], .call (.ir 4)),
    (false, [0x9E0E], .ret .ne), (false, [0xDFFE], .calr 0xFFE), (false, [0xE1FF], .jr .lt 0xFF),
    (false, [0xF382], .djnz 3 2), (false, [0xF97F], .dbjnz 9 127), (false, [0x7FFE], .sc 0xFE),
    (false, [0x7B00], .iret)] = true := by decide +kernel

theorem test_decode_block_and_string_1 : reads [
    (false, [0xBA20, 0x0356], .cpib 2 3 5 .eq), (false, [0xBA24, 0x0351], .cpirb 2 3 5 .lt),
    (false, [0xBA28, 0x035E], .cpdb 2 3 5 .ne), (false, [0xBA2C, 0x0356], .cpdrb 2 3 5 .eq),
    (false, [0xBA22, 0x0351], .cpsib 2 3 5 .lt), (false, [0xBA26, 0x035E], .cpsirb 2 3 5 .ne),
    (false, [0xBA2A, 0x0356], .cpsdb 2 3 5 .eq), (false, [0xBA2E, 0x0351], .cpsdrb 2 3 5 .lt),
    (false, [0xBB20, 0x035E], .cpi 2 3 5 .ne), (false, [0xBB24, 0x0356], .cpir 2 3 5 .eq),
    (false, [0xBB28, 0x0351], .cpd 2 3 5 .lt), (false, [0xBB2C, 0x035E], .cpdr 2 3 5 .ne),
    (false, [0xBB22, 0x0356], .cpsi 2 3 5 .eq), (false, [0xBB26, 0x0351], .cpsir 2 3 5 .lt),
    (false, [0xBB2A, 0x035E], .cpsd 2 3 5 .ne), (false, [0xBB2E, 0x0356], .cpsdr 2 3 5 .eq),
    (false, [0xBA21, 0x0358], .ldib 2 3 5), (false, [0xBA21, 0x0350], .ldirb 2 3 5),
    (false, [0xBA29, 0x0358], .lddb 2 3 5), (false, [0xBA29, 0x0350], .lddrb 2 3 5)] = true := by decide +kernel

theorem test_decode_block_and_string_2 : reads [
    (false, [0xBB21, 0x0358], .ldi 2 3 5), (false, [0xBB21, 0x0350], .ldir 2 3 5),
    (false, [0xBB29, 0x0358], .ldd 2 3 5), (false, [0xBB29, 0x0350], .lddr 2 3 5),
    (false, [0xB850, 0x0320], .trib 5 3 2), (false, [0xB852, 0x0320], .trtib 5 3 2),
    (false, [0xB854, 0x0320], .trirb 5 3 2), (false, [0xB856, 0x032E], .trtirb 5 3 2),
    (false, [0xB858, 0x0320], .trdb 5 3 2), (false, [0xB85A, 0x0320], .trtdb 5 3 2),
    (false, [0xB85C, 0x0320], .trdrb 5 3 2), (false, [0xB85E, 0x032E], .trtdrb 5 3 2)] = true := by decide +kernel

theorem test_decode_input_and_output_1 : reads [
    (false, [0x3C29], .inb 9 (.reg 2)), (false, [0x3A94, 0xFF80], .inb 9 (.direct 0xFF80)),
    (false, [0x3D29], .inw 9 (.reg 2)), (false, [0x3B94, 0xFF80], .inw 9 (.direct 0xFF80)),
    (false, [0x3E29], .outb (.reg 2) 9), (false, [0x3A96, 0xFF80], .outb (.direct 0xFF80) 9),
    (false, [0x3F29], .out (.reg 2) 9), (false, [0x3B96, 0xFF80], .out (.direct 0xFF80) 9),
    (false, [0x3A95, 0xFF80], .sinb 9 0xFF80), (false, [0x3B95, 0xFF80], .sin 9 0xFF80),
    (false, [0x3A97, 0xFF80], .soutb 0xFF80 9), (false, [0x3B97, 0xFF80], .sout 0xFF80 9),
    (false, [0x3A20, 0x0358], .inib 2 3 5), (false, [0x3A20, 0x0350], .inirb 2 3 5),
    (false, [0x3A21, 0x0358], .sinib 2 3 5), (false, [0x3A21, 0x0350], .sinirb 2 3 5),
    (false, [0x3A22, 0x0358], .outib 2 3 5), (false, [0x3A22, 0x0350], .otirb 2 3 5),
    (false, [0x3A23, 0x0358], .soutib 2 3 5), (false, [0x3A23, 0x0350], .sotirb 2 3 5)] = true := by decide +kernel

theorem test_decode_input_and_output_2 : reads [
    (false, [0x3A28, 0x0358], .indb 2 3 5), (false, [0x3A28, 0x0350], .indrb 2 3 5),
    (false, [0x3A29, 0x0358], .sindb 2 3 5), (false, [0x3A29, 0x0350], .sindrb 2 3 5),
    (false, [0x3A2A, 0x0358], .outdb 2 3 5), (false, [0x3A2A, 0x0350], .otdrb 2 3 5),
    (false, [0x3A2B, 0x0358], .soutdb 2 3 5), (false, [0x3A2B, 0x0350], .sotdrb 2 3 5),
    (false, [0x3B20, 0x0358], .ini 2 3 5), (false, [0x3B20, 0x0350], .inir 2 3 5),
    (false, [0x3B21, 0x0358], .sini 2 3 5), (false, [0x3B21, 0x0350], .sinir 2 3 5),
    (false, [0x3B22, 0x0358], .outi 2 3 5), (false, [0x3B22, 0x0350], .otir 2 3 5),
    (false, [0x3B23, 0x0358], .souti 2 3 5), (false, [0x3B23, 0x0350], .sotir 2 3 5),
    (false, [0x3B28, 0x0358], .ind 2 3 5), (false, [0x3B28, 0x0350], .indr 2 3 5),
    (false, [0x3B29, 0x0358], .sind 2 3 5), (false, [0x3B29, 0x0350], .sindr 2 3 5)] = true := by decide +kernel

theorem test_decode_input_and_output_3 : reads [
    (false, [0x3B2A, 0x0358], .outd 2 3 5), (false, [0x3B2A, 0x0350], .otdr 2 3 5),
    (false, [0x3B2B, 0x0358], .soutd 2 3 5), (false, [0x3B2B, 0x0350], .sotdr 2 3 5)] = true := by decide +kernel

theorem test_decode_cpu_control_1 : reads [
    (false, [0x8D91], .setflg 9), (false, [0x8D93], .resflg 9), (false, [0x8D95], .comflg 9),
    (false, [0x8D07], .nop), (false, [0x8C91], .ldctlb .read 9), (false, [0x8C99], .ldctlb .write 9),
    (false, [0x3920], .ldps (.ir 2)), (false, [0x7920, 0x6000], .ldps (.x (.near 0x6000) 2)),
    (false, [0x7A00], .halt), (false, [0x7B08], .mset), (false, [0x7B09], .mres), (false, [0x7B0A], .mbit),
    (false, [0x7B9D], .mreq 9), (false, [0x7C01], .di false true), (false, [0x7C06], .ei true false),
    (false, [0x7D9A], .ldctl .write 9 .fcw), (false, [0x7D93], .ldctl .read 9 .refresh),
    (false, [0x7D9C], .ldctl .write 9 .psapSeg), (false, [0x7D95], .ldctl .read 9 .psapOff),
    (false, [0x7D9E], .ldctl .write 9 .nspSeg)] = true := by decide +kernel

theorem test_decode_cpu_control_2 : reads [
    (false, [0x7D97], .ldctl .read 9 .nspOff), (false, [0x0E12, 0x3456], .extended .op0E 0x12 0x3456),
    (false, [0x0F12, 0x3456], .extended .op0F 0x12 0x3456), (false, [0x4E12, 0x3456], .extended .op4E 0x12 0x3456),
    (false, [0x4F12, 0x3456], .extended .op4F 0x12 0x3456), (false, [0x8E12, 0x3456], .extended .op8E 0x12 0x3456),
    (false, [0x8F12, 0x3456], .extended .op8F 0x12 0x3456)] = true := by decide +kernel
/-! ## One step of the vectors of spec/95_test_vectors.md -/

/-- A machine with instruction words at 0x1000 and nothing between it and its fetch. -/
def start (fcw : Word) (ws : List Word) (regs : List (Reg × Word)) (mem : List (Word × Word)) : State :=
  let s : State := regs.foldl (fun s r => { s with regs := s.regs.set r.1.toNat r.2 r.1.isLt })
    { State.reset with resetPending := false, fcw := fcw, pc := 0x1000 }
  let t := mem.foldl (fun s m => s.pokeWord ⟨true, .data⟩ ⟨0, m.1⟩ m.2) s
  ws.zipIdx.foldl (fun s w => s.pokeWord ⟨true, .code⟩ ⟨0, 0x1000 + BitVec.ofNat 16 (2 * w.2)⟩ w.1) t

/-- A word of the unified memory. -/
def word (s : State) (a : Word) : Word := s.peekWord ⟨true, .data⟩ ⟨0, a⟩

/-- One step answers a next state that passes a check. -/
def runs (s : State) (check : State → Bool) : Bool :=
  match step s with
  | .next t => check t
  | .fault _ => false
  | .refused _ => false

/-- L2 -/
theorem test_ldb_compact_keeps_other_byte : runs (start 0x4000 [0xC805] [(0, 0xAA00)] [])
    (fun t => t.reg 0 == 0xAA05 && t.pc == 0x1002) = true := by decide +kernel

/-- L5 -/
theorem test_ld_based_displacement_wraps : runs (start 0x4000 [0x3154, 0xFFFE] [(5, 0x4000)] [(0x3FFE, 0x0A0B)])
    (fun t => t.reg 4 == 0x0A0B && t.pc == 0x1004) = true := by decide +kernel

/-- L7 -/
theorem test_ld_indexed : runs (start 0x4000 [0x6132, 0x5000] [(3, 0x0004)] [(0x5004, 0x7777)])
    (fun t => t.reg 2 == 0x7777) = true := by decide +kernel

/-- L6 -/
theorem test_ld_store_is_big_endian : runs (start 0x4000 [0x6F01, 0x5000] [(1, 0x1234)] [])
    (fun t => t.peekByte ⟨true, .data⟩ ⟨0, 0x5000⟩ == 0x12
      && t.peekByte ⟨true, .data⟩ ⟨0, 0x5001⟩ == 0x34) = true := by decide +kernel

/-- L9 -/
theorem test_ldl_forms_address_first : runs (start 0x4000 [0x1444] [(4, 0x6000)] [(0x6000, 0x1122), (0x6002, 0x3344)])
    (fun t => t.reg 4 == 0x1122 && t.reg 5 == 0x3344) = true := by decide +kernel

/-- L11 -/
theorem test_ldb_bx_store : runs (start 0x4000 [0x7249, 0x0500] [(4, 0x6000), (5, 0x0003), (1, 0x005A)] [])
    (fun t => word t 0x6002 == 0x005A && t.pc == 0x1004) = true := by decide +kernel

/-- L12 -/
theorem test_clr_keeps_flags : runs (start 0x40F0 [0x8D58] [(5, 0x1234)] [])
    (fun t => t.reg 5 == 0x0000 && t.fcw == 0x40F0) = true := by decide +kernel

/-- L13 -/
theorem test_clrb : runs (start 0x4000 [0x8C58] [(5, 0x1234)] [])
    (fun t => t.reg 5 == 0x0034) = true := by decide +kernel

/-- L16 -/
theorem test_ex_memory : runs (start 0x4000 [0x2D21] [(1, 0x1111), (2, 0x6000)] [(0x6000, 0x9999)])
    (fun t => t.reg 1 == 0x9999 && word t 0x6000 == 0x1111) = true := by decide +kernel

/-- R152 -/
theorem test_exb_halves_of_one_word : runs (start 0x4000 [0xAC91] [(1, 0x1234)] [])
    (fun t => t.reg 1 == 0x3412) = true := by decide +kernel

/-- L18 -/
theorem test_lda_index_wraps : runs (start 0x4000 [0x7621, 0xFFF0] [(2, 0x0020)] [])
    (fun t => t.reg 1 == 0x0010) = true := by decide +kernel

/-- L19 -/
theorem test_ldar : runs (start 0x4000 [0x3401, 0x000C] [] [])
    (fun t => t.reg 1 == 0x1010) = true := by decide +kernel

/-- L20 -/
theorem test_ldr : runs (start 0x4000 [0x3101, 0x00FC] [] [(0x1100, 0x4242)])
    (fun t => t.reg 1 == 0x4242) = true := by decide +kernel

/-- L22 -/
theorem test_ldk : runs (start 0x4000 [0xBD59] [(5, 0x1234)] [])
    (fun t => t.reg 5 == 0x0009 && t.fcw == 0x4000) = true := by decide +kernel

/-- L23 -/
theorem test_ldm_load : runs (start 0x4000 [0x1C41, 0x0102] [(4, 0x6000)] [(0x6000, 0x000A), (0x6002, 0x000B),
      (0x6004, 0x000C)])
    (fun t => t.reg 1 == 0x000A && t.reg 2 == 0x000B && t.reg 3 == 0x000C && t.reg 4 == 0x6000
      && t.pc == 0x1004) = true := by decide +kernel

/-- L24 -/
theorem test_ldm_store_wraps_registers : runs (start 0x4000 [0x1C49, 0x0E02] [(4, 0x6000), (14, 0x00E0),
      (15, 0x8000), (0, 0x0001)] [])
    (fun t => word t 0x6000 == 0x00E0 && word t 0x6002 == 0x8000
      && word t 0x6004 == 0x0001) = true := by decide +kernel

/-- L29 -/
theorem test_push : runs (start 0x4000 [0x93F1] [(15, 0x0000), (1, 0x0001)] [])
    (fun t => t.reg 15 == 0xFFFE && word t 0xFFFE == 0x0001) = true := by decide +kernel

/-- L28 -/
theorem test_pushl : runs (start 0x4000 [0x91F2] [(15, 0x8000), (2, 0x1122), (3, 0x3344)] [])
    (fun t => t.reg 15 == 0x7FFC && word t 0x7FFC == 0x1122 && word t 0x7FFE == 0x3344) = true := by decide +kernel

/-- L26 -/
theorem test_pop : runs (start 0x4000 [0x97F1] [(15, 0x8000)] [(0x8000, 0xABCD)])
    (fun t => t.reg 1 == 0xABCD && t.reg 15 == 0x8002) = true := by decide +kernel

/-- R159 -/
theorem test_popl : runs (start 0x4000 [0x95F2] [(15, 0x8000)] [(0x8000, 0x1122), (0x8002, 0x3344)])
    (fun t => t.reg 2 == 0x1122 && t.reg 3 == 0x3344 && t.reg 15 == 0x8004) = true := by decide +kernel

/-- A3 -/
theorem test_add_carry_and_overflow : runs (start 0x4000 [0x8121] [(1, 0x8000), (2, 0x8000)] [])
    (fun t => t.reg 1 == 0x0000 && t.fcw == 0x40D0) = true := by decide +kernel

/-- A7 -/
theorem test_addb_half_carry : runs (start 0x4000 [0x8098] [(0, 0x000F), (1, 0x0001)] [])
    (fun t => t.reg 0 == 0x0010 && t.fcw == 0x4004) = true := by decide +kernel

/-- A10 -/
theorem test_addl : runs (start 0x4000 [0x1602, 0x0001, 0x0000] [(2, 0xFFFF), (3, 0x0000)] [])
    (fun t => t.reg 2 == 0x0000 && t.reg 3 == 0x0000 && t.fcw == 0x40C0 && t.pc == 0x1006) = true := by decide +kernel

/-- A12 -/
theorem test_adc : runs (start 0x4080 [0xB521] [(1, 0x7FFF)] [])
    (fun t => t.reg 1 == 0x8000 && t.fcw == 0x4030) = true := by decide +kernel

/-- A13 -/
theorem test_sub_borrow : runs (start 0x4000 [0x8321] [(2, 0x0001)] [])
    (fun t => t.reg 1 == 0xFFFF && t.fcw == 0x40A0) = true := by decide +kernel

/-- A16 -/
theorem test_subb_half_borrow : runs (start 0x4000 [0x8298] [(0, 0x0010), (1, 0x0001)] [])
    (fun t => t.reg 0 == 0x000F && t.fcw == 0x400C) = true := by decide +kernel

/-- A17 -/
theorem test_sbc : runs (start 0x4080 [0xB721] [] [])
    (fun t => t.reg 1 == 0xFFFF && t.fcw == 0x40A0) = true := by decide +kernel

/-- A21 -/
theorem test_cp_overflow : runs (start 0x4000 [0x8B21] [(1, 0x8000), (2, 0x0001)] [])
    (fun t => t.reg 1 == 0x8000 && t.fcw == 0x4010) = true := by decide +kernel

/-- A22 -/
theorem test_cp_memory_immediate : runs (start 0x4000 [0x0D21, 0x0100] [(2, 0x6000)] [(0x6000, 0x0100)])
    (fun t => word t 0x6000 == 0x0100 && t.fcw == 0x4040 && t.pc == 0x1004) = true := by decide +kernel

/-- A23 -/
theorem test_cpl : runs (start 0x4000 [0x9042] [(2, 0x0001), (5, 0xFFFF)] [])
    (fun t => t.fcw == 0x4000) = true := by decide +kernel

/-- A25 -/
theorem test_neg_most_negative : runs (start 0x4000 [0x8D12] [(1, 0x8000)] [])
    (fun t => t.reg 1 == 0x8000 && t.fcw == 0x40B0) = true := by decide +kernel

/-- A28 -/
theorem test_inc_keeps_carry : runs (start 0x4080 [0xA910] [(1, 0x7FFF)] [])
    (fun t => t.reg 1 == 0x8000 && t.fcw == 0x40B0) = true := by decide +kernel

/-- A29 -/
theorem test_inc_by_sixteen : runs (start 0x4000 [0xA91F] [(1, 0x00F0)] [])
    (fun t => t.reg 1 == 0x0100) = true := by decide +kernel

/-- A31 -/
theorem test_dec_overflow : runs (start 0x4000 [0xAB10] [(1, 0x8000)] [])
    (fun t => t.reg 1 == 0x7FFF && t.fcw == 0x4010) = true := by decide +kernel

/-- A34 -/
theorem test_mult_negative : runs (start 0x4000 [0x9952] [(3, 0x0003), (5, 0xFFFE)] [])
    (fun t => t.reg 2 == 0xFFFF && t.reg 3 == 0xFFFA && t.fcw == 0x4020) = true := by decide +kernel

/-- A35 -/
theorem test_mult_carry : runs (start 0x4000 [0x9952] [(3, 0x8000), (5, 0x8000)] [])
    (fun t => t.reg 2 == 0x4000 && t.reg 3 == 0x0000 && t.fcw == 0x4080) = true := by decide +kernel

/-- A40 -/
theorem test_multl : runs (start 0x4000 [0x9824] [(6, 0x0001), (2, 0x0001)] [])
    (fun t => t.reg 4 == 0x0000 && t.reg 5 == 0x0001 && t.reg 6 == 0x0000 && t.reg 7 == 0x0000
      && t.fcw == 0x4080) = true := by decide +kernel

/-- A42 -/
theorem test_div_negative_dividend : runs (start 0x4000 [0x9B52] [(2, 0xFFFF), (3, 0xFFF9), (5, 0x0002)] [])
    (fun t => t.reg 2 == 0xFFFF && t.reg 3 == 0xFFFD && t.fcw == 0x4020) = true := by decide +kernel

/-- A43 -/
theorem test_div_negative_divisor : runs (start 0x4000 [0x9B52] [(3, 0x0007), (5, 0xFFFE)] [])
    (fun t => t.reg 2 == 0x0001 && t.reg 3 == 0xFFFD && t.fcw == 0x4020) = true := by decide +kernel

/-- R196 -/
theorem test_divl : runs (start 0x4000 [0x9A24] [(7, 0x0007), (3, 0x0002)] [])
    (fun t => t.reg 5 == 0x0001 && t.reg 7 == 0x0003 && t.fcw == 0x4000) = true := by decide +kernel

/-- A49 -/
theorem test_exts : runs (start 0x4000 [0xB12A] [(3, 0x8001)] [])
    (fun t => t.reg 2 == 0xFFFF && t.reg 3 == 0x8001 && t.fcw == 0x4000) = true := by decide +kernel

/-- A50 -/
theorem test_extsb : runs (start 0x4000 [0xB110] [(1, 0x1280)] [])
    (fun t => t.reg 1 == 0xFF80) = true := by decide +kernel

/-- A52 -/
theorem test_extsl : runs (start 0x4000 [0xB147] [(6, 0x8000)] [])
    (fun t => t.reg 4 == 0xFFFF && t.reg 5 == 0xFFFF && t.reg 6 == 0x8000) = true := by decide +kernel

/-- A53, second instruction -/
theorem test_dab_after_add : runs (start 0x4000 [0xB080] [(0, 0x007D)] [])
    (fun t => t.reg 0 == 0x0083) = true := by decide +kernel

/-- A56, second instruction -/
theorem test_dab_after_subtract : runs (start 0x400C [0xB080] [(0, 0x002F)] [])
    (fun t => t.reg 0 == 0x0029) = true := by decide +kernel

/-- G1 -/
theorem test_and_keeps_overflow : runs (start 0x4010 [0x0701, 0x00FF] [(1, 0x1234)] [])
    (fun t => t.reg 1 == 0x0034 && t.fcw == 0x4010) = true := by decide +kernel

/-- G2 -/
theorem test_andb_parity : runs (start 0x4000 [0x0609, 0x0F0F] [(1, 0x00F0)] [])
    (fun t => t.reg 1 == 0x0000 && t.fcw == 0x4050) = true := by decide +kernel

/-- G4 -/
theorem test_orb_odd_parity : runs (start 0x4000 [0x8419] [(1, 0x0001)] [])
    (fun t => t.reg 1 == 0x0001 && t.fcw == 0x4000) = true := by decide +kernel

/-- G5 -/
theorem test_or_keeps_carry : runs (start 0x4080 [0x8521] [] [])
    (fun t => t.fcw == 0x40C0) = true := by decide +kernel

/-- G7 -/
theorem test_xorb : runs (start 0x4000 [0x8891] [(1, 0xFF0F)] [])
    (fun t => t.reg 1 == 0xF00F && t.fcw == 0x4030) = true := by decide +kernel

/-- G8 -/
theorem test_com : runs (start 0x4000 [0x8D10] [(1, 0x00FF)] [])
    (fun t => t.reg 1 == 0xFF00 && t.fcw == 0x4020) = true := by decide +kernel

/-- G9 -/
theorem test_comb : runs (start 0x4000 [0x8C90] [(1, 0x12FF)] [])
    (fun t => t.reg 1 == 0x1200 && t.fcw == 0x4050) = true := by decide +kernel

/-- G12 -/
theorem test_testb : runs (start 0x4000 [0x8C14] [(1, 0x8100)] [])
    (fun t => t.fcw == 0x4030) = true := by decide +kernel

/-- G13 -/
theorem test_testl : runs (start 0x4000 [0x9C28] [(2, 0x8000)] [])
    (fun t => t.fcw == 0x4020) = true := by decide +kernel

/-- G17 -/
theorem test_tcc_false_keeps_bit : runs (start 0x4040 [0xAF1E] [(1, 0x0001)] [])
    (fun t => t.reg 1 == 0x0001) = true := by decide +kernel

/-- G18 -/
theorem test_tccb : runs (start 0x4020 [0xAE91] [(1, 0xFF00)] [])
    (fun t => t.reg 1 == 0xFF01) = true := by decide +kernel

/-- B4 -/
theorem test_bit_dynamic : runs (start 0x4040 [0x2704, 0x0300] [(3, 0x0008), (4, 0xFFF3)] [])
    (fun t => t.fcw == 0x4000 && t.pc == 0x1004) = true := by decide +kernel

/-- B5 -/
theorem test_bitb_dynamic_byte_register : runs (start 0x4040 [0x2604, 0x0B00] [(3, 0x0008), (4, 0x000B)] [])
    (fun t => t.fcw == 0x4000) = true := by decide +kernel

/-- B6 -/
theorem test_set_dynamic : runs (start 0x4000 [0x2504, 0x0300] [(4, 0x0013)] [])
    (fun t => t.reg 3 == 0x0008) = true := by decide +kernel

/-- B7 -/
theorem test_setb : runs (start 0x4000 [0xA427] [] [])
    (fun t => t.reg 2 == 0x8000) = true := by decide +kernel

/-- B8 -/
theorem test_res : runs (start 0x4000 [0xA310] [(1, 0xFFFF)] [])
    (fun t => t.reg 1 == 0xFFFE) = true := by decide +kernel

/-- B10 -/
theorem test_resb_memory : runs (start 0x4000 [0x6207, 0x6001] [] [(0x6000, 0xFFFF)])
    (fun t => word t 0x6000 == 0xFF7F && t.pc == 0x1004) = true := by decide +kernel

/-- B13 -/
theorem test_tset : runs (start 0x4040 [0x4D06, 0x4000] [] [(0x4000, 0x8000)])
    (fun t => word t 0x4000 == 0xFFFF && t.fcw == 0x4060) = true := by decide +kernel

/-- B14 -/
theorem test_tsetb : runs (start 0x4020 [0x8C96] [(1, 0x1200)] [])
    (fun t => t.reg 1 == 0x12FF && t.fcw == 0x4000) = true := by decide +kernel

/-- S1 -/
theorem test_rl : runs (start 0x4000 [0xB310] [(1, 0x8001)] [])
    (fun t => t.reg 1 == 0x0003 && t.fcw == 0x4090) = true := by decide +kernel

/-- S2 -/
theorem test_rl_two : runs (start 0x4000 [0xB312] [(1, 0x4001)] [])
    (fun t => t.reg 1 == 0x0005 && t.fcw == 0x4080) = true := by decide +kernel

/-- S8 -/
theorem test_rr_two : runs (start 0x4000 [0xB316] [(1, 0x0002)] [])
    (fun t => t.reg 1 == 0x8000 && t.fcw == 0x40B0) = true := by decide +kernel

/-- S6 -/
theorem test_rlc_two : runs (start 0x4080 [0xB31A] [(1, 0x8000)] [])
    (fun t => t.reg 1 == 0x0003 && t.fcw == 0x4010) = true := by decide +kernel

/-- S10 -/
theorem test_rrcb : runs (start 0x4080 [0xB29C] [] [])
    (fun t => t.reg 1 == 0x0080 && t.fcw == 0x4030) = true := by decide +kernel

/-- S11 -/
theorem test_sll : runs (start 0x4000 [0xB311, 0x0004] [(1, 0x1234)] [])
    (fun t => t.reg 1 == 0x2340 && t.pc == 0x1004) = true := by decide +kernel

/-- S12 -/
theorem test_srl : runs (start 0x4000 [0xB311, 0xFFFC] [(1, 0x1234)] [])
    (fun t => t.reg 1 == 0x0123) = true := by decide +kernel

/-- S18 -/
theorem test_sla_overflow : runs (start 0x4000 [0xB319, 0x0002] [(1, 0x2000)] [])
    (fun t => t.reg 1 == 0x8000 && t.fcw == 0x4030) = true := by decide +kernel

/-- S20 -/
theorem test_sra : runs (start 0x4000 [0xB319, 0xFFFF] [(1, 0x8001)] [])
    (fun t => t.reg 1 == 0xC000 && t.fcw == 0x40A0) = true := by decide +kernel

/-- S23 -/
theorem test_sllb_by_width : runs (start 0x4000 [0xB291, 0x0008] [(1, 0xAA01)] [])
    (fun t => t.reg 1 == 0xAA00) = true := by decide +kernel

/-- S24 -/
theorem test_slll_by_width : runs (start 0x4000 [0xB325, 0x0020] [(3, 0x0001)] [])
    (fun t => t.reg 2 == 0x0000 && t.reg 3 == 0x0000) = true := by decide +kernel

/-- S25 -/
theorem test_sral : runs (start 0x4000 [0xB32D, 0xFFFC] [(2, 0xF000), (3, 0x0008)] [])
    (fun t => t.reg 2 == 0xFF00 && t.reg 3 == 0x0000 && t.fcw == 0x40A0) = true := by decide +kernel

/-- S26 -/
theorem test_sda_right : runs (start 0x4000 [0xB31B, 0x0200] [(1, 0xFF00), (2, 0xFFFC)] [])
    (fun t => t.reg 1 == 0xFFF0 && t.fcw == 0x4020) = true := by decide +kernel

/-- S27 -/
theorem test_sdl_left : runs (start 0x4000 [0xB313, 0x0200] [(1, 0x00FF), (2, 0x0004)] [])
    (fun t => t.reg 1 == 0x0FF0) = true := by decide +kernel

/-- S29 -/
theorem test_sdll_right : runs (start 0x4000 [0xB347, 0x0200] [(4, 0x8000), (2, 0xFFE1)] [])
    (fun t => t.reg 4 == 0x0000 && t.reg 5 == 0x0001) = true := by decide +kernel

/-- S30 -/
theorem test_rldb : runs (start 0x4000 [0xBE80] [(0, 0x0312)] [])
    (fun t => t.reg 0 == 0x0123) = true := by decide +kernel

/-- S31 -/
theorem test_rrdb : runs (start 0x4000 [0xBC80] [(0, 0x0312)] [])
    (fun t => t.reg 0 == 0x0231) = true := by decide +kernel

/-- P1 -/
theorem test_call : runs (start 0x4000 [0x5F00, 0x2000] [(15, 0x8000)] [])
    (fun t => t.reg 15 == 0x7FFE && word t 0x7FFE == 0x1004 && t.pc == 0x2000) = true := by decide +kernel

/-- P3, moved to 0x1000 -/
theorem test_calr : runs (start 0x4000 [0xDFFE] [(15, 0x8000)] [])
    (fun t => word t 0x7FFE == 0x1002 && t.pc == 0x1006) = true := by decide +kernel

/-- P7, moved to 0x1000 -/
theorem test_djnz_wraps : runs (start 0x4000 [0xF082] [] [])
    (fun t => t.reg 0 == 0xFFFF && t.pc == 0x0FFE) = true := by decide +kernel

/-- P8, moved to 0x1000 -/
theorem test_dbjnz_falls_through : runs (start 0x4000 [0xF802] [(0, 0x1201)] [])
    (fun t => t.reg 0 == 0x1200 && t.pc == 0x1002) = true := by decide +kernel

/-- P10, moved to 0x1000 -/
theorem test_jp_false : runs (start 0x4040 [0x5E0E, 0x2000] [] [])
    (fun t => t.pc == 0x1004) = true := by decide +kernel

/-- P11, moved to 0x1000 -/
theorem test_jp_register : runs (start 0x4000 [0x1E28] [(2, 0x2468)] [])
    (fun t => t.pc == 0x2468) = true := by decide +kernel

/-- P17, moved to 0x1000 -/
theorem test_jr_backward : runs (start 0x4000 [0xE880] [] [])
    (fun t => t.pc == 0x0F02) = true := by decide +kernel

/-- P21, moved to 0x1000 -/
theorem test_ret_lt : runs (start 0x4010 [0x9E01] [(15, 0x7FFE)] [(0x7FFE, 0x0300)])
    (fun t => t.pc == 0x0300 && t.reg 15 == 0x8000) = true := by decide +kernel

/-- P20, moved to 0x1000 -/
theorem test_ret_false : runs (start 0x4000 [0x9E06] [(15, 0x7FFE)] [])
    (fun t => t.pc == 0x1002 && t.reg 15 == 0x7FFE) = true := by decide +kernel

/-- K1 -/
theorem test_ldi : runs (start 0x4000 [0xBB11, 0x0328] [(1, 0x4000), (2, 0x5000), (3, 0x0001)] [(0x4000, 0xBEEF)])
    (fun t => word t 0x5000 == 0xBEEF && t.reg 1 == 0x4002 && t.reg 2 == 0x5002 && t.reg 3 == 0x0000
      && t.fcw == 0x4010 && t.pc == 0x1004) = true := by decide +kernel

/-- K3 -/
theorem test_ldirb_first_iteration : runs (start 0x4000 [0xBA11, 0x0320] [(1, 0x4000), (2, 0x5000), (3, 0x0003)]
      [(0x4000, 0x4142)])
    (fun t => word t 0x5000 == 0x4100 && t.reg 1 == 0x4001 && t.reg 2 == 0x5001 && t.reg 3 == 0x0002
      && t.fcw == 0x4000 && t.pc == 0x1000) = true := by decide +kernel

/-- K6 -/
theorem test_lddr_first_iteration : runs (start 0x4000 [0xBB19, 0x0320] [(1, 0x4004), (2, 0x4006), (3, 0x0003)]
      [(0x4004, 0x0003)])
    (fun t => word t 0x4006 == 0x0003 && t.reg 1 == 0x4002 && t.reg 2 == 0x4004
      && t.reg 3 == 0x0002) = true := by decide +kernel

/-- K8 -/
theorem test_cpib : runs (start 0x4000 [0xBA10, 0x0286] [(0, 0x0041), (1, 0x4000), (2, 0x0005)] [(0x4000, 0x4100)])
    (fun t => t.reg 1 == 0x4001 && t.reg 2 == 0x0004 && t.pc == 0x1004) = true := by decide +kernel

/-- K10, first iteration -/
theorem test_cpirb_goes_on : runs (start 0x4000 [0xBA14, 0x0286] [(0, 0x0043), (1, 0x4000), (2, 0x0005)]
      [(0x4000, 0x4142)])
    (fun t => t.reg 1 == 0x4001 && t.reg 2 == 0x0004 && t.pc == 0x1000) = true := by decide +kernel

/-- K13 -/
theorem test_cpd : runs (start 0x4000 [0xBB18, 0x0207] [(0, 0x0001), (1, 0x4002), (2, 0x0003)] [(0x4002, 0x0002)])
    (fun t => t.reg 1 == 0x4000 && t.reg 2 == 0x0002) = true := by decide +kernel

/-- K14, third iteration -/
theorem test_cpsirb_ends_on_difference : runs (start 0x4000 [0xBA26, 0x031E] [(1, 0x4002), (2, 0x5002),
      (3, 0x0002)] [(0x4002, 0x6364), (0x5002, 0x7864)])
    (fun t => t.reg 1 == 0x4003 && t.reg 2 == 0x5003 && t.reg 3 == 0x0001
      && t.pc == 0x1004) = true := by decide +kernel

/-- K16 -/
theorem test_trib : runs (start 0x4000 [0xB820, 0x0430] [(2, 0x5000), (3, 0x6000), (4, 0x0002)] [(0x5000, 0x0500),
      (0x6004, 0x0035)])
    (fun t => word t 0x5000 == 0x3500 && t.reg 2 == 0x5001 && t.reg 3 == 0x6000 && t.reg 4 == 0x0001
      && t.pc == 0x1004) = true := by decide +kernel

/-- K18 -/
theorem test_trtib : runs (start 0x4000 [0xB822, 0x0430] [(1, 0x1234), (2, 0x5000), (3, 0x6000), (4, 0x0001)]
      [(0x5000, 0x2000)])
    (fun t => t.reg 1 == 0x0034 && t.reg 2 == 0x5001 && t.reg 4 == 0x0000 && t.fcw == 0x4050
      && word t 0x5000 == 0x2000) = true := by decide +kernel

/-- K19, third iteration -/
theorem test_trtirb_stops_on_a_nonzero_byte : runs (start 0x4000 [0xB826, 0x043E] [(2, 0x5002), (3, 0x6000),
      (4, 0x0002)] [(0x5002, 0x2C41), (0x602C, 0x0700)])
    (fun t => t.reg 1 == 0x0700 && t.reg 2 == 0x5003 && t.reg 4 == 0x0001 && t.fcw == 0x4000
      && t.pc == 0x1004) = true := by decide +kernel

/-- I1 -/
theorem test_in_direct : runs { start 0x4000 [0x3B14, 0xFF80] [] [] with pins := { Pins.inactive with
      ioInput := [0x1234] } }
    (fun t => t.reg 1 == 0x1234 && t.events == [.ioRead false 0xFF80 .w 0x1234]
      && t.pins.ioInput == []) = true := by decide +kernel

/-- I2 -/
theorem test_inb_register : runs { start 0x4000 [0x3C29] [(2, 0x0041), (1, 0xAA00)] [] with
      pins := { Pins.inactive with ioInput := [0x007E] } }
    (fun t => t.reg 1 == 0xAA7E && t.events == [.ioRead false 0x0041 .b 0x7E]) = true := by decide +kernel

/-- I3 -/
theorem test_outb_direct : runs (start 0x4000 [0x3A86, 0x0041] [(0, 0x0055)] [])
    (fun t => t.events == [.ioWrite false 0x0041 .b 0x55] && t.pc == 0x1004) = true := by decide +kernel

/-- I6 -/
theorem test_soutb : runs (start 0x4000 [0x3A87, 0x0100] [(0, 0x0080)] [])
    (fun t => t.events == [.ioWrite true 0x0100 .b 0x80]) = true := by decide +kernel

/-- I8 -/
theorem test_inib : runs { start 0x4000 [0x3A10, 0x0328] [(1, 0x0040), (2, 0x5000), (3, 0x0002)] [] with
      pins := { Pins.inactive with ioInput := [0x007E] } }
    (fun t => word t 0x5000 == 0x7E00 && t.reg 1 == 0x0040 && t.reg 2 == 0x5001 && t.reg 3 == 0x0001
      && t.events == [.ioRead false 0x0040 .b 0x7E]) = true := by decide +kernel

/-- I10, first iteration -/
theorem test_indr : runs { start 0x4000 [0x3B18, 0x0320] [(1, 0x0100), (2, 0x5002), (3, 0x0002)] [] with
      pins := { Pins.inactive with ioInput := [0x1111, 0x2222] } }
    (fun t => word t 0x5002 == 0x1111 && t.reg 2 == 0x5000 && t.reg 3 == 0x0001 && t.pc == 0x1000
      && t.pins.ioInput == [0x2222]) = true := by decide +kernel

/-- I9, first iteration -/
theorem test_otirb : runs (start 0x4000 [0x3A22, 0x0310] [(1, 0x0040), (2, 0x5000), (3, 0x0003)] [(0x5000, 0x0A0B)])
    (fun t => t.events == [.ioWrite false 0x0040 .b 0x0A] && t.reg 2 == 0x5001 && t.reg 3 == 0x0002
      && t.pc == 0x1000) = true := by decide +kernel

/-- I7 -/
theorem test_in_traps_in_normal_mode : runs { start 0x0000 [0x3B14, 0xFF80] [(15, 0x8000)] [(0x2008, 0x4000),
      (0x200A, 0x0300)] with psapOff := 0x2000, normalR15 := 0x6000 }
    (fun t => t.events == [] && t.reg 15 == 0x7FFA && word t 0x7FFA == 0x3B14 && word t 0x7FFC == 0x0000
      && word t 0x7FFE == 0x1002 && t.fcw == 0x4000 && t.pc == 0x0300
      && t.reg 1 == 0x0000) = true := by decide +kernel

/-- Q3 -/
theorem test_resflg : runs (start 0x40F0 [0x8DC3] [] [])
    (fun t => t.fcw == 0x4030) = true := by decide +kernel

/-- Q4 -/
theorem test_comflg : runs (start 0x4000 [0x8D85] [] [])
    (fun t => t.fcw == 0x4080) = true := by decide +kernel

/-- Q6 -/
theorem test_setflg_in_normal_mode : runs (start 0x0000 [0x8D11] [] [])
    (fun t => t.fcw == 0x0010 && t.pc == 0x1002) = true := by decide +kernel

/-- Q7 -/
theorem test_ldctlb_read : runs (start 0x58C0 [0x8C81] [(0, 0xAA00)] [])
    (fun t => t.reg 0 == 0xAAC0) = true := by decide +kernel

/-- Q8 -/
theorem test_ldctlb_write : runs (start 0x5800 [0x8C89] [(0, 0x00FC)] [])
    (fun t => t.fcw == 0x58FC) = true := by decide +kernel

/-- Q11 -/
theorem test_ldctl_fcw_switches_the_stack_pointer : runs { start 0x4000 [0x7D1A] [(1, 0x1800),
      (15, 0x8000)] [] with normalR15 := 0x6000 }
    (fun t => t.fcw == 0x1800 && t.reg 15 == 0x6000 && t.pc == 0x1002) = true := by decide +kernel

/-- Q14 -/
theorem test_ldctl_nsp : runs (start 0x4000 [0x7D2F] [(2, 0x6000), (15, 0x8000)] [])
    (fun t => t.normalR15 == 0x6000 && t.reg 15 == 0x8000) = true := by decide +kernel

/-- Q16 -/
theorem test_ldctl_refresh : runs (start 0x4000 [0x7D0B] [(0, 0x9E00)] [])
    (fun t => t.refresh.enable && t.refresh.rate == 15) = true := by decide +kernel

/-- Q18 -/
theorem test_di_vi : runs (start 0x5800 [0x7C01] [] [])
    (fun t => t.fcw == 0x4800) = true := by decide +kernel

/-- Q22 -/
theorem test_ei_nvi : runs (start 0x4000 [0x7C06] [] [])
    (fun t => t.fcw == 0x4800) = true := by decide +kernel

/-- Q24 -/
theorem test_halt : runs (start 0x4000 [0x7A00] [] [])
    (fun t => t.halted && t.pc == 0x1002) = true := by decide +kernel

/-- Q25 -/
theorem test_ldps : runs { start 0x4000 [0x7900, 0x6000] [(15, 0x8000)] [(0x6000, 0x1800),
      (0x6002, 0x0400)] with normalR15 := 0x6800 }
    (fun t => t.fcw == 0x1800 && t.pc == 0x0400 && t.reg 15 == 0x6800) = true := by decide +kernel

/-- Q27 -/
theorem test_mset : runs (start 0x4000 [0x7B08] [] [])
    (fun t => t.moLow && t.fcw == 0x4000) = true := by decide +kernel

/-- Q29 -/
theorem test_mbit : runs { start 0x4000 [0x7B0A] [] [] with pins := { Pins.inactive with mi := true } }
    (fun t => t.fcw == 0x4020 && !t.moLow) = true := by decide +kernel

/-- Q32 -/
theorem test_mreq_granted : runs { start 0x4000 [0x7B1D] [(1, 0x0004)] [] with pins := { Pins.inactive with
      miSettled := true } }
    (fun t => t.moLow && t.reg 1 == 0x0000 && t.fcw == 0x4060) = true := by decide +kernel

/-- T1, moved to 0x1000 -/
theorem test_sc_saves_on_the_system_stack : runs { start 0x1800 [0x7F03] [(15, 0x8000)] [(0x200C, 0x4000),
      (0x200E, 0x0230)] with psapOff := 0x2000, normalR15 := 0x6000 }
    (fun t => t.reg 15 == 0x7FFA && word t 0x7FFA == 0x7F03 && word t 0x7FFC == 0x1800
      && word t 0x7FFE == 0x1002 && t.fcw == 0x4000 && t.pc == 0x0230
      && t.normalR15 == 0x6000) = true := by decide +kernel

/-- T5, moved to 0x1000 -/
theorem test_ldps_traps_in_normal_mode : runs { start 0x0000 [0x7900, 0x6000] [(15, 0x8000)] [(0x2008, 0x4000),
      (0x200A, 0x0220)] with psapOff := 0x2000 }
    (fun t => word t 0x7FFA == 0x7900 && word t 0x7FFC == 0x0000 && word t 0x7FFE == 0x1002
      && t.pc == 0x0220) = true := by decide +kernel

/-- T8, moved to 0x1000 -/
theorem test_extended_traps : runs { start 0x4000 [0x8E12, 0x3456] [(15, 0x8000)] [(0x2004, 0x4000),
      (0x2006, 0x0210)] with psapOff := 0x2000 }
    (fun t => word t 0x7FFA == 0x8E12 && word t 0x7FFC == 0x4000 && word t 0x7FFE == 0x1002
      && t.pc == 0x0210) = true := by decide +kernel

/-- V10, moved to 0x1000 -/
theorem test_iret_to_normal_mode : runs { start 0x4000 [0x7B00] [(15, 0x7FFA)] [(0x7FFA, 0x7F03),
      (0x7FFC, 0x18C0), (0x7FFE, 0x0102)] with normalR15 := 0x6000 }
    (fun t => t.regs[15] == 0x8000 && t.fcw == 0x18C0 && t.pc == 0x0102
      && t.reg 15 == 0x6000) = true := by decide +kernel

/-- V1, entry step -/
theorem test_nmi_is_entered : runs { start 0x4000 [] [(15, 0x8000)] [(0x2014, 0x4000), (0x2016, 0x0250)] with
      psapOff := 0x2000, nmiLatch := true, accepted := some .nmi, pins := { Pins.inactive with ackNmi := 0xBEEF } }
    (fun t => t.reg 15 == 0x7FFA && word t 0x7FFA == 0xBEEF && word t 0x7FFC == 0x4000
      && word t 0x7FFE == 0x1000 && t.pc == 0x0250 && !t.nmiLatch) = true := by decide +kernel

/-- V3, entry step -/
theorem test_vi_uses_its_vector : runs { start 0x5000 [] [(15, 0x8000)] [(0x201C, 0x4000),
      (0x2026, 0x0308)] with psapOff := 0x2000, accepted := some .vi, pins := { Pins.inactive with
      vi := true, ackVi := 0x1204 } }
    (fun t => word t 0x7FFA == 0x1204 && word t 0x7FFC == 0x5000 && t.fcw == 0x4000
      && t.pc == 0x0308) = true := by decide +kernel

/-- V7, first step -/
theorem test_vi_is_sampled_after_ei : runs { start 0x4000 [0x7C05] [] [] with pins := { Pins.inactive with
      vi := true } }
    (fun t => t.accepted == some .vi) = true := by decide +kernel

/-- V11 -/
theorem test_vi_disabled_is_not_accepted : runs { start 0x4800 [0x8D07] [] [] with pins := { Pins.inactive with
      vi := true } }
    (fun t => t.accepted == none && t.pc == 0x1002) = true := by decide +kernel

/-- X2 -/
theorem test_reset_reads_z8002 : runs { start 0x4000 [] [] [(0x0002, 0x1800), (0x0004, 0x0400)] with
      resetPending := true }
    (fun t => t.fcw == 0x1800 && t.pc == 0x0400 && !t.resetPending) = true := by decide +kernel

/-! ## A Z8001 (spec/95_test_vectors.md section 3.4) -/

/-- A Z8001 in segmented system mode, words in segment 2 from offset 0x0100, the stack in segment 1. -/
def startZ8001 (fcw : Word) (ws : List Word) (regs : List (Reg × Word)) (mem : List (BitVec 7 × Word × Word)) : State :=
  let z : State :=
    { State.reset with
      platform := { Platform.default with variant := .z8001 }
      resetPending := false
      fcw := fcw
      pcSeg := 2
      pc := 0x0100
      psapOff := 0x2000 }
  let s : State := (([(14, 0x0100), (15, 0x8000)] : List (Reg × Word)) ++ regs).foldl
    (fun s r => { s with regs := s.regs.set r.1.toNat r.2 r.1.isLt }) z
  let t := mem.foldl (fun s m => s.pokeWord ⟨true, .data⟩ ⟨m.1, m.2.1⟩ m.2.2) s
  ws.zipIdx.foldl (fun s w => s.pokeWord ⟨true, .code⟩ ⟨2, 0x0100 + BitVec.ofNat 16 (2 * w.2)⟩ w.1) t

/-- Z7 -/
theorem test_z8001_short_address : runs (startZ8001 0xC000 [0x6101, 0x0320] [] [(3, 0x0020, 0x1234)])
    (fun t => t.reg 1 == 0x1234 && t.pc == 0x0104 && t.pcSeg == 2) = true := by decide +kernel

/-- Z8 -/
theorem test_z8001_long_address : runs (startZ8001 0xC000 [0x6101, 0x8300, 0x1234] [] [(3, 0x1234, 0x5678)])
    (fun t => t.reg 1 == 0x5678 && t.pc == 0x0106) = true := by decide +kernel

/-- Z9 -/
theorem test_z8001_nonsegmented_address : runs (startZ8001 0x4000 [0x6101, 0x8300] [] [(2, 0x8300, 0x5678)])
    (fun t => t.reg 1 == 0x5678 && t.pc == 0x0104) = true := by decide +kernel

/-- Z10 -/
theorem test_z8001_register_pair_address :
    runs (startZ8001 0xC000 [0x2121] [(2, 0x83FF), (3, 0x0010)] [(3, 0x0010, 0x1234)])
      (fun t => t.reg 1 == 0x1234) = true := by decide +kernel

/-- Z11 -/
theorem test_z8001_index_keeps_segment :
    runs (startZ8001 0xC000 [0x6141, 0x8300, 0xFFF0] [(4, 0x0020)] [(3, 0x0010, 0x1234)])
      (fun t => t.reg 1 == 0x1234) = true := by decide +kernel

/-- Z12 -/
theorem test_z8001_call : runs (startZ8001 0xC000 [0x5F00, 0x8500, 0x2000] [] [])
    (fun t => t.pcSeg == 5 && t.pc == 0x2000 && t.reg 15 == 0x7FFC && t.reg 14 == 0x0100) = true := by decide +kernel

/-- Z13 -/
theorem test_z8001_return :
    runs (startZ8001 0xC000 [0x9E08] [(15, 0x7FFC)] [(1, 0x7FFC, 0x0200), (1, 0x7FFE, 0x0106)])
      (fun t => t.pcSeg == 2 && t.pc == 0x0106 && t.reg 15 == 0x8000) = true := by decide +kernel

/-- Z2; the words pushed after the segment word, whose spare bits are open, are not looked at. -/
theorem test_z8001_system_call_pushes_four_words : runs (startZ8001 0x9800 [0x7F01] [] [])
    (fun t => t.regs[15] == 0x7FF8 && t.regs[14] == 0x0100) = true := by decide +kernel

/-- Z3 -/
theorem test_z8001_interrupt_return :
    runs (startZ8001 0xC000 [0x7B00] [(15, 0x7FF8)]
        [(1, 0x7FF8, 0x7F01), (1, 0x7FFA, 0x9800), (1, 0x7FFC, 0x0200), (1, 0x7FFE, 0x0102)])
      (fun t => t.pcSeg == 2 && t.pc == 0x0102 && t.fcw == 0x9800 && t.regs[15] == 0x8000) = true := by decide +kernel

/-- Z1b -/
theorem test_z8001_reset_reads :
    runs { startZ8001 0xC000 [] [] [(0, 2, 0xC000), (0, 4, 0x83FF), (0, 6, 0x0100)] with resetPending := true }
      (fun t => t.fcw == 0xC000 && t.pcSeg == 3 && t.pc == 0x0100) = true := by decide +kernel


/-! ## Witnesses: states and operands that meet the hypotheses of the statements -/

/-- A Z8002 in system mode, the reset reads done. -/
def sys2 : State := { State.reset with resetPending := false }

/-- A Z8002 in normal mode. -/
def nrm2 : State := { sys2 with fcw := 0 }

/-- A Z8002 whose platform refuses odd word addresses. -/
def even2 : State := { sys2 with platform := { Platform.default with oddWord := .refuse } }

/-- A Z8001 in segmented system mode. -/
def sys1 : State := { sys2 with platform := { Platform.default with variant := .z8001 }, fcw := 0xC000 }

/-- A Z8001 in segmented normal mode. -/
def nrm1 : State := { sys1 with fcw := 0x8000 }

/-- A Z8001 in nonsegmented system mode. -/
def near1 : State := { sys1 with fcw := 0x4000 }

theorem witness_ResetSequenceLoadsProgramStatus :
    (let s : State := { sys2 with pins := { Pins.inactive with reset := true } };
      s.turns = [] ∧ s.pins.reset = true)
      ∧ (State.reset.turns = [] ∧ State.reset.pins.reset = false ∧ State.reset.pins.busreq = false
        ∧ State.reset.busGranted = false ∧ State.reset.pins.wait = false ∧ State.reset.resetPending = true)
      ∧ ({ sys1 with resetPending := true } : State).isZ8001 = true := by decide

theorem witness_MemoryIsBigEndianAndReadsBack :
    sys2.platform.memoryMap.windows = [] ∧ sys1.platform.memoryMap.windows = []
      ∧ (∀ a ∈ [(⟨0, 0⟩ : Addr), ⟨0, 0xFFFE⟩, ⟨127, 0xFFFE⟩], a.off.getLsbD 0 = false)
      ∧ Present sys2 .w ⟨true, .data⟩ ⟨0, 0xFFFE⟩ := by
  unfold Present Storage; decide +kernel

theorem witness_RegistersAlias :
    (∀ n ∈ [(0 : Reg), 7], n.toNat < 8) ∧ (1 : Reg) ≠ 15 &&& 7 ∧ pairOk 0 = true ∧ pairOk 14 = true
      ∧ ((1 : Reg) ≠ 14 ∧ (1 : Reg) ≠ 14 + 1) ∧ quadOk 0 = true ∧ quadOk 12 = true ∧ (0 : Reg) ∉ quadRegs 12 := by
  decide

theorem witness_StackPointerCopiesFollowMode :
    sys2.system = true ∧ nrm2.system = false ∧ sys1.system = true ∧ nrm1.system = false
      ∧ ∀ r ∈ [(0 : Reg), 13], r.toNat < 14 := by decide

theorem witness_EffectiveAddresses :
    sys2.segmented = false ∧ near1.segmented = false ∧ sys1.segmented = true := by decide

theorem witness_StepRunsDecodedInstruction :
    ∃ s : State, s.Quiet ∧
      decode s.segmented
        ((List.range 4).map fun n => s.peekWord (s.space .code) (s.pcAddr.add (BitVec.ofNat 16 (2 * n)))) =
          .ok (.add 1 (.reg 2), [0, 0, 0])
      ∧ (Instr.add 1 (.reg 2)).wellFormed s.segmented = true :=
  ⟨{ sys2 with mem := [(0, 0x81), (1, 0x21)] }, by unfold State.Quiet State.Free; decide, by decide +kernel, by decide⟩

/-- A store to the word after it leaves a record. -/
theorem witness_StepRunsDecodedInstruction_stale :
    let t : State := { sys2 with pc := 2, mem := [(2, 0x8D)] }
    (⟨⟨0, 2⟩, 0⟩ : Stale) ∈ sys2.staleAfter t ⟨0, 2⟩ := by decide +kernel

theorem witness_DecodeOfEncode :
    (Instr.lda 15 (.mem (.da (.near 0xFFFF)))).wellFormed false = true
      ∧ (Instr.lda 14 (.mem (.da (.long 127 0xFFFF)))).wellFormed true = true
      ∧ (Instr.ldps (.ir 2)).wellFormed true = true := by decide

theorem witness_InstructionsAreOneToFourWords :
    decode false [0x8D07, 0x8D07] = .ok (.nop, [0x8D07]) ∧ 4 ≤ [0x4D05, 0x8000, 0, 1].length
      ∧ decode true [0x4D05, 0x8000, 0, 1] = .ok (.ld (.storeImm (.da (.long 0 0)) 1), []) := by decide +kernel

theorem witness_StepKeepsTheInvariant : State.reset.Inv ∧ ∃ t, step State.reset = .next t :=
  ⟨by unfold State.Inv; decide, _, rfl⟩

theorem witness_NormalModeCannotTouchSystemState :
    nrm2.system = false ∧ privilegedInstr (.ldk 1 2) = false ∧ trappingInstr (.ldk 1 2) = false
      ∧ ∃ t, exec (.ldk 1 2) nrm2 = .next t := ⟨by decide, by decide, by decide, _, rfl⟩

/-- A CPU turn with nothing listed, one with a turn after it, and a turn of the refresh logic that finds refresh enabled. -/
theorem witness_StepKeepsPlatformAndPins :
    (State.reset.turns = [] ∧ ∃ t, step State.reset = .next t)
      ∧ ({ State.reset with turns := [.cpu, .agent (.wait true)] } : State).turns = .cpu :: [.agent (.wait true)]
      ∧ (let s : State := { sys2 with turns := [.agent .refresh], refresh := ⟨true, 0, 0⟩ };
        s.turns = .agent .refresh :: [] ∧ s.refresh.enable = true ∧ s.busGranted = false) :=
  ⟨⟨rfl, _, rfl⟩, rfl, rfl, rfl, rfl⟩

theorem witness_LoadsWriteRegister :
    even2.accessOk .l (even2.xmemAddr (.ba 1 2)) = true ∧ even2.accessOk .w (even2.xmemAddr (.mem (.ir 1))) = true
      ∧ sys2.accessOk .b (sys2.xmemAddr (.mem (.da (.near 0xFFFF)))) = true := by decide

theorem witness_StoresWriteMemory :
    even2.accessOk .l (even2.xmemAddr (.bx 1 2)) = true ∧ even2.accessOk .w (even2.memAddr (.da (.near 0xFFFE))) = true
      ∧ sys2.accessOk .b (sys2.memAddr (.da (.near 0xFFFF))) = true := by decide

theorem witness_RelativeLoadsUseProgramMemory :
    even2.accessOk .l ((even2.advance 2).relAddr 0xFFFE) = true
      ∧ sys1.accessOk .w ((sys1.advance 2).relAddr 0) = true := by decide

theorem witness_AddressAndConstantLoads : sys2.segmented = false ∧ sys1.segmented = true := by decide

theorem witness_LoadMultipleMovesRegisters :
    even2.accessOk .w (even2.memAddr (.da (.near 0xFFFE))) = true
      ∧ (∀ k ∈ [0, 15], k ≤ (15#4).toNat)
      ∧ Storage even2 (even2.wordCells (even2.memSpace (.da (.near 0xFFFE))) (even2.memAddr (.da (.near 0xFFFE)))
          ((15#4).toNat + 1)) := by
  unfold Storage; decide +kernel

/-- For ClearComplementNegate, IncrementAndDecrement, TestsSetFlagsOnly, BitsAreSetAndReset. -/
theorem witness_DestinationOperands :
    (∀ z ∈ [Size.b, .w, .l], sys2.dstOk z (.reg 15) = true ∧ even2.dstOk z (.mem (.da (.near 0xFFFE))) = true)
      ∧ even2.dstOk .b (.mem (.da (.near 0xFFFF))) = true := by decide

/-- For TestsSetFlagsOnly, BitsAreSetAndReset. -/
theorem witness_BitOperands :
    sys2.dstOk .b (bitDst (.static (.mem (.ir 1)) 7)) = true ∧ sys2.dstOk .w (bitDst (.dynamic 3 15)) = true
      ∧ even2.dstOk .w (bitDst (.static (.mem (.da (.near 0xFFFE))) 15)) = true := by decide

theorem witness_ExchangeSwapsOperands :
    even2.accessOk .w (even2.memAddr (.ir 1)) = true ∧ even2.accessOk .b (even2.memAddr (.da (.near 1))) = true := by
  decide

theorem witness_StackTransfers :
    sys2.dstOk .l (.reg 2) = true ∧ even2.accessOk .l (even2.addrReg 15) = true
      ∧ even2.accessOk .w (even2.addrReg 15) = true ∧ even2.ownStack .w 15 (.reg 1) = false
      ∧ even2.ownStack .l 15 (.mem (.ir 2)) = false ∧ even2.accessOk .w ((even2.drop .w 15).memAddr (.ir 2)) = true
      ∧ even2.accessOk .l ((even2.drop .l 15).memAddr (.ir 2)) = true := by decide

/-- For AddAndSubtract, MultiplyGivesExactProduct, DivideTruncatesTowardZero, LogicOperations. -/
theorem witness_SourceOperands :
    sys2.srcOk (.reg 1 : Src .b) = true ∧ sys2.srcOk (.imm 0xFFFF : Src .w) = true
      ∧ even2.srcOk (.mem (.da (.near 0xFFFE)) : Src .w) = true ∧ even2.srcOk (.mem (.ir 1) : Src .l) = true
      ∧ even2.srcOk (.mem (.da (.near 0xFFFF)) : Src .b) = true := by decide

theorem witness_CompareSetsFlagsOnly :
    sys2.srcOk (.imm 0 : Src .l) = true ∧ even2.accessOk .w (even2.memAddr (.ir 1)) = true
      ∧ even2.accessOk .b (even2.memAddr (.da (.near 1))) = true := by decide

/-- `DIV RR2,#v`: a divisor of 0; -65537 by 2 (quotient -32768, the smallest); 32768 by 1 (one bit too wide); 131072 by 2
(two bits too wide). -/
theorem witness_DivideTruncatesTowardZero :
    let s := fun (hi lo : Word) => ({ sys2 with regs := (sys2.regs.set 2 hi).set 3 lo } : State)
    let b := fun (hi lo v : Word) => ((s hi lo).src (.imm v : Src .w)).toInt
    b 0 7 0 = 0
      ∧ (((s 0xFFFE 0xFFFF).regLong 2).toInt = -32768 * b 0xFFFE 0xFFFF 2 + -1 ∧ |(-1 : Int)| < |b 0xFFFE 0xFFFF 2|
        ∧ ((-1 : Int) < 0 ↔ ((s 0xFFFE 0xFFFF).regLong 2).toInt < 0))
      ∧ (((s 0 0x8000).regLong 2).toInt = 32768 * b 0 0x8000 1 + 0 ∧ |(0 : Int)| < |b 0 0x8000 1|)
      ∧ (((s 2 0).regLong 2).toInt = 65536 * b 2 0 2 + 0 ∧ |(0 : Int)| < |b 2 0 2|) := by decide +kernel

/-- 99 + 99 and 99 - 99; 0 - 1 with R0 = 0x0001. -/
theorem witness_DecimalAdjustMakesDecimalSums :
    (({ sys2 with regs := sys2.regs.set 0 0x9999 } : State).regByte 0).toNat = 99 / 10 * 16 + 99 % 10
      ∧ (({ sys2 with regs := sys2.regs.set 0 0x9999 } : State).regByte 8).toNat = 99 / 10 * 16 + 99 % 10
      ∧ (({ sys2 with regs := sys2.regs.set 0 0x0001 } : State).regByte 0).toNat = 0 / 10 * 16 + 0 % 10
      ∧ (({ sys2 with regs := sys2.regs.set 0 0x0001 } : State).regByte 8).toNat = 1 / 10 * 16 + 1 % 10 := by
  decide +kernel

theorem witness_DigitRotates : (0 : Reg) ≠ 8 := by decide

/-- A Z8002 whose platform runs a shift beyond the width. -/
def goesOn2 : State := { sys2 with platform := { Platform.default with shiftCount := .run } }

/-- A shift count at each end of the width, at 0 and beyond the width, on both platforms. -/
theorem witness_ShiftsMoveBits :
    -((Size.w).bits : Int) ≤ (0xFFF0 : Word).toInt ∧ (0xFFF0 : Word).toInt < 0
      ∧ (0x0010 : Word).toInt ≤ (Size.w).bits ∧ 0 ≤ (0x0010 : Word).toInt ∧ (0 : Word).toInt = 0
      ∧ (0xFFE0 : Word).toInt = -((Size.l).bits : Int)
      ∧ ¬((0x0011 : Word).toInt ≤ (Size.w).bits) ∧ ¬(-((Size.w).bits : Int) ≤ (0xFFEF : Word).toInt)
      ∧ sys2.platform.shiftCount = .refuse ∧ goesOn2.platform.shiftCount = .run := by decide

theorem witness_CallsPushTheReturnAddress :
    even2.accessOk .w (even2.addrReg even2.spReg) = true ∧ sys1.accessOk .w (sys1.addrReg sys1.spReg) = true := by
  decide

theorem witness_ReturnPopsTheProgramCounter :
    sys2.flags.holds .f = false ∧ sys2.flags.holds .t = true ∧ even2.accessOk .w (even2.addrReg even2.spReg) = true
      ∧ sys1.flags.holds .t = true ∧ sys1.accessOk .w (sys1.addrReg sys1.spReg) = true := by decide

theorem witness_ProgramStatusLoads :
    (sys2.system = true ∧ (sys2.isZ8001 = true → sys2.segmented = true) ∧ sys2.accessOk .w sys2.systemSp = true)
      ∧ (sys1.system = true ∧ (sys1.isZ8001 = true → sys1.segmented = true) ∧ sys1.accessOk .w sys1.systemSp = true)
      ∧ even2.accessOk .w (even2.memAddr (.ir 1)) = true := by decide

theorem witness_BlockAndStringComparesIterate :
    (Instr.cpib 2 3 8 .eq).wellFormed even2.segmented = true ∧ even2.accessOk .b (even2.addrReg 2) = true
      ∧ (Instr.cpir 2 4 5 .eq).wellFormed sys1.segmented = true ∧ sys1.accessOk .w (sys1.addrReg 2) = true
      ∧ (Instr.cpsi 2 3 4 .eq).wellFormed even2.segmented = true ∧ even2.accessOk .w (even2.addrReg 4) = true := by
  decide

theorem witness_BlockMovesIterate :
    (Instr.ldi 1 3 2).wellFormed even2.segmented = true ∧ even2.accessOk .w (even2.addrReg 1) = true
      ∧ even2.accessOk .w (even2.addrReg 2) = true ∧ (Instr.ldirb 2 0 4).wellFormed sys1.segmented = true
      ∧ sys1.accessOk .b (sys1.addrReg 4) = true := by decide

theorem witness_TranslatesIterate :
    (Instr.trib 2 4 3).wellFormed sys2.segmented = true ∧ (Instr.trtdrb 2 6 4).wellFormed sys1.segmented = true
      ∧ (9 : Reg) ≠ 1 ∧ (8 : Reg) &&& 7 ≠ sys2.offReg 2 ∧ (8 : Reg) &&& 7 ≠ 4 := by decide

theorem witness_SingleTransfers :
    sys2.system = true ∧ sys1.system = true
      ∧ ∃ s : State, s.system = true ∧ s.pins.ioInput = 0x1234 :: [] :=
  ⟨by decide, by decide, { sys2 with pins := { Pins.inactive with ioInput := [0x1234] } }, by decide, rfl⟩

theorem witness_BlockTransfersIterate :
    even2.system = true ∧ (Instr.ini 1 3 2).wellFormed even2.segmented = true
      ∧ even2.accessOk .w (even2.addrReg 2) = true ∧ (Instr.outi 2 3 1).wellFormed even2.segmented = true
      ∧ sys1.system = true ∧ (Instr.sotirb 2 0 1).wellFormed sys1.segmented = true
      ∧ sys1.accessOk .b (sys1.addrReg 2) = true := by decide

theorem witness_ControlRegisterTransfers :
    sys2.system = true ∧ sys2.isZ8001 = false ∧ sys1.system = true ∧ sys1.isZ8001 = true := by decide

theorem witness_FlagInstructions :
    (2 ≤ 2 ∧ 2 < 8) ∧ (2 ≤ 7 ∧ 7 < 8) ∧ (sys2.regByte 0).getLsbD 1 = false := by decide

theorem witness_SystemControlInstructions :
    sys2.system = true ∧ sys2.platform.micro = { invertMi := false, invertS := false, invertZ := false }
      ∧ sys2.pins.mi = false ∧ ({ sys2 with pins := { Pins.inactive with mi := true } } : State).pins.mi = true := by
  decide

theorem witness_SystemCallAndExtendedTraps :
    even2.accessOk .w even2.systemSp = true ∧ even2.epa = false ∧ nrm1.accessOk .w nrm1.systemSp = true
      ∧ nrm1.epa = false := by decide

theorem witness_PrivilegedInstructionsTrapInNormalMode :
    nrm2.system = false ∧ privilegedInstr .halt = true ∧ nrm2.accessOk .w nrm2.systemSp = true
      ∧ nrm1.system = false ∧ nrm1.accessOk .w nrm1.systemSp = true := by decide

theorem witness_ProgramStatusAreaLayout : sys2.isZ8001 = false ∧ sys1.isZ8001 = true := by decide

/-- A Z8001 in segmented normal mode, the entry for SC with FCW 0xC000 at 26. -/
def calls1 : State := { nrm1 with mem := [(26, 0xC0)] }

/-- A Z8002 in normal mode, the entry for SC with FCW 0x4000 at 12. -/
theorem witness_ReturnUndoesEntry :
    ∃ s t : State, s.system = false ∧ s.isZ8001 = false ∧ s.accessOk .w s.systemSp = true ∧ Storage s s.frameCells
      ∧ exec (.sc 5) s = .next t ∧ t.system = true ∧ (t.isZ8001 = true → t.segmented = true) :=
  ⟨{ nrm2 with mem := [(12, 0x40)] }, _, by decide, by decide, by decide, by unfold Storage; decide +kernel, rfl,
    by decide +kernel, by decide +kernel⟩

/-- `calls1`; its frame holds a word with open bits, and the FCW of the entry stands outside it. -/
theorem witness_ReturnUndoesEntry_z8001 :
    ∃ s t : State, s.system = false ∧ s.isZ8001 = true ∧ s.accessOk .w s.systemSp = true ∧ Storage s s.frameCells
      ∧ exec (.sc 5) s = .next t ∧ t.system = true ∧ (t.isZ8001 = true → t.segmented = true) := by
  have hx : ∃ t, calls1.enter (.trap .systemCall) 0x7F05 ⟨0, 2⟩ = .next t := ⟨_, rfl⟩
  obtain ⟨t, ht⟩ := hx
  obtain ⟨⟨⟨-, hm, -⟩, -, -, hf, -⟩, hs, -⟩ := entered_enter calls1 _ _ _ ht
  have hw := peekWord_sameMemoryBut _ hm (sp := ⟨true, .code⟩) (a := ⟨0, 26⟩) (by decide +kernel)
  have hz : t.isZ8001 = true := by rw [State.isZ8001_congr hs.1.1]; decide
  have hp : t.psaFcw (.trap .systemCall) = 0xC000 := by
    rw [State.psaFcw, State.psaWord, State.psaBase, hz, hs.1.2.1, hs.1.2.2.1]
    exact hw.trans (by decide +kernel)
  rw [hp] at hf
  have h14 := hf 14 (by decide)
  have h15 := hf 15 (by decide)
  refine ⟨calls1, t, by decide, by decide, by decide, by unfold Storage; decide +kernel, ht, h14, fun _ => ?_⟩
  rw [State.segmented, hz, h15]
  decide

/-- Every request can be the accepted one, with and without a request of the memory management unit. -/
theorem witness_AcceptedRequestIsEntered :
    ∀ (r : Request) (b : Option Byte), let s : State := { sys1 with accepted := some r, mmuRequest := b }
      s.Free ∧ s.accepted = some r ∧ s.accessOk .w s.systemSp = true ∧ s.platform.mmu = [] :=
  fun _ _ => ⟨⟨rfl, rfl, rfl, rfl, rfl, rfl, rfl⟩, rfl, rfl, rfl⟩

/-- A rule of the memory management unit that names a write to data space of normal mode, segment 3. -/
def guarded1 : State :=
  { nrm1 with platform := { nrm1.platform with mmu := [⟨⟨false, .data⟩, true, 3, 0x1000, 0x1FFF, 0xA5⟩] } }

theorem witness_HighestEnabledRequestIsAccepted :
    sys1.platform.enableDelay = false
      ∧ (sys2.finish 1 [] { sys1 with nmiLatch := true }).accepted = some .nmi
      ∧ (sys2.finish 1 [] { sys1 with pins := { Pins.inactive with segt := true } }).accepted = some .segt
      ∧ (sys2.finish 1 [] { sys1 with mmuRequest := some 7 }).accepted = some .segt
      ∧ (sys2.finish 1 [] { sys1 with fcw := 0xD000, pins := { Pins.inactive with vi := true } }).accepted = some .vi
      ∧ (sys2.finish 1 [] { sys1 with fcw := 0xC800, pins := { Pins.inactive with nvi := true } }).accepted = some .nvi
      ∧ (sys2.finish 1 [] sys1).accepted = none := by decide +kernel

/-- Cycles at both ends of the rule's range ask for the trap; those beside it, and a read, do not. -/
theorem witness_HighestEnabledRequestIsAccepted_mmu :
    let write := fun (off : Word) => Cycle.memory .reference ⟨false, .data⟩ true false ⟨3, off⟩
    let asks := fun c => guarded1.platform.mmu.map c.asks
    guarded1.platform.enableDelay = false ∧ guarded1.mmuRequest = none ∧ guarded1.isZ8001 = true
      ∧ asks (write 0x1000) = [true] ∧ asks (write 0x1FFF) = [true] ∧ asks (write 0x0FFF) = [false]
      ∧ asks (write 0x2000) = [false] ∧ asks (.memory .reference ⟨false, .data⟩ false false ⟨3, 0x1000⟩) = [false]
      ∧ (sys1.finish 1 [write 0x0FFE, write 0x1000, write 0x1002] guarded1).mmuRequest = some 0xA5 := by decide +kernel

theorem witness_HoldsAndHalt :
    (let s : State := { sys2 with pins := { Pins.inactive with busreq := true } };
      s.turns = [] ∧ s.pins.reset = false ∧ s.pins.busreq = true ∧ s.busGranted = false)
    ∧ (let s : State := 
        { sys2 with
          busGranted := true
          pins :=
            { Pins.inactive with
              busreq := true
              dma := [⟨⟨true, .data⟩, ⟨0, 8⟩, 1⟩, ⟨⟨false, .code⟩, ⟨0, 9⟩, 2⟩] } };
      s.turns = [] ∧ s.pins.reset = false ∧ s.pins.busreq = true ∧ s.busGranted = true
        ∧ s.pins.dma = [] ++ ⟨⟨true, .data⟩, ⟨0, 8⟩, 1⟩ :: [⟨⟨false, .code⟩, ⟨0, 9⟩, 2⟩]
        ∧ (∀ w ∈ [(⟨⟨false, .code⟩, ⟨0, 9⟩, 2⟩ : BusWrite)], s.cell w.space w.addr ≠ s.cell ⟨true, .data⟩ ⟨0, 8⟩)
        ∧ s.absentCell (s.cell ⟨true, .data⟩ ⟨0, 8⟩) = false)
    ∧ (let s : State := { sys2 with busGranted := true };
      s.turns = [] ∧ s.pins.reset = false ∧ s.pins.busreq = false ∧ s.busGranted = true)
    ∧ (let s : State := { sys2 with pins := { Pins.inactive with wait := true } };
      s.turns = [] ∧ s.pins.reset = false ∧ s.pins.busreq = false ∧ s.busGranted = false ∧ s.pins.wait = true)
    ∧ (let s : State := { sys2 with pins := { Pins.inactive with stop := true } };
      s.turns = [] ∧ s.pins.reset = false ∧ s.pins.busreq = false ∧ s.busGranted = false ∧ s.pins.wait = false
        ∧ s.resetPending = false ∧ s.pins.stop = true)
    ∧ (let s : State := { sys2 with halted := true };
      s.Free ∧ s.accepted = none ∧ s.halted = true ∧ s.nmiLatch = false ∧ (s.pins.nmi = true → s.nmiLevel = true)
        ∧ (s.isZ8001 = true → s.pins.segt = false ∧ s.mmuRequest = none)
        ∧ (s.pins.vi = true → s.fcw.getLsbD 12 = false) ∧ (s.pins.nvi = true → s.fcw.getLsbD 11 = false))
    ∧ (let s : State := { sys2 with halted := true, nmiLatch := true };
      s.Free ∧ s.accepted = none ∧ s.halted = true ∧ s.pick (s.fcw.getLsbD 12) (s.fcw.getLsbD 11) = some .nmi) := by
  unfold State.Free; decide +kernel

/-- An odd PC; a must-be-zero bit of a dynamic shift, of a long address at the second and at the third word; EPA = 1; a
nonsegmented Z8001. -/
theorem witness_StopsByName :
    (let s : State := { sys2 with pc := 1 };
      s.Free ∧ s.accepted = none ∧ s.halted = false ∧ s.pc.getLsbD 0 = true)
    ∧ unassignedWord 0x7E00 = true ∧ unassignedWord 0x8121 = false
    ∧ (fixedBits 0xB303 = some (0xF0FF, 0) ∧ (0x1200 : Word) &&& 0xF0FF ≠ 0)
    ∧ (fixedBits 0xB826 = some (0xF00F, 14) ∧ (0x0340 : Word) &&& 0xF00F ≠ 14)
    ∧ (unassignedWord 0x6101 = false ∧ addressWord 0x6101 = some 0 ∧ addressWord 0x5C01 = some 1
      ∧ (0x8001 : Word).msb = true ∧ (0x8001 : Word).extractLsb' 0 8 ≠ 0)
    ∧ even2.platform.oddWord = .refuse ∧ sys2.platform.oddWord = .clearBit0
    ∧ (({ sys2 with fcw := 0x6000 } : State).epa = true ∧ sys2.platform.epu = [])
    ∧ (near1.system = true ∧ near1.isZ8001 = true ∧ near1.segmented = false) := by
  unfold State.Free; decide +kernel

/-- Words at 0 that a step refuses: an unassigned one, one with a must-be-zero bit, `EXTS RR1` (0xB11A). -/
theorem witness_StopsByName_words :
    let s := fun (mem : Memory) => ({ sys2 with mem := mem } : State)
    let words := fun (s : State) =>
      (List.range 4).map fun n => s.peekWord (s.space .code) (s.pcAddr.add (BitVec.ofNat 16 (2 * n)))
    ((s [(0, 0x36)]).Quiet ∧ decode false (words (s [(0, 0x36)])) = .error .unassigned)
    ∧ ((s [(0, 0xB3), (1, 0x03), (2, 0x10)]).Quiet
      ∧ decode false (words (s [(0, 0xB3), (1, 0x03), (2, 0x10)])) = .error .mustBeZero
      ∧ privilegedOpcode 0xB303 = false)
    ∧ ((s [(0, 0xB1), (1, 0x1A)]).Quiet ∧ decode false (words (s [(0, 0xB1), (1, 0x1A)])) = .ok (.exts 1, [0, 0, 0])
      ∧ (Instr.exts 1).wellFormed false = false ∧ privilegedInstr (.exts 1) = false) := by
  unfold State.Quiet State.Free; decide +kernel

/-- An odd address stops a word access of each kind on a platform that refuses it. -/
theorem witness_StopsByName_odd :
    ([.ld (.load 1 (.mem (.da (.near 0xFFFF)))), .clr (.mem (.da (.near 1))), .ldm .store (.da (.near 3)) 0 1,
      .ldps (.da (.near 5))] : List Instr).all
        (fun i => (even2.instrCycles i).any fun c =>
          match c with
          | .memory _ _ _ byte a => !byte && a.off.getLsbD 0
          | _ => false) = true := by decide +kernel

/-- A Z8002 with EPA = 1 and an Extended Processing Unit that has a template for the second word 0 of opcode 8E. -/
def unit2 (act : EpuAction) : State :=
  { sys2 with fcw := 0x6000, platform := { Platform.default with oddWord := .refuse, epu := [⟨.op8E, 0, 0, act⟩] } }

theorem witness_ExtendedInstructionsWithAUnit :
    (∀ act ∈ [EpuAction.internal, .fromMemory (.da (.near 0xFFFE)) 0, .toMemory (.ir 1) 15, .fromRegs 15 15, .toRegs 8 0,
        .toFlags], (unit2 act).epa = true ∧ (unit2 act).epuAction .op8E 0 0 = some act)
      ∧ (∀ m ∈ [Mem.da (.near 0xFFFE), .ir 1], (unit2 .internal).accessOk .w ((unit2 .internal).memAddr m) = true)
      ∧ Storage (unit2 .internal) ((unit2 .internal).wordCells ⟨true, .data⟩ ⟨0, 0xFFFE⟩ 16) :=
  ⟨by decide +kernel, by decide +kernel, by unfold Storage; decide +kernel⟩

/-- A store, and an instruction that writes no memory. -/
theorem witness_WriteCyclesAccountForMemory :
    (∃ t, exec (.clrb (.mem (.da (.near 5)))) sys2 = .next t)
      ∧ (sys2.instrCycles (.clrb (.mem (.da (.near 5))))).flatMap sys2.writtenCells = [5]
      ∧ (∃ t, exec .nop sys2 = .next t) ∧ (sys2.instrCycles .nop).flatMap sys2.writtenCells = [] :=
  ⟨⟨_, rfl⟩, by decide +kernel, ⟨_, rfl⟩, rfl⟩

/-! ## The bus and the other agents -/

/-- R52, R53: the last cycle of `CLR 3:%1000` on a Z8001 is a word write to segment 3. -/
theorem test_lines_of_a_store : runs (startZ8001 0xC000 [0x4D08, 0x8300, 0x1000] [] [])
    (fun t => t.snLines == some 3 && t.statusLines == some 0b1000 && t.rwLow == some true && t.bwLow == some true
      && t.bus.length == 4) = true := by decide +kernel

/-- R520: RESET Low forces SN0 to SN6 Low and ST0 to ST3 High. -/
theorem test_lines_in_reset :
    runs { startZ8001 0xC000 [] [] [] with pins := { Pins.inactive with reset := true } }
      (fun t => t.snLines == some 0 && t.statusLines == some 0b1111) = true := by decide +kernel

/-- R87, R458: a write that the memory management unit names asks for the segment trap, with its identifier. -/
theorem test_mmu_asks_for_the_segment_trap :
    let s := startZ8001 0x8000 [0x4D08, 0x8300, 0x1000] [] []
    runs { s with platform := { s.platform with mmu := guarded1.platform.mmu } }
      (fun t => t.accepted == some .segt && t.mmuRequest == some 0xA5
        && runs t fun u => u.mmuRequest == none && u.accepted == none) = true := by decide +kernel

/-- R450: the identifier's high byte is that of the memory management unit's request. -/
theorem test_mmu_gives_the_identifier :
    highByte (({ sys1 with mmuRequest := some 0xA5 } : State).ackWord .segt) = 0xA5 :=
  BitVec.extractLsb'_append_eq_left

/-- R91: the first step with BUSREQ Low grants the bus, the next one lets the requester write. -/
theorem test_bus_requester_writes :
    runs { start 0x4000 [] [] [] with
        pins := { Pins.inactive with busreq := true, dma := [⟨⟨true, .data⟩, ⟨0, 0x2000⟩, 0x5A⟩] } }
      (fun t => t.busackLow && t.nsLow == none && t.statusLines == none && word t 0x2000 == 0
        && runs t fun u => u.busackLow && word u 0x2000 == 0x5A00 && u.pc == 0x1000) = true := by decide +kernel

/-- R251: `CALL @R15` jumps to the address that the push leaves in R15. -/
theorem test_call_through_the_stack_pointer : runs (start 0x4000 [0x1FF0] [(15, 0x8000)] [])
    (fun t => t.reg 15 == 0x7FFE && word t 0x7FFE == 0x1002 && t.pc == 0x7FFE) = true := by decide +kernel

/-- R95: the second iteration of `LDIRB @R3,@R2,R4` that changes the word after it keeps what the first one replaced. -/
theorem test_fetch_ahead_keeps_each_word :
    let next : Addr := ⟨0, 0x1004⟩
    runs { start 0x4000 [0xBA21, 0x0430, 0x8D07] [(2, 0x2000), (3, 0x1005), (4, 2)] [(0x2000, 0x5A00)] with
        stale := [⟨next, 0x1107⟩] }
      (fun t => t.stale == [⟨next, 0x8D07⟩, ⟨next, 0x1107⟩] && word t 0x1004 == 0x8D5A && t.pc == 0x1000) = true := by
  decide +kernel

/-- R134, R440: an Extended Processing Unit's two words go to R8 and R9. -/
theorem test_epu_supplies_registers :
    let s := start 0x6000 [0x8E00, 0x0000] [] []
    runs { s with
        platform := (unit2 (.toRegs 8 1)).platform
        pins := { Pins.inactive with epuOutput := [0x1234, 0x5678] } }
      (fun t => t.reg 8 == 0x1234 && t.reg 9 == 0x5678 && t.pc == 0x1004 && t.pins.epuOutput == []) = true := by
  decide +kernel

/-- R72: a window makes normal data at 0x2000 the cells of system data at 0x3000. -/
theorem test_a_window_shares_part_of_a_space :
    let map : MemoryMap := { MemoryMap.split with windows := [⟨⟨false, .data⟩, 0x2000, 0x100, 2 ^ 23 + 0x3000⟩] }
    let s : State := { sys2 with platform := { sys2.platform with memoryMap := map } }
    (s.pokeByte ⟨true, .data⟩ ⟨0, 0x3010⟩ 0x7E).peekByte ⟨false, .data⟩ ⟨0, 0x2010⟩ = 0x7E
      ∧ (s.pokeByte ⟨true, .data⟩ ⟨0, 0x3100⟩ 0x7E).peekByte ⟨false, .data⟩ ⟨0, 0x2100⟩ = 0 := by decide +kernel

/-! ## Turns of the other agents -/

/-- The state after `n` steps that all answer a next state. -/
def after (n : Nat) (s : State) : Option State :=
  n.rec (some s) fun _ t => t.bind fun u => match step u with
    | .next v => some v
    | _ => none

/-- R45, R456: NMI goes Low and High again in two turns of its source; the edge stays latched, and the CPU's turn after
them accepts it. -/
theorem test_agents_pulse_nmi :
    let pulse : List Turn := [.agent (.request .nmi true 0x1234), .agent (.request .nmi false 0x1234)]
    ((after 2 { start 0x4000 [0x8D07] [] [] with turns := pulse }).any fun t =>
      t.nmiLatch && !t.pins.nmi && t.pc == 0x1000 && t.turns == []
        && runs t fun u => u.accepted == some .nmi && u.pc == 0x1002) = true := by decide +kernel

/-- R10, R82: a device has its answer ready in a turn that falls between two instructions. -/
theorem test_agents_device_answers :
    ((after 3 { start 0x4000 [0x8D07, 0x3B14, 0x0010] [] [] with turns := [.cpu, .agent (.device [0x5678])] }).any fun t =>
      t.reg 1 == 0x5678 && t.pins.ioInput == [] && t.pc == 0x1006) = true := by decide +kernel

/-- R94, R95: after `JR $` there is no record of a word that a store replaced, whichever word its own fetch took. -/
theorem test_fetch_ahead_serves_one_fetch (t : State) (old : List Stale) (h : t.pcAddr = ⟨0, 0x1000⟩) :
    let s : State := { start 0x4000 [0xE8FF] [] [] with stale := old.map fun x => ⟨x.addr, 0xE8FF⟩ }
    s.staleAfter t (s.pcAddr.add 2) = [] := by
  intro s
  have hw : blockOpcode s.firstCodeWord = false := by
    simp only [State.firstCodeWord]
    split
    · next x hx =>
      have hm := List.mem_of_mem_filter (List.mem_of_getElem? hx)
      obtain ⟨y, -, rfl⟩ := List.mem_map.1 hm
      exact (by decide : blockOpcode 0xE8FF = false)
    · exact (by decide +kernel : blockOpcode ((start 0x4000 [0xE8FF] [] []).codeWord 0) = false)
  refine if_neg ?_
  rintro (hn | ⟨-, hb⟩)
  · have hp : (start 0x4000 [0xE8FF] [] []).pcAddr.add 2 = ⟨0, 0x1002⟩ := by decide +kernel
    exact absurd (h.symm.trans (hn.trans hp)) (by decide)
  · rw [hw] at hb
    cases hb

/-- R301, U12: a shift beyond the width is refused. -/
theorem test_shift_count_refused :
    (match step (start 0x4000 [0xB313, 0x0200] [(2, 17)] []) with
      | .refused r => r == .shiftCount
      | _ => false) = true := by decide +kernel

end Sys2Proof.Tests
end

/-! What a step of the CPU takes from the other agents of R10, and what a turn of another agent changes. -/

namespace Sys2Proof.Machine

variable {s t u : State}

/-! ### What an operation of the CPU leaves to the other agents -/

/-- The platform, the turns, the pins and the events are as before. -/
structure SameAgents (s t : State) : Prop where
  platform : t.platform = s.platform
  turns    : t.turns = s.turns
  pins     : t.pins = s.pins
  events   : t.events = s.events

/-- The platform and the turns are as before, and so are the pins but for at most one device's answer and words of an
Extended Processing Unit, taken from the front of their queues; events are added before the old ones. -/
structure Took (s t : State) : Prop where
  platform  : t.platform = s.platform
  turns     : t.turns = s.turns
  pins      : t.pins = { s.pins with ioInput := t.pins.ioInput, epuOutput := t.pins.epuOutput }
  ioInput   : t.pins.ioInput = s.pins.ioInput ∨ t.pins.ioInput = s.pins.ioInput.tail
  epuOutput : ∃ n, t.pins.epuOutput = s.pins.epuOutput.drop n
  events    : ∃ new, t.events = new ++ s.events

theorem sameAgents_of_sameSpecials (h : SameSpecials s t) : SameAgents s t := by
  obtain ⟨⟨hplatform, _, _, _, _, _, _, _, _, _, _, _, _, _, _, hturns, _⟩, hpins, hevents⟩ := h
  exact ⟨hplatform, hturns, hpins, hevents⟩

theorem sameAgents_of_ordinary (h : Ordinary s t) : SameAgents s t := sameAgents_of_sameSpecials h.1

theorem sameAgents_enter {c : Cause} {ident : Word} {saved : Addr} (h : s.enter c ident saved = .next t) :
    SameAgents s t :=
  sameAgents_of_sameSpecials (entered_enter s c ident saved h).2.1

theorem sameAgents_settle (s : State) : SameAgents s s.settle := ⟨rfl, rfl, rfl, rfl⟩

theorem sameAgents_finish (s : State) (n : Nat) (cs : List Cycle) (u : State) : SameAgents u (s.finish n cs u) :=
  ⟨rfl, rfl, rfl, rfl⟩

theorem sameAgents_next (h : (.next u : Result) = .next t) (hu : SameAgents s u) : SameAgents s t := by
  injection h with h
  exact h ▸ hu

theorem sameAgents_whenAligned {ok : Bool} (h : whenAligned ok u = .next t) (hu : SameAgents s u) : SameAgents s t := by
  obtain ⟨_, rfl⟩ := whenAligned_next h
  exact hu

theorem SameAgents.took (h : SameAgents s t) : Took s t where
  platform := h.platform
  turns := h.turns
  pins := by rw [h.pins]
  ioInput := .inl (by rw [h.pins])
  epuOutput := ⟨0, by rw [h.pins, List.drop_zero]⟩
  events := ⟨[], by rw [h.events, List.nil_append]⟩

theorem Took.trans_same (h : Took s t) (g : SameAgents t u) : Took s u where
  platform := g.platform.trans h.platform
  turns := g.turns.trans h.turns
  pins := by rw [g.pins]; exact h.pins
  ioInput := by rw [g.pins]; exact h.ioInput
  epuOutput := by rw [g.pins]; exact h.epuOutput
  events := by rw [g.events]; exact h.events

/-! ### The operations that reach the other agents -/

theorem took_ioRead (s : State) (special : Bool) (port : Word) (z : Size) : Took s (s.ioRead special port z) :=
  ⟨rfl, rfl, rfl, .inr rfl, ⟨0, rfl⟩, ⟨[_], rfl⟩⟩

theorem took_ioWrite (s : State) (special : Bool) (port : Word) (z : Size) (v : BitVec z.bits) :
    Took s (s.ioWrite special port z v) :=
  ⟨rfl, rfl, rfl, .inl rfl, ⟨0, rfl⟩, ⟨[_], rfl⟩⟩

theorem took_epuGive (s : State) (n : Nat) : Took s (s.epuGive n) :=
  ⟨rfl, rfl, rfl, .inl rfl, ⟨n, rfl⟩, ⟨[_], rfl⟩⟩

theorem took_epuTake (s : State) (ws : List Word) : Took s (s.epuTake ws) :=
  ⟨rfl, rfl, rfl, .inl rfl, ⟨0, rfl⟩, ⟨[_], rfl⟩⟩

theorem took_acknowledge (s : State) (r : Request) : Took s (s.acknowledge r) :=
  ⟨rfl, rfl, rfl, .inl rfl, ⟨0, rfl⟩, ⟨[_, _], rfl⟩⟩

theorem took_enterRequest {r : Request} (h : s.enterRequest r = .next t) : Took s t :=
  (took_acknowledge s r).trans_same (sameAgents_enter h)

/-- A transfer with a device or an Extended Processing Unit, then operations that reach no other agent. -/
theorem Took.then_next {v : State} (h : Took s u) (hv : Ordinary u v) (ht : (.next v : Result) = .next t) :
    Took s t :=
  h.trans_same (sameAgents_of_ordinary (ordinary_next hv ht))

theorem Took.then_whenAligned {v : State} {ok : Bool} (h : Took s u) (hv : Ordinary u v)
    (ht : whenAligned ok v = .next t) : Took s t :=
  h.trans_same (sameAgents_of_ordinary (ordinary_whenAligned hv ht))

/-! ### Instructions that are neither privileged nor traps -/

/-- What every instruction that normal mode may run, traps apart, keeps. -/
theorem exec_ordinary {i : Instr} (hp : privilegedInstr i = false) (ht : trappingInstr i = false)
    (h : exec i s = .next t) : Ordinary s t := by
  cases i with
  | addb | add | addl | subb | sub | subl | orb | or | andb | and | xorb | xor | mult | div =>
    exact ordinary_regFrom h
  | multl | divl =>
    exact ordinary_whenAligned (ordinary_advance (ordinary_setFlags (ordinary_setRegQuad (ordinary_refl s) _ _) _) _) h
  | cpb | cp | cpl => exact ordinary_cp h
  | ldb | ld | ldl => exact ordinary_ld h
  | ldrb => exact ordinary_ldr (z := .b) h
  | ldr => exact ordinary_ldr (z := .w) h
  | ldrl => exact ordinary_ldr (z := .l) h
  | lda | ldar => exact ordinary_next (ordinary_advance (ordinary_setAddr (ordinary_refl s) _ _) _) h
  | ldk | extsb | exts => exact ordinary_next (ordinary_advance (ordinary_setReg (ordinary_refl s) _ _) _) h
  | extsl => exact ordinary_next (ordinary_advance (ordinary_setRegLong (ordinary_refl s) _ _) _) h
  | ldm dir =>
    cases dir with
    | load => exact ordinary_whenAligned (ordinary_advance (ordinary_ldmLoad (ordinary_refl s) _ _ _ _) _) h
    | store => exact ordinary_whenAligned (ordinary_advance (ordinary_ldmStore (ordinary_refl s) _ _ _ _) _) h
  | comb | com | negb | neg | clrb | clr | incb | inc | decb | dec | tsetb | tset => exact ordinary_modify h
  | testb | test | testl => exact ordinary_testDst h
  | setflg f => exact ordinary_mapFlags (· ||| f) h
  | resflg f => exact ordinary_mapFlags (· &&& ~~~f) h
  | comflg f => exact ordinary_mapFlags (· ^^^ f) h
  | nop => exact ordinary_next (ordinary_advance (ordinary_refl s) _) h
  | ldctlb dir =>
    cases dir with
    | read => exact ordinary_next (ordinary_advance (ordinary_setRegByte (ordinary_refl s) _ _) _) h
    | write => exact ordinary_next (ordinary_advance (ordinary_writeFlagsByte (ordinary_refl s) _) _) h
  | pushl => exact ordinary_pushFrom h
  | push sp src =>
    cases src with
    | reg | mem => exact ordinary_pushFrom h
    | imm => exact ordinary_whenAligned (ordinary_advance (ordinary_push (ordinary_refl s) _ _ _) _) h
  | popl | pop => exact ordinary_popTo h
  | exb | ex => exact ordinary_exchange h
  | resb | res | setb | set => exact ordinary_bitWrite h
  | bitb | bit => exact ordinary_bitTest h
  | tccb | tcc => exact ordinary_tcc h
  | dab | adcb | sbcb =>
    exact ordinary_next (ordinary_advance (ordinary_setFlags (ordinary_setRegByte (ordinary_refl s) _ _) _) _) h
  | adc | sbc =>
    exact ordinary_next (ordinary_advance (ordinary_setFlags (ordinary_setReg (ordinary_refl s) _ _) _) _) h
  | rrdb | rldb =>
    exact ordinary_next (ordinary_advance (ordinary_setFlags
      (ordinary_setRegByte (ordinary_setRegByte (ordinary_refl s) _ _) _ _) _) _) h
  | rlb | rl | rrb | rr | rlcb | rlc | rrcb | rrc => exact ordinary_rotateReg h
  | sllb | srlb | sll | srl | slll | srll | slab | srab | sla | sra | slal | sral | sdlb | sdl | sdll | sdab | sda
  | sdal => exact ordinary_shift h
  | jp =>
    refine ordinary_next ?_ h
    split
    · exact ordinary_setPc (ordinary_refl s) _
    · exact ordinary_advance (ordinary_refl s) _
  | call => exact ordinary_whenAligned (ordinary_setPc (ordinary_pushPc (ordinary_advance (ordinary_refl s) _)) _) h
  | calr => exact ordinary_whenAligned (ordinary_jumpBy (ordinary_pushPc (ordinary_advance (ordinary_refl s) _)) _) h
  | ret c =>
    simp only [exec, execRet] at h
    split at h
    · exact ordinary_whenAligned (ordinary_popPc (ordinary_refl s)) h
    · exact ordinary_next (ordinary_advance (ordinary_refl s) _) h
  | jr =>
    refine ordinary_next ?_ h
    split
    · exact ordinary_jumpBy (ordinary_advance (ordinary_refl s) _) _
    · exact ordinary_advance (ordinary_refl s) _
  | djnz | dbjnz => exact ordinary_djnz h
  | cpib | cpirb | cpdb | cpdrb => exact ordinary_blockCompare (z := .b) h
  | cpi | cpir | cpd | cpdr => exact ordinary_blockCompare (z := .w) h
  | cpsib | cpsirb | cpsdb | cpsdrb => exact ordinary_blockCompareString (z := .b) h
  | cpsi | cpsir | cpsd | cpsdr => exact ordinary_blockCompareString (z := .w) h
  | ldib | ldirb | lddb | lddrb => exact ordinary_blockMove (z := .b) h
  | ldi | ldir | ldd | lddr => exact ordinary_blockMove (z := .w) h
  | trib | trirb | trdb | trdrb => exact ordinary_translate h
  | trtib | trtirb | trtdb | trtdrb => exact ordinary_translateTest h
  | sc | extended => cases ht
  | _ => cases hp

/-! ### Traps -/

theorem took_handOff {act : EpuAction} (h : s.handOff act = .next t) : Took s t := by
  cases act with
  | internal => exact (sameAgents_of_ordinary (ordinary_next (ordinary_advance (ordinary_refl s) _) h)).took
  | fromMemory => exact (took_epuTake s _).then_whenAligned (ordinary_advance (ordinary_refl _) _) h
  | toMemory =>
    exact (took_epuGive s _).then_whenAligned (ordinary_advance (ordinary_pokeWords (ordinary_refl _) _ _ _ _) _) h
  | fromRegs => exact (took_epuTake s _).then_next (ordinary_advance (ordinary_refl _) _) h
  | toRegs => exact (took_epuGive s _).then_next (ordinary_advance (ordinary_setRegs (ordinary_refl _) _ _ _) _) h
  | toFlags =>
    exact (took_epuGive s _).then_next (ordinary_advance (ordinary_writeFlagsByte (ordinary_refl _) _) _) h

theorem took_execExtended {op : ExtOp} {e : Byte} {e1 : Word} (h : execExtended op e e1 s = .next t) : Took s t := by
  simp only [execExtended] at h
  split at h
  · split at h
    · exact took_handOff h
    · cases h
  · exact (sameAgents_enter h).took

theorem took_of_trapping {i : Instr} (ht : trappingInstr i = true) (h : exec i s = .next t) : Took s t := by
  cases i with
  | sc => exact (sameAgents_enter h).took
  | extended => exact took_execExtended h
  | _ => cases ht

/-! ### Privileged instructions -/

/-- A privileged instruction traps or has its effect (R462). -/
theorem took_privileged {i : Instr} {effect : Result} (h : s.privileged i effect = .next t)
    (he : effect = .next t → Took s t) : Took s t := by
  cases hs : s.system with
  | false => exact (sameAgents_enter (privileged_normal s i effect hs ▸ h)).took
  | true => exact he (privileged_system s i effect hs ▸ h)

theorem took_input {special : Bool} {z : Size} {d : Reg} {port : Word} {n : Nat}
    (h : s.input special z d port n = .next t) : Took s t :=
  (took_ioRead s special port z).then_next (ordinary_advance (ordinary_setRegOf (ordinary_refl _) _ _ _) _) h

theorem took_output {special : Bool} {z : Size} {port : Word} {r : Reg} {n : Nat}
    (h : s.output special z port r n = .next t) : Took s t :=
  (took_ioWrite s special port z _).then_next (ordinary_advance (ordinary_refl _) _) h

theorem took_blockInput {special : Bool} {z : Size} {up rep : Bool} {p r d : Reg}
    (h : s.blockInput special z up rep p r d = .next t) : Took s t :=
  (took_ioRead s special _ z).then_whenAligned (ordinary_endBlock (ordinary_setFlags
    (ordinary_countDown (ordinary_bump (ordinary_poke (ordinary_refl _) _ _ _ _) _ _) _) _) _ _) h

theorem took_blockOutput {special : Bool} {z : Size} {up rep : Bool} {p r d : Reg}
    (h : s.blockOutput special z up rep p r d = .next t) : Took s t :=
  (took_ioWrite s special _ z _).then_whenAligned (ordinary_endBlock (ordinary_setFlags
    (ordinary_countDown (ordinary_bump (ordinary_refl _) _ _) _) _) _ _) h

theorem sameAgents_returnStatus (h : s.returnStatus = .next t) : SameAgents s t := by
  simp only [State.returnStatus] at h
  split at h
  · split at h
    · exact sameAgents_whenAligned h ⟨rfl, rfl, rfl, rfl⟩
    · cases h
  · exact sameAgents_whenAligned h ⟨rfl, rfl, rfl, rfl⟩

theorem sameAgents_readCtl {r : Reg} {c : CtlReg} (h : s.readCtl r c = .next t) : SameAgents s t := by
  cases c with
  | fcw | refresh | psapOff | nspOff => exact sameAgents_next h ⟨rfl, rfl, rfl, rfl⟩
  | psapSeg | nspSeg =>
    simp only [State.readCtl] at h
    split at h
    · exact sameAgents_next h ⟨rfl, rfl, rfl, rfl⟩
    · cases h

theorem sameAgents_writeCtl {r : Reg} {c : CtlReg} (h : s.writeCtl r c = .next t) : SameAgents s t := by
  cases c with
  | fcw | refresh | psapOff | nspOff => exact sameAgents_next h ⟨rfl, rfl, rfl, rfl⟩
  | psapSeg | nspSeg =>
    simp only [State.writeCtl] at h
    split at h
    · exact sameAgents_next h ⟨rfl, rfl, rfl, rfl⟩
    · cases h

theorem took_execLdps {m : Mem} (h : execLdps m s = .next t) : Took s t := by
  refine took_privileged h fun he => (sameAgents_whenAligned he ?_).took
  split <;> exact ⟨rfl, rfl, rfl, rfl⟩

theorem took_execMreq {d : Reg} (h : execMreq d s = .next t) : Took s t := by
  refine took_privileged h fun he => SameAgents.took ?_
  split at he <;> exact sameAgents_next he ⟨rfl, rfl, rfl, rfl⟩

theorem took_of_privileged {i : Instr} (hp : privilegedInstr i = true) (h : exec i s = .next t) : Took s t := by
  cases i with
  | inb | inw | sinb | sin => exact took_privileged h took_input
  | outb | out | soutb | sout => exact took_privileged h took_output
  | inib | inirb | indb | indrb | ini | inir | ind | indr | sinib | sinirb | sindb | sindrb | sini | sinir | sind
  | sindr => exact took_privileged h took_blockInput
  | outib | otirb | outdb | otdrb | outi | otir | outd | otdr | soutib | sotirb | soutdb | sotdrb | souti | sotir
  | soutd | sotdr => exact took_privileged h took_blockOutput
  | iret => exact took_privileged h fun he => (sameAgents_returnStatus he).took
  | ldps => exact took_execLdps h
  | mreq => exact took_execMreq h
  | halt | mset | mres | mbit | di | ei =>
    exact took_privileged h fun he => (sameAgents_next (s := s) he ⟨rfl, rfl, rfl, rfl⟩).took
  | ldctl dir =>
    cases dir with
    | read => exact took_privileged h fun he => (sameAgents_readCtl he).took
    | write => exact took_privileged h fun he => (sameAgents_writeCtl he).took
  | _ => cases hp

/-! ### A step of the CPU -/

/-- Whatever the instruction, its meaning takes at most that from the other agents. -/
theorem took_exec {i : Instr} (h : exec i s = .next t) : Took s t := by
  cases hp : privilegedInstr i with
  | true => exact took_of_privileged hp h
  | false =>
    cases ht : trappingInstr i with
    | true => exact took_of_trapping ht h
    | false => exact (sameAgents_of_ordinary (exec_ordinary hp ht h)).took

/-- A CPU that has not granted the bus takes nothing from the other agents while it is held or waits. -/
theorem sameAgents_held (hg : s.busGranted = false) (h : Held s u) : SameAgents s u := by
  rcases h with rfl | rfl | rfl | rfl | rfl | rfl | rfl
  case inr.inl =>
    rcases busRequest_cases s with ⟨_, hb⟩ | ⟨hg', _⟩
    · rw [hb]; exact ⟨rfl, rfl, rfl, rfl⟩
    · exact absurd (hg.symm.trans hg') Bool.false_ne_true
  all_goals exact ⟨rfl, rfl, rfl, rfl⟩

theorem took_cycle (hg : s.busGranted = false) (h : s.cycle exec = .next t) : Took s t := by
  rcases cycle_cases s h with ⟨u, hu, rfl⟩ | ⟨r, u, hu, rfl⟩ | ⟨i, n, u, _, hu, rfl⟩ | ⟨u, hu, rfl⟩
  · exact (sameAgents_held hg hu).took.trans_same (sameAgents_settle u)
  · exact (took_enterRequest hu).trans_same ⟨rfl, rfl, rfl, rfl⟩
  · exact (took_exec hu).trans_same (sameAgents_finish s _ _ u)
  · exact (sameAgents_enter hu).took.trans_same (sameAgents_finish s _ _ u)

/-- While the bus is granted a step obeys RESET or BUSREQ, or takes the bus back (R91, R523). -/
theorem cycle_granted {ex : Instr → State → Result} (hg : s.busGranted = true) :
    s.cycle ex = .next (if s.pins.reset then s.resetLow else if s.pins.busreq then s.busRequest
      else { s with busGranted := false }).settle := by
  simp only [State.cycle, hg, if_true]
  split
  · rfl
  · split <;> rfl

/-- The bus requester's writes are the one thing more that a step takes, where the requester has the bus (R91). -/
theorem cycle_took_or_busRequest (h : s.cycle exec = .next t) :
    Took s t ∨ (s.pins.busreq = true ∧ s.busGranted = true ∧ t = s.busRequest.settle) := by
  cases hg : s.busGranted with
  | false => exact .inl (took_cycle hg h)
  | true =>
    rw [cycle_granted hg] at h
    injection h with h
    subst h
    split
    · exact .inl (SameAgents.took ⟨rfl, rfl, rfl, rfl⟩)
    · split
      · next hb => exact .inr ⟨hb, rfl, rfl⟩
      · exact .inl (SameAgents.took ⟨rfl, rfl, rfl, rfl⟩)

/-- The platform, the turns, the events and every pin but `dma` outlast the writes of a bus requester. -/
theorem busRequest_settle_agents (hg : s.busGranted = true) :
    s.busRequest.settle.platform = s.platform ∧ s.busRequest.settle.turns = s.turns
      ∧ s.busRequest.settle.pins = { s.pins with dma := [] } ∧ s.busRequest.settle.events = s.events := by
  simp only [State.busRequest, hg, if_true, State.settle, and_self]

/-! ### A step of the machine -/

theorem step_nil (h : s.turns = []) : step s = s.cycle exec := by
  simp only [step, State.turn, h]

theorem step_cpu {rest : List Turn} (h : s.turns = .cpu :: rest) :
    step s = afterwards (step { s with turns := [] }) fun t => { t with turns := rest } := by
  simp only [step, State.turn, h]

theorem step_agent {a : AgentAction} {rest : List Turn} (h : s.turns = .agent a :: rest) :
    step s = .next (State.agentStep { s with turns := rest } a) := by
  simp only [step, State.turn, h]

/-! ### A turn of another agent -/

/-- The refresh counter stays even (R37, D12). -/
theorem drawRow_row_even (s : State) : s.drawRow.refresh.row.getLsbD 0 = false := by
  simp [State.drawRow]

theorem agentMoved_refresh (s : State) : AgentMoved s (s.agentStep .refresh) .refresh := by
  cases he : s.refresh.enable && !s.busGranted with
  | true =>
    have hr : s.agentStep .refresh = State.settle { s.drawRow with bus := [.refresh] } := by
      simp only [State.agentStep, State.refreshCycle, he, if_true]
    rw [hr]
    refine ⟨rfl, ?_, rfl⟩
    rw [if_pos ⟨rfl, by simpa using he⟩]
    exact ⟨rfl, drawRow_row_even s, rfl⟩
  | false =>
    have hr : s.agentStep .refresh = s.settle := by
      simp only [State.agentStep, State.refreshCycle, he, Bool.false_eq_true, if_false]
    rw [hr]
    refine ⟨rfl, ?_, rfl⟩
    rw [if_neg fun hc => by simp [hc] at he]
    exact ⟨rfl, rfl⟩

/-- The step of every agent other than the CPU does what its action says, and no more (R10). -/
theorem agentMoved_agentStep (s : State) (a : AgentAction) : AgentMoved s (s.agentStep a) a := by
  cases a with
  | refresh => exact agentMoved_refresh s
  | request kind => cases kind <;> exact ⟨rfl, ⟨rfl, rfl⟩, rfl⟩
  | _ => exact ⟨rfl, ⟨rfl, rfl⟩, rfl⟩

/-- Settles O15: every instruction's meaning takes at most one device's answer and words of a unit (`took_exec`), the
rest of a step takes only a bus requester's writes, and another agent's turn is its action alone. -/
theorem stepKeepsPlatformAndPins : Obligations.StepKeepsPlatformAndPins := by
  refine ⟨fun s t hturns h => ?_, fun s rest => step_cpu, fun s a rest hturns =>
    ⟨_, step_agent hturns, agentMoved_agentStep _ a⟩⟩
  rw [step_nil hturns] at h
  rcases cycle_took_or_busRequest h with ht | ⟨hb, hg, rfl⟩
  · have hdma : t.pins.dma = s.pins.dma := by rw [ht.pins]
    exact ⟨ht.platform, ht.turns.trans hturns, by rw [hdma]; exact ht.pins, ht.ioInput, ht.epuOutput, .inl hdma,
      ht.events⟩
  · obtain ⟨hplatform, ht, hpins, hevents⟩ := busRequest_settle_agents hg
    exact ⟨hplatform, ht.trans hturns, by rw [hpins], .inl (by rw [hpins]), ⟨0, by rw [hpins, List.drop_zero]⟩,
      .inr ⟨hb, hg, by rw [hpins]⟩, ⟨[], hevents⟩⟩

end Sys2Proof.Machine

/-! The reset state; the registers: which copies their numbers name and which share a word register. -/

namespace Sys2Proof.Machine

/-- Settles O1: each field as `State.reset` gives it. -/
theorem resetStateIsIdleInSystemMode : Obligations.ResetStateIsIdleInSystemMode :=
  ⟨by decide, rfl, rfl, rfl, rfl, rfl, rfl⟩

/-- Settles O12: memory is empty, the refresh counter 0, no request is accepted. -/
theorem resetKeepsToTheInvariant : Obligations.ResetKeepsToTheInvariant :=
  ⟨rfl, rfl, fun _ => ⟨by decide, nofun⟩⟩

variable (s : State)

/-! ### The copies of R14 and R15 (R26) -/

/-- A register number that is neither of the normal-mode copies names the shared, or system-mode, register. -/
theorem reg_of_not_normal {r : Reg} (h15 : s.namesNormal15 r = false) (h14 : s.namesNormal14 r = false) :
    s.reg r = s.regs[r.toNat]'r.isLt := by
  simp only [State.reg, h15, h14, Bool.false_eq_true, if_false]

theorem reg_of_system (h : s.system = true) (r : Reg) : s.reg r = s.regs[r.toNat]'r.isLt :=
  reg_of_not_normal s (by simp [State.namesNormal15, h]) (by simp [State.namesNormal14, h])

theorem reg_of_lt_14 {r : Reg} (h : r.toNat < 14) : s.reg r = s.regs[r.toNat]'r.isLt := by
  have h15 : r ≠ 15 := by rintro rfl; exact absurd h (by decide)
  have h14 : r ≠ 14 := by rintro rfl; exact absurd h (by decide)
  exact reg_of_not_normal s (by rw [State.namesNormal15, beq_false_of_ne h15, Bool.false_and])
    (by rw [State.namesNormal14, beq_false_of_ne h14, Bool.false_and, Bool.false_and])

theorem reg_15_of_normal (h : s.system = false) : s.reg 15 = s.normalR15 := by
  simp [State.reg, State.namesNormal15, h]

theorem reg_14_of_normal (h : s.system = false) :
    s.reg 14 = if s.isZ8001 then s.normalR14 else s.regs[14] := by
  simp [State.reg, State.namesNormal15, State.namesNormal14, h]

/-- A write to one word register leaves every other, and the copies of the other mode. -/
theorem sameRegs_setReg (r : Reg) (v : Word) : SameRegs s (s.setReg r v) [r] :=
  ⟨fun _ hq => s.reg_setReg_other (List.ne_of_not_mem_cons hq) v, s.otherCopies_setReg r v⟩

/-- Settles O5: the mode decides which copy a number names (`State.reg`), and a write reaches that copy only. -/
theorem stackPointerCopiesFollowMode : Obligations.StackPointerCopiesFollowMode := fun s =>
  ⟨fun h => ⟨reg_of_system s h 15, reg_of_system s h 14⟩, fun h => ⟨reg_15_of_normal s h, reg_14_of_normal s h⟩,
    fun _ h => reg_of_lt_14 s h, fun r v => ⟨s.reg_setReg_same r v, sameRegs_setReg s r v⟩⟩

/-! ### Byte registers (R22) -/

/-- Byte register numbers n and n + 8 lie in word register n, at its high and its low byte. -/
theorem byteReg_of_lt_8 {n : Reg} (h : n.toNat < 8) :
    n &&& 7 = n ∧ n.getLsbD 3 = false ∧ (n + 8) &&& 7 = n ∧ (n + 8).getLsbD 3 = true := by
  revert n
  decide

theorem regByte_high {n : Reg} (h : n.toNat < 8) : s.regByte n = highByte (s.reg n) := by
  obtain ⟨hn, hb, _, _⟩ := byteReg_of_lt_8 h
  simp only [State.regByte, hn, hb, Bool.false_eq_true, if_false]

theorem regByte_low {n : Reg} (h : n.toNat < 8) : s.regByte (n + 8) = lowByte (s.reg n) := by
  obtain ⟨_, _, hn, hb⟩ := byteReg_of_lt_8 h
  simp only [State.regByte, hn, hb, if_true]

theorem reg_setRegByte_high {n : Reg} (h : n.toNat < 8) (v : Byte) :
    (s.setRegByte n v).reg n = v ++ lowByte (s.reg n) := by
  obtain ⟨hn, hb, _, _⟩ := byteReg_of_lt_8 h
  simp only [State.setRegByte, hn, hb, Bool.false_eq_true, if_false, State.reg_setReg_same]

theorem reg_setRegByte_low {n : Reg} (h : n.toNat < 8) (v : Byte) :
    (s.setRegByte (n + 8) v).reg n = highByte (s.reg n) ++ v := by
  obtain ⟨_, _, hn, hb⟩ := byteReg_of_lt_8 h
  simp only [State.setRegByte, hn, hb, if_true, State.reg_setReg_same]

/-! ### Pairs and quadruples (R23) -/

theorem reg_setRegLong_high (n : Reg) (v : Long) : (s.setRegLong n v).reg n = v.extractLsb' 16 16 := by
  rw [State.reg_setRegLong, if_neg (reg_succ_ne n).symm, if_pos rfl]

theorem reg_setRegLong_low (n : Reg) (v : Long) : (s.setRegLong n v).reg (n + 1) = v.extractLsb' 0 16 := by
  rw [State.reg_setRegLong, if_pos rfl]

theorem reg_setRegLong_other {n q : Reg} (h : q ≠ n) (h1 : q ≠ n + 1) (v : Long) :
    (s.setRegLong n v).reg q = s.reg q := by
  rw [State.reg_setRegLong, if_neg h1, if_neg h]

/-- Writing the odd register of a pair changes the pair's low word. -/
theorem regLong_setReg_low (n : Reg) (w : Word) : (s.setReg (n + 1) w).regLong n = s.reg n ++ w := by
  rw [State.regLong, s.reg_setReg_other (reg_succ_ne n).symm, State.reg_setReg_same]

/-- A word of half a quadruple is a word of the quadruple. -/
theorem quad_half_word (v : Quad) {i j : Nat} (hj : j + 16 ≤ 32) :
    (v.extractLsb' i 32).extractLsb' j 16 = v.extractLsb' (i + j) 16 := by
  refine BitVec.eq_of_getLsbD_eq fun k hk => ?_
  simp [show j + k < 32 by omega, Nat.add_assoc]

/-- The words of a quadruple, most significant first. -/
theorem reg_setRegQuad (n : Reg) (v : Quad) :
    (s.setRegQuad n v).reg n = v.extractLsb' 48 16 ∧ (s.setRegQuad n v).reg (n + 1) = v.extractLsb' 32 16
      ∧ (s.setRegQuad n v).reg (n + 2) = v.extractLsb' 16 16
      ∧ (s.setRegQuad n v).reg (n + 2 + 1) = v.extractLsb' 0 16 := by
  obtain ⟨h20, h21, h30, h31⟩ := reg_quad_ne n
  refine ⟨?_, ?_, ?_, ?_⟩
  · rw [State.setRegQuad, reg_setRegLong_other _ h20.symm h30.symm, reg_setRegLong_high, quad_half_word v (by omega)]
  · rw [State.setRegQuad, reg_setRegLong_other _ h21.symm h31.symm, reg_setRegLong_low, quad_half_word v (by omega)]
  · rw [State.setRegQuad, reg_setRegLong_high, quad_half_word v (by omega)]
  · rw [State.setRegQuad, reg_setRegLong_low, quad_half_word v (by omega)]

/-- Settles O4: reading after writing for each width, the register numbers it reaches being different. -/
theorem registersAlias : Obligations.RegistersAlias := by
  refine fun s => ⟨fun n hn => ?_, fun k v q hq => s.reg_setRegByte_other hq v, fun n v _ => ?_, fun n v _ => ?_⟩
  · exact ⟨regByte_high s hn, regByte_low s hn, fun v => ⟨reg_setRegByte_high s hn v, reg_setRegByte_low s hn v⟩⟩
  · exact ⟨reg_setRegLong_high s n v, reg_setRegLong_low s n v, fun _ hq hq1 => reg_setRegLong_other s hq hq1 v,
      regLong_setReg_low s n⟩
  · obtain ⟨h0, h1, h2, h3⟩ := reg_setRegQuad s n v
    have h3' : n + 3 = n + 2 + 1 := by rw [BitVec.add_assoc]; rfl
    exact ⟨h0, h1, h2, h3' ▸ h3, fun _ hq => s.reg_setRegQuad_other hq v⟩

end Sys2Proof.Machine

/-! The invariant: each operation of a step keeps the canonical form of memory, bit 0 of the refresh counter and, on a
Z8002, SEG = 0 and no segment trap accepted. -/

namespace Sys2Proof.Machine

variable {s t u : State}

/-! ### The operations that leave the invariant's fields alone -/

theorem inv_next (h : (.next u : Result) = .next t) (hu : u.Inv) : t.Inv := by
  injection h with h
  exact h ▸ hu

theorem inv_whenAligned {ok : Bool} (h : whenAligned ok u = .next t) (hu : u.Inv) : t.Inv := by
  obtain ⟨_, rfl⟩ := whenAligned_next h
  exact hu

/-- What normal mode may do keeps the invariant: FCW[15:8], the refresh register and the accepted request stay. -/
theorem inv_ordinary (hi : s.Inv) (h : Ordinary s t) : t.Inv := by
  obtain ⟨hmem, hrow, hz⟩ := hi
  obtain ⟨⟨⟨hplatform, _, _, hrefresh, _, _, _, _, _, _, _, haccepted, _⟩, _⟩, hfcw, _, _, hwf⟩ := h
  refine ⟨hwf hmem, by rw [hrefresh]; exact hrow, fun h8002 => ?_⟩
  obtain ⟨hseg, hsegt⟩ := hz (State.isZ8001_congr hplatform ▸ h8002)
  exact ⟨(fcwHigh_getLsbD hfcw (by omega) (by omega)).trans hseg, by rw [haccepted]; exact hsegt⟩

theorem inv_advance (hi : s.Inv) (n : Nat) : (s.advance n).Inv := inv_ordinary hi (ordinary_advance (ordinary_refl s) n)

theorem inv_setReg (hi : s.Inv) (r : Reg) (v : Word) : (s.setReg r v).Inv :=
  inv_ordinary hi (ordinary_setReg (ordinary_refl s) r v)

theorem inv_settle (hi : s.Inv) : s.settle.Inv := hi

theorem inv_afterCycles (hi : s.Inv) (cs : List Cycle) : (s.afterCycles cs).Inv := hi

theorem inv_ioRead (hi : s.Inv) (special : Bool) (port : Word) (z : Size) : (s.ioRead special port z).Inv := hi

theorem inv_ioWrite (hi : s.Inv) (special : Bool) (port : Word) (z : Size) (v : BitVec z.bits) :
    (s.ioWrite special port z v).Inv := hi

theorem inv_epuGive (hi : s.Inv) (n : Nat) : (s.epuGive n).Inv := hi

theorem inv_epuTake (hi : s.Inv) (ws : List Word) : (s.epuTake ws).Inv := hi

/-! ### The operations that write one of them -/

/-- Whatever is loaded, a Z8002's FCW has SEG = 0 (R33). -/
theorem inv_writeFcw (hi : s.Inv) (w : Word) : (s.writeFcw w).Inv := by
  obtain ⟨hmem, hrow, hz⟩ := hi
  refine ⟨hmem, hrow, fun h8002 => ⟨?_, (hz h8002).2⟩⟩
  have h8002 : s.isZ8001 = false := h8002
  exact (s.getLsbD_fcwBits (s.reserved 0x0703 w) 15 (by omega)).trans (by rw [h8002, bne_self_eq_false]; simp)

/-- An FCW with the old bit 15 keeps SEG. -/
theorem inv_withFcw (hi : s.Inv) {w : Word} (hw : w.getLsbD 15 = s.fcw.getLsbD 15) :
    ({ s with fcw := w } : State).Inv := by
  obtain ⟨hmem, hrow, hz⟩ := hi
  exact ⟨hmem, hrow, fun h8002 => ⟨hw.trans (hz h8002).1, (hz h8002).2⟩⟩

theorem inv_setPc (hi : s.Inv) (a : Addr) : (s.setPc a).Inv := hi

/-- DI and EI reach the enables only (R412, R413). -/
theorem enableMask_getLsbD_seg (v n : Bool) : (enableMask v n).getLsbD 15 = false := by
  cases v <;> cases n <;> decide

theorem inv_withAcceptedNone (hi : s.Inv) : ({ s with accepted := none } : State).Inv := by
  obtain ⟨hmem, hrow, hz⟩ := hi
  exact ⟨hmem, hrow, fun h8002 => ⟨(hz h8002).1, nofun⟩⟩

/-- The refresh counter is drawn even (R37, D12). -/
theorem inv_drawRow (hi : s.Inv) : s.drawRow.Inv := by
  obtain ⟨hmem, _, hz⟩ := hi
  exact ⟨hmem, drawRow_row_even s, hz⟩

/-- Bit 0 of the row is not written (R38). -/
theorem inv_writeRefresh (hi : s.Inv) (w : Word) : (s.writeRefresh w).Inv := by
  obtain ⟨hmem, _, hz⟩ := hi
  exact ⟨hmem, by simp [State.writeRefresh], hz⟩

/-- An entry loads its FCW as any load does, and pushes words (R470). -/
theorem inv_enter (hi : s.Inv) {c : Cause} {ident : Word} {saved : Addr} (h : s.enter c ident saved = .next t) :
    t.Inv := by
  obtain ⟨⟨_, _, _, hfcw, _⟩, ⟨⟨hplatform, _, _, hrefresh, _, _, _, _, _, _, _, haccepted, _⟩, _⟩, _⟩ :=
    entered_enter s c ident saved h
  obtain ⟨hmem, hrow, hz⟩ := hi
  refine ⟨wf_enter s c ident saved h hmem, by rw [hrefresh]; exact hrow, fun h8002 => ?_⟩
  have h8002 : s.isZ8001 = false := State.isZ8001_congr hplatform ▸ h8002
  refine ⟨?_, by rw [haccepted]; exact (hz h8002).2⟩
  simpa [fcwReservedBit, h8002] using hfcw 15 (by omega)

/-! ### Instructions -/

/-- A privileged instruction traps or has its effect (R462). -/
theorem inv_privileged {i : Instr} {effect : Result} (hi : s.Inv) (h : s.privileged i effect = .next t)
    (he : effect = .next t → t.Inv) : t.Inv := by
  cases hs : s.system with
  | false => exact inv_enter hi (privileged_normal s i effect hs ▸ h)
  | true => exact he (privileged_system s i effect hs ▸ h)

theorem inv_input {special : Bool} {z : Size} {d : Reg} {port : Word} {n : Nat} (hi : s.Inv)
    (h : s.input special z d port n = .next t) : t.Inv :=
  inv_ordinary (inv_ioRead hi special port z)
    (ordinary_next (ordinary_advance (ordinary_setRegOf (ordinary_refl _) _ _ _) _) h)

theorem inv_output {special : Bool} {z : Size} {port : Word} {r : Reg} {n : Nat} (hi : s.Inv)
    (h : s.output special z port r n = .next t) : t.Inv :=
  inv_ordinary (inv_ioWrite hi special port z _) (ordinary_next (ordinary_advance (ordinary_refl _) _) h)

theorem inv_blockInput {special : Bool} {z : Size} {up rep : Bool} {p r d : Reg} (hi : s.Inv)
    (h : s.blockInput special z up rep p r d = .next t) : t.Inv :=
  inv_ordinary (inv_ioRead hi special _ z) (ordinary_whenAligned (ordinary_endBlock (ordinary_setFlags
    (ordinary_countDown (ordinary_bump (ordinary_poke (ordinary_refl _) _ _ _ _) _ _) _) _) _ _) h)

theorem inv_blockOutput {special : Bool} {z : Size} {up rep : Bool} {p r d : Reg} (hi : s.Inv)
    (h : s.blockOutput special z up rep p r d = .next t) : t.Inv :=
  inv_ordinary (inv_ioWrite hi special _ z _) (ordinary_whenAligned (ordinary_endBlock (ordinary_setFlags
    (ordinary_countDown (ordinary_bump (ordinary_refl _) _ _) _) _) _ _) h)

theorem inv_returnStatus (hi : s.Inv) (h : s.returnStatus = .next t) : t.Inv := by
  have hload : ∀ (v : Vector Word 16) (a : Addr) (w : Word),
      ((State.setPc { s with regs := v } a).writeFcw w).Inv := fun v a w => inv_writeFcw hi w
  simp only [State.returnStatus] at h
  split at h
  · split at h
    · exact inv_whenAligned h (hload _ _ _)
    · cases h
  · exact inv_whenAligned h (hload _ _ _)

theorem inv_readCtl {r : Reg} {c : CtlReg} (hi : s.Inv) (h : s.readCtl r c = .next t) : t.Inv := by
  cases c with
  | fcw | psapOff | nspOff => exact inv_next h (inv_advance (inv_setReg hi _ _) _)
  | refresh => exact inv_next h (inv_advance (inv_setReg (inv_drawRow hi) _ _) _)
  | psapSeg | nspSeg =>
    simp only [State.readCtl] at h
    split at h
    · exact inv_next h (inv_advance (inv_setReg hi _ _) _)
    · cases h

theorem inv_writeCtl {r : Reg} {c : CtlReg} (hi : s.Inv) (h : s.writeCtl r c = .next t) : t.Inv := by
  cases c with
  | fcw => exact inv_next h (inv_advance (inv_writeFcw hi _) _)
  | refresh => exact inv_next h (inv_advance (inv_writeRefresh hi _) _)
  | psapOff | nspOff => exact inv_next h hi
  | psapSeg | nspSeg =>
    simp only [State.writeCtl] at h
    split at h
    · exact inv_next h hi
    · cases h

theorem inv_execLdps {m : Mem} (hi : s.Inv) (h : execLdps m s = .next t) : t.Inv := by
  refine inv_privileged hi h fun he => inv_whenAligned he ?_
  split <;> exact inv_writeFcw (inv_setPc hi _) _

theorem inv_execMreq {d : Reg} (hi : s.Inv) (h : execMreq d s = .next t) : t.Inv := by
  have hmo : ∀ b : Bool, ({ s with moLow := b } : State).Inv := fun _ => hi
  refine inv_privileged hi h fun he => ?_
  split at he
  · exact inv_ordinary (hmo _) (ordinary_next (ordinary_advance (ordinary_setFlags (ordinary_refl _) _) _) he)
  · exact inv_ordinary (hmo _)
      (ordinary_next (ordinary_advance (ordinary_setFlags (ordinary_setReg (ordinary_refl _) _ _) _) _) he)

theorem inv_execDi {v n : Bool} (hi : s.Inv) (h : execDi v n s = .next t) : t.Inv := by
  have hw : (s.fcw &&& ~~~(enableMask v n)).getLsbD 15 = s.fcw.getLsbD 15 := by
    rw [BitVec.getLsbD_and, BitVec.getLsbD_not, enableMask_getLsbD_seg]
    simp
  exact inv_privileged hi h fun he => inv_next he (inv_advance (inv_withFcw hi hw) _)

theorem inv_execEi {v n : Bool} (hi : s.Inv) (h : execEi v n s = .next t) : t.Inv := by
  have hw : (s.fcw ||| enableMask v n).getLsbD 15 = s.fcw.getLsbD 15 := by
    rw [BitVec.getLsbD_or, enableMask_getLsbD_seg, Bool.or_false]
  exact inv_privileged hi h fun he => inv_next he (inv_advance (inv_withFcw hi hw) _)

theorem inv_of_privileged {i : Instr} (hp : privilegedInstr i = true) (hi : s.Inv) (h : exec i s = .next t) :
    t.Inv := by
  cases i with
  | inb | inw | sinb | sin => exact inv_privileged hi h (inv_input hi)
  | outb | out | soutb | sout => exact inv_privileged hi h (inv_output hi)
  | inib | inirb | indb | indrb | ini | inir | ind | indr | sinib | sinirb | sindb | sindrb | sini | sinir | sind
  | sindr => exact inv_privileged hi h (inv_blockInput hi)
  | outib | otirb | outdb | otdrb | outi | otir | outd | otdr | soutib | sotirb | soutdb | sotdrb | souti | sotir
  | soutd | sotdr => exact inv_privileged hi h (inv_blockOutput hi)
  | iret => exact inv_privileged hi h (inv_returnStatus hi)
  | ldps => exact inv_execLdps hi h
  | mreq => exact inv_execMreq hi h
  | di => exact inv_execDi hi h
  | ei => exact inv_execEi hi h
  | halt | mset | mres => exact inv_privileged hi h fun he => inv_next he hi
  | mbit =>
    exact inv_privileged hi h fun he =>
      inv_ordinary hi (ordinary_next (ordinary_advance (ordinary_setFlags (ordinary_refl s) _) _) he)
  | ldctl dir =>
    cases dir with
    | read => exact inv_privileged hi h (inv_readCtl hi)
    | write => exact inv_privileged hi h (inv_writeCtl hi)
  | _ => cases hp

theorem inv_handOff {act : EpuAction} (hi : s.Inv) (h : s.handOff act = .next t) : t.Inv := by
  cases act with
  | internal => exact inv_next h (inv_advance hi _)
  | fromMemory => exact inv_whenAligned h (inv_advance (inv_epuTake hi _) _)
  | fromRegs => exact inv_next h (inv_advance (inv_epuTake hi _) _)
  | toMemory =>
    exact inv_ordinary (inv_epuGive hi _)
      (ordinary_whenAligned (ordinary_advance (ordinary_pokeWords (ordinary_refl _) _ _ _ _) _) h)
  | toRegs =>
    exact inv_ordinary (inv_epuGive hi _)
      (ordinary_next (ordinary_advance (ordinary_setRegs (ordinary_refl _) _ _ _) _) h)
  | toFlags =>
    exact inv_ordinary (inv_epuGive hi _)
      (ordinary_next (ordinary_advance (ordinary_writeFlagsByte (ordinary_refl _) _) _) h)

theorem inv_of_trapping {i : Instr} (ht : trappingInstr i = true) (hi : s.Inv) (h : exec i s = .next t) : t.Inv := by
  cases i with
  | sc => exact inv_enter hi h
  | extended op e e1 =>
    have h : execExtended op e e1 s = .next t := h
    simp only [execExtended] at h
    split at h
    · split at h
      · exact inv_handOff hi h
      · cases h
    · exact inv_enter hi h
  | _ => cases ht

theorem inv_exec {i : Instr} (hi : s.Inv) (h : exec i s = .next t) : t.Inv := by
  cases hp : privilegedInstr i with
  | true => exact inv_of_privileged hp hi h
  | false =>
    cases ht : trappingInstr i with
    | true => exact inv_of_trapping ht hi h
    | false => exact inv_ordinary hi (exec_ordinary hp ht h)

/-! ### A step of the CPU -/

/-- A Z8002 has no segment trap to accept (R458). -/
theorem pick_ne_segt (vie nvie : Bool) (h8002 : s.isZ8001 = false) : s.pick vie nvie ≠ some .segt := by
  simp only [State.pick, State.segtRequested, h8002, Bool.false_and]
  repeat' split
  all_goals simp_all

theorem inv_finish (hi : t.Inv) (s : State) (n : Nat) (cs : List Cycle) : (s.finish n cs t).Inv := by
  obtain ⟨hmem, hrow, hz⟩ := hi
  exact ⟨hmem, hrow, fun h8002 => ⟨(hz h8002).1, pick_ne_segt (s := t.afterCycles cs) _ _ h8002⟩⟩

theorem inv_acknowledge (hi : s.Inv) (r : Request) : (s.acknowledge r).Inv := inv_withAcceptedNone hi

theorem inv_resetLow (hi : s.Inv) : s.resetLow.Inv := inv_withAcceptedNone hi

theorem inv_resetReads (hi : s.Inv) : s.resetReads.Inv := by
  have hclear : ({ s with
      refresh := { s.refresh with enable := false }, moLow := false, busGranted := false, halted := false,
      nmiLatch := false, accepted := none, stale := [], resetPending := false } : State).Inv := inv_withAcceptedNone hi
  exact inv_writeFcw (inv_setPc hclear _) _

/-- A bus requester's writes keep the canonical form (R91). -/
theorem inv_busRequest (hi : s.Inv) : s.busRequest.Inv := by
  rcases busRequest_cases s with ⟨_, hb⟩ | ⟨_, hb, _, hwf⟩
  · rw [hb]; exact hi
  · obtain ⟨hmem, hrow, hz⟩ := hi
    rw [hb]; exact ⟨hwf hmem, hrow, hz⟩

/-- A CPU that is held or waits keeps the invariant. -/
theorem inv_held (hi : s.Inv) (h : Held s u) : u.Inv := by
  rcases h with rfl | rfl | rfl | rfl | rfl | rfl | rfl
  · exact inv_resetLow hi
  · exact inv_busRequest hi
  · exact hi
  · exact hi
  · exact inv_afterCycles (inv_resetReads hi) _
  · exact inv_afterCycles (inv_drawRow hi) _
  · exact inv_afterCycles hi _

theorem inv_cycle (hi : s.Inv) (h : s.cycle exec = .next t) : t.Inv := by
  rcases cycle_cases s h with ⟨u, hu, rfl⟩ | ⟨r, u, hu, rfl⟩ | ⟨i, n, u, _, hu, rfl⟩ | ⟨u, hu, rfl⟩
  · exact inv_settle (inv_held hi hu)
  · exact inv_settle (inv_afterCycles (inv_enter (inv_acknowledge hi r) hu) _)
  · exact inv_finish (inv_exec hi hu) s _ _
  · exact inv_finish (inv_enter hi hu) s _ _

/-! ### A turn -/

/-- A refresh cycle draws the counter; every other agent moves its pins only (R10). -/
theorem inv_agentStep (hi : s.Inv) (a : AgentAction) : (s.agentStep a).Inv := by
  rcases agentStep_cases s a with h | ⟨_, h, hr | hr⟩
  · rw [h]; exact inv_settle (s := { s with pins := s.pins.act a }) hi
  · rw [h, hr]; exact inv_settle hi
  · have hrow : s.drawRow.Inv := inv_drawRow hi
    rw [h, hr]; exact inv_settle (s := { s.drawRow with bus := [.refresh] }) hrow

/-- Settles O13: the turn is another agent's (`inv_agentStep`), or a step of the CPU, which holds, enters or runs one
instruction (`inv_cycle`). -/
theorem stepKeepsTheInvariant : Obligations.StepKeepsTheInvariant := by
  intro s t hi h
  rcases turn_cases s h with ⟨_, hc⟩ | ⟨rest, u, _, hc, rfl⟩ | ⟨a, rest, _, rfl⟩
  · exact inv_cycle hi hc
  · have hu : u.Inv := inv_cycle (s := { s with turns := [] }) hi hc
    exact hu
  · exact inv_agentStep (s := { s with turns := rest }) hi a

end Sys2Proof.Machine

/-! A CPU turn that is not an instruction: what holds the CPU, a halted CPU's wait, the entry of an accepted request. -/

namespace Sys2Proof.Machine

variable {s t u : State}

/-! ### Cycles that no rule of the memory management unit names -/

/-- Such cycles change what the output lines have shown, and nothing else (R87). -/
theorem afterCycles_of_unasked {cs : List Cycle} (h : ∀ c ∈ cs, ∀ rule ∈ s.platform.mmu, c.asks rule = false) :
    s.afterCycles cs = { s with bus := cs } := by
  have hasks : s.mmuAsks cs = none := by
    have hfind : ∀ c ∈ cs, (s.platform.mmu.find? c.asks).map MmuRule.ident = none := fun c hc => by
      rw [List.find?_eq_none.mpr fun rule hr => Bool.not_eq_true _ ▸ h c hc rule hr, Option.map_none]
    rw [State.mmuAsks, List.findSome?_eq_none_iff.mpr hfind, ite_self]
  rw [State.afterCycles, hasks]
  cases hm : s.mmuRequest <;> rfl

/-! ### The CPU is held (R91, R83, R505) -/

theorem step_busreq (ht : s.turns = []) (hr : s.pins.reset = false) (hb : s.pins.busreq = true) :
    step s = .next s.busRequest.settle := by
  simp only [step_nil ht, State.cycle, hr, hb, Bool.false_eq_true, if_false, if_true]

theorem step_busReturned (ht : s.turns = []) (hr : s.pins.reset = false) (hb : s.pins.busreq = false)
    (hg : s.busGranted = true) : step s = .next ({ s with busGranted := false } : State).settle := by
  simp only [step_nil ht, State.cycle, hr, hb, hg, Bool.false_eq_true, if_false, if_true]

theorem step_wait (ht : s.turns = []) (hr : s.pins.reset = false) (hb : s.pins.busreq = false)
    (hg : s.busGranted = false) (hw : s.pins.wait = true) : step s = .next s.settle := by
  simp only [step_nil ht, State.cycle, hr, hb, hg, hw, Bool.false_eq_true, if_false, if_true]

theorem step_stop (ht : s.turns = []) (hr : s.pins.reset = false) (hb : s.pins.busreq = false)
    (hg : s.busGranted = false) (hw : s.pins.wait = false) (hp : s.resetPending = false) (hs : s.pins.stop = true) :
    step s = .next (s.drawRow.afterCycles [.refresh]).settle := by
  simp only [step_nil ht, State.cycle, hr, hb, hg, hw, hp, hs, Bool.false_eq_true, if_false, if_true]

/-! ### The writes of a bus requester (R91) -/

/-- The state once the writes `ws` are made, in their order. -/
def State.busWritten (s : State) (ws : List BusWrite) : State :=
  ws.foldl (fun t w => t.pokeByte w.space w.addr w.value) s

theorem busRequest_granted (hg : s.busGranted = true) :
    s.busRequest = { s with mem := (s.busWritten s.pins.dma).mem, pins := { s.pins with dma := [] } } := by
  simp only [State.busRequest, hg, if_true, State.busWritten]

theorem busRequest_of_granted (hg : s.busGranted = true) :
    s.busRequest = { s with pins := { s.pins with dma := [] }, mem := s.busRequest.mem }
      ∧ SameMemoryBut s s.busRequest (s.pins.dma.map fun w => s.cell w.space w.addr) := by
  rcases busRequest_cases s with ⟨hg', _⟩ | ⟨_, hwrites, hbut, _⟩
  · exact absurd (hg.symm.trans hg') Bool.noConfusion
  · exact ⟨hwrites, hbut⟩

/-- The end of a step reads memory as before it, the step counter apart. -/
theorem sameMemoryBut_settle {cells : List Nat} (h : SameMemoryBut s t cells) (ht : t.tick = s.tick) :
    SameMemoryBut s { t.settle with tick := s.tick } cells := by
  have hpeek : ({ t.settle with tick := s.tick } : State).peekByte = t.peekByte := State.peekByte_congr rfl rfl ht.symm
  rwa [SameMemoryBut, hpeek]

/-- The writes change memory only. -/
theorem busWritten_eq (ws : List BusWrite) :
    ∀ s : State, s.busWritten ws = { s with mem := (s.busWritten ws).mem } := by
  induction ws with
  | nil => exact fun _ => rfl
  | cons w ws ih => exact fun s => ih (s.pokeByte w.space w.addr w.value)

theorem busWritten_platform (ws : List BusWrite) : (s.busWritten ws).platform = s.platform := by rw [busWritten_eq]

/-- A byte whose cell none of the writes stores to reads as before. -/
theorem peekByte_busWritten_other {sp : Space} {a : Addr} (ws : List BusWrite) :
    ∀ s : State, (∀ w ∈ ws, s.cell w.space w.addr ≠ s.cell sp a) →
      (s.busWritten ws).peekByte sp a = s.peekByte sp a := by
  induction ws with
  | nil => exact fun _ _ => rfl
  | cons w ws ih =>
    intro s h
    have hcell : (s.pokeByte w.space w.addr w.value).cell = s.cell := State.cell_congr (State.pokeByte_platform ..)
    have hrest := ih (s.pokeByte w.space w.addr w.value) fun w' hw => by
      rw [hcell]
      exact h w' (List.mem_cons_of_mem _ hw)
    exact hrest.trans (State.peekByte_pokeByte_other s (h w List.mem_cons_self).symm _)

/-- A cell that storage answers holds the last byte written to it. -/
theorem peekByte_busWritten_last {before after : List BusWrite} {w : BusWrite}
    (hlast : ∀ w' ∈ after, s.cell w'.space w'.addr ≠ s.cell w.space w.addr)
    (hs : s.absentCell (s.cell w.space w.addr) = false) :
    (s.busWritten (before ++ w :: after)).peekByte w.space w.addr = w.value := by
  have hplat : (s.busWritten before).platform = s.platform := busWritten_platform before
  have hsplit : s.busWritten (before ++ w :: after)
      = ((s.busWritten before).pokeByte w.space w.addr w.value).busWritten after := by
    rw [State.busWritten, List.foldl_append, List.foldl_cons]; rfl
  rw [hsplit, peekByte_busWritten_other, State.peekByte_pokeByte,
    if_pos ⟨rfl, by rw [State.cell_congr hplat, State.absentCell_congr hplat]; exact hs⟩]
  rw [State.cell_congr ((State.pokeByte_platform ..).trans hplat)]
  exact hlast

theorem peekByte_of_present {sp : Space} {a : Addr} (h : s.absentCell (s.cell sp a) = false) :
    s.peekByte sp a = s.mem.read (s.cell sp a) := by
  simp only [State.peekByte, h, Bool.false_eq_true, if_false]

/-- Where storage answers, a byte is read from memory whatever the step counter is. -/
theorem peekByte_congr_of_present {sp : Space} {a : Addr} (hp : t.platform = s.platform) (hm : t.mem = s.mem)
    (h : s.absentCell (s.cell sp a) = false) : t.peekByte sp a = s.peekByte sp a := by
  rw [peekByte_of_present h, peekByte_of_present (by rw [State.absentCell_congr hp, State.cell_congr hp]; exact h),
    State.cell_congr hp, hm]

/-- After the requester's step a cell that storage answers holds the last byte written to it (R91). -/
theorem peekByte_busRequest_last (hg : s.busGranted = true) {before after : List BusWrite} {w : BusWrite}
    (hdma : s.pins.dma = before ++ w :: after)
    (hlast : ∀ w' ∈ after, s.cell w'.space w'.addr ≠ s.cell w.space w.addr)
    (hs : s.absentCell (s.cell w.space w.addr) = false) :
    s.busRequest.settle.peekByte w.space w.addr = w.value := by
  have hplat : s.busRequest.settle.platform = (s.busWritten s.pins.dma).platform := by
    rw [busWritten_platform]
    exact (busRequest_settle_agents hg).1
  have hmem : s.busRequest.settle.mem = (s.busWritten s.pins.dma).mem := by
    rw [busRequest_granted hg]
    rfl
  have hpresent : (s.busWritten s.pins.dma).absentCell ((s.busWritten s.pins.dma).cell w.space w.addr) = false := by
    rw [State.absentCell_congr (busWritten_platform _), State.cell_congr (busWritten_platform _)]
    exact hs
  rw [peekByte_congr_of_present hplat hmem hpresent, hdma]
  exact peekByte_busWritten_last hlast hs

/-! ### A free CPU: the accepted request, the halt (R453, R470) -/

theorem step_accepted {r : Request} (hf : s.Free) (ha : s.accepted = some r) : step s = s.requestStep r := by
  obtain ⟨hr, hb, hg, hw, hp, hs, ht⟩ := hf
  simp only [step_nil ht, State.cycle, hr, hb, hg, hw, hp, hs, ha, Bool.false_eq_true, if_false]

theorem step_halted_woken {r : Request} (hf : s.Free) (ha : s.accepted = none) (hh : s.halted = true)
    (hpick : s.pick s.vie s.nvie = some r) : step s = s.requestStep r := by
  obtain ⟨hr, hb, hg, hw, hp, hs, ht⟩ := hf
  simp only [step_nil ht, State.cycle, hr, hb, hg, hw, hp, hs, ha, hh, hpick, Bool.false_eq_true, if_false, if_true]

theorem step_halted_waits (hf : s.Free) (ha : s.accepted = none) (hh : s.halted = true)
    (hpick : s.pick s.vie s.nvie = none) : step s = .next (s.afterCycles [.internal]).settle := by
  obtain ⟨hr, hb, hg, hw, hp, hs, ht⟩ := hf
  simp only [step_nil ht, State.cycle, hr, hb, hg, hw, hp, hs, ha, hh, hpick, Bool.false_eq_true, if_false, if_true]

/-- No request is let through: none is present, or its enable is 0 (R454). -/
theorem pick_eq_none {vie nvie : Bool} (hlatch : s.nmiLatch = false) (hedge : s.pins.nmi = true → s.nmiLevel = true)
    (hsegt : s.isZ8001 = true → s.pins.segt = false ∧ s.mmuRequest = none)
    (hvi : s.pins.vi = true → vie = false) (hnvi : s.pins.nvi = true → nvie = false) : s.pick vie nvie = none := by
  have h1 : s.nmiPending = false := by
    rw [State.nmiPending, hlatch, Bool.false_or]
    cases hn : s.pins.nmi with
    | false => rfl
    | true => rw [hedge hn]; rfl
  have h2 : s.segtRequested = false := by
    rw [State.segtRequested]
    cases hz : s.isZ8001 with
    | false => rfl
    | true =>
      obtain ⟨hpin, hmmu⟩ := hsegt hz
      rw [hpin, hmmu]; rfl
  have h3 : (s.pins.vi && vie) = false := by simpa using hvi
  have h4 : (s.pins.nvi && nvie) = false := by simpa using hnvi
  simp only [State.pick, h1, h2, h3, h4, Bool.false_eq_true, if_false]

/-- The entry of a request ends its acceptance, however it was accepted. -/
theorem requestStep_withAccepted (r : Request) (a : Option Request) :
    State.requestStep { s with accepted := a } r = s.requestStep r := rfl

/-- Settles O57: each hold is a branch of `State.cycle`; a halted CPU enters what `State.pick` lets through. -/
theorem holdsAndHalt : Obligations.HoldsAndHalt := by
  refine fun s ht hr => ⟨fun hb hg => ?_, fun hb hg => ?_, step_busReturned ht hr, step_wait ht hr,
    fun hb hg hw hp hs => ?_, fun hf ha hh => ⟨fun hlatch hedge hsegt hvi hnvi => ?_, fun r hpick => ?_⟩⟩
  · rw [step_busreq ht hr hb, State.busRequest, if_neg (by simp [hg])]
  · obtain ⟨hwrites, hbut⟩ := busRequest_of_granted hg
    have htick : s.busRequest.tick = s.tick := by rw [hwrites]
    exact ⟨_, step_busreq ht hr hb, congrArg State.settle hwrites, sameMemoryBut_settle hbut htick,
      fun _ _ _ => peekByte_busRequest_last hg⟩
  · refine ⟨s.drawRow.refresh.row, drawRow_row_even s, ?_⟩
    rw [step_stop ht hr hb hg hw hp hs, afterCycles_of_unasked (by simp [Cycle.asks])]
    rfl
  · rw [step_halted_waits hf ha hh (pick_eq_none hlatch hedge hsegt hvi hnvi),
      afterCycles_of_unasked (by simp [Cycle.asks])]
  · have hf' : ({ s with accepted := some r } : State).Free := hf
    rw [step_halted_woken hf ha hh hpick, step_accepted hf' rfl]
    exact (requestStep_withAccepted r _).symm

/-! ### The entry of an accepted request (R470) -/

/-- The identifier is what the platform answers, the low byte of a segment trap's apart (R450, U16). -/
theorem ackWord_segt (s : State) : (s.ackWord .segt).extractLsb' 8 8 = s.segtIdent :=
  highByte_append s.segtIdent _

/-- The acknowledge touches nothing that an entry reads. -/
theorem entered_of_acknowledge {r : Request} {c : Cause} {ident : Word} {saved : Addr}
    (h : Entered (s.acknowledge r) t c ident saved) : Entered s t c ident saved := h

theorem psaWord_congr (hp : t.platform = s.platform) (hm : t.mem = s.mem) (ht : t.tick = s.tick)
    (hseg : t.psapSeg = s.psapSeg) (hoff : t.psapOff = s.psapOff) : t.psaWord = s.psaWord := by
  funext off
  simp only [State.psaWord, State.psaBase, State.peekWord_congr (State.peekByte_congr hp hm ht), hseg, hoff,
    State.isZ8001_congr hp]

theorem psaFcw_congr (hp : t.platform = s.platform) (h : t.psaWord = s.psaWord) : t.psaFcw = s.psaFcw := by
  funext c
  simp only [State.psaFcw, h, State.isZ8001_congr hp]

theorem psaPc_congr (hp : t.platform = s.platform) (h : t.psaWord = s.psaWord) : t.psaPc = s.psaPc := by
  funext c ident
  simp only [State.psaPc, h, State.isZ8001_congr hp]

/-- Nor do the cycles shown and the end of the step, the step counter apart. -/
theorem entered_settled {c : Cause} {ident : Word} {saved : Addr} (cs : List Cycle) (h : Entered s t c ident saved) :
    Entered s { (t.afterCycles cs).settle with tick := t.tick } c ident saved := by
  obtain ⟨⟨hframe, hmem, hregs⟩, h14, h15, hfcw, hpc, hseg⟩ := h
  generalize hu : ({ (t.afterCycles cs).settle with tick := t.tick } : State) = u
  have hp : u.platform = t.platform := by rw [← hu]; rfl
  have hpeek : u.peekByte = t.peekByte := by rw [← hu]; exact State.peekByte_congr rfl rfl rfl
  have hpsa : u.psaWord = t.psaWord := by rw [← hu]; exact psaWord_congr rfl rfl rfl rfl rfl
  refine ⟨⟨?_, ?_, ?_⟩, ?_, ?_, ?_, ?_, ?_⟩
  · rwa [State.peekWord_congr hpeek]
  · rwa [SameMemoryBut, hpeek]
  · rw [← hu]; exact hregs
  · rw [← hu]; exact h14
  · rw [← hu]; exact h15
  · rw [psaFcw_congr hp hpsa, ← hu]; exact hfcw
  · rw [psaPc_congr hp hpsa, ← hu]; exact hpc
  · rw [psaPc_congr hp hpsa, ← hu]; exact hseg

/-- Its own acknowledge clears the NMI latch, with an edge of the same step (D8); another's leaves both. -/
theorem nmiPending_acknowledge (s : State) (r : Request) :
    (s.acknowledge r).nmiPending = match r with | .nmi => false | .segt | .vi | .nvi => s.nmiPending := by
  cases r with
  | nmi => exact Bool.and_not_self _
  | segt | vi | nvi => rfl

theorem mmuRequest_acknowledge (s : State) (r : Request) :
    (s.acknowledge r).mmuRequest = if r = .segt then none else s.mmuRequest := by
  cases r <;> rfl

theorem fetchCycles_one (s : State) :
    s.fetchCycles 1 = [.memory .firstFetch ⟨s.system, .code⟩ false false ⟨s.codeSeg, s.pc⟩] := by
  simp [State.fetchCycles, State.space, State.pcAddr, Addr.add]

theorem nmiPending_congr (hlatch : t.nmiLatch = s.nmiLatch) (hpins : t.pins = s.pins)
    (hlevel : t.nmiLevel = s.nmiLevel) :
    t.nmiPending = s.nmiPending := by
  simp only [State.nmiPending, hlatch, hpins, hlevel]

/-- The step of a request whose frame the platform takes: the entry from the acknowledged state, then the step's end. -/
theorem requestStep_completes (r : Request) (hok : s.accessOk .w s.systemSp = true) :
    Completes (s.requestStep r) fun t =>
      ∃ u, (s.acknowledge r).enter (.request r) (s.ackWord r) s.pcAddr = .next u
        ∧ t = (u.afterCycles (s.requestCycles r)).settle := by
  have hu : (s.acknowledge r).enter (.request r) (s.ackWord r) s.pcAddr = .next _ := whenAligned_true hok _
  exact ⟨_, by rw [State.requestStep, State.enterRequest, hu]; rfl, _, hu, rfl⟩

/-- Settles O55: the entry from the acknowledged state (`entered_enter`) changes, beside what `Entered` says, nothing
that the acknowledge set or left. -/
theorem acceptedRequestIsEntered : Obligations.AcceptedRequestIsEntered := by
  intro s r hf ha hok
  rw [step_accepted hf ha]
  obtain ⟨_, ht, u, hu, rfl⟩ := requestStep_completes r hok
  obtain ⟨hentered, ⟨⟨hplatform, hpsapSeg, hpsapOff, hrefresh, hlatch, hlevel, hhalted, hmo, hbus, hident, hreset,
    haccepted, hstale, hmmu, _, _, htick⟩, hpins, hevents⟩, _⟩ := entered_enter (s.acknowledge r) _ _ _ hu
  have htick : u.tick = s.tick := htick
  have hpending := (nmiPending_congr hlatch hpins hlevel).trans (nmiPending_acknowledge s r)
  refine ⟨_, ht, s.ackWord r, ?_, htick ▸ entered_settled _ (entered_of_acknowledge hentered), congrArg (· + 1) htick,
    hident, haccepted, hhalted, hstale, hevents, ?_, ?_, congrArg Pins.nmi hpins, fun hm => ?_, hplatform, hpins,
    hpsapSeg, hpsapOff, hrefresh, hmo, hbus, hreset⟩
  · cases r with
    | segt => exact (ackWord_segt s).trans (by rw [State.segtIdent]; cases s.mmuRequest <;> rfl)
    | nmi | vi | nvi => rfl
  · show s.requestCycles r = _
    rw [State.requestCycles, fetchCycles_one]
    rfl
  · cases r with
    | nmi | segt | vi | nvi => exact hpending
  · have hnone : u.platform.mmu = [] := by rw [hplatform]; exact hm
    rw [afterCycles_of_unasked (by simp [hnone])]
    exact hmmu.trans (mmuRequest_acknowledge s r)

end Sys2Proof.Machine

/-! Condition codes and effective addresses. -/

namespace Sys2Proof.Machine

/-- The condition that holds where `c` does not (R130). -/
def opposite : Cond → Cond
  | .f => .t | .lt => .ge | .le => .gt | .ule => .ugt | .ov => .nov | .mi => .pl | .eq => .ne | .ult => .uge
  | .t => .f | .ge => .lt | .gt => .le | .ugt => .ule | .nov => .ov | .pl => .mi | .ne => .eq | .uge => .ult

theorem holds_opposite (f : Flags) (c : Cond) : f.holds (opposite c) = !f.holds c := by
  cases c <;> simp [opposite, Flags.holds]

theorem ofBits_add_eight : ∀ c : BitVec 4, Cond.ofBits (c + 8) = opposite (.ofBits c) := by decide

/-- Settles O7: codes 0 to 7 are their formulas by definition, the upper eight their negations. -/
theorem conditionCodes : Obligations.ConditionCodes := fun f =>
  ⟨rfl, .rfl, by simp [Cond.ofBits, Flags.holds], by simp [Cond.ofBits, Flags.holds], .rfl, .rfl, .rfl, .rfl,
    fun c => by rw [ofBits_add_eight, holds_opposite]⟩

variable (s : State)

theorem addrReg_nonsegmented (h : s.segmented = false) (r : Reg) : s.addrReg r = ⟨s.codeSeg, s.reg r⟩ := by
  simp [State.addrReg, h]

theorem addrReg_segmented (h : s.segmented = true) (r : Reg) :
    s.addrReg r = ⟨(s.reg r).extractLsb' 8 7, s.reg (r + 1)⟩ := by
  simp [State.addrReg, h]

/-- Settles O6: each address is its mode's by definition; that of an address register follows the mode. -/
theorem effectiveAddresses : Obligations.EffectiveAddresses := fun s r _ _ _ _ _ _ =>
  ⟨fun h => addrReg_nonsegmented s h r, fun h => addrReg_segmented s h r, rfl, rfl, rfl, rfl, rfl, rfl, rfl, rfl, rfl,
    ⟨rfl, rfl, rfl⟩, rfl, rfl, fun _ => ⟨rfl, rfl⟩⟩

end Sys2Proof.Machine

/-! The decoder on the words that the encoder writes: the part of the opcode map that a first word leads to, what each
operand form reads back, and the round trip. -/

namespace Sys2Proof

variable {seg : Bool} {op : BitVec 6} {a b : BitVec 4} {ws : List Word} {x : Except DecodeError (Instr × List Word)}

/-! ### The part of the opcode map that a first word leads to -/

theorem Mem.mode_ne_three (m : Mem) : m.mode ≠ 3 := by cases m <;> simp [Mem.mode, modeIr, modeDa]

theorem Dst.mode_ne_three (d : Dst) : d.mode ≠ 3 := by
  cases d with
  | reg r => simp [Dst.mode, modeR]
  | mem m => exact m.mode_ne_three

theorem Src.mode_ne_three {z : Size} (s : Src z) : s.mode ≠ 3 := by
  cases s with
  | reg r => simp [Src.mode, modeR]
  | imm v => simp [Src.mode, modeIr]
  | mem m => exact m.mode_ne_three

/-- A two-operand instruction reads back (R112, R131). -/
theorem decode_encTwo {z : Size} {make : Reg → Src z → Instr} (htwo : twoOp op = some ⟨z, make⟩) {src : Src z}
    (h : src.ok seg = true) (d : Reg) (ws : List Word) : decode seg (encTwo op d src ++ ws) = .ok (make d src, ws) := by
  have hparse := parseSrc_words seg src ws h
  simp only [encTwo, List.cons_append, decode, fieldMode_firstWord, fieldOp_firstWord, fieldA_firstWord,
    fieldB_firstWord, src.mode_ne_three, if_false, htwo, hparse, bind, Except.bind, pure, Except.pure]

theorem decode_firstWord_dst {mode : BitVec 2} (hmode : mode ≠ 3) (htwo : twoOp op = none)
    (hdst : decodeDst seg mode op a b ws = some x) : decode seg (firstWord mode op a b :: ws) = x := by
  simp only [decode, fieldMode_firstWord, fieldOp_firstWord, fieldA_firstWord, fieldB_firstWord, hmode, if_false, htwo,
    hdst]

theorem decode_firstWord_ir (htwo : twoOp op = none) (hdst : decodeDst seg modeIr op a b ws = none)
    (h : decodeMode0 seg op a b ws = x) : decode seg (firstWord modeIr op a b :: ws) = x := by
  have h3 : modeIr ≠ 3 := by decide
  simp only [decode, fieldMode_firstWord, fieldOp_firstWord, fieldA_firstWord, fieldB_firstWord, h3, if_false, htwo,
    hdst, if_true, h]

theorem decode_firstWord_da (htwo : twoOp op = none) (hdst : decodeDst seg modeDa op a b ws = none)
    (h : decodeMode1 seg op a b ws = x) : decode seg (firstWord modeDa op a b :: ws) = x := by
  have h3 : modeDa ≠ 3 := by decide
  have h0 : modeDa ≠ modeIr := by decide
  simp only [decode, fieldMode_firstWord, fieldOp_firstWord, fieldA_firstWord, fieldB_firstWord, h3, h0, if_false, htwo,
    hdst, if_true, h]

theorem decode_firstWord_reg (htwo : twoOp op = none) (hdst : decodeDst seg modeR op a b ws = none)
    (h : decodeMode2 op a b ws = x) : decode seg (firstWord modeR op a b :: ws) = x := by
  have h3 : modeR ≠ 3 := by decide
  have h0 : modeR ≠ modeIr := by decide
  have h1 : modeR ≠ modeDa := by decide
  simp only [decode, fieldMode_firstWord, fieldOp_firstWord, fieldA_firstWord, fieldB_firstWord, h3, h0, h1, if_false,
    htwo, hdst, h]

/-- An instruction with a memory operand, IR in mode 00 and DA or X in mode 01. -/
theorem decode_encMem {m : Mem} (htwo : twoOp op = none)
    (hdst : ∀ mode a ws, decodeDst seg mode op a b ws = none)
    (hir : ∀ r, m = .ir r → decodeMode0 seg op r b ws = x)
    (hda : m.mode = modeDa → decodeMode1 seg op m.field b (m.words ++ ws) = x) :
    decode seg (encMem op m b ++ ws) = x := by
  cases m with
  | ir r => exact decode_firstWord_ir htwo (hdst _ _ _) (hir r rfl)
  | da | x => exact decode_firstWord_da htwo (hdst _ _ _) (hda rfl)

/-! ### Words of two bytes, and the compact formats (R113) -/

/-- The low half of a word put together from two parts. -/
theorem extract_append_low {m n : Nat} (u : BitVec m) (v : BitVec n) : (u ++ v).extractLsb' 0 n = v := by
  refine BitVec.eq_of_getLsbD_eq fun i hi => ?_
  simp [BitVec.getLsbD_append, hi]

/-- A part of a word that lies above the last of its parts. -/
theorem extract_append_high {m n : Nat} (u : BitVec m) (v : BitVec n) (k len : Nat) :
    (u ++ v).extractLsb' (n + k) len = u.extractLsb' k len := by
  refine BitVec.eq_of_getLsbD_eq fun i hi => ?_
  simp [BitVec.getLsbD_append, hi, Nat.add_assoc]

/-- A byte is its two fields. -/
theorem byte_fields (e : Byte) : (e.extractLsb' 4 4 ++ e.extractLsb' 0 4 : Byte) = e := by
  revert e
  decide

/-- A first word whose low byte is given whole. -/
theorem firstWord_byte (m : BitVec 2) (op : BitVec 6) (e : Byte) :
    (m ++ op ++ e : Word) = firstWord m op (e.extractLsb' 4 4) (e.extractLsb' 0 4) :=
  (congrArg (fun v : Byte => (m ++ op ++ v : Word)) (byte_fields e)).symm.trans
    (BitVec.append_assoc (x₁ := m ++ op) (x₂ := e.extractLsb' 4 4) (x₃ := e.extractLsb' 0 4)).symm

theorem fieldTop_compact (t : BitVec 4) (n : BitVec 12) : fieldTop (t ++ n) = t :=
  (extract_append_high t n 0 4).trans BitVec.extractLsb'_eq_self

theorem fieldX_compact (t r : BitVec 4) (n : Byte) : fieldX (t ++ (r ++ n : BitVec 12) : Word) = r := by
  have h := extract_append_high (t ++ r) n 0 4
  rw [BitVec.append_assoc] at h
  exact h.trans (extract_append_low t r)

theorem lowByte_compact (t r : BitVec 4) (n : Byte) : lowByte (t ++ (r ++ n : BitVec 12) : Word) = n := by
  have h := extract_append_low (t ++ r) n
  rwa [BitVec.append_assoc] at h

/-- A first word in mode 11. -/
theorem decode_compact {t : BitVec 4} (ht : t.extractLsb' 2 2 = 3) (n : BitVec 12) :
    decode seg ((t ++ n : Word) :: ws) = decodeCompact (t ++ n) ws :=
  if_pos ((extract_append_high t n 2 2).trans ht)

theorem decode_ldbCompact (d : Reg) (v : Byte) :
    decode seg ((0xC#4 ++ d ++ v : Word) :: ws) = .ok (.ldb (.compact d v), ws) := by
  rw [show (0xC#4 ++ d ++ v : Word) = 0xC#4 ++ (d ++ v : BitVec 12) from BitVec.append_assoc,
    decode_compact (by decide)]
  simp only [decodeCompact, fieldTop_compact, fieldX_compact, lowByte_compact]
  rfl

theorem decode_calr (n : BitVec 12) : decode seg ((0xD#4 ++ n : Word) :: ws) = .ok (.calr n, ws) := by
  have hn : (0xD#4 ++ n : Word).extractLsb' 0 12 = n := extract_append_low _ n
  rw [decode_compact (by decide)]
  simp only [decodeCompact, fieldTop_compact, hn]
  rfl

theorem decode_jr (c : Cond) (n : Byte) :
    decode seg ((0xE#4 ++ c.bits ++ n : Word) :: ws) = .ok (.jr c n, ws) := by
  rw [show (0xE#4 ++ c.bits ++ n : Word) = 0xE#4 ++ (c.bits ++ n : BitVec 12) from BitVec.append_assoc,
    decode_compact (by decide)]
  simp only [decodeCompact, fieldTop_compact, fieldX_compact, lowByte_compact, Cond.ofBits_bits]
  rfl

/-- DJNZ and DBJNZ differ in bit 7 of the word (R253). -/
theorem decode_djnz (r : Reg) (word : Bool) (n : BitVec 7) :
    decode seg ((0xF#4 ++ r ++ BitVec.ofBool word ++ n : Word) :: ws) =
      .ok (if word then .djnz r n else .dbjnz r n, ws) := by
  have hword : (0xF#4 ++ r ++ BitVec.ofBool word ++ n : Word) =
      0xF#4 ++ (r ++ (BitVec.ofBool word ++ n : Byte) : BitVec 12) :=
    BitVec.append_assoc.trans BitVec.append_assoc
  have hbit : (0xF#4 ++ r ++ BitVec.ofBool word ++ n : Word).getLsbD 7 = word := by
    cases word <;> exact (BitVec.getLsbD_append (x := 0xF#4 ++ r ++ _) (y := n)).trans
      ((if_neg (by omega)).trans ((BitVec.getLsbD_append (x := 0xF#4 ++ r)).trans (if_pos (by omega))))
  have hn : (0xF#4 ++ r ++ BitVec.ofBool word ++ n : Word).extractLsb' 0 7 = n :=
    extract_append_low (0xF#4 ++ r ++ BitVec.ofBool word) n
  have hr : fieldX (0xF#4 ++ (r ++ (BitVec.ofBool word ++ n : Byte) : BitVec 12) : Word) = r := fieldX_compact _ _ _
  rw [hword] at hbit hn ⊢
  rw [decode_compact (by decide)]
  simp only [decodeCompact, fieldTop_compact, hr, hbit, hn]
  rfl

/-! ### What the parsers read from the operand words -/

theorem oneOp_words {make : Dst → Instr} {z : Size} {d : Dst} (h : d.ok z seg = true) (ws : List Word) :
    oneOp make seg d.mode d.field (d.words ++ ws) = .ok (make d, ws) := by
  simp only [oneOp, parseDst_words seg z d ws h, bind, Except.bind, pure, Except.pure]

theorem oneMem_words {make : Mem → Instr} {m : Mem} (h : m.ok seg = true) (ws : List Word) :
    oneMem make seg m.mode m.field (m.words ++ ws) = .ok (make m, ws) := by
  simp only [oneMem, parseMem_words seg m ws h, bind, Except.bind, pure, Except.pure]

theorem ldStore_words {z : Size} {make : LdArgs z → Instr} {m : Mem} (h : m.ok seg = true) (s : Reg) (ws : List Word) :
    ldStore make seg m.mode m.field s (m.words ++ ws) = .ok (make (.store (.mem m) s), ws) := by
  simp only [ldStore, parseMem_words seg m ws h, bind, Except.bind, pure, Except.pure]

theorem memImm_words {z : Size} {make : Mem → BitVec z.bits → Instr} {m : Mem} (h : m.ok seg = true)
    (v : BitVec z.bits) (ws : List Word) :
    memImm z make seg m.mode m.field (m.words ++ (immWords z v ++ ws)) = .ok (make m v, ws) := by
  simp only [memImm, parseMem_words seg m _ h, parseImm_immWords z v ws, bind, Except.bind, pure, Except.pure]

theorem parseLdm_words {dir : Dir} {m : Mem} (h : m.ok seg = true) (r n : BitVec 4) (ws : List Word) :
    parseLdm dir seg m.mode m.field (secondWord r 0 n :: (m.words ++ ws)) = .ok (.ldm dir m r n, ws) := by
  simp only [parseLdm, parseLdmWord_secondWord, parseMem_words seg m ws h, bind, Except.bind, pure, Except.pure]

theorem parseBit_dynamic {make : BitArgs → Instr} (d s : Reg) (ws : List Word) :
    parseBit make seg modeIr 0 s (secondWord d 0 0 :: ws) = .ok (make (.dynamic d s), ws) := by
  simp only [parseBit, and_self, if_true, parseRegWord_secondWord, bind, Except.bind, pure, Except.pure]

/-- A static bit instruction is not taken for a dynamic one: no address register is R0 (R21, R280). -/
theorem parseBit_static {make : BitArgs → Instr} {z : Size} {d : Dst} (h : d.ok z seg = true) (b : BitVec 4)
    (ws : List Word) : parseBit make seg d.mode d.field b (d.words ++ ws) = .ok (make (.static d b), ws) := by
  have hstatic : ¬(d.mode = modeIr ∧ d.field = 0) := by
    rintro ⟨hmode, hfield⟩
    match d with
    | .reg r => exact absurd hmode (by decide : modeR ≠ modeIr)
    | .mem (.ir r) =>
      simp only [Dst.ok, Mem.ok, addrRegOk, nonzero, Bool.and_eq_true, bne_iff_ne, ne_eq] at h
      exact h.1 hfield
    | .mem (.da _) => exact absurd hmode (by decide : modeDa ≠ modeIr)
    | .mem (.x _ _) => exact absurd hmode (by decide : modeDa ≠ modeIr)
  simp only [parseBit, hstatic, if_false, parseDst_words seg z d ws h, bind, Except.bind, pure, Except.pure]

/-- In field A a register other than R0 means BA (R120). -/
theorem parseDisp_base {ba : Reg → Word → Instr} {ra : Word → Instr} {r : Reg} (h : nonzero r = true) (n : Word)
    (ws : List Word) : parseDisp ba ra r (n :: ws) = .ok (ba r n, ws) := by
  have hr : r ≠ 0 := by simpa [nonzero] using h
  simp only [parseDisp, parseWord, hr, if_false, bind, Except.bind, pure, Except.pure]

theorem parseDisp_relative {ba : Reg → Word → Instr} {ra : Word → Instr} (n : Word) (ws : List Word) :
    parseDisp ba ra 0 (n :: ws) = .ok (ra n, ws) := rfl

theorem parseBx_words {make : XMem → Instr} (r x : Reg) (ws : List Word) :
    parseBx make r (secondWord x 0 0 :: ws) = .ok (make (.bx r x), ws) := by
  simp only [parseBx, parseRegWord_secondWord, bind, Except.bind, pure, Except.pure]

theorem parseDynShift_words {make : Reg → Reg → Instr} (d s : Reg) (ws : List Word) :
    parseDynShift make d (secondWord s 0 0 :: ws) = .ok (make d s, ws) := by
  simp only [parseDynShift, parseRegWord_secondWord, bind, Except.bind, pure, Except.pure]

theorem parseShift_left {left right : Reg → Word → Instr} {k : Word} (h : leftCount k = true) (d : Reg)
    (ws : List Word) : parseShift left right d (k :: ws) = .ok (left d k, ws) := by
  have hk : k.msb = false := by simpa [leftCount] using h
  simp only [parseShift, parseWord, hk, bind, Except.bind, pure, Except.pure]
  rfl

theorem parseShift_right {left right : Reg → Word → Instr} {k : Word} (h : rightCount k = true) (d : Reg)
    (ws : List Word) : parseShift left right d (k :: ws) = .ok (right d k, ws) := by
  have hk : k.msb = true := h
  simp only [parseShift, parseWord, hk, if_true, bind, Except.bind, pure, Except.pure]

theorem parseBlockIo_single {single rep : Reg → Reg → Reg → Instr} (s r d : Reg) (ws : List Word) :
    parseBlockIo single rep s (secondWord r d 8 :: ws) = .ok (single s r d, ws) := by
  simp only [parseBlockIo, parseBlockWord_secondWord, if_true, bind, Except.bind, pure, Except.pure]

theorem parseBlockIo_repeat {single rep : Reg → Reg → Reg → Instr} (s r d : Reg) (ws : List Word) :
    parseBlockIo single rep s (secondWord r d 0 :: ws) = .ok (rep s r d, ws) := by
  have h : (0 : BitVec 4) ≠ 8 := by decide
  simp only [parseBlockIo, parseBlockWord_secondWord, h, if_false, if_true, bind, Except.bind, pure, Except.pure]

theorem parseCompare_words {make : Reg → Reg → Reg → Cond → Instr} (s r d : Reg) (c : Cond) (ws : List Word) :
    parseCompare make s (secondWord r d c.bits :: ws) = .ok (make s r d c, ws) := by
  simp only [parseCompare, parseBlockWord_secondWord, Cond.ofBits_bits, bind, Except.bind, pure, Except.pure]

theorem parseTranslate_words {make : Reg → Reg → Reg → Instr} (d r s : Reg) (tail : BitVec 4) (ws : List Word) :
    parseTranslate make tail d (secondWord r s tail :: ws) = .ok (make d r s, ws) := by
  simp only [parseTranslate, parseBlockWord_secondWord, if_true, bind, Except.bind, pure, Except.pure]

/-! ### Instructions that share an encoding -/

theorem decode_encOne {make : Dst → Instr} {z : Size} {d : Dst} (htwo : twoOp op = none)
    (hdst : ∀ mode a ws, decodeDst seg mode op a b ws = some (oneOp make seg mode a ws)) (h : d.ok z seg = true)
    (ws : List Word) : decode seg (encOne op d b ++ ws) = .ok (make d, ws) :=
  decode_firstWord_dst d.mode_ne_three htwo ((hdst _ _ _).trans (congrArg some (oneOp_words h ws)))

/-- An instruction with one memory operand (R251, R255, R418). -/
theorem decode_oneMem {make : Mem → Instr} {m : Mem} (htwo : twoOp op = none)
    (hdst : ∀ mode a ws, decodeDst seg mode op a b ws = none)
    (hir : ∀ r, decodeMode0 seg op r b ws = .ok (make (.ir r), ws))
    (hda : ∀ a ws, decodeMode1 seg op a b ws = oneMem make seg modeDa a ws) (h : m.ok seg = true) :
    decode seg (encMem op m b ++ ws) = .ok (make m, ws) := by
  refine decode_encMem htwo hdst (fun r hm => hm ▸ hir r) (fun hm => ?_)
  exact (hda _ _).trans (hm ▸ oneMem_words h ws)

/-- The forms of BIT, SET and RES (R280). -/
theorem decode_encBit {make : BitArgs → Instr} {z : Size} {args : BitArgs} (htwo : twoOp op = none)
    (hdst : ∀ mode a b ws, decodeDst seg mode op a b ws = some (parseBit make seg mode a b ws))
    (h : args.ok z seg = true) (ws : List Word) : decode seg (encBit op args ++ ws) = .ok (make args, ws) := by
  cases args with
  | static d b =>
    simp only [BitArgs.ok, Bool.and_eq_true] at h
    exact decode_firstWord_dst d.mode_ne_three htwo ((hdst _ _ _ _).trans (congrArg some (parseBit_static h.1 b ws)))
  | dynamic d s =>
    exact decode_firstWord_dst (by decide) htwo ((hdst _ _ _ _).trans (congrArg some (parseBit_dynamic d s ws)))

/-- A memory operand and an immediate, in a group that field B tells apart (R125). -/
theorem decode_encMem_imm {z : Size} {make : Mem → BitVec z.bits → Instr} {m : Mem} (htwo : twoOp op = none)
    (hdst : ∀ mode a ws, mode ≠ modeR → decodeDst seg mode op a b ws = some (memImm z make seg mode a ws))
    (h : m.ok seg = true) (v : BitVec z.bits) (ws : List Word) :
    decode seg (encMem op m b ++ immWords z v ++ ws) = .ok (make m v, ws) := by
  rw [List.append_assoc]
  exact decode_firstWord_dst m.mode_ne_three htwo
    ((hdst _ _ _ m.mode_ne_modeR).trans (congrArg some (memImm_words h v ws)))

/-- The forms of CP (R193). -/
theorem decode_encCp {z : Size} {make : CpArgs z → Instr} {opG : BitVec 6} {args : CpArgs z}
    (htwo : twoOp op = some ⟨z, fun d s => make (.reg d s)⟩)
    (himm : z ≠ .l → twoOp opG = none ∧ ∀ mode a ws, mode ≠ modeR →
      decodeDst seg mode opG a 1 ws = some (memImm z (fun m v => make (.memImm m v)) seg mode a ws))
    (h : args.ok seg = true) (ws : List Word) : decode seg (encCp op opG args ++ ws) = .ok (make args, ws) := by
  cases args with
  | reg d src =>
    simp only [CpArgs.ok, Bool.and_eq_true] at h
    exact decode_encTwo htwo h.2 d ws
  | memImm m v =>
    simp only [CpArgs.ok, Bool.and_eq_true, bne_iff_ne, ne_eq] at h
    exact decode_encMem_imm (himm h.1).1 (himm h.1).2 h.2 v ws

/-- Where the opcode map has the forms of LD and LDR (R153, R158): the load and the store of the main modes, those of BA
and BX, which with field A = 0 are the relative ones, and the group that holds `LD dst,#imm`. -/
structure LdOpcodes {z : Size} (make : LdArgs z → Instr) (relative : Dir → Reg → Word → Instr)
    (opR opS opBA opBAs opG : BitVec 6) : Prop where
  load     : twoOp opR = some ⟨z, fun d s => make (ldOfSrc d s)⟩
  noTwo    : twoOp opS = none ∧ twoOp opBA = none ∧ twoOp opBAs = none ∧ twoOp opG = none
  noDst    : ∀ seg mode a b ws, decodeDst seg mode opS a b ws = none ∧ decodeDst seg mode opBA a b ws = none
    ∧ decodeDst seg mode opBAs a b ws = none
  storeIr  : ∀ seg a s ws, decodeMode0 seg opS a s ws = ldStore make seg modeIr a s ws
  storeDa  : ∀ seg a s ws, decodeMode1 seg opS a s ws = ldStore make seg modeDa a s ws
  loadBa   : ∀ seg r d ws,
    decodeMode0 seg opBA r d ws = parseDisp (fun r n => make (.load d (.ba r n))) (relative .load d) r ws
  storeBa  : ∀ seg r s ws,
    decodeMode0 seg opBAs r s ws = parseDisp (fun r n => make (.store (.ba r n) s)) (relative .store s) r ws
  loadBx   : ∀ seg r d ws, decodeMode1 seg opBA r d ws = parseBx (fun m => make (.load d m)) r ws
  storeBx  : ∀ seg r s ws, decodeMode1 seg opBAs r s ws = parseBx (fun m => make (.store m s)) r ws
  storeImm : z ≠ .l → ∀ seg mode a ws, mode ≠ modeR →
    decodeDst seg mode opG a 5 ws = some (memImm z (fun m v => make (.storeImm m v)) seg mode a ws)
  compact  : z = .b → ∀ seg d v ws,
    decode seg ((0xC#4 ++ d ++ v.setWidth 8 : Word) :: ws) = .ok (make (.compact d v), ws)

theorem ldb_opcodes : LdOpcodes .ldb .ldrb 0x20 0x2E 0x30 0x32 0x0C where
  load := rfl
  noTwo := ⟨rfl, rfl, rfl, rfl⟩
  noDst _ _ _ _ _ := ⟨rfl, rfl, rfl⟩
  storeIr _ _ _ _ := rfl
  storeDa _ _ _ _ := rfl
  loadBa _ _ _ _ := rfl
  storeBa _ _ _ _ := rfl
  loadBx _ _ _ _ := rfl
  storeBx _ _ _ _ := rfl
  storeImm _ _ _ _ _ h := congrArg some (if_neg h)
  compact _ _ d v ws := by rw [BitVec.setWidth_eq]; exact decode_ldbCompact d v

theorem ld_opcodes : LdOpcodes .ld .ldr 0x21 0x2F 0x31 0x33 0x0D where
  load := rfl
  noTwo := ⟨rfl, rfl, rfl, rfl⟩
  noDst _ _ _ _ _ := ⟨rfl, rfl, rfl⟩
  storeIr _ _ _ _ := rfl
  storeDa _ _ _ _ := rfl
  loadBa _ _ _ _ := rfl
  storeBa _ _ _ _ := rfl
  loadBx _ _ _ _ := rfl
  storeBx _ _ _ _ := rfl
  storeImm _ _ _ _ _ h := congrArg some (if_neg h)
  compact := nofun

theorem ldl_opcodes : LdOpcodes .ldl .ldrl 0x14 0x1D 0x35 0x37 0x0D where
  load := rfl
  noTwo := ⟨rfl, rfl, rfl, rfl⟩
  noDst _ _ _ _ _ := ⟨rfl, rfl, rfl⟩
  storeIr _ _ _ _ := rfl
  storeDa _ _ _ _ := rfl
  loadBa _ _ _ _ := rfl
  storeBa _ _ _ _ := rfl
  loadBx _ _ _ _ := rfl
  storeBx _ _ _ _ := rfl
  storeImm h := absurd rfl h
  compact := nofun

/-- The address register of an operand in BA or BX is not R0. -/
theorem nonzero_of_addrRegOk {r : Reg} (h : addrRegOk seg r = true) : nonzero r = true :=
  (Bool.and_eq_true_iff.mp h).1

/-- The forms of LD (R153). -/
theorem decode_encLd {z : Size} {make : LdArgs z → Instr} {relative : Dir → Reg → Word → Instr}
    {opR opS opBA opBAs opG : BitVec 6} (map : LdOpcodes make relative opR opS opBA opBAs opG) {args : LdArgs z}
    (h : args.ok seg = true) (ws : List Word) :
    decode seg (encLd opR opS opBA opBAs opG args ++ ws) = .ok (make args, ws) := by
  obtain ⟨hS, hBA, hBAs, hG⟩ := map.noTwo
  match args with
  | .reg d s =>
    simp only [LdArgs.ok, Bool.and_eq_true] at h
    exact decode_encTwo map.load (src := .reg s) h.2 d ws
  | .imm d v => exact decode_encTwo map.load (src := .imm v) rfl d ws
  | .load d (.mem m) =>
    simp only [LdArgs.ok, XMem.ok, Bool.and_eq_true] at h
    exact decode_encTwo map.load (src := .mem m) h.2 d ws
  | .load d (.ba r n) =>
    simp only [LdArgs.ok, XMem.ok, Bool.and_eq_true] at h
    have hr := nonzero_of_addrRegOk h.2
    exact decode_firstWord_ir hBA (map.noDst _ _ _ _ _).2.1 ((map.loadBa _ _ _ _).trans (parseDisp_base hr n ws))
  | .load d (.bx r x) =>
    exact decode_firstWord_da hBA (map.noDst _ _ _ _ _).2.1 ((map.loadBx _ _ _ _).trans (parseBx_words r x ws))
  | .store (.mem m) s =>
    simp only [LdArgs.ok, XMem.ok, Bool.and_eq_true] at h
    have hwords := ldStore_words (make := make) h.2 s ws
    refine decode_encMem hS (fun _ _ _ => (map.noDst _ _ _ _ _).1) (fun r hm => ?_) (fun hm => ?_)
    · subst hm
      exact (map.storeIr _ _ _ _).trans hwords
    · exact (map.storeDa _ _ _ _).trans (hm ▸ hwords)
  | .store (.ba r n) s =>
    simp only [LdArgs.ok, XMem.ok, Bool.and_eq_true] at h
    have hr := nonzero_of_addrRegOk h.2
    exact decode_firstWord_ir hBAs (map.noDst _ _ _ _ _).2.2 ((map.storeBa _ _ _ _).trans (parseDisp_base hr n ws))
  | .store (.bx r x) s =>
    exact decode_firstWord_da hBAs (map.noDst _ _ _ _ _).2.2 ((map.storeBx _ _ _ _).trans (parseBx_words r x ws))
  | .storeImm m v =>
    simp only [LdArgs.ok, Bool.and_eq_true, bne_iff_ne, ne_eq] at h
    exact decode_encMem_imm hG (map.storeImm h.1 seg) h.2 v ws
  | .compact d v => exact map.compact (by simpa [LdArgs.ok] using h) seg d v ws

/-- LDR (R158). -/
theorem decode_encLdr {z : Size} {make : LdArgs z → Instr} {relative : Dir → Reg → Word → Instr}
    {opR opS opBA opBAs opG : BitVec 6} (map : LdOpcodes make relative opR opS opBA opBAs opG) (dir : Dir) (r : Reg)
    (n : Word) (ws : List Word) : decode seg (encLdr opBA opBAs r n dir ++ ws) = .ok (relative dir r n, ws) := by
  obtain ⟨-, hBA, hBAs, -⟩ := map.noTwo
  cases dir with
  | load =>
    exact decode_firstWord_ir hBA (map.noDst _ _ _ _ _).2.1 ((map.loadBa _ _ _ _).trans (parseDisp_relative n ws))
  | store =>
    exact decode_firstWord_ir hBAs (map.noDst _ _ _ _ _).2.2 ((map.storeBa _ _ _ _).trans (parseDisp_relative n ws))

/-- A rotate, by one and by two (R300). -/
theorem decode_encRotate {make : Reg → Bool → Instr} (htwo : twoOp op = none)
    (hdst : ∀ b, decodeDst seg modeR op a b ws = none)
    (hone : decodeMode2 op a b ws = .ok (make a false, ws)) (hby2 : decodeMode2 op a (b + 2) ws = .ok (make a true, ws))
    (two : Bool) : decode seg (encRotate op a b two ++ ws) = .ok (make a two, ws) := by
  cases two with
  | false => exact decode_firstWord_reg htwo (hdst b) hone
  | true => exact decode_firstWord_reg htwo (hdst (b + 2)) hby2

/-- IN and OUT with the port in a register or in the instruction (R380). -/
theorem decode_encPort {make : Port → Instr} {opR opD : BitVec 6} (hR : twoOp opR = none) (hD : twoOp opD = none)
    (hdst : ∀ a b ws, decodeDst seg modeIr opR a b ws = none ∧ decodeDst seg modeIr opD a b ws = none) {r : Reg}
    (hreg : ∀ p, decodeMode0 seg opR p r ws = .ok (make (.reg p), ws))
    (hdirect : ∀ p, decodeMode0 seg opD r b (p :: ws) = .ok (make (.direct p), ws)) (p : Port) :
    decode seg (encPort opR opD b r p ++ ws) = .ok (make p, ws) := by
  cases p with
  | reg p => exact decode_firstWord_ir hR (hdst _ _ _).1 (hreg p)
  | direct p => exact decode_firstWord_ir hD (hdst _ _ _).2 (hdirect p)

theorem decode_lda {d : Reg} {m : XMem} (hir : m.notIr = true) (h : m.ok seg = true) :
    decode seg (encode (.lda d m) ++ ws) = .ok (.lda d m, ws) := by
  match m with
  | .mem (.da a) =>
    exact decode_firstWord_da rfl rfl (oneMem_words (make := fun m => .lda d (.mem m)) (m := .da a) h ws)
  | .mem (.x a r) =>
    exact decode_firstWord_da rfl rfl (oneMem_words (make := fun m => .lda d (.mem m)) (m := .x a r) h ws)
  | .ba r n =>
    exact decode_firstWord_ir rfl rfl
      (parseDisp_base (ba := fun r n => .lda d (.ba r n)) (ra := .ldar d) (nonzero_of_addrRegOk h) n ws)
  | .bx r x => exact decode_firstWord_da rfl rfl (parseBx_words (make := fun m => .lda d m) r x ws)

theorem decode_ldm {dir : Dir} {m : Mem} (h : m.ok seg = true) (r n : BitVec 4) :
    decode seg (encode (.ldm dir m r n) ++ ws) = .ok (.ldm dir m r n, ws) := by
  cases dir with
  | load =>
    exact decode_firstWord_dst m.mode_ne_three rfl
      (congrArg some ((if_neg m.mode_ne_modeR).trans (parseLdm_words (dir := .load) h r n ws)))
  | store =>
    exact decode_firstWord_dst m.mode_ne_three rfl
      (congrArg some ((if_neg m.mode_ne_modeR).trans (parseLdm_words (dir := .store) h r n ws)))

/-- A stack instruction has its operand in field B (R159, R160). -/
theorem decode_stack {make : Dst → Instr} {sp : Reg} {z : Size} {d : Dst} (htwo : twoOp op = none)
    (hdst : ∀ mode b ws, decodeDst seg mode op sp b ws =
      some (parseDst seg mode b ws >>= fun p => pure (make p.1, p.2)))
    (h : d.ok z seg = true) : decode seg (firstWord d.mode op sp d.field :: (d.words ++ ws)) = .ok (make d, ws) := by
  refine decode_firstWord_dst d.mode_ne_three htwo ((hdst _ _ _).trans (congrArg some ?_))
  simp only [parseDst_words seg z d ws h, bind, Except.bind, pure, Except.pure]

/-- PUSH has its immediate form in the group of upper byte 0D (R160). -/
theorem decode_push {sp : Reg} {src : Src .w} (h : src.ok seg = true) :
    decode seg (encode (.push sp src) ++ ws) = .ok (.push sp src, ws) := by
  cases src with
  | reg r => exact decode_firstWord_dst (by decide) rfl rfl
  | imm v => exact decode_firstWord_dst (by decide) rfl rfl
  | mem m =>
    exact decode_stack (make := fun d => .push sp (match d with | .reg r => .reg r | .mem m => .mem m)) (z := .w)
      (d := .mem m) rfl (fun _ _ _ => rfl) h

/-- DI and EI have the two enable bits in field B (R412, R413). -/
theorem decode_enables (v n : Bool) :
    decode seg (encode (.di v n) ++ ws) = .ok (.di v n, ws)
      ∧ decode seg (encode (.ei v n) ++ ws) = .ok (.ei v n, ws) := by
  cases v <;> cases n <;> exact ⟨decode_firstWord_da rfl rfl rfl, decode_firstWord_da rfl rfl rfl⟩

theorem decode_ldctl (dir : CtlDir) (r : Reg) (c : CtlReg) :
    decode seg (encode (.ldctl dir r c) ++ ws) = .ok (.ldctl dir r c, ws) := by
  cases dir <;> cases c <;> exact decode_firstWord_da rfl rfl rfl

theorem decode_sc (e : Byte) : decode seg (encode (.sc e) ++ ws) = .ok (.sc e, ws) := by
  have hword : encode (.sc e) ++ ws = firstWord modeDa 0x3F (e.extractLsb' 4 4) (e.extractLsb' 0 4) :: ws :=
    congrArg (· :: ws) (firstWord_byte modeDa 0x3F e)
  rw [hword]
  refine decode_firstWord_da rfl rfl ?_
  exact congrArg (fun e : Byte => Except.ok (Instr.sc e, ws)) (byte_fields e)

/-- The words of an extended instruction, the first one in the general format (R134). -/
theorem encode_extended {mode : BitVec 2} {ext : ExtOp} (hext : ext.byte = mode ++ op) (e : Byte) (e1 : Word) :
    encode (.extended ext e e1) ++ ws = firstWord mode op (e.extractLsb' 4 4) (e.extractLsb' 0 4) :: e1 :: ws := by
  rw [encode, hext]
  exact congrArg (· :: e1 :: ws) (firstWord_byte mode op e)

theorem parseExt_words (ext : ExtOp) (e : Byte) (e1 : Word) :
    parseExt ext (e.extractLsb' 4 4) (e.extractLsb' 0 4) (e1 :: ws) = .ok (.extended ext e e1, ws) :=
  congrArg (fun e : Byte => Except.ok (Instr.extended ext e e1, ws)) (byte_fields e)

theorem decode_extended (ext : ExtOp) (e : Byte) (e1 : Word) :
    decode seg (encode (.extended ext e e1) ++ ws) = .ok (.extended ext e e1, ws) := by
  cases ext with
  | op0E =>
    rw [encode_extended (mode := modeIr) (op := 0x0E) rfl]
    exact decode_firstWord_ir rfl rfl (parseExt_words _ e e1)
  | op0F =>
    rw [encode_extended (mode := modeIr) (op := 0x0F) rfl]
    exact decode_firstWord_ir rfl rfl (parseExt_words _ e e1)
  | op4E =>
    rw [encode_extended (mode := modeDa) (op := 0x0E) rfl]
    exact decode_firstWord_da rfl rfl (parseExt_words _ e e1)
  | op4F =>
    rw [encode_extended (mode := modeDa) (op := 0x0F) rfl]
    exact decode_firstWord_da rfl rfl (parseExt_words _ e e1)
  | op8E =>
    rw [encode_extended (mode := modeR) (op := 0x0E) rfl]
    exact decode_firstWord_reg rfl rfl (parseExt_words _ e e1)
  | op8F =>
    rw [encode_extended (mode := modeR) (op := 0x0F) rfl]
    exact decode_firstWord_reg rfl rfl (parseExt_words _ e e1)

/-- Settles O10: each first word leads to its instruction's place in the opcode map, and the operand words read back. -/
theorem decodeOfEncode : Obligations.DecodeOfEncode := by
  intro seg i ws h
  cases i with
  | addb d src | add d src | subb d src | sub d src | orb d src | or d src | andb d src | and d src | xorb d src
  | xor d src => exact decode_encTwo rfl h d ws
  | subl d src | addl d src | multl d src | mult d src | divl d src | div d src =>
    exact decode_encTwo rfl (Bool.and_eq_true_iff.mp h).2 d ws
  | cpb args =>
    exact decode_encCp (make := .cpb) (opG := 0x0C) rfl
      (fun _ => ⟨rfl, fun _ _ _ hmode => congrArg some (if_neg hmode)⟩) h ws
  | cp args =>
    exact decode_encCp (make := .cp) (opG := 0x0D) rfl
      (fun _ => ⟨rfl, fun _ _ _ hmode => congrArg some (if_neg hmode)⟩) h ws
  | cpl args => exact decode_encCp rfl (fun hz => absurd rfl hz) h ws
  | ldb args => exact decode_encLd ldb_opcodes h ws
  | ld args => exact decode_encLd ld_opcodes h ws
  | ldl args => exact decode_encLd ldl_opcodes h ws
  | ldrb dir r n => exact decode_encLdr ldb_opcodes dir r n ws
  | ldr dir r n => exact decode_encLdr ld_opcodes dir r n ws
  | ldrl dir r n => exact decode_encLdr ldl_opcodes dir r n ws
  | lda d m =>
    obtain ⟨h, hok⟩ := Bool.and_eq_true_iff.mp h
    exact decode_lda (Bool.and_eq_true_iff.mp h).2 hok
  | ldar d n => exact decode_firstWord_ir rfl rfl (parseDisp_relative (ba := fun r n => .lda d (.ba r n)) n ws)
  | ldm dir m r n => exact decode_ldm h r n
  | comb d | com d | negb d | neg d | testb d | test d | tsetb d | tset d | clrb d | clr d | testl d | exb r d
  | ex r d => exact decode_encOne rfl (fun _ _ _ => rfl) h ws
  | incb d n => exact decode_encOne (make := fun d => .incb d n) rfl (fun _ _ _ => rfl) h ws
  | inc d n => exact decode_encOne (make := fun d => .inc d n) rfl (fun _ _ _ => rfl) h ws
  | decb d n => exact decode_encOne (make := fun d => .decb d n) rfl (fun _ _ _ => rfl) h ws
  | dec d n => exact decode_encOne (make := fun d => .dec d n) rfl (fun _ _ _ => rfl) h ws
  | setflg f | resflg f | comflg f | nop => exact decode_firstWord_dst (by decide) rfl rfl
  | ldctlb dir r => cases dir <;> exact decode_firstWord_dst (by decide) rfl rfl
  | pushl sp src => exact decode_stack rfl (fun _ _ _ => rfl) (Bool.and_eq_true_iff.mp h).2
  | popl dst sp =>
    exact decode_stack (make := fun d => .popl d sp) rfl (fun _ _ _ => rfl) (Bool.and_eq_true_iff.mp h).2
  | pop dst sp =>
    exact decode_stack (make := fun d => .pop d sp) rfl (fun _ _ _ => rfl) (Bool.and_eq_true_iff.mp h).2
  | push sp src => exact decode_push (Bool.and_eq_true_iff.mp h).2
  | resb args | res args | setb args | set args | bitb args | bit args =>
    exact decode_encBit rfl (fun _ _ _ _ => rfl) h ws
  | tccb c d | tcc c d | ret c =>
    exact decode_firstWord_reg rfl rfl (by simp only [decodeMode2, Cond.ofBits_bits]; rfl)
  | ldk | dab | extsb | exts | extsl | adcb | adc | sbcb | sbc | rrdb | rldb => exact decode_firstWord_reg rfl rfl rfl
  | rlb d two | rl d two | rrb d two | rr d two | rlcb d two | rlc d two | rrcb d two | rrc d two =>
    exact decode_encRotate rfl (fun _ => rfl) rfl rfl two
  | sllb d k | sll d k | slab d k | sla d k => exact decode_firstWord_reg rfl rfl (parseShift_left h d ws)
  | slll d k | slal d k =>
    exact decode_firstWord_reg rfl rfl (parseShift_left (Bool.and_eq_true_iff.mp h).2 d ws)
  | srlb d k | srl d k | srab d k | sra d k => exact decode_firstWord_reg rfl rfl (parseShift_right h d ws)
  | srll d k | sral d k =>
    exact decode_firstWord_reg rfl rfl (parseShift_right (Bool.and_eq_true_iff.mp h).2 d ws)
  | sdlb d s | sdl d s | sdll d s | sdab d s | sda d s | sdal d s =>
    exact decode_firstWord_reg rfl rfl (parseDynShift_words d s ws)
  | jp c m =>
    have hc := Cond.ofBits_bits c
    exact decode_oneMem rfl (fun _ _ _ => rfl) (fun r => congrArg (fun c => Except.ok (Instr.jp c (.ir r), ws)) hc)
      (fun a ws => congrArg (fun c => oneMem (Instr.jp c) seg modeDa a ws) hc) h
  | call m | ldps m => exact decode_oneMem rfl (fun _ _ _ => rfl) (fun _ => rfl) (fun _ _ => rfl) h
  | calr n => exact decode_calr n
  | jr c n => exact decode_jr c n
  | djnz r n => exact decode_djnz r true n
  | dbjnz r n => exact decode_djnz r false n
  | sc e => exact decode_sc e
  | cpib s r d c | cpirb s r d c | cpdb s r d c | cpdrb s r d c | cpsib s r d c | cpsirb s r d c | cpsdb s r d c
  | cpsdrb s r d c | cpi s r d c | cpir s r d c | cpd s r d c | cpdr s r d c | cpsi s r d c | cpsir s r d c
  | cpsd s r d c | cpsdr s r d c => exact decode_firstWord_reg rfl rfl (parseCompare_words s r d c ws)
  | ldib s r d | lddb s r d | ldi s r d | ldd s r d =>
    exact decode_firstWord_reg rfl rfl (parseBlockIo_single s r d ws)
  | ldirb s r d | lddrb s r d | ldir s r d | lddr s r d =>
    exact decode_firstWord_reg rfl rfl (parseBlockIo_repeat s r d ws)
  | trib d r s | trtib d r s | trirb d r s | trtirb d r s | trdb d r s | trtdb d r s | trdrb d r s | trtdrb d r s =>
    exact decode_firstWord_reg rfl rfl (parseTranslate_words d r s _ ws)
  | inb d p | inw d p => exact decode_encPort rfl rfl (fun _ _ _ => ⟨rfl, rfl⟩) (fun _ => rfl) (fun _ => rfl) p
  | outb p s =>
    exact decode_encPort (make := fun p => .outb p s) rfl rfl (fun _ _ _ => ⟨rfl, rfl⟩) (fun _ => rfl) (fun _ => rfl) p
  | out p s =>
    exact decode_encPort (make := fun p => .out p s) rfl rfl (fun _ _ _ => ⟨rfl, rfl⟩) (fun _ => rfl) (fun _ => rfl) p
  | sinb | soutb | sin | sout => exact decode_firstWord_ir rfl rfl rfl
  | inib s r d | sinib s r d | outib s r d | soutib s r d | indb s r d | sindb s r d | outdb s r d | soutdb s r d
  | ini s r d | sini s r d | outi s r d | souti s r d | ind s r d | sind s r d | outd s r d | soutd s r d =>
    exact decode_firstWord_ir rfl rfl (parseBlockIo_single s r d ws)
  | inirb s r d | sinirb s r d | otirb s r d | sotirb s r d | indrb s r d | sindrb s r d | otdrb s r d | sotdrb s r d
  | inir s r d | sinir s r d | otir s r d | sotir s r d | indr s r d | sindr s r d | otdr s r d | sotdr s r d =>
    exact decode_firstWord_ir rfl rfl (parseBlockIo_repeat s r d ws)
  | iret | halt | mset | mres | mbit | mreq => exact decode_firstWord_da rfl rfl rfl
  | di v n => exact (decode_enables v n).1
  | ei v n => exact (decode_enables v n).2
  | ldctl dir r c => exact decode_ldctl dir r c
  | extended ext e e1 => exact decode_extended ext e e1

end Sys2Proof

/-! Extended instructions with FCW.EPA set: what each action of an Extended Processing Unit takes, gives and leaves. -/

namespace Sys2Proof.Machine

variable (s : State)

/-! ### What a unit takes and gives (R440) -/

/-- A unit takes words and the instruction passes on: nothing else changes. -/
theorem epuTake_advance (words : List Word) (n : Nat) :
    let t := (s.epuTake words).advance n
    EpuTook s t words ∧ SameRegs s t [] ∧ SameFcw s t 0 ∧ SameMemory s t ∧ Passed s t n :=
  ⟨⟨rfl, rfl, by simp [SameInternals]⟩, ⟨fun _ _ => rfl, rfl⟩, rfl, fun _ _ => rfl, rfl, rfl⟩

theorem epuWord_supplied {k : Nat} {v : Word} (h : s.pins.epuOutput[k]? = some v) : s.epuWord k = v := by
  simp only [State.epuWord, h]

/-- What a unit gives stays given when an operation follows that leaves the pins and the events. -/
theorem epuGave_of_sameSpecials {t : State} {n : Nat} (h : SameSpecials (s.epuGive n) t) : EpuGave s t n s.epuWord := by
  obtain ⟨hinternals, hpins, hevents⟩ := h
  exact ⟨fun _ _ _ => epuWord_supplied s, hevents, hpins, hinternals⟩

/-! ### Storing words in sequence -/

theorem reg_pokeWords (sp : Space) (a : Addr) (n : Nat) (f : Nat → Word) : (s.pokeWords sp a n f).reg = s.reg :=
  State.reg_congr (by simp) (by simp) (by simp) (State.isZ8001_congr (by simp)) (State.system_congr (by simp))

/-- Storing words in sequence changes nothing but memory. -/
theorem storeFrame_pokeWords (sp : Space) (a : Addr) (n : Nat) (f : Nat → Word) (len : Nat) :
    StoreFrame s ((s.pokeWords sp a n f).advance len) [] 0 len := by
  obtain ⟨hspecials, -, hcopies, -⟩ := ordinary_advance (ordinary_pokeWords (ordinary_refl s) sp a n f) len
  exact ⟨⟨fun r _ => by rw [State.reg_advance, reg_pokeWords], hcopies⟩, by simp [SameFcw], hspecials,
    by simp [Passed, State.advance]⟩

/-! ### Loading the low byte of the FCW (R417, U1) -/

theorem getLsbD_lowByte (w : Word) {i : Nat} (hi : i < 8) : (lowByte w).getLsbD i = w.getLsbD i := by
  simp [lowByte, hi]

/-- FCW[7:2] are as given, and a reserved bit given as 0 is 0. -/
theorem writeFlagsByte_low (v : Byte) :
    (∀ i, 2 ≤ i → i < 8 → (s.writeFlagsByte v).fcw.getLsbD i = v.getLsbD i)
      ∧ ∀ i, i < 2 → v.getLsbD i = false → (s.writeFlagsByte v).fcw.getLsbD i = false := by
  have hv : ∀ i < 8, (v.setWidth 16).getLsbD i = v.getLsbD i := fun i hi => by
    simp [show i < 16 by omega]
  have hlow : ∀ i < 8, (s.writeFlagsByte v).fcw.getLsbD i = (s.reserved 0x0003 (v.setWidth 16)).getLsbD i := by
    intro i hi
    rw [← getLsbD_lowByte _ hi, ← getLsbD_lowByte (s.reserved 0x0003 (v.setWidth 16)) hi]
    exact congrArg (BitVec.getLsbD · i) (lowByte_append _ _)
  refine ⟨fun i h2 hi => ?_, fun i hi h0 => ?_⟩
  · have hmask : ∀ i < 8, 2 ≤ i → (0x0003 : Word).getLsbD i = false := by decide
    rw [hlow i hi, (s.getLsbD_reserved _ _ i).1 (hmask i hi h2), hv i hi]
  · rw [hlow i (by omega), (s.getLsbD_reserved _ _ i).2 (by rw [hv i (by omega), h0])]

theorem sameFcw_of_highByte {t : State} (h : t.fcw.extractLsb' 8 8 = s.fcw.extractLsb' 8 8) : SameFcw s t 0x00FF := by
  refine BitVec.eq_of_getLsbD_eq fun i hi => ?_
  rcases Nat.lt_or_ge i 8 with h8 | h8
  · have hmask : ∀ i < 8, (0x00FF : Word).getLsbD i = true := by decide
    simp only [BitVec.getLsbD_and, BitVec.getLsbD_not, hmask i h8, Bool.not_true, Bool.and_false]
  · simp only [BitVec.getLsbD_and, fcwHigh_getLsbD h h8 hi]

/-- Loading the low byte of the FCW changes nothing else. -/
theorem quietly_writeFlagsByte (v : Byte) : Quietly s (s.writeFlagsByte v) [] 0x00FF := by
  have hord := ordinary_writeFlagsByte (ordinary_refl s) v
  have hreg : (s.writeFlagsByte v).reg = s.reg := State.reg_congr rfl rfl rfl rfl (Ordinary_system hord)
  obtain ⟨hspecials, hhigh, hcopies, -⟩ := hord
  exact ⟨⟨fun r _ => by rw [hreg], hcopies⟩, sameFcw_of_highByte s hhigh, hspecials, fun _ _ => rfl⟩

/-! ### The actions of a unit -/

theorem handOff_internal : Completes (s.handOff .internal) fun t => Frame s t [] 0 2 := ⟨_, rfl, frame_advance s 2⟩

theorem handOff_fromMemory (m : Mem) (n : BitVec 4) (hok : s.accessOk .w (s.memAddr m) = true) :
    Completes (s.handOff (.fromMemory m n)) fun t =>
      EpuTook s t ((List.range (n.toNat + 1)).map fun k =>
          s.peekWord (s.memSpace m) ((s.memAddr m).add (BitVec.ofNat 16 (2 * k))))
        ∧ SameRegs s t [] ∧ SameFcw s t 0 ∧ SameMemory s t ∧ Passed s t 2 :=
  ⟨_, whenAligned_true hok _, epuTake_advance s _ 2⟩

theorem handOff_fromRegs (r : Reg) (n : BitVec 4) :
    Completes (s.handOff (.fromRegs r n)) fun t =>
      EpuTook s t ((List.range (n.toNat + 1)).map fun k => s.reg (r + BitVec.ofNat 4 k))
        ∧ SameRegs s t [] ∧ SameFcw s t 0 ∧ SameMemory s t ∧ Passed s t 2 :=
  ⟨_, rfl, epuTake_advance s _ 2⟩

theorem handOff_toMemory (m : Mem) (n : BitVec 4) (hok : s.accessOk .w (s.memAddr m) = true) :
    Completes (s.handOff (.toMemory m n)) fun t => ∃ w : Nat → Word,
      EpuGave s t (n.toNat + 1) w
        ∧ (Storage s (s.wordCells (s.memSpace m) (s.memAddr m) (n.toNat + 1)) → ∀ k ≤ n.toNat,
            t.peekWord (s.memSpace m) ((s.memAddr m).add (BitVec.ofNat 16 (2 * k))) = w k)
        ∧ SameMemoryBut s t (s.wordCells (s.memSpace m) (s.memAddr m) (n.toNat + 1))
        ∧ SameRegs s t [] ∧ SameFcw s t 0 ∧ Passed s t 2 := by
  have hwords := pokeWords_spec (s.epuGive (n.toNat + 1)) (s.memSpace m) (s.memAddr m) s.epuWord (n.toNat + 1)
  obtain ⟨hregs, hfcw, hspecials, hpassed⟩ :=
    storeFrame_pokeWords (s.epuGive (n.toNat + 1)) (s.memSpace m) (s.memAddr m) (n.toNat + 1) s.epuWord 2
  exact ⟨_, whenAligned_true hok _, s.epuWord, epuGave_of_sameSpecials s hspecials,
    fun hs k hk => hwords.1 hs k (Nat.lt_succ_of_le hk), hwords.2, hregs, hfcw, hpassed⟩

theorem handOff_toRegs (r : Reg) (n : BitVec 4) :
    Completes (s.handOff (.toRegs r n)) fun t => ∃ w : Nat → Word,
      EpuGave s t (n.toNat + 1) w ∧ (∀ k ≤ n.toNat, t.reg (r + BitVec.ofNat 4 k) = w k)
        ∧ SameRegs s t ((List.range (n.toNat + 1)).map fun k => r + BitVec.ofNat 4 k)
        ∧ SameFcw s t 0 ∧ SameMemory s t ∧ Passed s t 2 := by
  have hn := n.isLt
  obtain ⟨hwords, ⟨hregs, hfcw, hspecials, hmem⟩, hpassed⟩ :=
    setRegs_spec (s.epuGive (n.toNat + 1)) r s.epuWord (n.toNat + 1) (by omega)
  refine ⟨_, rfl, s.epuWord, epuGave_of_sameSpecials s hspecials, fun k hk => ?_, hregs, hfcw, hmem,
    passed_trans (m := 0) hpassed (passed_advance _ 2)⟩
  exact hwords k (Nat.lt_succ_of_le hk)

theorem handOff_toFlags :
    Completes (s.handOff .toFlags) fun t => ∃ w : Nat → Word,
      EpuGave s t 1 w ∧ (∀ i, 2 ≤ i → i < 8 → t.fcw.getLsbD i = (w 0).getLsbD i)
        ∧ (∀ i, i < 2 → (w 0).getLsbD i = false → t.fcw.getLsbD i = false)
        ∧ SameRegs s t [] ∧ SameFcw s t 0x00FF ∧ SameMemory s t ∧ Passed s t 2 := by
  obtain ⟨hregs, hfcw, hspecials, hmem⟩ := quietly_writeFlagsByte (s.epuGive 1) (lowByte (s.epuWord 0))
  obtain ⟨hflags, hreserved⟩ := writeFlagsByte_low (s.epuGive 1) (lowByte (s.epuWord 0))
  refine ⟨_, rfl, s.epuWord, epuGave_of_sameSpecials s hspecials, fun i h2 hi => ?_, fun i hi h0 => ?_, hregs, hfcw,
    hmem, rfl, rfl⟩
  · exact (hflags i h2 hi).trans (getLsbD_lowByte _ hi)
  · exact hreserved i hi ((getLsbD_lowByte _ (by omega)).trans h0)

theorem exec_extended_action {op : ExtOp} {e : Byte} {e1 : Word} {act : EpuAction} (hepa : s.epa = true)
    (h : s.epuAction op e e1 = some act) : exec (.extended op e e1) s = s.handOff act := by
  show execExtended op e e1 s = _
  simp only [execExtended, hepa, if_true, h]

/-- Settles O59: the instruction is the handing over to the unit (`exec_extended_action`), and each action does what its
lemma says. -/
theorem extendedInstructionsWithAUnit : Obligations.ExtendedInstructionsWithAUnit := by
  intro s op e e1 hepa run
  have hrun : ∀ {act}, s.epuAction op e e1 = some act → run = s.handOff act := exec_extended_action s hepa
  refine ⟨fun h => ?_, fun m n h hok => ?_, fun r n h => ?_, fun m n h hok => ?_, fun r n h => ?_, fun h => ?_⟩ <;>
    rw [hrun h]
  · exact handOff_internal s
  · exact handOff_fromMemory s m n hok
  · exact handOff_fromRegs s r n
  · exact handOff_toMemory s m n hok
  · exact handOff_toRegs s r n
  · exact handOff_toFlags s

end Sys2Proof.Machine

/-! How many words the decoder reads: as many as the encoding of what it read has, and four words at hand are always
enough. -/

namespace Sys2Proof

/-! ### What a parser reads -/

/-- The answer `p` of a parser on the words `ws`: what it read is a front part of `ws` of at most `most` words, which
with the `used` words before it makes up the size of the result; and `most` words at hand are enough. -/
def Reads {α : Type} (size : α → Nat) (used most : Nat) (ws : List Word) (p : Except DecodeError (α × List Word)) :
    Prop :=
  (∀ x rest, p = .ok (x, rest) → ∃ read, ws = read ++ rest ∧ used + read.length = size x ∧ read.length ≤ most)
    ∧ (most ≤ ws.length → p ≠ .error .truncated)

variable {α β : Type} {size : α → Nat} {size' : β → Nat} {used most most' : Nat} {ws : List Word}

theorem reads_pure {x : α} (h : size x = used) : Reads size used most ws (pure (x, ws)) := by
  refine ⟨fun y rest hp => ?_, fun _ => nofun⟩
  injection hp with hp
  injection hp with hx hrest
  subst hx hrest
  exact ⟨[], rfl, h.symm, Nat.zero_le _⟩

theorem reads_throw {e : DecodeError} (h : e ≠ .truncated) : Reads size used most ws (throw e) := by
  refine ⟨fun _ _ => nofun, fun _ hp => ?_⟩
  injection hp with hp
  exact h hp

theorem reads_mono {p : Except DecodeError (α × List Word)} (h : Reads size used most ws p) (hm : most ≤ most') :
    Reads size used most' ws p := by
  refine ⟨fun x rest hp => ?_, fun hw => h.2 (Nat.le_trans hm hw)⟩
  obtain ⟨read, hws, hsize, hmost⟩ := h.1 x rest hp
  exact ⟨read, hws, hsize, Nat.le_trans hmost hm⟩

/-- One parser after another. -/
theorem reads_bind {p : Except DecodeError (α × List Word)} {f : α × List Word → Except DecodeError (β × List Word)}
    (hp : Reads size 0 most ws p) (hf : ∀ x ws, Reads size' (used + size x) most' ws (f (x, ws))) :
    Reads size' used (most + most') ws (p >>= f) := by
  match hres : p with
  | .error e =>
    refine ⟨fun _ _ => nofun, fun hw hp' => hp.2 (by omega) ?_⟩
    injection hp' with he
    rw [he]
  | .ok (x, rest) =>
    obtain ⟨read, rfl, hsize, hmost⟩ := hp.1 x rest rfl
    refine ⟨fun y rest' hf' => ?_, fun hw => (hf x rest).2 ?_⟩
    · obtain ⟨read', rfl, hsize', hmost'⟩ := (hf x rest).1 y rest' hf'
      exact ⟨read ++ read', by rw [List.append_assoc], by rw [List.length_append]; omega,
        by rw [List.length_append]; omega⟩
    · rw [List.length_append] at hw
      omega

/-- A result made from what one parser read. -/
theorem reads_map {p : Except DecodeError (α × List Word)} {f : α × List Word → β} (hp : Reads size 0 most ws p)
    (hf : ∀ x ws, size' (f (x, ws)) = used + size x) :
    Reads size' used most ws (p >>= fun q => pure (f q, q.2)) :=
  reads_bind (most' := 0) hp fun x ws => reads_pure (hf x ws)

/-! ### The operand words (R115, R122, R125, R126) -/

variable {seg : Bool}

/-- How many words a direct address has at most (R122). -/
def addrMost (seg : Bool) : Nat := if seg then 2 else 1

theorem one_le_addrMost : 1 ≤ addrMost seg := by cases seg <;> decide

theorem reads_parseWord (ws : List Word) : Reads (fun _ => 1) 0 1 ws (parseWord ws) := by
  cases ws with
  | nil => exact ⟨fun _ _ => nofun, fun h => absurd h (by decide)⟩
  | cons w ws =>
    refine ⟨fun x rest hp => ?_, fun _ => nofun⟩
    injection hp with hp
    injection hp with _ hrest
    subst hrest
    exact ⟨[w], rfl, rfl, Nat.le_refl _⟩

theorem reads_parseImm (z : Size) (ws : List Word) :
    Reads (fun v => (immWords z v).length) 0 (if z = .l then 2 else 1) ws (parseImm z ws) := by
  cases z with
  | b => exact reads_map (reads_parseWord ws) fun _ _ => rfl
  | w => exact reads_parseWord ws
  | l =>
    exact reads_bind (most' := 1) (reads_parseWord ws) fun _ ws => reads_map (reads_parseWord ws) fun _ _ => rfl

theorem reads_parseAddr (ws : List Word) :
    Reads (fun a => a.words.length) 0 (addrMost seg) ws (parseAddr seg ws) := by
  cases seg with
  | false => exact reads_map (reads_parseWord ws) fun _ _ => rfl
  | true =>
    refine reads_bind (most' := 1) (reads_parseWord ws) fun w ws => ?_
    dsimp only
    rw [if_neg (by decide : ¬(!true) = true)]
    split
    · exact reads_pure rfl
    · split
      · exact reads_throw (by decide)
      · exact reads_map (reads_parseWord ws) fun _ _ => rfl

/-- A second word some of whose bits must be zero (R126). -/
theorem reads_checkedWord {zero : Word → Prop} [DecidablePred zero] {f : Word → α} (ws : List Word) :
    Reads (fun _ => 1) 0 1 ws
      (parseWord ws >>= fun q => if zero q.1 then pure (f q.1, q.2) else throw .mustBeZero) := by
  refine reads_bind (most' := 0) (reads_parseWord ws) fun w ws => ?_
  dsimp only
  split
  · exact reads_pure rfl
  · exact reads_throw (by decide)

theorem reads_parseRegWord (ws : List Word) : Reads (fun _ => 1) 0 1 ws (parseRegWord ws) :=
  reads_checkedWord (zero := fun w => fieldTop w = 0 ∧ lowByte w = 0) ws

theorem reads_parseLdmWord (ws : List Word) : Reads (fun _ => 1) 0 1 ws (parseLdmWord ws) :=
  reads_checkedWord (zero := fun w => fieldTop w = 0 ∧ fieldA w = 0) (f := fun w => (fieldX w, fieldB w)) ws

theorem reads_parseBlockWord (ws : List Word) : Reads (fun _ => 1) 0 1 ws (parseBlockWord ws) :=
  reads_checkedWord (zero := fun w => fieldTop w = 0) (f := fun w => (fieldX w, fieldA w, fieldB w)) ws

theorem reads_parseMem (mode : BitVec 2) (r : Reg) (ws : List Word) :
    Reads (fun m => m.words.length) 0 (addrMost seg) ws (parseMem seg mode r ws) := by
  unfold parseMem
  split
  · exact reads_pure rfl
  · refine reads_map (reads_parseAddr ws) fun a ws => ?_
    dsimp only
    split <;> exact (Nat.zero_add _).symm

theorem reads_parseDst (mode : BitVec 2) (r : Reg) (ws : List Word) :
    Reads (fun d => d.words.length) 0 (addrMost seg) ws (parseDst seg mode r ws) := by
  unfold parseDst
  split
  · exact reads_pure rfl
  · exact reads_map (reads_parseMem mode r ws) fun _ _ => (Nat.zero_add _).symm

theorem reads_parseSrc (z : Size) (mode : BitVec 2) (r : Reg) (ws : List Word) :
    Reads (fun src => src.words.length) 0 (addrMost seg + 1) ws (parseSrc z seg mode r ws) := by
  have hone := one_le_addrMost (seg := seg)
  unfold parseSrc
  split
  · exact reads_pure rfl
  · split
    · refine reads_mono (reads_map (reads_parseImm z ws) fun _ _ => (Nat.zero_add _).symm) ?_
      split <;> omega
    · exact reads_mono (reads_map (reads_parseMem mode r ws) fun _ _ => (Nat.zero_add _).symm) (Nat.le_succ _)

/-! ### The instructions of one shape -/

/-- What the decoder reads after the first word makes up the instruction's encoding, and is at most a direct address and
one word more. -/
abbrev ReadsInstr (seg : Bool) (ws : List Word) (p : Except DecodeError (Instr × List Word)) : Prop :=
  Reads (fun i => (encode i).length) 1 (addrMost seg + 1) ws p

theorem readsInstr_unassigned : ReadsInstr seg ws (throw .unassigned) := reads_throw (by decide)

theorem readsInstr_oneWord {i : Instr} (h : (encode i).length = 1) : ReadsInstr seg ws (pure (i, ws)) := reads_pure h

/-- An instruction with one more word. -/
theorem readsInstr_twoWords {p : Except DecodeError (α × List Word)} {f : α × List Word → Instr}
    (hp : Reads (fun _ => 1) 0 1 ws p) (hf : ∀ q, (encode (f q)).length = 2) :
    ReadsInstr seg ws (p >>= fun q => pure (f q, q.2)) :=
  reads_mono (reads_map hp fun _ _ => hf _) (Nat.le_add_left _ _)

theorem readsInstr_dst {f : Dst × List Word → Instr} (mode : BitVec 2) (r : Reg)
    (hf : ∀ d ws, (encode (f (d, ws))).length = d.words.length + 1) :
    ReadsInstr seg ws (parseDst seg mode r ws >>= fun q => pure (f q, q.2)) :=
  reads_mono (reads_map (reads_parseDst mode r ws) fun _ _ => (hf _ _).trans (Nat.add_comm _ _)) (Nat.le_succ _)

theorem readsInstr_mem {f : Mem × List Word → Instr} (mode : BitVec 2) (r : Reg)
    (hf : ∀ m ws, (encode (f (m, ws))).length = m.words.length + 1) :
    ReadsInstr seg ws (parseMem seg mode r ws >>= fun q => pure (f q, q.2)) :=
  reads_mono (reads_map (reads_parseMem mode r ws) fun _ _ => (hf _ _).trans (Nat.add_comm _ _)) (Nat.le_succ _)

theorem readsInstr_oneOp {make : Dst → Instr} (mode : BitVec 2) (a : Reg)
    (h : ∀ d, (encode (make d)).length = d.words.length + 1) : ReadsInstr seg ws (oneOp make seg mode a ws) :=
  readsInstr_dst mode a fun d _ => h d

theorem readsInstr_oneMem {make : Mem → Instr} (mode : BitVec 2) (a : Reg)
    (h : ∀ m, (encode (make m)).length = m.words.length + 1) : ReadsInstr seg ws (oneMem make seg mode a ws) :=
  readsInstr_mem mode a fun m _ => h m

theorem readsInstr_ldStore {z : Size} {make : LdArgs z → Instr} (mode : BitVec 2) (a s : Reg)
    (h : ∀ m, (encode (make (.store (.mem m) s))).length = m.words.length + 1) :
    ReadsInstr seg ws (ldStore make seg mode a s ws) :=
  readsInstr_mem mode a fun m _ => h m

theorem length_encMem_imm {op : BitVec 6} {m : Mem} {b : BitVec 4} {z : Size} {v : BitVec z.bits} :
    (encMem op m b ++ immWords z v).length = 1 + m.words.length + (immWords z v).length := by
  rw [List.length_append, encMem, List.length_cons, Nat.add_comm 1]

/-- There is no long immediate beside a memory operand (R125). -/
theorem readsInstr_memImm {z : Size} {make : Mem → BitVec z.bits → Instr} (hz : z ≠ .l) (mode : BitVec 2) (a : Reg)
    (h : ∀ m v, (encode (make m v)).length = 1 + m.words.length + (immWords z v).length) :
    ReadsInstr seg ws (memImm z make seg mode a ws) := by
  refine reads_bind (reads_parseMem mode a ws) fun m ws => ?_
  have himm := reads_parseImm z ws
  rw [if_neg hz] at himm
  exact reads_map himm fun v _ => h m v

theorem readsInstr_parseLdm (dir : Dir) (mode : BitVec 2) (a : Reg) :
    ReadsInstr seg ws (parseLdm dir seg mode a ws) := by
  rw [ReadsInstr, Nat.add_comm]
  refine reads_bind (reads_parseLdmWord ws) fun (r, n) ws => reads_map (reads_parseMem mode a ws) fun m _ => ?_
  have hlen : (encode (.ldm dir m r n)).length = m.words.length + 1 + 1 := by cases dir <;> rfl
  exact hlen.trans (by omega)

theorem readsInstr_parseBit {make : BitArgs → Instr} (mode : BitVec 2) (a b : BitVec 4)
    (hdynamic : ∀ d, (encode (make (.dynamic d b))).length = 2)
    (hstatic : ∀ d, (encode (make (.static d b))).length = d.words.length + 1) :
    ReadsInstr seg ws (parseBit make seg mode a b ws) := by
  unfold parseBit
  split
  · exact readsInstr_twoWords (reads_parseRegWord ws) fun q => hdynamic q.1
  · exact readsInstr_dst mode a fun d _ => hstatic d

theorem readsInstr_parseDisp {ba : Reg → Word → Instr} {ra : Word → Instr} (a : Reg)
    (hba : ∀ n, (encode (ba a n)).length = 2) (hra : ∀ n, (encode (ra n)).length = 2) :
    ReadsInstr seg ws (parseDisp ba ra a ws) := by
  refine readsInstr_twoWords (reads_parseWord ws) fun q => ?_
  split
  · exact hra q.1
  · exact hba q.1

theorem readsInstr_parseBx {make : XMem → Instr} (a : Reg) (h : ∀ x, (encode (make (.bx a x))).length = 2) :
    ReadsInstr seg ws (parseBx make a ws) :=
  readsInstr_twoWords (reads_parseRegWord ws) fun q => h q.1

theorem readsInstr_parseExt (op : ExtOp) (a b : BitVec 4) : ReadsInstr seg ws (parseExt op a b ws) :=
  readsInstr_twoWords (reads_parseWord ws) fun _ => rfl

theorem readsInstr_parsePort {make : Word → Instr} (h : ∀ p, (encode (make p)).length = 2) :
    ReadsInstr seg ws (parsePort make ws) :=
  readsInstr_twoWords (reads_parseWord ws) fun q => h q.1

theorem readsInstr_parseShift {left right : Reg → Word → Instr} (d : Reg) (hleft : ∀ k, (encode (left d k)).length = 2)
    (hright : ∀ k, (encode (right d k)).length = 2) : ReadsInstr seg ws (parseShift left right d ws) := by
  refine readsInstr_twoWords (reads_parseWord ws) fun q => ?_
  split
  · exact hright q.1
  · exact hleft q.1

theorem readsInstr_parseDynShift {make : Reg → Reg → Instr} (d : Reg) (h : ∀ s, (encode (make d s)).length = 2) :
    ReadsInstr seg ws (parseDynShift make d ws) :=
  readsInstr_twoWords (reads_parseRegWord ws) fun q => h q.1

theorem readsInstr_parseCompare {make : Reg → Reg → Reg → Cond → Instr} (s : Reg)
    (h : ∀ r d c, (encode (make s r d c)).length = 2) : ReadsInstr seg ws (parseCompare make s ws) :=
  readsInstr_twoWords (reads_parseBlockWord ws) fun q => h q.1.1 q.1.2.1 (.ofBits q.1.2.2)

/-- A block instruction whose second word ends in a fixed field. -/
theorem readsInstr_parseBlockIo {single rep : Reg → Reg → Reg → Instr} (s : Reg)
    (hsingle : ∀ r d, (encode (single s r d)).length = 2) (hrep : ∀ r d, (encode (rep s r d)).length = 2) :
    ReadsInstr seg ws (parseBlockIo single rep s ws) := by
  rw [ReadsInstr, Nat.add_comm]
  refine reads_bind (reads_parseBlockWord ws) fun (r, d, e) ws => ?_
  dsimp only
  split
  · exact reads_pure (hsingle r d)
  · split
    · exact reads_pure (hrep r d)
    · exact reads_throw (by decide)

theorem readsInstr_parseTranslate {make : Reg → Reg → Reg → Instr} (tail : BitVec 4) (d : Reg)
    (h : ∀ r s, (encode (make d r s)).length = 2) : ReadsInstr seg ws (parseTranslate make tail d ws) := by
  rw [ReadsInstr, Nat.add_comm]
  refine reads_bind (reads_parseBlockWord ws) fun (r, s, e) ws => ?_
  dsimp only
  split
  · exact reads_pure (h r s)
  · exact reads_throw (by decide)

/-! ### The opcode map (R131, R132) -/

theorem readsInstr_ite {c : Prop} [Decidable c] {p q : Except DecodeError (Instr × List Word)}
    (hp : ReadsInstr seg ws p) (hq : ReadsInstr seg ws q) : ReadsInstr seg ws (if c then p else q) := by
  split
  · exact hp
  · exact hq

/-- A word that is assigned only where its fixed fields are as they must be (R131). -/
theorem readsInstr_guard {c : Prop} [Decidable c] {p : Except DecodeError (Instr × List Word)}
    (h : ReadsInstr seg ws p) : ReadsInstr seg ws (if c then p else throw .unassigned) :=
  readsInstr_ite h readsInstr_unassigned

theorem readsInstr_group0C (mode : BitVec 2) (a b : BitVec 4) : ReadsInstr seg ws (group0C seg mode a b ws) := by
  unfold group0C
  split
  case h_1 | h_3 | h_4 | h_6 | h_7 => exact readsInstr_oneOp mode a fun _ => rfl
  case h_2 =>
    exact readsInstr_ite (readsInstr_oneWord rfl) (readsInstr_memImm (by decide) mode a fun _ _ => length_encMem_imm)
  case h_5 =>
    exact readsInstr_ite readsInstr_unassigned (readsInstr_memImm (by decide) mode a fun _ _ => length_encMem_imm)
  case h_8 => exact readsInstr_guard (readsInstr_oneWord rfl)
  case h_9 => exact readsInstr_unassigned

theorem readsInstr_group0D (mode : BitVec 2) (a b : BitVec 4) : ReadsInstr seg ws (group0D seg mode a b ws) := by
  unfold group0D
  split
  case h_1 | h_3 | h_5 | h_7 | h_9 => exact readsInstr_oneOp mode a fun _ => rfl
  case h_2 | h_6 =>
    exact readsInstr_ite (readsInstr_oneWord rfl) (readsInstr_memImm (by decide) mode a fun _ _ => length_encMem_imm)
  case h_4 | h_8 => exact readsInstr_guard (readsInstr_oneWord rfl)
  case h_10 => exact readsInstr_guard (readsInstr_twoWords (reads_parseWord ws) fun _ => rfl)
  case h_11 => exact readsInstr_unassigned

theorem readsInstr_group1C (mode : BitVec 2) (a b : BitVec 4) : ReadsInstr seg ws (group1C seg mode a b ws) := by
  unfold group1C
  split
  case h_1 => exact readsInstr_ite readsInstr_unassigned (readsInstr_parseLdm .load mode a)
  case h_2 => exact readsInstr_oneOp mode a fun _ => rfl
  case h_3 => exact readsInstr_ite readsInstr_unassigned (readsInstr_parseLdm .store mode a)
  case h_4 => exact readsInstr_unassigned

theorem readsInstr_decodeDst (mode : BitVec 2) (op : BitVec 6) (a b : BitVec 4)
    {p : Except DecodeError (Instr × List Word)} (h : decodeDst seg mode op a b ws = some p) : ReadsInstr seg ws p := by
  unfold decodeDst at h
  split at h <;> cases h
  case h_1 => exact readsInstr_group0C mode a b
  case h_2 => exact readsInstr_group0D mode a b
  case h_3 | h_5 | h_6 => exact readsInstr_dst mode b fun _ _ => rfl
  case h_4 => exact readsInstr_dst mode b fun d _ => by cases d <;> rfl
  case h_7 => exact readsInstr_group1C mode a b
  case h_8 | h_9 | h_10 | h_11 | h_12 | h_13 =>
    exact readsInstr_parseBit mode a b (fun _ => rfl) fun _ => rfl
  all_goals exact readsInstr_oneOp mode a fun _ => rfl

theorem readsInstr_group3A (a b : BitVec 4) : ReadsInstr seg ws (group3A a b ws) := by
  unfold group3A
  split
  case h_5 | h_6 | h_7 | h_8 => exact readsInstr_parsePort fun _ => rfl
  case h_13 => exact readsInstr_unassigned
  all_goals exact readsInstr_parseBlockIo a (fun _ _ => rfl) fun _ _ => rfl

theorem readsInstr_group3B (a b : BitVec 4) : ReadsInstr seg ws (group3B a b ws) := by
  unfold group3B
  split
  case h_5 | h_6 | h_7 | h_8 => exact readsInstr_parsePort fun _ => rfl
  case h_13 => exact readsInstr_unassigned
  all_goals exact readsInstr_parseBlockIo a (fun _ _ => rfl) fun _ _ => rfl

theorem readsInstr_decodeMode0 (op : BitVec 6) (a b : BitVec 4) : ReadsInstr seg ws (decodeMode0 seg op a b ws) := by
  unfold decodeMode0
  split
  case h_1 | h_2 => exact readsInstr_parseExt _ a b
  case h_3 | h_6 | h_7 => exact readsInstr_ldStore modeIr a b fun _ => rfl
  case h_5 | h_15 => exact readsInstr_guard (readsInstr_oneWord rfl)
  case h_8 | h_9 | h_10 | h_11 | h_12 | h_13 | h_14 =>
    exact readsInstr_parseDisp a (fun _ => rfl) fun _ => rfl
  case h_16 => exact readsInstr_group3A a b
  case h_17 => exact readsInstr_group3B a b
  case h_4 | h_18 | h_19 | h_20 | h_21 => exact readsInstr_oneWord rfl
  case h_22 => exact readsInstr_unassigned

theorem readsInstr_decodeMode1 (op : BitVec 6) (a b : BitVec 4) : ReadsInstr seg ws (decodeMode1 seg op a b ws) := by
  unfold decodeMode1
  split
  case h_1 | h_2 => exact readsInstr_parseExt _ a b
  case h_3 | h_6 | h_7 => exact readsInstr_ldStore modeDa a b fun _ => rfl
  case h_4 | h_14 => exact readsInstr_oneMem modeDa a fun _ => rfl
  case h_5 | h_16 => exact readsInstr_guard (readsInstr_oneMem modeDa a fun _ => rfl)
  case h_8 | h_9 | h_10 | h_11 | h_12 | h_13 | h_15 => exact readsInstr_parseBx a fun _ => rfl
  case h_17 => exact readsInstr_guard (readsInstr_oneWord rfl)
  case h_18 =>
    split
    case h_5 => exact readsInstr_oneWord rfl
    case h_6 => exact readsInstr_unassigned
    all_goals exact readsInstr_guard (readsInstr_oneWord rfl)
  case h_19 =>
    refine readsInstr_ite readsInstr_unassigned ?_
    split
    case h_1 | h_2 => exact readsInstr_oneWord rfl
    case h_3 => exact readsInstr_unassigned
  case h_20 =>
    split
    · exact readsInstr_oneWord rfl
    · exact readsInstr_unassigned
  case h_21 => exact readsInstr_oneWord rfl
  case h_22 => exact readsInstr_unassigned

theorem readsInstr_groupB2 (a b : BitVec 4) : ReadsInstr seg ws (groupB2 a b ws) := by
  unfold groupB2
  split
  case h_2 | h_8 => exact readsInstr_parseShift a (fun _ => rfl) fun _ => rfl
  case h_4 | h_10 => exact readsInstr_parseDynShift a fun _ => rfl
  case h_13 => exact readsInstr_unassigned
  all_goals exact readsInstr_oneWord rfl

theorem readsInstr_groupB3 (a b : BitVec 4) : ReadsInstr seg ws (groupB3 a b ws) := by
  unfold groupB3
  split
  case h_2 | h_6 | h_10 | h_14 => exact readsInstr_parseShift a (fun _ => rfl) fun _ => rfl
  case h_4 | h_8 | h_12 | h_16 => exact readsInstr_parseDynShift a fun _ => rfl
  all_goals exact readsInstr_oneWord rfl

theorem readsInstr_groupB8 (a b : BitVec 4) : ReadsInstr seg ws (groupB8 a b ws) := by
  unfold groupB8
  split
  case h_9 => exact readsInstr_unassigned
  all_goals exact readsInstr_parseTranslate _ a fun _ _ => rfl

theorem readsInstr_groupBA (a b : BitVec 4) : ReadsInstr seg ws (groupBA a b ws) := by
  unfold groupBA
  split
  case h_2 | h_7 => exact readsInstr_parseBlockIo a (fun _ _ => rfl) fun _ _ => rfl
  case h_11 => exact readsInstr_unassigned
  all_goals exact readsInstr_parseCompare a fun _ _ _ => rfl

theorem readsInstr_groupBB (a b : BitVec 4) : ReadsInstr seg ws (groupBB a b ws) := by
  unfold groupBB
  split
  case h_2 | h_7 => exact readsInstr_parseBlockIo a (fun _ _ => rfl) fun _ _ => rfl
  case h_11 => exact readsInstr_unassigned
  all_goals exact readsInstr_parseCompare a fun _ _ _ => rfl

theorem readsInstr_decodeMode2 (op : BitVec 6) (a b : BitVec 4) : ReadsInstr seg ws (decodeMode2 op a b ws) := by
  unfold decodeMode2
  split
  case h_1 | h_2 => exact readsInstr_parseExt _ a b
  case h_3 | h_6 => exact readsInstr_guard (readsInstr_oneWord rfl)
  case h_7 =>
    split
    case h_4 => exact readsInstr_unassigned
    all_goals exact readsInstr_oneWord rfl
  case h_8 => exact readsInstr_groupB2 a b
  case h_9 => exact readsInstr_groupB3 a b
  case h_14 => exact readsInstr_groupB8 a b
  case h_15 => exact readsInstr_groupBA a b
  case h_16 => exact readsInstr_groupBB a b
  case h_20 => exact readsInstr_unassigned
  all_goals exact readsInstr_oneWord rfl

theorem readsInstr_decodeCompact (w : Word) : ReadsInstr seg ws (decodeCompact w ws) := by
  unfold decodeCompact
  split
  case h_4 => exact readsInstr_oneWord (by split <;> rfl)
  all_goals exact readsInstr_oneWord rfl

/-- A two-operand instruction has one word more than its source. -/
theorem length_encode_twoOp {op : BitVec 6} {t : TwoOp} (h : twoOp op = some t) (d : Reg) (src : Src t.z) :
    (encode (t.make d src)).length = src.words.length + 1 := by
  unfold twoOp at h
  split at h <;> cases h
  case h_15 | h_21 | h_22 => cases src <;> rfl
  all_goals rfl

theorem readsInstr_decode (w : Word) : ReadsInstr seg ws (decode seg (w :: ws)) := by
  unfold decode
  dsimp only
  split
  · exact readsInstr_decodeCompact w
  · split
    · next t ht =>
      exact reads_map (reads_parseSrc t.z _ _ ws) fun src _ =>
        (length_encode_twoOp ht _ src).trans (Nat.add_comm _ _)
    · split
      · next p hp => exact readsInstr_decodeDst _ _ _ _ hp
      · split
        · exact readsInstr_decodeMode0 _ _ _
        · split
          · exact readsInstr_decodeMode1 _ _ _
          · exact readsInstr_decodeMode2 _ _ _

/-- Settles O11: the first word, then what `readsInstr_decode` says of the words after it. -/
theorem instructionsAreOneToFourWords : Obligations.InstructionsAreOneToFourWords := by
  intro seg ws
  cases ws with
  | nil => exact ⟨fun _ _ => nofun, fun h => absurd h (by decide)⟩
  | cons w ws =>
    have hmost : addrMost seg + 1 ≤ 3 ∧ (seg = false → addrMost seg + 1 ≤ 2) := by cases seg <;> decide
    obtain ⟨hread, hwords⟩ := readsInstr_decode (seg := seg) (ws := ws) w
    refine ⟨fun i rest h => ?_, fun h => hwords ?_⟩
    · obtain ⟨read, hws, hlen, hle⟩ := hread i rest h
      have hlen : 1 + read.length = (encode i).length := hlen
      refine ⟨w :: read, by rw [hws, List.cons_append], by rw [List.length_cons]; omega, ?_⟩
      simp only [List.length_cons]
      exact ⟨by omega, by omega, fun hseg => by have := hmost.2 hseg; omega⟩
    · rw [List.length_cons] at h
      omega

end Sys2Proof

/-! Load and exchange instructions: loads and stores, addresses and constants, several words, CLR, COM and NEG,
exchanges, and the stack. -/

namespace Sys2Proof.Machine

variable {s t u : State}

/-! ### Frames -/

theorem sameRegs_mono {rs qs : List Reg} (h : SameRegs s t rs) (hsub : rs ⊆ qs) : SameRegs s t qs :=
  ⟨fun r hr => h.1 r fun hin => hr (hsub hin), h.2⟩

theorem quietly_mono {rs qs : List Reg} {mask : Word} (h : Quietly s t rs mask) (hsub : rs ⊆ qs) :
    Quietly s t qs mask :=
  ⟨sameRegs_mono h.1 hsub, h.2⟩

/-- Operations that leave the program counter may come before those that pass on. -/
theorem passed_after {n : Nat} (h : Passed s t 0) (g : Passed t u n) : Passed s u n := by
  simpa using passed_trans h g

/-- An instruction that changes registers and then passes on. -/
theorem frame_advance_of_quietly {rs : List Reg} (h : Quietly s t rs 0) (hp : Passed s t 0) (n : Nat) :
    Frame s (t.advance n) rs 0 n :=
  ⟨by simpa using quietly_trans h (quietly_advance t n), passed_after hp (passed_advance t n)⟩

theorem storeFrame_of_frame {rs : List Reg} {mask : Word} {n : Nat} (h : Frame s t rs mask n) :
    StoreFrame s t rs mask n := by
  obtain ⟨⟨hregs, hfcw, hspecials, -⟩, hpassed⟩ := h
  exact ⟨hregs, hfcw, hspecials, hpassed⟩

theorem storeFrame_after {rs qs : List Reg} {mask : Word} {n : Nat} (h : StoreFrame s t rs mask 0)
    (g : StoreFrame t u qs mask n) : StoreFrame s u (rs ++ qs) mask n := by
  obtain ⟨hregs, hfcw, hspecials, hpassed⟩ := h
  obtain ⟨gregs, gfcw, gspecials, gpassed⟩ := g
  exact ⟨sameRegs_trans hregs gregs, sameFcw_trans hfcw gfcw, sameSpecials_trans hspecials gspecials,
    passed_after hpassed gpassed⟩

/-- What a store leaves is what it leaves of the state before registers were changed. -/
theorem holdsMem_of_quietly {rs : List Reg} {mask : Word} {z : Size} {sp : Space} {a : Addr} {v : BitVec z.bits}
    (h : Quietly s t rs mask) (g : HoldsMem t u z sp a v) : HoldsMem s u z sp a v := by
  obtain ⟨-, -, ⟨⟨hplatform, -⟩, -⟩, hmem⟩ := h
  have hcells := cells_congr s hplatform
  have hcell : t.cell = s.cell := State.cell_congr hplatform
  refine ⟨fun hp => g.1 ?_, fun sp' a' hn => ?_⟩
  · rw [Present, hcells]
    exact (storage_congr s hplatform).mpr hp
  · rw [g.2 sp' a' (by rwa [hcell, hcells]), hmem sp' a']

variable (s)

/-- Writing a register operand changes nothing else. -/
theorem quietly_setRegOf (z : Size) (r : Reg) (v : BitVec z.bits) : Quietly s (s.setRegOf z r v) (wordRegs z r) 0 :=
  ⟨⟨fun _ hq => s.reg_setRegOf_other hq v, by simp⟩, by simp [SameFcw], by simp [SameSpecials, SameInternals],
    fun _ _ => by simp⟩

theorem passed_setRegOf (z : Size) (r : Reg) (v : BitVec z.bits) : Passed s (s.setRegOf z r v) 0 := by simp [Passed]

theorem advance_zero : s.advance 0 = s := by simp [State.advance]

/-- A store changes neither registers nor flags, and does not move the program counter. -/
theorem storeFrame_poke_zero (z : Size) (sp : Space) (a : Addr) (v : BitVec z.bits) :
    StoreFrame s (s.poke z sp a v) [] 0 0 := by
  have h := storeFrame_poke_only s z sp a v 0
  rwa [advance_zero] at h

/-! ### Loads and stores (R153, R158) -/

/-- A memory operand is stored and the instruction passes on. -/
theorem stores (z : Size) (sp : Space) (a : Addr) (v : BitVec z.bits) (n : Nat) :
    HoldsMem s ((s.poke z sp a v).advance n) z sp a v ∧ StoreFrame s ((s.poke z sp a v).advance n) [] 0 n :=
  ⟨holdsMem_poke s (by simp), storeFrame_poke_only s z sp a v n⟩

theorem loadClaim_of_ld {z : Size} {make : LdArgs z → Instr} (hexec : ∀ a s, exec (make a) s = s.ld a) :
    LoadClaim make := by
  intro s d
  simp only [hexec]
  exact ⟨fun _ => ⟨_, rfl, writes_reg_only s z d _ _⟩, fun _ => ⟨_, rfl, writes_reg_only s z d _ _⟩,
    fun _ => ⟨_, rfl, writes_reg_only s z d _ _⟩,
    fun _ hok => ⟨_, whenAligned_true hok _, writes_reg_only s z d _ _⟩⟩

theorem storeClaim_of_ld {z : Size} {make : LdArgs z → Instr} (hexec : ∀ a s, exec (make a) s = s.ld a) :
    StoreClaim make := by
  intro s
  simp only [hexec]
  exact ⟨fun _ _ hok => ⟨_, whenAligned_true hok _, stores s z _ _ _ _⟩,
    fun _ _ hok => ⟨_, whenAligned_true hok _, stores s z _ _ _ _⟩⟩

/-- Settles O16: the three sizes are one meaning, `State.ld`, whose load forms each write one register. -/
theorem loadsWriteRegister : Obligations.LoadsWriteRegister :=
  ⟨loadClaim_of_ld fun _ _ => rfl, loadClaim_of_ld fun _ _ => rfl, loadClaim_of_ld fun _ _ => rfl⟩

/-- Settles O17: the store forms of `State.ld` each store one operand. -/
theorem storesWriteMemory : Obligations.StoresWriteMemory :=
  ⟨storeClaim_of_ld fun _ _ => rfl, storeClaim_of_ld fun _ _ => rfl, storeClaim_of_ld fun _ _ => rfl⟩

theorem relAddr_advance_two (disp : Word) : (s.advance 2).relAddr disp = ⟨s.codeSeg, s.pc + 4 + disp⟩ := rfl

theorem relativeClaim_of_ldr {z : Size} {make : Dir → Reg → Word → Instr}
    (hexec : ∀ dir r disp s, exec (make dir r disp) s = s.ldr z dir r disp) : RelativeClaim z make := by
  intro s r disp
  simp only [hexec]
  exact ⟨relAddr_advance_two s disp, fun hok =>
    ⟨⟨_, whenAligned_true hok _, writes_reg_only s z r _ 2⟩, ⟨_, whenAligned_true hok _, stores s z _ _ _ 2⟩⟩⟩

/-- Settles O18: the three sizes are one meaning, `State.ldr`, at the address of `relAddr_advance_two`. -/
theorem relativeLoadsUseProgramMemory : Obligations.RelativeLoadsUseProgramMemory :=
  ⟨relativeClaim_of_ldr fun _ _ _ _ => rfl, relativeClaim_of_ldr fun _ _ _ _ => rfl,
    relativeClaim_of_ldr fun _ _ _ _ => rfl⟩

/-! ### Addresses and constants (R154 to R156) -/

theorem setAddr_nonsegmented (h : s.segmented = false) (d : Reg) (a : Addr) : s.setAddr d a = s.setReg d a.off := by
  simp [State.setAddr, h]

theorem setAddr_segmented (h : s.segmented = true) (d : Reg) (a : Addr) :
    s.setAddr d a = (s.setReg d (s.segWord .ldaSegment a.seg)).setReg (d + 1) a.off := by
  simp [State.setAddr, h]

/-- In nonsegmented mode the register gets the offset. -/
theorem writes_setAddr (h : s.segmented = false) (d : Reg) (a : Addr) (n : Nat) :
    Writes s ((s.setAddr d a).advance n) .w (.reg d) a.off 0 n := by
  rw [setAddr_nonsegmented s h]
  exact writes_reg_only s .w d a.off n

/-- In segmented mode the pair gets the segment and the offset (U8). -/
theorem segmented_setAddr (h : s.segmented = true) (d : Reg) (a : Addr) (n : Nat) :
    let t := (s.setAddr d a).advance n
    segOf (t.reg d) = a.seg ∧ t.reg (d + 1) = a.off ∧ Frame s t [d, d + 1] 0 n := by
  rw [setAddr_segmented s h]
  have hq := quietly_trans (quietly_setRegOf s .w d (s.segWord .ldaSegment a.seg)) (quietly_setRegOf _ .w (d + 1) a.off)
  have hp := passed_after (passed_setRegOf s .w d (s.segWord .ldaSegment a.seg)) (passed_setRegOf _ .w (d + 1) a.off)
  refine ⟨?_, ?_, frame_advance_of_quietly hq hp n⟩
  · rw [State.reg_advance, State.reg_setReg_other _ (reg_succ_ne d).symm, State.reg_setReg_same, segOf_segWord]
  · rw [State.reg_advance, State.reg_setReg_same]

/-- Settles O19: LDA and LDAR put an address in a register as the mode has it (`State.setAddr`), LDK a constant. -/
theorem addressAndConstantLoads : Obligations.AddressAndConstantLoads := fun s d =>
  ⟨fun h => ⟨fun _ => ⟨_, rfl, writes_setAddr s h d _ _⟩, fun _ => ⟨_, rfl, writes_setAddr s h d _ 2⟩⟩,
    fun h => ⟨fun _ => ⟨_, rfl, segmented_setAddr s h d _ _⟩, fun _ => ⟨_, rfl, segmented_setAddr s h d _ 2⟩⟩,
    fun _ => ⟨_, rfl, writes_reg_only s .w d _ 1⟩⟩

/-! ### Several words (R157) -/

/-- Settles O20: `setRegs_spec` for the load, which writes at most sixteen registers, `pokeWords_spec` for the store. -/
theorem loadMultipleMovesRegisters : Obligations.LoadMultipleMovesRegisters := by
  intro s m r n hok
  have hn := n.isLt
  obtain ⟨hwords, hquiet, hpassed⟩ := setRegs_spec s r
    (fun k => s.peekWord (s.memSpace m) ((s.memAddr m).add (BitVec.ofNat 16 (2 * k)))) (n.toNat + 1) (by omega)
  obtain ⟨hstored, hmem⟩ :=
    pokeWords_spec s (s.memSpace m) (s.memAddr m) (fun k => s.reg (r + BitVec.ofNat 4 k)) (n.toNat + 1)
  refine ⟨⟨_, whenAligned_true hok _, fun k hk => ?_, frame_advance_of_quietly hquiet hpassed _⟩,
    ⟨_, whenAligned_true hok _, fun hs k hk => hstored hs k (Nat.lt_succ_of_le hk), hmem,
      storeFrame_pokeWords s _ _ _ _ _⟩⟩
  exact hwords k (Nat.lt_succ_of_le hk)

/-! ### CLR, COM and NEG (R151, R232, R200) -/

/-- An instruction that is `State.modify` with the result `f` of the operand and the flags `g` of the operand and the
old flags. -/
theorem modifyClaim_of_modify {z : Size} {make : Dst → Instr} {f : BitVec z.bits → BitVec z.bits} {mask : Word}
    {post : BitVec z.bits → BitVec z.bits → Flags → Prop} (g : BitVec z.bits → Flags → Flags)
    (hexec : ∀ d s, exec (make d) s = s.modify z d (f (s.dst z d)) (g (s.dst z d) s.flags))
    (hmask : ∀ (s : State) x, SameFcw s (s.setFlags (g x s.flags)) mask) (hpost : ∀ x old, post x (f x) (g x old)) :
    ModifyClaim z make f mask post := by
  intro s d hok
  obtain ⟨hwrites, hflags⟩ :=
    writes_dst s z d (f (s.dst z d)) (g (s.dst z d) s.flags) (1 + d.words.length) mask (hmask s _)
  refine ⟨_, (hexec d s).trans (whenAligned_true hok _), hwrites, ?_⟩
  rw [hflags]
  exact hpost _ _

theorem sameFcw_logicFlags {n : Nat} (r : BitVec n) : SameFcw s (s.setFlags (logicFlags r s.flags)) 0x0060 :=
  sameFcw_setFlags s _ _ (fun _ => rfl) (fun h => absurd h (by decide)) (fun h => absurd h (by decide)) (fun _ => rfl)
    (fun _ => rfl) (fun _ => rfl)

theorem sameFcw_byteLogicFlags (r : Byte) : SameFcw s (s.setFlags (byteLogicFlags r s.flags)) 0x0070 :=
  sameFcw_setFlags s _ _ (fun _ => rfl) (fun h => absurd h (by decide)) (fun h => absurd h (by decide))
    (fun h => absurd h (by decide)) (fun _ => rfl) (fun _ => rfl)

theorem subResult_zero {n : Nat} (x : BitVec n) : subResult 0 x false = -x := by simp [subResult]

theorem msb_and_msb_neg_iff {n : Nat} (hn : 0 < n) (x : BitVec n) :
    x.msb = true ∧ (-x).msb = true ↔ x = BitVec.intMin n := by
  constructor
  · rintro ⟨hx, hneg⟩
    by_contra hmin
    rw [BitVec.msb_neg_of_ne_intMin_of_ne_zero hmin (BitVec.ne_zero_of_msb_true hx), hx] at hneg
    cases hneg
  · rintro rfl
    simp [BitVec.msb_intMin, hn]

/-- The flags of a negation: a borrow unless the operand is 0, an overflow at the most negative number only (R200). -/
theorem subN_neg {n : Nat} (hn : 0 < n) (x : BitVec n) (old : Flags) :
    SubN 0 x false (-x) (subFlags 0 x false old) ∧ ((subFlags 0 x false old).c = true ↔ x ≠ 0)
      ∧ ((subFlags 0 x false old).v = true ↔ x = BitVec.intMin n) := by
  have hsub := subN_sub hn 0 x false old
  rw [subResult_zero] at hsub
  obtain ⟨hr, hc, hv, hzs⟩ := hsub
  refine ⟨⟨hr, hc, hv, hzs⟩, hc.trans ?_, hv.trans ?_⟩
  · show 0 < x.toNat ↔ x ≠ 0
    rw [BitVec.toNat_pos, BitVec.pos_iff_ne_zero]
    rfl
  · simpa using msb_and_msb_neg_iff hn x

/-- NEG and NEGB are one meaning, `State.neg`. -/
theorem modifyClaim_of_neg {z : Size} {make : Dst → Instr} (hz : 0 < z.bits)
    (hexec : ∀ d s, exec (make d) s = s.neg z d) :
    ModifyClaim z make (fun x => -x) flagMask fun x r f =>
      SubN 0 x false r f ∧ (f.c = true ↔ x ≠ 0) ∧ (f.v = true ↔ x = BitVec.intMin z.bits) :=
  modifyClaim_of_modify (subFlags 0 · false) (fun d s => by rw [hexec, State.neg, subResult_zero])
    (fun s _ => sameFcw_setFlags_czsv s _ rfl rfl) (subN_neg hz)

/-- Settles O21: each is `State.modify` with its result and flags. -/
theorem clearComplementNegate : Obligations.ClearComplementNegate :=
  ⟨modifyClaim_of_modify (fun _ old => old) (fun _ _ => rfl) (fun s _ => sameFcw_setFlags_flags s 0)
      (fun _ _ => trivial),
    modifyClaim_of_modify (fun _ old => old) (fun _ _ => rfl) (fun s _ => sameFcw_setFlags_flags s 0)
      (fun _ _ => trivial),
    modifyClaim_of_modify (fun x old => byteLogicFlags (~~~x) old) (fun _ _ => rfl)
      (fun s _ => sameFcw_byteLogicFlags s _) (fun _ old => ⟨zeroSign_byteLogic _ old, evenParity_byteLogic _ old⟩),
    modifyClaim_of_modify (fun x old => logicFlags (~~~x) old) (fun _ _ => rfl) (fun s _ => sameFcw_logicFlags s _)
      (fun _ old => zeroSign_logic _ old),
    modifyClaim_of_neg (by decide) fun _ _ => rfl,
    modifyClaim_of_neg (by decide) fun _ _ => rfl⟩

/-! ### Exchanges (R152) -/

/-- Bytes and words in different registers do not overlap. -/
theorem regOf_setRegOf_other {z : Size} (hz : z ≠ .l) {r q : Reg} (h : q ≠ r) (v : BitVec z.bits) :
    (s.setRegOf z r v).regOf z q = s.regOf z q := by
  cases z with
  | b => simp [State.setRegOf, State.regOf, State.regByte_setRegByte, h]
  | w => exact s.reg_setReg_other h v
  | l => exact absurd rfl hz

/-- An exchange of two registers, a register with itself among them. -/
theorem exchanged_reg {z : Size} (hz : z ≠ .l) (d r : Reg) :
    let t := ((s.setRegOf z r (s.regOf z d)).setRegOf z d (s.regOf z r)).advance 1
    t.regOf z r = s.regOf z d ∧ t.regOf z d = s.regOf z r
      ∧ (z = .b → ∀ k, k ≠ d → k ≠ r → t.regByte k = s.regByte k) ∧ Frame s t (wordRegs z d ++ wordRegs z r) 0 1 := by
  have hq := quietly_trans (quietly_setRegOf s z r (s.regOf z d)) (quietly_setRegOf _ z d (s.regOf z r))
  have hp := passed_after (passed_setRegOf s z r (s.regOf z d)) (passed_setRegOf _ z d (s.regOf z r))
  have hsub : wordRegs z r ++ wordRegs z d ⊆ wordRegs z d ++ wordRegs z r := by simp
  refine ⟨?_, by simp, ?_, frame_advance_of_quietly (quietly_mono hq hsub) hp 1⟩
  · rw [State.regOf_advance]
    rcases eq_or_ne r d with rfl | hne
    · rw [State.regOf_setRegOf]
    · rw [regOf_setRegOf_other _ hz hne, State.regOf_setRegOf]
  · rintro rfl k hkd hkr
    show State.regOf _ .b k = s.regOf .b k
    rw [State.regOf_advance, regOf_setRegOf_other _ hz hkd, regOf_setRegOf_other _ hz hkr]

/-- An exchange of a register with memory: the register is written after the store. -/
theorem exchanged_mem (z : Size) (d : Reg) (sp : Space) (a : Addr) (v w : BitVec z.bits) (n : Nat) :
    let t := ((s.poke z sp a w).setRegOf z d v).advance n
    HoldsReg s t z d v ∧ HoldsMem s t z sp a w ∧ StoreFrame s t (wordRegs z d) 0 n := by
  obtain ⟨⟨hval, hbytes⟩, hframe⟩ := writes_reg_only (s.poke z sp a w) z d v n
  refine ⟨⟨hval, fun hz k hk => ?_⟩, holdsMem_poke s (by simp),
    storeFrame_after (storeFrame_poke_zero s z sp a w) (storeFrame_of_frame hframe)⟩
  rw [hbytes hz k hk, State.regByte_congr (State.reg_poke s z sp a w)]

theorem exchangeClaim_of_exchange {z : Size} {make : Reg → Dst → Instr} (hz : z ≠ .l)
    (hexec : ∀ d src s, exec (make d src) s = s.exchange z d src) : ExchangeClaim z make := by
  intro s d
  simp only [hexec]
  exact ⟨fun r => ⟨_, rfl, exchanged_reg s hz d r⟩,
    fun m hok => ⟨_, whenAligned_true hok _, exchanged_mem s z d _ _ _ _ _⟩⟩

/-- Settles O22: both sizes are one meaning, `State.exchange`, and two bytes or words are one register or do not
overlap, as pairs may. -/
theorem exchangeSwapsOperands : Obligations.ExchangeSwapsOperands :=
  ⟨exchangeClaim_of_exchange (by decide) fun _ _ _ => rfl, exchangeClaim_of_exchange (by decide) fun _ _ _ => rfl⟩

/-! ### The stack (R159, R160) -/

/-- A datum is pushed and the instruction passes on. -/
theorem pushed_push (z : Size) (sp : Reg) (v : BitVec z.bits) (n : Nat) :
    Pushed s ((s.push z sp v).advance n) z sp v ∧ StoreFrame s ((s.push z sp v).advance n) [s.offReg sp] 0 n := by
  obtain ⟨hptr, ⟨hread, hmem⟩, ⟨hregs, hcopies⟩, hspecials⟩ := push_spec s z sp v
  refine ⟨⟨?_, fun hp => ?_, fun sp' a hn => ?_⟩, ⟨fun r hr => ?_, ?_⟩, ?_, hspecials, ?_⟩
  · rw [State.reg_advance, hptr]
  · rw [State.peek_advance, hread hp]
  · rw [State.peekByte_advance, hmem sp' a hn]
  · rw [State.reg_advance, hregs r hr]
  · rw [State.otherCopies_advance, hcopies]
  · simp [SameFcw, State.push]
  · simp [Passed, State.advance, State.push]

theorem stackDatum_of_not_own {z : Size} {sp : Reg} {d : Dst} (h : s.ownStack z sp d = false) (v : BitVec z.bits) :
    s.stackDatum z sp d v = v := by
  simp [State.stackDatum, h]

theorem pushClaim_of_pushFrom {z : Size} {make : Reg → Dst → Instr}
    (hexec : ∀ sp src s, exec (make sp src) s = s.pushFrom z sp src) : PushClaim z make := by
  intro s sp src hsrc hsp
  have hok : (s.dstOk z src && s.accessOk z (s.addrReg sp)) = true := by rw [hsrc, hsp]; rfl
  exact ⟨_, (hexec sp src s).trans (whenAligned_true hok _), _, fun h => stackDatum_of_not_own s h _,
    pushed_push s z sp _ _⟩

/-- A data register that is not part of the stack register does not hold its offset. -/
theorem offReg_not_mem_wordRegs {z : Size} {sp d : Reg} (h : s.ownStack z sp (.reg d) = false) :
    s.offReg sp ∉ wordRegs z d := by
  intro hmem
  simp only [State.ownStack, List.any_eq_false] at h
  exact h _ hmem (by simpa using s.offReg_mem sp)

/-- A pop to a register: the pointer moves, then the register is written, which may be the pointer's own. -/
theorem popped_reg (z : Size) (sp d : Reg) (v : BitVec z.bits) :
    let t := ((s.drop z sp).setRegOf z d v).advance 1
    (s.ownStack z sp (.reg d) = false → t.reg (s.offReg sp) = s.reg (s.offReg sp) + BitVec.ofNat 16 z.bytes)
      ∧ t.regOf z d = v ∧ Frame s t (s.offReg sp :: wordRegs z d) 0 1 := by
  obtain ⟨hptr, hquiet, hpassed⟩ := drop_spec s z sp
  refine ⟨fun h => ?_, by simp, ?_⟩
  · rw [State.reg_advance, State.reg_setRegOf_other _ (offReg_not_mem_wordRegs s h), hptr]
  · exact frame_advance_of_quietly (quietly_trans hquiet (quietly_setRegOf _ z d v))
      (passed_after hpassed (passed_setRegOf _ z d v)) 1

/-- A pop to memory: the pointer moves, then the datum is stored. -/
theorem popped_mem (z : Size) (sp : Reg) (spc : Space) (a : Addr) (v : BitVec z.bits) (n : Nat) :
    let t := ((s.drop z sp).poke z spc a v).advance n
    t.reg (s.offReg sp) = s.reg (s.offReg sp) + BitVec.ofNat 16 z.bytes ∧ HoldsMem s t z spc a v
      ∧ StoreFrame s t [s.offReg sp] 0 n := by
  obtain ⟨hptr, hquiet, hpassed⟩ := drop_spec s z sp
  obtain ⟨hholds, hframe⟩ := stores (s.drop z sp) z spc a v n
  refine ⟨?_, holdsMem_of_quietly hquiet hholds,
    storeFrame_after (storeFrame_of_frame ⟨hquiet, hpassed⟩) hframe⟩
  rw [State.reg_advance, State.reg_poke, hptr]

theorem segmented_drop (z : Size) (r : Reg) : (s.drop z r).segmented = s.segmented := s.segmented_bump r _

theorem memSpace_drop (z : Size) (r : Reg) : (s.drop z r).memSpace = s.memSpace :=
  State.memSpace_congr (segmented_drop s z r) (s.system_bump r _)

theorem accessOk_drop (z : Size) (r : Reg) : (s.drop z r).accessOk = s.accessOk := s.accessOk_bump r _

/-- An operand that is not addressed through the stack register stays where it is when the pointer moves (U7). -/
theorem memAddr_drop {z : Size} {sp : Reg} {m : Mem} (h : s.ownStack z sp (.mem m) = false) :
    (s.drop z sp).memAddr m = s.memAddr m :=
  s.memAddr_eq h (fun q hq => s.reg_bump_other (fun he => hq (by rw [he]; exact s.offReg_mem sp)) _)
    (segmented_drop s z sp) (s.codeSeg_bump sp _)

theorem popClaim_of_popTo {z : Size} {make : Dst → Reg → Instr}
    (hexec : ∀ d sp s, exec (make d sp) s = s.popTo z d sp) : PopClaim z make := by
  intro s sp hsp
  simp only [hexec]
  refine ⟨fun d => ?_, fun m hm => ?_⟩
  · have hok : (s.accessOk z (s.addrReg sp) && (s.drop z sp).dstOk z (.reg d)) = true := by rw [hsp]; rfl
    obtain ⟨hptr, hreg, hframe⟩ := popped_reg s z sp d (s.stackDatum z sp (.reg d) (s.top z sp))
    exact ⟨_, whenAligned_true hok _, _, fun h => ⟨stackDatum_of_not_own s h _, hptr h⟩, hreg, hframe⟩
  · have hok : (s.accessOk z (s.addrReg sp) && (s.drop z sp).dstOk z (.mem m)) = true := by
      rw [hsp, State.dstOk, accessOk_drop, hm]
      rfl
    refine ⟨_, whenAligned_true hok _, _, fun h => ⟨stackDatum_of_not_own s h _, memAddr_drop s h⟩, ?_⟩
    rw [← memSpace_drop s z sp]
    exact popped_mem s z sp _ _ _ _

/-- Settles O23: `State.pushFrom` and `State.popTo` in both sizes, and the push of an immediate. -/
theorem stackTransfers : Obligations.StackTransfers :=
  ⟨pushClaim_of_pushFrom fun _ _ _ => rfl, pushClaim_of_pushFrom fun _ src _ => by cases src <;> rfl,
    popClaim_of_popTo fun _ _ _ => rfl, popClaim_of_popTo fun _ _ _ => rfl,
    fun s sp v hok => ⟨_, whenAligned_true hok _, pushed_push s .w sp v 2⟩⟩

end Sys2Proof.Machine

/-! Arithmetic instructions: the laws of sums, differences, products, quotients and decimal corrections, then the
instructions that leave them in a register and the flags. -/

namespace Sys2Proof.Machine

/-! ### Sums and differences as numbers (R190) -/

/-- Two's complement with half the range `p` named: the top bit and the signed value of a word by its unsigned one. -/
theorem exists_half_range {n : Nat} (hn : 0 < n) :
    ∃ p : Nat, 2 ^ n = 2 * p ∧ ∀ x : BitVec n, x.toNat < 2 * p ∧ x.msb = decide (p ≤ x.toNat)
      ∧ x.toInt = if p ≤ x.toNat then (x.toNat : Int) - (2 * p : Nat) else x.toNat := by
  have hp : 2 ^ n = 2 * 2 ^ (n - 1) := by rw [← Nat.pow_succ', Nat.succ_eq_add_one, Nat.sub_add_cancel hn]
  refine ⟨2 ^ (n - 1), hp, fun x => ⟨hp ▸ x.isLt, x.msb_eq_decide, ?_⟩⟩
  simp only [BitVec.toInt_eq_msb_cond, BitVec.msb_eq_decide, decide_eq_true_eq, ← hp]

variable {n : Nat} {a b r : BitVec n} {cin : Bool} {f : Flags}

/-- A sum is exact, or lies one range below the exact sum. -/
theorem AddN.toNat_cases (h : AddN a b cin r f) :
    r.toNat = a.toNat + b.toNat + cin.toNat ∧ f.c = false
      ∨ r.toNat + 2 ^ n = a.toNat + b.toNat + cin.toNat ∧ f.c = true := by
  obtain ⟨hr, hc, -⟩ := h
  have ha := a.isLt
  have hb := b.isLt
  have hcin := cin.toNat_le
  by_cases hlt : a.toNat + b.toNat + cin.toNat < 2 ^ n
  · exact .inl ⟨hr.trans (Nat.mod_eq_of_lt hlt), by rw [← Bool.not_eq_true, hc]; omega⟩
  · rw [Nat.mod_eq_sub_mod (by omega), Nat.mod_eq_of_lt (by omega)] at hr
    exact .inr ⟨by omega, hc.mpr (by omega)⟩

/-- A difference is exact, or lies one range above the exact difference. -/
theorem SubN.toNat_cases (h : SubN a b cin r f) :
    r.toNat + b.toNat + cin.toNat = a.toNat ∧ f.c = false
      ∨ r.toNat + b.toNat + cin.toNat = a.toNat + 2 ^ n ∧ f.c = true := by
  obtain ⟨hr, hc, -⟩ := h
  have ha := a.isLt
  have hb := b.isLt
  have hcin := cin.toNat_le
  by_cases hlt : a.toNat < b.toNat + cin.toNat
  · rw [Nat.mod_eq_of_lt (by omega)] at hr
    exact .inr ⟨by omega, hc.mpr hlt⟩
  · rw [Nat.mod_eq_sub_mod (by omega), Nat.mod_eq_of_lt (by omega)] at hr
    exact .inl ⟨by omega, by rw [← Bool.not_eq_true, hc]; exact hlt⟩

theorem AddN.carry_iff (h : AddN a b cin r f) : f.c = true ↔ a.toNat + b.toNat + cin.toNat ≠ r.toNat := by
  have hpos := Nat.two_pow_pos n
  obtain ⟨hr, hc⟩ | ⟨hr, hc⟩ := h.toNat_cases <;> rw [hc]
  · simp [hr]
  · exact iff_of_true rfl (by omega)

theorem SubN.borrow_iff (h : SubN a b cin r f) :
    f.c = true ↔ (a.toNat : Int) - b.toNat - cin.toNat ≠ r.toNat := by
  have hpos := Nat.two_pow_pos n
  obtain ⟨hr, hc⟩ | ⟨hr, hc⟩ := h.toNat_cases <;> rw [hc]
  · exact iff_of_false Bool.false_ne_true (by omega)
  · exact iff_of_true rfl (by omega)

theorem AddN.overflow_iff (hn : 0 < n) (h : AddN a b cin r f) :
    f.v = true ↔ a.toInt + b.toInt + cin.toNat ≠ r.toInt := by
  obtain ⟨p, hp, hhalf⟩ := exists_half_range hn
  obtain ⟨hla, hma, hia⟩ := hhalf a
  obtain ⟨hlb, hmb, hib⟩ := hhalf b
  obtain ⟨hlr, hmr, hir⟩ := hhalf r
  have hcin := cin.toNat_le
  have hr := h.toNat_cases
  obtain ⟨-, -, hv, -⟩ := h
  rw [hv, hma, hmb, hmr, hia, hib, hir, Ne, decide_eq_decide, decide_eq_decide]
  rw [hp] at hr
  omega

theorem SubN.overflow_iff (hn : 0 < n) (h : SubN a b cin r f) :
    f.v = true ↔ a.toInt - b.toInt - cin.toNat ≠ r.toInt := by
  obtain ⟨p, hp, hhalf⟩ := exists_half_range hn
  obtain ⟨hla, hma, hia⟩ := hhalf a
  obtain ⟨hlb, hmb, hib⟩ := hhalf b
  obtain ⟨hlr, hmr, hir⟩ := hhalf r
  have hcin := cin.toNat_le
  have hr := h.toNat_cases
  obtain ⟨-, -, hv, -⟩ := h
  rw [hv, hma, hmb, hmr, hia, hib, hir, Ne, Ne, decide_eq_decide, decide_eq_decide]
  rw [hp] at hr
  omega

/-- Settles O25: `addResult` and `subResult` are the sum and difference of R190, whose flags `AddN` and `SubN` describe;
a byte form differs in DA and H only. -/
theorem overflowAndCarryMeanRange : Obligations.OverflowAndCarryMeanRange := by
  refine ⟨fun z a b cin f => ?_, fun _ _ _ _ => ⟨rfl, rfl, rfl, rfl⟩⟩
  have hz : 0 < z.bits := by cases z <;> decide
  have hadd := addN_add a b cin f
  have hsub := subN_sub hz a b cin f
  exact ⟨hadd.overflow_iff hz, hadd.carry_iff, hsub.overflow_iff hz, hsub.borrow_iff⟩


/-! ### Results in a register, flags in the FCW -/

variable (s : State)

/-- `OP Rd,src` that the platform takes: the register and the flags are written and nothing else. -/
theorem completes_regFrom {z z' : Size} {d : Reg} {src : Src z} {v : BitVec z'.bits} {g : Flags} {mask : Word}
    {post : State → Prop} (hok : s.srcOk src = true) (hmask : SameFcw s (s.setFlags g) mask)
    (hpost : ∀ t, t.flags = g → Writes s t z' (.reg d) v mask (1 + src.words.length) → post t) :
    Completes (s.regFrom d src v g) post := by
  obtain ⟨hwrites, hflags⟩ := writes_reg s z' d v g (1 + src.words.length) mask hmask
  exact ⟨_, whenAligned_true hok _, hpost _ hflags hwrites⟩

/-- An instruction that is `State.regFrom` with the result `op` of the register and the source, and the flags `g` of
them and the old flags. -/
theorem aluClaim_of_regFrom {z : Size} {make : Reg → Src z → Instr} {mask : Word}
    {post : BitVec z.bits → BitVec z.bits → BitVec z.bits → Flags → Prop}
    (op : BitVec z.bits → BitVec z.bits → BitVec z.bits) (g : BitVec z.bits → BitVec z.bits → Flags → Flags)
    (hexec : ∀ d src s, exec (make d src) s =
      s.regFrom (z' := z) d src (op (s.regOf z d) (s.src src)) (g (s.regOf z d) (s.src src) s.flags))
    (hmask : ∀ (s : State) x y, SameFcw s (s.setFlags (g x y s.flags)) mask)
    (hpost : ∀ x y old, post x y (op x y) (g x y old)) : AluClaim z make mask post := by
  intro s d src hok
  rw [hexec]
  exact completes_regFrom s hok (hmask s _ _) fun t hflags hwrites => ⟨_, hflags ▸ hpost _ _ _, hwrites⟩

/-- As `aluClaim_of_regFrom`, with a register as the source and the old carry. -/
theorem carryClaim_of_regFrom {z : Size} {make : Reg → Reg → Instr} {mask : Word}
    {post : BitVec z.bits → BitVec z.bits → Bool → BitVec z.bits → Flags → Prop}
    (op : BitVec z.bits → BitVec z.bits → Bool → BitVec z.bits)
    (g : BitVec z.bits → BitVec z.bits → Bool → Flags → Flags)
    (hexec : ∀ d q s, exec (make d q) s = s.regFrom (z := z) (z' := z) d (.reg q)
      (op (s.regOf z d) (s.regOf z q) s.flags.c) (g (s.regOf z d) (s.regOf z q) s.flags.c s.flags))
    (hmask : ∀ (s : State) x y c, SameFcw s (s.setFlags (g x y c s.flags)) mask)
    (hpost : ∀ x y c old, post x y c (op x y c) (g x y c old)) : CarryClaim z make mask post := by
  intro s d q
  rw [hexec]
  exact completes_regFrom s rfl (hmask s _ _ _) fun t hflags hwrites => ⟨_, hflags ▸ hpost _ _ _ _, hwrites⟩

theorem sameFcw_addFlags {n : Nat} (a b : BitVec n) (cin : Bool) :
    SameFcw s (s.setFlags (addFlags a b cin s.flags)) flagMask := sameFcw_setFlags_czsv s _ rfl rfl

theorem sameFcw_subFlags {n : Nat} (a b : BitVec n) (bin : Bool) :
    SameFcw s (s.setFlags (subFlags a b bin s.flags)) flagMask := sameFcw_setFlags_czsv s _ rfl rfl

/-- ADD and ADDL are one meaning but for the size. -/
theorem aluClaim_of_add {z : Size} {make : Reg → Src z → Instr}
    (hexec : ∀ d src s, exec (make d src) s = s.regFrom (z' := z) d src (addResult (s.regOf z d) (s.src src) false)
      (addFlags (s.regOf z d) (s.src src) false s.flags)) :
    AluClaim z make flagMask fun a b r f => AddN a b false r f :=
  aluClaim_of_regFrom (addResult · · false) (addFlags · · false) hexec (fun s _ _ => sameFcw_addFlags s _ _ _)
    (addN_add · · false)

/-- SUB and SUBL are one meaning but for the size. -/
theorem aluClaim_of_sub {z : Size} {make : Reg → Src z → Instr} (hz : 0 < z.bits)
    (hexec : ∀ d src s, exec (make d src) s = s.regFrom (z' := z) d src (subResult (s.regOf z d) (s.src src) false)
      (subFlags (s.regOf z d) (s.src src) false s.flags)) :
    AluClaim z make flagMask fun a b r f => SubN a b false r f :=
  aluClaim_of_regFrom (subResult · · false) (subFlags · · false) hexec (fun s _ _ => sameFcw_subFlags s _ _ _)
    (subN_sub hz · · false)

/-- Settles O24: each is `State.regFrom` with `addResult` or `subResult` and its flags, the carry forms with a register
as the source. -/
theorem addAndSubtract : Obligations.AddAndSubtract :=
  ⟨aluClaim_of_regFrom (addResult · · false) (byteAddFlags · · false) (fun _ _ _ => rfl)
      (fun s _ _ => sameFcw_setFlags_all s _) (addH_add · · false),
    aluClaim_of_add fun _ _ _ => rfl,
    aluClaim_of_add fun _ _ _ => rfl,
    aluClaim_of_regFrom (subResult · · false) (byteSubFlags · · false) (fun _ _ _ => rfl)
      (fun s _ _ => sameFcw_setFlags_all s _) (subH_sub · · false),
    aluClaim_of_sub (by decide) fun _ _ _ => rfl,
    aluClaim_of_sub (by decide) fun _ _ _ => rfl,
    carryClaim_of_regFrom addResult byteAddFlags (fun _ _ _ => rfl) (fun s _ _ _ => sameFcw_setFlags_all s _) addH_add,
    carryClaim_of_regFrom addResult addFlags (fun _ _ _ => rfl) (fun s _ _ _ => sameFcw_addFlags s _ _ _) addN_add,
    carryClaim_of_regFrom subResult byteSubFlags (fun _ _ _ => rfl) (fun s _ _ _ => sameFcw_setFlags_all s _) subH_sub,
    carryClaim_of_regFrom subResult subFlags (fun _ _ _ => rfl) (fun s _ _ _ => sameFcw_subFlags s _ _ _)
      (subN_sub (by decide))⟩

/-! ### Compares (R193) -/

/-- An instruction that sets the flags of a difference and passes on. -/
theorem compares {n : Nat} (hn : 0 < n) (a b : BitVec n) (words : Nat) :
    let t := (s.setFlags (subFlags a b false s.flags)).advance words
    (∃ r, SubN a b false r t.flags) ∧ Frame s t [] flagMask words := by
  obtain ⟨hframe, hflags⟩ := frame_setFlags s _ words flagMask (sameFcw_subFlags s a b false)
  exact ⟨⟨_, hflags ▸ subN_sub hn a b false s.flags⟩, hframe⟩

theorem compareClaim_of_cp {z : Size} {make : CpArgs z → Instr} (hz : 0 < z.bits)
    (hexec : ∀ args s, exec (make args) s = s.cp args) : CompareClaim make := by
  intro s
  simp only [hexec]
  exact ⟨fun _ _ hok => ⟨_, whenAligned_true hok _, compares s hz _ _ _⟩,
    fun _ _ hok => ⟨_, whenAligned_true hok _, compares s hz _ _ _⟩⟩

/-- Settles O26: the three sizes are one meaning, `State.cp`, which only sets flags. -/
theorem compareSetsFlagsOnly : Obligations.CompareSetsFlagsOnly :=
  ⟨compareClaim_of_cp (by decide) fun _ _ => rfl, compareClaim_of_cp (by decide) fun _ _ => rfl,
    compareClaim_of_cp (by decide) fun _ _ => rfl⟩

/-! ### INC and DEC (R195, R198) -/

/-- Flags that keep the old C, DA and H change Z, S and P/V only. -/
theorem sameFcw_keepCarry {g : Flags} (hd : g.d = s.flags.d) (hh : g.h = s.flags.h) :
    SameFcw s (s.setFlags (keepCarry s.flags g)) 0x0070 :=
  sameFcw_setFlags s _ _ (fun _ => rfl) (fun h => absurd h (by decide)) (fun h => absurd h (by decide))
    (fun h => absurd h (by decide)) (fun _ => hd) (fun _ => hh)

/-- An instruction that is `State.modify` with the result `op` of the operand and the amount, and their flags `g` with
the old C. -/
theorem stepByClaim_of_modify {z : Size} {make : Dst → BitVec 4 → Instr}
    {post : BitVec z.bits → BitVec z.bits → BitVec z.bits → Flags → Prop}
    (op : BitVec z.bits → BitVec z.bits → BitVec z.bits) (g : BitVec z.bits → BitVec z.bits → Flags → Flags)
    (hexec : ∀ d k s, exec (make d k) s = s.modify z d (op (s.dst z d) (BitVec.ofNat z.bits (k.toNat + 1)))
      (keepCarry s.flags (g (s.dst z d) (BitVec.ofNat z.bits (k.toNat + 1)) s.flags)))
    (hd : ∀ x y old, (g x y old).d = old.d) (hh : ∀ x y old, (g x y old).h = old.h)
    (hpost : ∀ x y old, post x y (op x y) (g x y old)) : StepByClaim z make post := by
  intro s d k hok
  obtain ⟨hwrites, hflags⟩ := writes_dst s z d (op (s.dst z d) (BitVec.ofNat z.bits (k.toNat + 1)))
    (keepCarry s.flags (g (s.dst z d) (BitVec.ofNat z.bits (k.toNat + 1)) s.flags)) (1 + d.words.length) 0x0070
    (sameFcw_keepCarry s (hd _ _ _) (hh _ _ _))
  refine ⟨_, (hexec d k s).trans (whenAligned_true hok _), _, _, hpost _ _ s.flags, ?_, ?_, ?_, hwrites⟩ <;>
    rw [hflags] <;> rfl

theorem stepByClaim_of_inc {z : Size} {make : Dst → BitVec 4 → Instr}
    (hexec : ∀ d k s, exec (make d k) s = s.inc z d k) : StepByClaim z make fun a b r f => AddN a b false r f :=
  stepByClaim_of_modify (addResult · · false) (addFlags · · false) hexec (fun _ _ _ => rfl) (fun _ _ _ => rfl)
    (addN_add · · false)

theorem stepByClaim_of_dec {z : Size} {make : Dst → BitVec 4 → Instr} (hz : 0 < z.bits)
    (hexec : ∀ d k s, exec (make d k) s = s.dec z d k) : StepByClaim z make fun a b r f => SubN a b false r f :=
  stepByClaim_of_modify (subResult · · false) (subFlags · · false) hexec (fun _ _ _ => rfl) (fun _ _ _ => rfl)
    (subN_sub hz · · false)

/-- Settles O27: `State.inc` and `State.dec` are `State.modify` with a sum or difference whose carry is dropped. -/
theorem incrementAndDecrement : Obligations.IncrementAndDecrement :=
  ⟨stepByClaim_of_inc fun _ _ _ => rfl, stepByClaim_of_inc fun _ _ _ => rfl,
    stepByClaim_of_dec (by decide) fun _ _ _ => rfl, stepByClaim_of_dec (by decide) fun _ _ _ => rfl⟩

/-! ### Halves of pairs and quadruples (R23) -/

theorem State.reg_eq_high (d : Reg) : s.reg d = (s.regLong d).extractLsb' 16 16 :=
  BitVec.extractLsb'_append_eq_left.symm

theorem State.reg_eq_low (d : Reg) : s.reg (d + 1) = (s.regLong d).extractLsb' 0 16 :=
  BitVec.extractLsb'_append_eq_right.symm

theorem State.regLong_eq_high (d : Reg) : s.regLong d = (s.regQuad d).extractLsb' 32 32 :=
  BitVec.extractLsb'_append_eq_left.symm

theorem State.regLong_eq_low (d : Reg) : s.regLong (d + 2) = (s.regQuad d).extractLsb' 0 32 :=
  BitVec.extractLsb'_append_eq_right.symm

/-- Writing a quadruple changes nothing else: it is two pairs. -/
theorem quietly_setRegQuad (d : Reg) (v : Quad) : Quietly s (s.setRegQuad d v) (quadRegs d) 0 :=
  quietly_trans (quietly_setRegOf s .l d _) (quietly_setRegOf _ .l (d + 2) _)

theorem passed_setRegQuad (d : Reg) (v : Quad) : Passed s (s.setRegQuad d v) 0 :=
  passed_after (passed_setRegOf s .l d _) (passed_setRegOf _ .l (d + 2) _)

/-- An unchanged FCW is unchanged outside every mask. -/
theorem quietly_of_mask_zero {t : State} {rs : List Reg} (h : Quietly s t rs 0) (mask : Word) :
    Quietly s t rs mask := by
  obtain ⟨hregs, hfcw, hrest⟩ := h
  have hfcw : t.fcw = s.fcw := by
    rwa [SameFcw, show ~~~(0 : Word) = BitVec.allOnes 16 from rfl, BitVec.and_allOnes, BitVec.and_allOnes] at hfcw
  exact ⟨hregs, by rw [SameFcw, hfcw], hrest⟩

/-- As `completes_regFrom`, for an instruction whose destination is a quadruple. -/
theorem completes_quadFrom {z : Size} {d : Reg} {src : Src z} {v : Quad} {g : Flags} {mask : Word}
    {post : State → Prop} (hok : s.srcOk src = true) (hmask : SameFcw s (s.setFlags g) mask)
    (hpost : ∀ t, t.flags = g → t.regQuad d = v → Frame s t (quadRegs d) mask (1 + src.words.length) → post t) :
    Completes (whenAligned (s.srcOk src) (((s.setRegQuad d v).setFlags g).advance (1 + src.words.length))) post := by
  obtain ⟨⟨hquiet, hpassed⟩, hflags⟩ := frame_setFlags (s.setRegQuad d v) g (1 + src.words.length) mask
    (by simpa [SameFcw, State.setFlags] using hmask)
  refine ⟨_, whenAligned_true hok _, hpost _ hflags ?_ ⟨?_, passed_after (passed_setRegQuad s d v) hpassed⟩⟩
  · exact (congrFun (State.regQuad_congr (by simp)) d).trans (s.regQuad_setRegQuad d v)
  · simpa using quietly_trans (quietly_of_mask_zero s (quietly_setRegQuad s d v) mask) hquiet

/-! ### MULT and MULTL (R199) -/

/-- The product of two words of `n` bits fits twice the width. -/
theorem toInt_ofInt_product {n : Nat} (hn : 0 < n) (a b : BitVec n) :
    (BitVec.ofInt (n + n) (a.toInt * b.toInt)).toInt = a.toInt * b.toInt := by
  have hpow : (2 : Int) ^ (n * 2 - 2) < 2 ^ (n + n - 1) := pow_lt_pow_right₀ (by decide) (by omega)
  have hlow := BitVec.le_toInt_mul_toInt (x := a) (y := b)
  have hhigh := BitVec.toInt_mul_toInt_le (x := a) (y := b)
  exact BitVec.toInt_ofInt_eq_self (by omega) (by omega) (by omega)

theorem productFlags_multFlags (n : Nat) (p : Int) (f : Flags) : ProductFlags n p (multFlags n p f) := by
  simp [ProductFlags, multFlags]

theorem sameFcw_multFlags (n : Nat) (p : Int) : SameFcw s (s.setFlags (multFlags n p s.flags)) flagMask :=
  sameFcw_setFlags_czsv s _ rfl rfl

/-- Settles O28: the destination is twice as wide as the factors, so their product is exact. -/
theorem multiplyGivesExactProduct : Obligations.MultiplyGivesExactProduct := by
  refine fun s d => ⟨fun src hok => ?_, fun src hok => ?_⟩
  · refine completes_regFrom s hok (sameFcw_multFlags s 16 _) fun t hflags hwrites => ?_
    obtain ⟨⟨hvalue : t.regLong d = _, -⟩, hframe⟩ := hwrites
    rw [hvalue, hflags]
    exact ⟨toInt_ofInt_product (by decide) _ _, productFlags_multFlags 16 _ _, hframe⟩
  · refine completes_quadFrom s hok (sameFcw_multFlags s 32 _) fun t hflags hvalue hframe => ?_
    rw [hvalue, hflags]
    exact ⟨toInt_ofInt_product (by decide) _ _, productFlags_multFlags 32 _ _, hframe⟩

/-! ### DIV and DIVL (R196) -/

/-- The quotient truncated toward zero and its remainder are the only ones whose remainder is smaller than the divisor
and has the sign of the dividend. -/
theorem tdiv_tmod_of_truncated {a b q m : Int} (hb : b ≠ 0) (h : a = q * b + m) (hlt : |m| < |b|)
    (hsign : m = 0 ∨ (m < 0 ↔ a < 0)) : a.tdiv b = q ∧ a.tmod b = m := by
  have hsum : m + b * q = a := by rw [h, Int.mul_comm, Int.add_comm]
  rw [abs_lt, Int.abs_eq_natAbs] at hlt
  rcases le_or_gt 0 a with ha | ha
  · exact (Int.tdiv_tmod_unique ha hb).mpr ⟨hsum, by omega, hlt.2⟩
  · exact (Int.tdiv_tmod_unique' ha.le hb).mpr ⟨hsum, hlt.1, by omega⟩

/-- A division as R196 has it: where the quotient fits, the two halves of the destination are its words and the
remainder's, which fits because it is smaller than the divisor. -/
theorem divided_divide {n : Nat} (hn : 0 < n) (a : Int) (b : BitVec n) (quot rem : BitVec n) (free : Bool) (f : Flags)
    (hfits : ∀ q m, divide n a b.toInt = .fits q m → quot = BitVec.ofInt n q ∧ rem = BitVec.ofInt n m) :
    Divided n a b.toInt quot rem (divFlags free f (divide n a b.toInt)) := by
  unfold Divided
  split
  · next hb => simp [divide, hb, divFlags]
  · next hb =>
    intro q m h hlt hsign
    obtain ⟨hq, hm⟩ := tdiv_tmod_of_truncated hb h hlt hsign
    simp only [divide, hb, hq, hm, if_false] at hfits ⊢
    split
    · next hrange =>
      simp only [hrange, and_self, if_true, Division.fits.injEq, and_imp] at hfits
      obtain ⟨rfl, rfl⟩ := hfits q m rfl rfl
      have hlow := b.le_toInt
      have hhigh := b.toInt_lt
      have habs : |b.toInt| ≤ 2 ^ (n - 1) := abs_le.mpr ⟨hlow, hhigh.le⟩
      obtain ⟨hml, hmh⟩ := abs_lt.mp (hlt.trans_le habs)
      exact ⟨BitVec.toInt_ofInt_eq_self hn hrange.1 hrange.2, BitVec.toInt_ofInt_eq_self hn hml.le hmh, rfl, rfl,
        by simp [divFlags], by simp [divFlags]⟩
    · split <;> exact ⟨rfl, rfl, rfl⟩

theorem sameFcw_divFlags (free : Bool) (r : Division) : SameFcw s (s.setFlags (divFlags free s.flags r)) flagMask := by
  cases r <;> exact sameFcw_setFlags_czsv s _ rfl rfl

/-- The halves of the destination where the quotient fits. -/
theorem divDest_halves {n : Nat} {r : Division} {q m : Int} (h : r = .fits q m) :
    (s.divDest n r).extractLsb' 0 n = BitVec.ofInt n q ∧ (s.divDest n r).extractLsb' n n = BitVec.ofInt n m := by
  subst h
  exact ⟨BitVec.extractLsb'_append_eq_right, BitVec.extractLsb'_append_eq_left⟩

/-- Settles O29: `divide` distinguishes the cases of R196, and a quotient that fits stands beside its remainder. -/
theorem divideTruncatesTowardZero : Obligations.DivideTruncatesTowardZero := by
  refine fun s d => ⟨fun src hok => ?_, fun src hok => ?_⟩
  · refine completes_regFrom s hok (sameFcw_divFlags s _ _) fun t hflags hwrites => ?_
    obtain ⟨⟨hvalue : t.regLong d = _, -⟩, hframe⟩ := hwrites
    rw [State.reg_eq_low, State.reg_eq_high t d, hvalue, hflags]
    exact ⟨divided_divide (by decide) _ _ _ _ _ _ fun q m h => divDest_halves s h, hframe⟩
  · refine completes_quadFrom s hok (sameFcw_divFlags s _ _) fun t hflags hvalue hframe => ?_
    rw [State.regLong_eq_low, State.regLong_eq_high t d, hvalue, hflags]
    exact ⟨divided_divide (by decide) _ _ _ _ _ _ fun q m h => divDest_halves s h, hframe⟩

/-! ### EXTSB, EXTS and EXTSL (R197) -/

/-- Copies of the top bit above a word keep its value. -/
theorem toInt_sign_append {m n : Nat} (hm : 0 < m) (x : BitVec n) :
    ((if x.msb then BitVec.allOnes m else 0#m) ++ x).toInt = x.toInt := by
  rw [BitVec.toInt_append, if_neg (by simpa using hm.ne'), BitVec.toInt_eq_msb_cond x]
  by_cases hx : x.msb
  · simp only [hx, if_true, BitVec.toInt_allOnes, hm]
    push_cast
    ring
  · simp [hx]

theorem State.msb_regLong (d : Reg) : (s.regLong d).msb = (s.reg d).msb := by
  rw [State.regLong, BitVec.msb_append]
  rfl

/-- Writing the high pair of a quadruple leaves the low pair. -/
theorem regLong_setRegLong_above (d : Reg) (v : Long) : (s.setRegLong d v).regLong (d + 2) = s.regLong (d + 2) := by
  obtain ⟨h20, h21, h30, h31⟩ := reg_quad_ne d
  rw [State.regLong, State.regLong, reg_setRegLong_other s h20 h21, reg_setRegLong_other s h30 h31]

/-- Settles O30: the high half becomes copies of the sign of the low half. -/
theorem extendSignKeepsTheValue : Obligations.ExtendSignKeepsTheValue := by
  refine fun s d => ⟨⟨_, rfl, ?_, (writes_reg_only s .w d _ 1).2⟩,
    ⟨_, rfl, ?_, ?_, (writes_reg_only s .w d _ 1).2⟩,
    ⟨_, rfl, ?_, ?_, (writes_reg_only s .l d _ 1).2⟩⟩
  · rw [State.reg_advance, State.reg_setReg_same]
    exact BitVec.toInt_signExtend_of_le (by decide)
  · rw [State.regLong, State.reg_advance, State.reg_setReg_same, State.reg_setReg_other _ (reg_succ_ne d)]
    exact toInt_sign_append (by decide) _
  · rw [State.reg_advance, State.reg_setReg_other _ (reg_succ_ne d)]
  · rw [State.regQuad, State.regLong_congr (State.reg_advance _ 1), State.regLong_setRegLong,
      regLong_setRegLong_above, ← State.msb_regLong]
    exact toInt_sign_append (by decide) _
  · rw [State.regLong_congr (State.reg_advance _ 1), regLong_setRegLong_above]

/-! ### Decimal adjust (R194) -/

/-- DAB as R194 writes it: what is added after an addition and subtracted after a subtraction, and C. -/
def DecimalAdjusted (a : Byte) (old : Flags) (r : Byte) (f : Flags) : Prop :=
  if old.d then
    r.toNat = (256 + a.toNat - (if old.h then 0x06 else 0) - (if old.c then 0x60 else 0)) % 256 ∧ f.c = old.c
  else
    r.toNat = (a.toNat + (if old.h ∨ 9 < a.toNat % 16 then 0x06 else 0)
        + (if old.c ∨ 0x99 < a.toNat then 0x60 else 0)) % 256
      ∧ (f.c = true ↔ old.c = true ∨ 0x99 < a.toNat)

theorem decimalAdjusted_dab (a : Byte) (free : Bool) (old : Flags) :
    DecimalAdjusted a old (dabResult a old) (dabFlags a free old) := by
  unfold DecimalAdjusted
  split
  · next hd =>
    refine ⟨?_, by simp [dabFlags, hd]⟩
    simp only [dabResult, dabAdjust, hd, if_true, BitVec.toNat_sub]
    split_ifs <;> simp <;> omega
  · next hd =>
    refine ⟨?_, by simp [dabFlags, hd]⟩
    simp only [dabResult, dabAdjust, hd, Bool.false_eq_true, if_false, BitVec.toNat_add]
    split_ifs <;> simp [Nat.add_assoc]

/-- What DAB does, with the correction named. -/
theorem dab_spec (d : Reg) :
    Completes (exec (.dab d) s) fun t => ∃ r : Byte, Writes s t .b (.reg d) r flagMask 1 ∧ ZeroSign r t.flags
      ∧ DecimalAdjusted (s.regByte d) s.flags r t.flags :=
  completes_regFrom (z' := .b) (src := .reg (z := .b) d) (v := dabResult (s.regByte d) s.flags)
    (g := dabFlags (s.regByte d) (s.drawBit .dabV) s.flags) s rfl (sameFcw_setFlags_czsv s _ rfl rfl)
    fun _ hflags hwrites => ⟨_, hwrites, by simp [ZeroSign, hflags, dabFlags], hflags ▸ decimalAdjusted_dab _ _ _⟩

/-- Settles O31: `DecimalAdjusted` is what R194 says of the result and C. -/
theorem decimalAdjust : Obligations.DecimalAdjust := dab_spec

/-! ### Decimal sums and differences (R194) -/

/-- A number of two decimal digits, packed. -/
def packed (n : Nat) : Nat := n / 10 * 16 + n % 10

theorem packed_mod_hundred (n : Nat) : packed (n % 100) = n % 100 / 10 * 16 + n % 10 := by
  rw [packed, Nat.mod_mod_of_dvd n (by decide)]

theorem packed_of_digits {k l : Nat} (hl : l < 10) : packed (10 * k + l) = 16 * k + l := by
  unfold packed
  omega

/-- Dropping the hundred of a number is adding 0x60 modulo 256 to its digits. -/
theorem packed_mod_of_digits {k l : Nat} (hk : k < 20) (hl : l < 10) :
    packed ((10 * k + l) % 100) = (16 * k + l + if 10 ≤ k then 0x60 else 0) % 256 := by
  split
  · next h =>
    have hmod : (10 * k + l) % 100 = 10 * (k - 10) + l := by omega
    rw [hmod, packed_of_digits hl]
    omega
  · next h =>
    rw [Nat.mod_eq_of_lt (by omega), packed_of_digits hl]
    omega

/-- The low digit of a packed number. -/
theorem packed_mod_sixteen {k l : Nat} (hl : l < 10) : packed (10 * k + l) % 16 = l := by
  rw [packed_of_digits hl, Nat.mul_add_mod, Nat.mod_eq_of_lt (by omega)]

theorem packed_lt {n : Nat} (h : n < 100) : packed n < 0x9A := by
  unfold packed
  omega

/-- The two digits of a number below 100. -/
theorem exists_digits {n : Nat} (h : n < 100) : ∃ k l, k < 10 ∧ l < 10 ∧ n = 10 * k + l :=
  ⟨n / 10, n % 10, by omega, by omega, by omega⟩

/-- Adding digit by digit: 6 where the low digits pass 9, 0x60 where the sum passes 99. -/
theorem packed_sum {p q u v : Nat} (hp : p < 10) (hq : q < 10) (hu : u < 10) (hv : v < 10) :
    packed ((10 * p + q + (10 * u + v)) % 100) = (16 * p + q + (16 * u + v)
      + (if 10 ≤ q + v then 0x06 else 0) + (if 100 ≤ 10 * p + q + (10 * u + v) then 0x60 else 0)) % 256 := by
  by_cases h : 10 ≤ q + v
  · have hsum : 10 * p + q + (10 * u + v) = 10 * (p + u + 1) + (q + v - 10) := by omega
    have hiff : 100 ≤ 10 * (p + u + 1) + (q + v - 10) ↔ 10 ≤ p + u + 1 := by omega
    simp only [hsum, packed_mod_of_digits (show p + u + 1 < 20 by omega) (show q + v - 10 < 10 by omega), h, hiff,
      if_true]
    congr 1
    omega
  · have hsum : 10 * p + q + (10 * u + v) = 10 * (p + u) + (q + v) := by omega
    have hiff : 100 ≤ 10 * (p + u) + (q + v) ↔ 10 ≤ p + u := by omega
    simp only [hsum, packed_mod_of_digits (show p + u < 20 by omega) (show q + v < 10 by omega), h, hiff, if_false]
    congr 1
    omega

/-- The correction after a binary addition of packed numbers finds the digits that passed 9 in H, C and the sum. -/
theorem decimal_sum {a b x : Nat} {c h : Prop} [Decidable c] [Decidable h] (ha : a < 100) (hb : b < 100)
    (hx : x = (packed a + packed b) % 256) (hc : c ↔ 256 ≤ packed a + packed b)
    (hh : h ↔ 15 < packed a % 16 + packed b % 16) :
    (x + (if h ∨ 9 < x % 16 then 0x06 else 0) + (if c ∨ 0x99 < x then 0x60 else 0)) % 256 = packed ((a + b) % 100)
      ∧ (c ∨ 0x99 < x ↔ 100 ≤ a + b) := by
  obtain ⟨p, q, hp, hq, rfl⟩ := exists_digits ha
  obtain ⟨u, v, hu, hv, rfl⟩ := exists_digits hb
  rw [packed_mod_sixteen hq, packed_mod_sixteen hv] at hh
  rw [packed_of_digits hq, packed_of_digits hv] at hx hc
  have low : h ∨ 9 < x % 16 ↔ 10 ≤ q + v := by
    rw [hh, hx]
    omega
  have high : c ∨ 0x99 < x ↔ 100 ≤ 10 * p + q + (10 * u + v) := by
    have hdec : c ∨ 0x99 < x ↔ 0x99 < 16 * p + q + (16 * u + v) := by
      rw [hc, hx]
      omega
    rw [hdec]
    rcases lt_trichotomy (p + u) 9 with h9 | h9 | h9 <;> omega
  refine ⟨?_, high⟩
  simp only [low, high, packed_sum hp hq hu hv]
  rw [hx, Nat.add_assoc, Nat.mod_add_mod, Nat.add_assoc (_ + _) (ite _ _ _)]

/-- Subtracting digit by digit: a packed difference lacks 6 where the low digits borrow and 0x60 where the whole number
does. -/
theorem packed_difference {p q u v : Nat} (hp : p < 10) (hq : q < 10) (hu : u < 10) (hv : v < 10) :
    (packed ((100 + (10 * p + q) - (10 * u + v)) % 100) + (if q < v then 0x06 else 0)
      + (if 10 * p + q < 10 * u + v then 0x60 else 0)) % 256 = (256 + (16 * p + q) - (16 * u + v)) % 256 := by
  by_cases h : q < v
  · have hsum : 100 + (10 * p + q) - (10 * u + v) = 10 * (9 + p - u) + (10 + q - v) := by omega
    have hiff : 10 * p + q < 10 * u + v ↔ ¬ 10 ≤ 9 + p - u := by omega
    simp only [hsum, packed_mod_of_digits (show 9 + p - u < 20 by omega) (show 10 + q - v < 10 by omega), h, hiff,
      if_true]
    split_ifs <;> omega
  · have hsum : 100 + (10 * p + q) - (10 * u + v) = 10 * (10 + p - u) + (q - v) := by omega
    have hiff : 10 * p + q < 10 * u + v ↔ ¬ 10 ≤ 10 + p - u := by omega
    simp only [hsum, packed_mod_of_digits (show 10 + p - u < 20 by omega) (show q - v < 10 by omega), h, hiff, if_false]
    split_ifs <;> omega

/-- The correction after a binary subtraction of packed numbers finds the digits that borrowed in H and C. -/
theorem decimal_difference {a b x : Nat} {c h : Prop} [Decidable c] [Decidable h] (ha : a < 100) (hb : b < 100)
    (hx : x = (256 + packed a - packed b) % 256) (hc : c ↔ packed a < packed b)
    (hh : h ↔ packed a % 16 < packed b % 16) :
    (256 + x - (if h then 0x06 else 0) - (if c then 0x60 else 0)) % 256 = packed ((100 + a - b) % 100)
      ∧ (c ↔ a < b) := by
  obtain ⟨p, q, hp, hq, rfl⟩ := exists_digits ha
  obtain ⟨u, v, hu, hv, rfl⟩ := exists_digits hb
  rw [packed_mod_sixteen hq, packed_mod_sixteen hv] at hh
  rw [packed_of_digits hq, packed_of_digits hv] at hx hc
  have high : c ↔ 10 * p + q < 10 * u + v := by
    rw [hc]
    rcases lt_trichotomy p u with hpu | hpu | hpu <;> omega
  refine ⟨?_, high⟩
  have hdiff := packed_difference hp hq hu hv
  rw [← hx] at hdiff
  have hlt := packed_lt (Nat.mod_lt (100 + (10 * p + q) - (10 * u + v)) (show 0 < 100 by decide))
  simp only [hh, high]
  split_ifs at hdiff ⊢ <;> omega

/-- DAB over what ADDB leaves. -/
theorem DecimalAdjusted.of_add {x y r q : Byte} {f g : Flags} {a b : Nat} (ha : a < 100) (hb : b < 100)
    (hx : x.toNat = packed a) (hy : y.toNat = packed b) (hadd : AddN x y false r f) (hhalf : AddH x y false f)
    (hdab : DecimalAdjusted r f q g) :
    q.toNat = (a + b) % 100 / 10 * 16 + (a + b) % 10 ∧ (g.c = true ↔ 100 ≤ a + b) := by
  obtain ⟨hr, hc, -⟩ := hadd
  obtain ⟨hd, hh⟩ := hhalf
  simp only [DecimalAdjusted, hd, Bool.false_eq_true, if_false] at hdab
  rw [hx, hy] at hr hc hh
  obtain ⟨hq, hg⟩ := hdab
  obtain ⟨hsum, hcarry⟩ := decimal_sum ha hb hr hc hh
  exact ⟨hq.trans (hsum.trans (packed_mod_hundred _)), hg.trans hcarry⟩

/-- DAB over what SUBB leaves. -/
theorem DecimalAdjusted.of_sub {x y r q : Byte} {f g : Flags} {a b : Nat} (ha : a < 100) (hb : b < 100)
    (hx : x.toNat = packed a) (hy : y.toNat = packed b) (hsub : SubN x y false r f) (hhalf : SubH x y false f)
    (hdab : DecimalAdjusted r f q g) :
    q.toNat = (100 + a - b) % 100 / 10 * 16 + (100 + a - b) % 10 ∧ (g.c = true ↔ a < b) := by
  obtain ⟨hr, hc, -⟩ := hsub
  obtain ⟨hd, hh⟩ := hhalf
  simp only [DecimalAdjusted, hd, if_true] at hdab
  rw [hx, hy] at hr hc hh
  obtain ⟨hq, hg⟩ := hdab
  obtain ⟨hdiff, hborrow⟩ := decimal_difference ha hb hr hc hh
  exact ⟨hq.trans (hdiff.trans (packed_mod_hundred _)), by rw [hg]; exact hborrow⟩

/-- What DAB leaves in its register and the flags. -/
theorem dab_adjusts (d : Reg) :
    Completes (exec (.dab d) s) fun t => DecimalAdjusted (s.regByte d) s.flags (t.regByte d) t.flags := by
  obtain ⟨t, hexec, r, ⟨⟨hreg : t.regByte d = r, -⟩, -⟩, -, hadjusted⟩ := dab_spec s d
  rw [← hreg] at hadjusted
  exact ⟨t, hexec, hadjusted⟩

/-- Settles O32: DAB corrects what ADDB and SUBB leave in the register, C, DA and H. -/
theorem decimalAdjustMakesDecimalSums : Obligations.DecimalAdjustMakesDecimalSums := by
  intro s d q a b ha hb hd hq
  obtain ⟨haddb, -, -, hsubb, -⟩ := addAndSubtract
  constructor
  · obtain ⟨t, hexec, r, ⟨hadd, hhalf⟩, ⟨hreg : t.regByte d = r, -⟩, -⟩ := haddb s d (.reg q) rfl
    obtain ⟨u, hdab, hadjusted⟩ := dab_adjusts t d
    exact ⟨t, hexec, u, hdab, (hreg ▸ hadjusted).of_add ha hb hd hq hadd hhalf⟩
  · obtain ⟨t, hexec, r, ⟨hsub, hhalf⟩, ⟨hreg : t.regByte d = r, -⟩, -⟩ := hsubb s d (.reg q) rfl
    obtain ⟨u, hdab, hadjusted⟩ := dab_adjusts t d
    exact ⟨t, hexec, u, hdab, (hreg ▸ hadjusted).of_sub ha hb hd hq hsub hhalf⟩

end Sys2Proof.Machine

/-! Logical instructions and tests: the shape they share, the flags of R230, and the bit that BIT takes. -/

namespace Sys2Proof.Machine

/-! ### AND, OR and XOR (R231, R233, R236) -/

/-- A word instruction that is `State.logicWord` with the result `op` of the register and the source. -/
theorem logicWordClaim_of_logicWord {make : Reg → Src .w → Instr} {op : Word → Word → Word}
    (hexec : ∀ d src s, exec (make d src) s = s.logicWord d src (op (s.reg d) (s.src src))) : LogicWordClaim make op :=
  aluClaim_of_regFrom op (fun x y old => logicFlags (op x y) old) hexec (fun s _ _ => sameFcw_logicFlags s _)
    fun _ _ old => ⟨rfl, zeroSign_logic _ old⟩

/-- As `logicWordClaim_of_logicWord`, with parity in P/V. -/
theorem logicByteClaim_of_logicByte {make : Reg → Src .b → Instr} {op : Byte → Byte → Byte}
    (hexec : ∀ d src s, exec (make d src) s = s.logicByte d src (op (s.regByte d) (s.src src))) :
    LogicByteClaim make op :=
  aluClaim_of_regFrom op (fun x y old => byteLogicFlags (op x y) old) hexec (fun s _ _ => sameFcw_byteLogicFlags s _)
    fun _ _ old => ⟨rfl, zeroSign_byteLogic _ old, evenParity_byteLogic _ old⟩

/-- Settles O33: each is `State.logicByte` or `State.logicWord` with its operation. -/
theorem logicOperations : Obligations.LogicOperations :=
  ⟨logicByteClaim_of_logicByte fun _ _ _ => rfl, logicWordClaim_of_logicWord fun _ _ _ => rfl,
    logicByteClaim_of_logicByte fun _ _ _ => rfl, logicWordClaim_of_logicWord fun _ _ _ => rfl,
    logicByteClaim_of_logicByte fun _ _ _ => rfl, logicWordClaim_of_logicWord fun _ _ _ => rfl⟩

/-! ### TEST (R234) -/

/-- An instruction that is `State.testDst` with the flags `g` of the operand and the old flags. -/
theorem testClaim_of_testDst {z : Size} {make : Dst → Instr} {mask : Word} {post : BitVec z.bits → Flags → Prop}
    (g : BitVec z.bits → Flags → Flags) (hexec : ∀ d s, exec (make d) s = s.testDst z d (g (s.dst z d) s.flags))
    (hmask : ∀ (s : State) x, SameFcw s (s.setFlags (g x s.flags)) mask) (hpost : ∀ x old, post x (g x old)) :
    TestClaim z make mask post := by
  intro s d hok
  obtain ⟨hframe, hflags⟩ := frame_setFlags s (g (s.dst z d) s.flags) (1 + d.words.length) mask (hmask s _)
  exact ⟨_, (hexec d s).trans (whenAligned_true hok _), by rw [hflags]; exact hpost _ _, hframe⟩

/-! ### BIT (R280, R281) -/

theorem sameFcw_setZero (s : State) (b : Bool) : SameFcw s (s.setFlags { s.flags with z := b }) 0x0040 :=
  sameFcw_setFlags s _ _ (fun _ => rfl) (fun h => absurd h (by decide)) (fun _ => rfl) (fun _ => rfl) (fun _ => rfl)
    (fun _ => rfl)

theorem bitTestClaim_of_bitTest {z : Size} {make : BitArgs → Instr} (hexec : ∀ a s, exec (make a) s = s.bitTest z a) :
    BitTestClaim z make := by
  intro s a hok
  obtain ⟨hframe, hflags⟩ := frame_setFlags s _ (1 + bitWords a) 0x0040
    (sameFcw_setZero s (!(s.dst z (bitDst a)).getLsbD (s.bitNumber z a)))
  exact ⟨_, (hexec a s).trans (whenAligned_true hok _), by rw [hflags], hframe⟩

/-- The bit number of a dynamic form is the remainder of the register by the operand's width, its low 4 or 3 bits. -/
theorem bitNumberClaim_holds : BitNumberClaim := fun s _ _ q _ =>
  ⟨fun _ => rfl, (BitVec.extractLsb'_toNat 0 4 (s.reg q)).symm, (BitVec.extractLsb'_toNat 0 3 (s.reg q)).symm⟩

/-- Settles O34: TEST sets the flags of a logical result, BIT sets Z alone. -/
theorem testsSetFlagsOnly : Obligations.TestsSetFlagsOnly :=
  ⟨testClaim_of_testDst byteLogicFlags (fun _ _ => rfl) sameFcw_byteLogicFlags
      fun x old => ⟨zeroSign_byteLogic x old, evenParity_byteLogic x old⟩,
    testClaim_of_testDst logicFlags (fun _ _ => rfl) (fun s _ => sameFcw_logicFlags s _) zeroSign_logic,
    testClaim_of_testDst logicFlags (fun _ _ => rfl) (fun s _ => sameFcw_logicFlags s _) zeroSign_logic,
    bitTestClaim_of_bitTest fun _ _ => rfl,
    bitTestClaim_of_bitTest fun _ _ => rfl,
    bitNumberClaim_holds⟩

end Sys2Proof.Machine

/-! Program control: jumps, calls, returns, the loads of the program status, and the traps that an instruction takes as
its own effect with the return from them. -/

namespace Sys2Proof.Machine

variable (s : State)

/-! ### The program counter (R29, R31, R250) -/

/-- Moving the program counter past the instruction and then within its segment changes nothing else. -/
theorem quietly_advance_jumpBy (n : Nat) (w : Word) : Quietly s ((s.advance n).jumpBy w) [] 0 :=
  quietly_trans (quietly_advance s n) (quietly_jumpBy _ w)

/-- A jump within the current segment leaves the segment; a Z8002 has none to load (R29). -/
theorem setPc_codeSeg_pcSeg (w : Word) : (s.setPc ⟨s.codeSeg, w⟩).pcSeg = s.pcSeg := by
  cases hz : s.isZ8001 <;> simp [State.setPc, State.codeSeg, hz]

/-! ### Jumps (R253, R255, R256) -/

theorem jp_jumps (c : Cond) (m : Mem) :
    Completes (exec (.jp c m) s) fun t =>
      Quietly s t [] 0
        ∧ if s.flags.holds c then JumpedTo s t (s.memAddr m) else Passed s t (1 + m.words.length) := by
  refine ⟨_, rfl, ?_⟩
  cases s.flags.holds c with
  | true => exact ⟨quietly_setPc s _, jumpedTo_setPc s _⟩
  | false => exact ⟨quietly_advance s _, passed_advance s _⟩

theorem jr_jumps (c : Cond) (disp : BitVec 8) :
    Completes (exec (.jr c disp) s) fun t =>
      Quietly s t [] 0 ∧ t.pcSeg = s.pcSeg
        ∧ t.pc = if s.flags.holds c then s.pc + 2 + 2 * disp.signExtend 16 else s.pc + 2 := by
  refine ⟨_, rfl, ?_⟩
  cases s.flags.holds c with
  | true => exact ⟨quietly_advance_jumpBy s 1 _, rfl, rfl⟩
  | false => exact ⟨quietly_advance s 1, rfl, rfl⟩

/-- A register operand is as well written when a jump follows. -/
theorem holdsReg_jumpBy {t : State} {z : Size} {r : Reg} {v : BitVec z.bits} (h : HoldsReg s t z r v) (w : Word) :
    HoldsReg s (t.jumpBy w) z r v := by
  obtain ⟨hreg, hothers⟩ := h
  refine ⟨by rw [State.regOf_jumpBy, hreg], fun hz k hk => ?_⟩
  rw [State.regByte_congr (State.reg_jumpBy t w), hothers hz k hk]

/-- The register is counted down and the program counter passes on; where the register is not 0 a jump back follows. -/
theorem countedJumpClaim_of_djnz {z : Size} {make : Reg → BitVec 7 → Instr}
    (hexec : ∀ r disp s, exec (make r disp) s = s.djnz z r disp) : CountedJumpClaim z make := by
  intro s r disp
  obtain ⟨hreg, hquiet, hpc, hseg⟩ := writes_reg_only s z r (s.regOf z r - 1#z.bits) 1
  refine ⟨_, hexec r disp s, ?_⟩
  by_cases h0 : s.regOf z r - 1#z.bits = 0
  · rw [if_pos h0]
    exact ⟨hreg, hquiet, hseg, by rw [if_pos (hreg.1.trans h0)]; exact hpc⟩
  · rw [if_neg h0]
    obtain ⟨hjumped, hothers⟩ := holdsReg_jumpBy s hreg (-(2 * disp.setWidth 16))
    refine ⟨⟨hjumped, hothers⟩, by simpa using quietly_trans hquiet (quietly_jumpBy _ _), hseg, ?_⟩
    rw [if_neg (by rwa [hjumped]), BitVec.sub_eq_add_neg (s.pc + 2)]
    exact congrArg (· + -(2 * disp.setWidth 16)) hpc

/-- Settles O39: a jump loads or moves the program counter and nothing else. -/
theorem jumpsSetTheProgramCounter : Obligations.JumpsSetTheProgramCounter :=
  ⟨jp_jumps, jr_jumps, countedJumpClaim_of_djnz fun _ _ _ => rfl, countedJumpClaim_of_djnz fun _ _ _ => rfl⟩

/-! ### Calls (R251, R252) -/

/-- A push does not depend on the program counter, so the program counter may pass on before or after it. -/
theorem push_advance (z : Size) (r : Reg) (v : BitVec z.bits) (n : Nat) :
    (s.advance n).push z r v = (s.push z r v).advance n := by
  cases z <;> rfl

/-- Jumping after a push keeps what is pushed. -/
theorem pushed_then_quietly {t u : State} {z : Size} {r : Reg} {v : BitVec z.bits} (h : Pushed s t z r v)
    (g : Quietly t u [] 0) : Pushed s u z r v := by
  obtain ⟨hptr, hread, hmem⟩ := h
  obtain ⟨⟨gregs, -⟩, -, -, gmem⟩ := g
  have hpeek : u.peekByte = t.peekByte := funext fun sp => funext fun a => gmem sp a
  exact ⟨(gregs _ List.not_mem_nil).trans hptr, fun hp => by rw [State.peek_congr hpeek, hread hp],
    fun sp a hn => by rw [hpeek, hmem sp a hn]⟩

theorem returnPushed_segmented {s t : State} (h : s.segmented = true) (n : Nat) :
    ReturnPushed s t n ↔
      ∃ w : Word, segOf w = s.codeSeg ∧ Pushed s t .l s.spReg (w ++ (s.pc + BitVec.ofNat 16 (2 * n))) := by
  rw [ReturnPushed, if_pos h]

theorem returnPushed_nonsegmented {s t : State} (h : s.segmented = false) (n : Nat) :
    ReturnPushed s t n ↔ Pushed s t .w s.spReg (s.pc + BitVec.ofNat 16 (2 * n)) := by
  rw [ReturnPushed, if_neg (by simp [h])]

theorem returnPushed_then_quietly {t u : State} {n : Nat} (h : ReturnPushed s t n) (g : Quietly t u [] 0) :
    ReturnPushed s u n := by
  cases hs : s.segmented with
  | true =>
    obtain ⟨w, hw, hpushed⟩ := (returnPushed_segmented hs n).mp h
    exact (returnPushed_segmented hs n).mpr ⟨w, hw, pushed_then_quietly s hpushed g⟩
  | false =>
    have hpushed := (returnPushed_nonsegmented hs n).mp h
    exact (returnPushed_nonsegmented hs n).mpr (pushed_then_quietly s hpushed g)

/-- The push of the program counter is the push of a datum of the mode's size, whose value is the return address. -/
theorem pushPc_advance (n : Nat) :
    ∃ (z : Size) (v : BitVec z.bits), s.returnSize = z ∧ (s.advance n).pushPc = (s.push z s.spReg v).advance n
      ∧ ∀ t, Pushed s t z s.spReg v → ReturnPushed s t n := by
  cases hs : s.segmented with
  | true =>
    have hword : (s.advance n).segWord .callSegment (s.advance n).codeSeg = s.segWord .callSegment s.codeSeg := rfl
    refine ⟨.l, s.segWord .callSegment s.codeSeg ++ (s.pc + BitVec.ofNat 16 (2 * n)), ?_, ?_, fun t ht => ?_⟩
    · rw [State.returnSize, if_pos hs]
    · rw [State.pushPc, State.segmented_advance, if_pos hs, State.spReg_advance, hword]
      exact push_advance s .l _ _ n
    · exact (returnPushed_segmented hs n).mpr ⟨_, segOf_segWord s _ _, ht⟩
  | false =>
    refine ⟨.w, s.pc + BitVec.ofNat 16 (2 * n), ?_, ?_, fun t ht => (returnPushed_nonsegmented hs n).mpr ht⟩
    · rw [State.returnSize, if_neg (by simp [hs])]
    · rw [State.pushPc, State.segmented_advance, if_neg (by simp [hs]), State.spReg_advance]
      exact push_advance s .w _ _ n

/-- What the push of the return address of an instruction of `n` words does, and where operands are after it. -/
theorem pushPc_spec (n : Nat) :
    let t := (s.advance n).pushPc
    ReturnPushed s t n ∧ StoreFrame s t [s.offReg s.spReg] 0 n
      ∧ t.memAddr = (s.bump s.spReg (-BitVec.ofNat 16 s.returnSize.bytes)).memAddr := by
  obtain ⟨z, v, hsize, hpush, hreturn⟩ := pushPc_advance s n
  obtain ⟨hpushed, hframe⟩ := pushed_push s z s.spReg v n
  rw [hpush, hsize]
  exact ⟨hreturn _ hpushed, hframe, (State.memAddr_congr (State.reg_advance _ n) (State.segmented_advance _ n)
    (State.codeSeg_advance _ n)).trans (s.memAddr_push _ _ v)⟩

/-- What a call leaves when a jump follows the push, the program counter apart. -/
theorem call_frame {n : Nat} {u : State} (g : Quietly (s.advance n).pushPc u [] 0) :
    ReturnPushed s u n ∧ SameRegs s u [s.offReg s.spReg] ∧ SameFcw s u 0 ∧ SameSpecials s u := by
  obtain ⟨hreturn, ⟨hregs, hfcw, hspecials, -⟩, -⟩ := pushPc_spec s n
  have hpushed := returnPushed_then_quietly s hreturn g
  obtain ⟨gregs, gfcw, gspecials, -⟩ := g
  exact ⟨hpushed, sameRegs_trans hregs gregs, sameFcw_trans hfcw gfcw, sameSpecials_trans hspecials gspecials⟩

theorem call_pushes (m : Mem) (hok : s.accessOk .w (s.addrReg s.spReg) = true) :
    Completes (exec (.call m) s) fun t =>
      ReturnPushed s t (1 + m.words.length)
        ∧ JumpedTo s t ((s.bump s.spReg (-BitVec.ofNat 16 s.returnSize.bytes)).memAddr m)
        ∧ SameRegs s t [s.offReg s.spReg] ∧ SameFcw s t 0 ∧ SameSpecials s t := by
  obtain ⟨-, ⟨-, -, ⟨⟨hplatform, -⟩, -⟩, -, hseg⟩, haddr⟩ := pushPc_spec s (1 + m.words.length)
  obtain ⟨hreturn, hrest⟩ := call_frame s
    (quietly_setPc (s.advance (1 + m.words.length)).pushPc ((s.advance (1 + m.words.length)).pushPc.memAddr m))
  refine ⟨_, whenAligned_true hok _, hreturn, ?_, hrest⟩
  rw [← haddr, JumpedTo, ← State.isZ8001_congr hplatform, ← hseg]
  exact jumpedTo_setPc _ _

theorem calr_pushes (disp : BitVec 12) (hok : s.accessOk .w (s.addrReg s.spReg) = true) :
    Completes (exec (.calr disp) s) fun t =>
      ReturnPushed s t 1 ∧ t.pc = s.pc + 2 - 2 * disp.signExtend 16 ∧ t.pcSeg = s.pcSeg
        ∧ SameRegs s t [s.offReg s.spReg] ∧ SameFcw s t 0 ∧ SameSpecials s t := by
  obtain ⟨-, ⟨-, -, -, hpc, hseg⟩, -⟩ := pushPc_spec s 1
  obtain ⟨hreturn, hrest⟩ := call_frame s (quietly_jumpBy (s.advance 1).pushPc (-(2 * disp.signExtend 16)))
  refine ⟨_, whenAligned_true hok _, hreturn, ?_, hseg, hrest⟩
  rw [BitVec.sub_eq_add_neg]
  exact congrArg (· + _) hpc

/-- Settles O40: the push (`pushPc_spec`), then a jump, which keeps what was pushed. -/
theorem callsPushTheReturnAddress : Obligations.CallsPushTheReturnAddress := fun s hok =>
  ⟨fun m => call_pushes s m hok, fun disp => calr_pushes s disp hok⟩

/-! ### RET (R257) -/

theorem regSpace_spReg : s.regSpace s.spReg = s.space .stack := by
  simp [State.regSpace, State.regClass]

/-- The segment number in the high word of a long word. -/
theorem segOf_highWord (v : Long) : segOf (v.extractLsb' 16 16) = v.extractLsb' 24 7 := by
  refine BitVec.eq_of_getLsbD_eq fun i hi => ?_
  simp [segOf, hi, show 8 + i < 16 by omega, ← Nat.add_assoc]

/-- A pop of the program counter: the stack pointer moves, then the program counter is loaded. -/
theorem quietly_drop_setPc (z : Size) (a : Addr) : Quietly s ((s.drop z s.spReg).setPc a) [s.offReg s.spReg] 0 :=
  quietly_trans (drop_spec s z s.spReg).2.1 (quietly_setPc _ a)

theorem reg_drop_setPc (z : Size) (a : Addr) :
    ((s.drop z s.spReg).setPc a).reg (s.offReg s.spReg) = s.reg (s.offReg s.spReg) + BitVec.ofNat 16 z.bytes := by
  rw [State.reg_setPc, (drop_spec s z s.spReg).1]

theorem popPc_segmented (h : s.segmented = true) :
    let v := s.peek .l (s.space .stack) (s.addrReg s.spReg)
    s.popPc = (s.drop .l s.spReg).setPc ⟨v.extractLsb' 24 7, v.extractLsb' 0 16⟩ := by
  rw [State.popPc, if_pos h, State.top, regSpace_spReg, segOf_highWord]

theorem popPc_nonsegmented (h : s.segmented = false) :
    s.popPc = (s.drop .w s.spReg).setPc ⟨s.codeSeg, s.peek .w (s.space .stack) (s.addrReg s.spReg)⟩ := by
  rw [State.popPc, if_neg (by simp [h]), State.top, regSpace_spReg]

theorem isZ8001_of_segmented (h : s.segmented = true) : s.isZ8001 = true := by
  rw [State.segmented, Bool.and_eq_true] at h
  exact h.1

theorem popPc_spec :
    Quietly s s.popPc [s.offReg s.spReg] 0
      ∧ if s.segmented then
          s.popPc.pcSeg = ((s.peek .l (s.space .stack) (s.addrReg s.spReg)).extractLsb' 24 7)
            ∧ s.popPc.pc = (s.peek .l (s.space .stack) (s.addrReg s.spReg)).extractLsb' 0 16
            ∧ s.popPc.reg (s.offReg s.spReg) = s.reg (s.offReg s.spReg) + 4
        else
          s.popPc.pc = s.peek .w (s.space .stack) (s.addrReg s.spReg) ∧ s.popPc.pcSeg = s.pcSeg
            ∧ s.popPc.reg (s.offReg s.spReg) = s.reg (s.offReg s.spReg) + 2 := by
  cases h : s.segmented with
  | true =>
    rw [popPc_segmented s h]
    obtain ⟨hpc, hseg⟩ := jumpedTo_setPc (s.drop .l s.spReg)
      ⟨(s.peek .l (s.space .stack) (s.addrReg s.spReg)).extractLsb' 24 7,
        (s.peek .l (s.space .stack) (s.addrReg s.spReg)).extractLsb' 0 16⟩
    rw [show (s.drop .l s.spReg).isZ8001 = true from (s.isZ8001_bump _ _).trans (isZ8001_of_segmented s h)] at hseg
    exact ⟨quietly_drop_setPc s .l _, hseg, hpc, reg_drop_setPc s .l _⟩
  | false =>
    rw [popPc_nonsegmented s h]
    have hseg := setPc_codeSeg_pcSeg (s.drop .w s.spReg) (s.peek .w (s.space .stack) (s.addrReg s.spReg))
    rw [show (s.drop .w s.spReg).codeSeg = s.codeSeg from s.codeSeg_bump _ _] at hseg
    exact ⟨quietly_drop_setPc s .w _, rfl, hseg, reg_drop_setPc s .w _⟩

/-- Settles O41: the condition false, RET only passes on; true, it is the pop of `popPc_spec`. -/
theorem returnPopsTheProgramCounter : Obligations.ReturnPopsTheProgramCounter := fun s c =>
  ⟨fun h => ⟨_, if_neg (by simp [h]), frame_advance s 1⟩,
    fun h hok => ⟨_, (if_pos h).trans (whenAligned_true hok _), popPc_spec s⟩⟩

end Sys2Proof.Machine

/-! Program status: IRET and LDPS, the traps that an instruction takes as its own effect, and the return from them. -/

namespace Sys2Proof.Machine

variable (s : State)

/-! ### Loads of the program status (R254, R418) -/

/-- What loading FCW and PC does, whatever the registers become with it. -/
theorem statusLoaded (regs : Vector Word 16) (a : Addr) (w : Word) :
    let t := (State.setPc { s with regs := regs } a).writeFcw w
    FcwLoaded s t w ∧ JumpedTo s t a ∧ SameSpecials s t :=
  ⟨fcwLoaded_writeFcw s w rfl, jumpedTo_setPc s a, by simp [SameSpecials, SameInternals]⟩

theorem returnStatus_z8001 (hz : s.isZ8001 = true) (hseg : s.segmented = true)
    (hok : s.accessOk .w s.systemSp = true) :
    s.returnStatus = .next ((State.setPc { s with regs := s.regs.set 15 (s.regs[15] + 8) }
      ⟨segOf (s.peekWord systemStack (s.systemSp.add 4)), s.peekWord systemStack (s.systemSp.add 6)⟩).writeFcw
        (s.peekWord systemStack (s.systemSp.add 2))) := by
  rw [State.returnStatus, if_pos hz, if_pos hseg]
  exact whenAligned_true hok _

theorem returnStatus_z8002 (hz : s.isZ8001 = false) (hok : s.accessOk .w s.systemSp = true) :
    s.returnStatus = .next ((State.setPc { s with regs := s.regs.set 15 (s.regs[15] + 6) }
      ⟨0, s.peekWord systemStack (s.systemSp.add 4)⟩).writeFcw (s.peekWord systemStack (s.systemSp.add 2))) := by
  rw [State.returnStatus, if_neg (by simp [hz])]
  exact whenAligned_true hok _

theorem iret_loads (hsys : s.system = true) (hseg : s.isZ8001 = true → s.segmented = true)
    (hok : s.accessOk .w s.systemSp = true) :
    Completes (exec .iret s) fun t =>
      FcwLoaded s t (s.peekWord systemStack (s.systemSp.add 2))
        ∧ (if s.isZ8001 then
            JumpedTo s t ⟨segOf (s.peekWord systemStack (s.systemSp.add 4)),
                s.peekWord systemStack (s.systemSp.add 6)⟩
              ∧ t.regs = s.regs.set 15 (s.regs[15] + 8)
          else t.pc = s.peekWord systemStack (s.systemSp.add 4) ∧ t.pcSeg = s.pcSeg
              ∧ t.regs = s.regs.set 15 (s.regs[15] + 6))
        ∧ t.normalR14 = s.normalR14 ∧ t.normalR15 = s.normalR15 ∧ t.mem = s.mem ∧ SameSpecials s t := by
  have hexec : exec .iret s = s.returnStatus := privileged_system s .iret _ hsys
  cases hz : s.isZ8001 with
  | true =>
    obtain ⟨hfcw, hjumped, hspecials⟩ := statusLoaded s (s.regs.set 15 (s.regs[15] + 8))
      ⟨segOf (s.peekWord systemStack (s.systemSp.add 4)), s.peekWord systemStack (s.systemSp.add 6)⟩
      (s.peekWord systemStack (s.systemSp.add 2))
    exact ⟨_, hexec.trans (returnStatus_z8001 s hz (hseg hz) hok), hfcw, ⟨hjumped, rfl⟩, rfl, rfl, rfl, hspecials⟩
  | false =>
    obtain ⟨hfcw, ⟨hpc, hpcSeg⟩, hspecials⟩ := statusLoaded s (s.regs.set 15 (s.regs[15] + 6))
      ⟨0, s.peekWord systemStack (s.systemSp.add 4)⟩ (s.peekWord systemStack (s.systemSp.add 2))
    rw [hz] at hpcSeg
    exact ⟨_, hexec.trans (returnStatus_z8002 s hz hok), hfcw, ⟨hpc, hpcSeg, rfl⟩, rfl, rfl, rfl, hspecials⟩

theorem ldps_loads (m : Mem) (hsys : s.system = true) (hok : s.accessOk .w (s.memAddr m) = true) :
    Completes (exec (.ldps m) s) fun t =>
      (if s.segmented then
          FcwLoaded s t (s.peekWord (s.space .data) ((s.memAddr m).add 2))
            ∧ JumpedTo s t ⟨segOf (s.peekWord (s.space .data) ((s.memAddr m).add 4)),
                s.peekWord (s.space .data) ((s.memAddr m).add 6)⟩
        else
          FcwLoaded s t (s.peekWord (s.space .data) ((s.memAddr m).add 0))
            ∧ t.pc = s.peekWord (s.space .data) ((s.memAddr m).add 2) ∧ t.pcSeg = s.pcSeg)
        ∧ t.regs = s.regs ∧ t.normalR14 = s.normalR14 ∧ t.normalR15 = s.normalR15 ∧ t.mem = s.mem
        ∧ SameSpecials s t := by
  refine ⟨_, (privileged_system s (.ldps m) _ hsys).trans (whenAligned_true hok _), ?_⟩
  cases s.segmented with
  | true =>
    obtain ⟨hfcw, hjumped, hspecials⟩ := statusLoaded s s.regs
      ⟨segOf (s.peekWord (s.space .data) ((s.memAddr m).add 4)), s.peekWord (s.space .data) ((s.memAddr m).add 6)⟩
      (s.peekWord (s.space .data) ((s.memAddr m).add 2))
    exact ⟨⟨hfcw, hjumped⟩, rfl, rfl, rfl, rfl, hspecials⟩
  | false =>
    obtain ⟨hfcw, ⟨hpc, -⟩, hspecials⟩ := statusLoaded s s.regs
      ⟨s.codeSeg, s.peekWord (s.space .data) ((s.memAddr m).add 2)⟩
      (s.peekWord (s.space .data) ((s.memAddr m).add 0))
    exact ⟨⟨hfcw, hpc, setPc_codeSeg_pcSeg s _⟩, rfl, rfl, rfl, rfl, hspecials⟩

/-- Settles O42: in system mode both load FCW and PC (`statusLoaded`) from where their forms find them. -/
theorem programStatusLoads : Obligations.ProgramStatusLoads := ⟨iret_loads, ldps_loads⟩

/-! ### The traps of SC and of the extended instructions (R258, R440, R460, R464) -/

theorem exec_sc (i : Byte) : exec (.sc i) s = s.enter (.trap .systemCall) (0x7F#8 ++ i) ⟨s.codeSeg, s.pc + 2⟩ := rfl

theorem exec_extended_trap (h : s.epa = false) (op : ExtOp) (e : Byte) (e1 : Word) :
    exec (.extended op e e1) s = s.enter (.trap .extended) (op.byte ++ e) ⟨s.codeSeg, s.pc + 2⟩ :=
  if_neg (by simp [h])

/-- An entry that the platform takes completes, with what `Entered` says of it. -/
theorem enter_completes (c : Cause) (ident : Word) (saved : Addr) (hok : s.accessOk .w s.systemSp = true) :
    Completes (s.enter c ident saved) fun t => Entered s t c ident saved ∧ SameSpecials s t := by
  have h : s.enter c ident saved = .next _ := whenAligned_true hok _
  obtain ⟨hentered, hspecials, -⟩ := entered_enter s c ident saved h
  exact ⟨_, h, hentered, hspecials⟩

/-- Settles O51: both are entries, in either mode. -/
theorem systemCallAndExtendedTraps : Obligations.SystemCallAndExtendedTraps := fun s hok =>
  ⟨fun i => exec_sc s i ▸ enter_completes s _ _ _ hok,
    fun h op e e1 => exec_extended_trap s h op e e1 ▸ enter_completes s _ _ _ hok⟩

/-! ### The return from an entry (R254, R482) -/

/-- Whether the platform takes a word access depends on the parity of the address only. -/
theorem accessOk_word_congr {a b : Addr} (h : a.off.getLsbD 0 = b.off.getLsbD 0) :
    s.accessOk .w a = s.accessOk .w b := by
  simp only [State.accessOk, h]

/-- Whole words below the system stack pointer have its parity. -/
theorem accessOk_belowSystemSp (k : Nat) : s.accessOk .w (s.belowSystemSp k) = s.accessOk .w s.systemSp := by
  refine accessOk_word_congr s ?_
  have hlt := s.systemSp.off.isLt
  simp only [State.belowSystemSp, BitVec.getLsbD, Nat.testBit_zero, Addr.add_off, BitVec.toNat_neg,
    BitVec.toNat_ofNat, decide_eq_decide]
  omega

/-- The system stack pointer once it has moved below `n` words. -/
theorem systemSp_eq_below {s t : State} (n : Nat) (hp : t.platform = s.platform)
    (hr : t.regs = s.regs.set 15 (s.belowSystemSp n).off) : t.systemSp = s.belowSystemSp n := by
  simp [State.systemSp, State.belowSystemSp, State.isZ8001_congr hp, hr, Addr.add]

theorem belowSystemSp_add (n j : Nat) :
    (s.belowSystemSp (n + j)).add (BitVec.ofNat 16 (2 * j)) = s.belowSystemSp n := by
  simp only [State.belowSystemSp, Addr.add, Nat.mul_add, BitVec.ofNat_add, BitVec.neg_add, BitVec.sub_eq_add_neg,
    BitVec.add_assoc]
  rw [BitVec.add_comm _ (BitVec.ofNat 16 (2 * j)), BitVec.add_right_neg, BitVec.add_zero]

/-- Moving the system stack pointer back over the words it has moved below. -/
theorem regs_restored {s t : State} (n : Nat) (hr : t.regs = s.regs.set 15 (s.belowSystemSp n).off) :
    t.regs.set 15 (t.regs[15] + BitVec.ofNat 16 (2 * n)) = s.regs := by
  have hoff : (s.belowSystemSp n).off + BitVec.ofNat 16 (2 * n) = s.regs[15] := by
    have h := congrArg Addr.off (belowSystemSp_add s 0 n)
    rw [Nat.zero_add] at h
    exact h.trans (BitVec.add_zero _)
  simp [hr, hoff]

/-- On a Z8002 bit 15 of an FCW is not held, so loading it without that bit is loading it. -/
theorem fcwLoaded_of_masked {s u : State} {w : Word} (hz : s.isZ8001 = false) (h : FcwLoaded s u (w &&& 0x7FFF)) :
    FcwLoaded s u w := by
  intro i hi
  have hbit := h i hi
  rw [BitVec.getLsbD_and] at hbit
  rcases Nat.lt_or_ge i 15 with h15 | h15
  · have hmask : ∀ i < 15, (0x7FFF : Word).getLsbD i = true := by decide
    rwa [hmask i h15, Bool.and_true] at hbit
  · obtain rfl : i = 15 := by omega
    simpa [fcwReservedBit, hz] using hbit

theorem fcwLoaded_of_platform {s t u : State} {w : Word} (hp : t.platform = s.platform) (h : FcwLoaded t u w) :
    FcwLoaded s u w := by
  rwa [FcwLoaded, State.isZ8001_congr hp] at h

/-- The frame of a Z8001 as IRET finds it, from the new stack pointer up. -/
theorem frame_read_z8001 {s t : State} {saved : Addr} {ident : Word} (hz : s.isZ8001 = true)
    (hsp : t.systemSp = s.belowSystemSp 4)
    (h : FrameWords s saved ident fun k => t.peekWord systemStack (s.belowSystemSp k)) :
    t.peekWord systemStack (t.systemSp.add 2) = s.fcw
      ∧ segOf (t.peekWord systemStack (t.systemSp.add 4)) = saved.seg
      ∧ t.peekWord systemStack (t.systemSp.add 6) = saved.off := by
  obtain ⟨hoff, hrest⟩ := h
  rw [if_pos hz] at hrest
  obtain ⟨hsegment, hfcw, -⟩ := hrest
  rw [hsp, show (s.belowSystemSp 4).add 2 = s.belowSystemSp 3 from belowSystemSp_add s 3 1,
    show (s.belowSystemSp 4).add 4 = s.belowSystemSp 2 from belowSystemSp_add s 2 2,
    show (s.belowSystemSp 4).add 6 = s.belowSystemSp 1 from belowSystemSp_add s 1 3]
  exact ⟨hfcw, hsegment, hoff⟩

/-- The frame of a Z8002 as IRET finds it. -/
theorem frame_read_z8002 {s t : State} {saved : Addr} {ident : Word} (hz : s.isZ8001 = false)
    (hsp : t.systemSp = s.belowSystemSp 3)
    (h : FrameWords s saved ident fun k => t.peekWord systemStack (s.belowSystemSp k)) :
    t.peekWord systemStack (t.systemSp.add 2) = s.fcw &&& 0x7FFF
      ∧ t.peekWord systemStack (t.systemSp.add 4) = saved.off := by
  obtain ⟨hoff, hrest⟩ := h
  rw [if_neg (by simp [hz])] at hrest
  obtain ⟨hfcw, -⟩ := hrest
  rw [hsp, show (s.belowSystemSp 3).add 2 = s.belowSystemSp 2 from belowSystemSp_add s 2 1,
    show (s.belowSystemSp 3).add 4 = s.belowSystemSp 1 from belowSystemSp_add s 1 2]
  exact ⟨hfcw, hoff⟩

/-- IRET takes back any entry whose handler runs in system mode, on a Z8001 segmented. -/
theorem iret_after_entry {s t : State} {c : Cause} {ident : Word} {saved : Addr} (hentered : Entered s t c ident saved)
    (hspecials : SameSpecials s t) (hok : s.accessOk .w s.systemSp = true) (hstorage : Storage s s.frameCells)
    (hsys : t.system = true) (hseg : t.isZ8001 = true → t.segmented = true) :
    Completes (exec .iret t) fun u =>
      JumpedTo s u saved ∧ u.regs = s.regs ∧ u.normalR14 = s.normalR14 ∧ u.normalR15 = s.normalR15
        ∧ FcwLoaded s u s.fcw := by
  obtain ⟨⟨hframe, -, hregs⟩, h14, h15, -, -, hpcSeg⟩ := hentered
  obtain ⟨⟨hplatform, -⟩, -⟩ := hspecials
  have hwords := hframe hstorage
  have hsp := systemSp_eq_below _ hplatform hregs
  have hz := State.isZ8001_congr hplatform
  have htok : t.accessOk .w t.systemSp = true := by
    rw [hsp, State.accessOk_congr hplatform, accessOk_belowSystemSp, hok]
  obtain ⟨u, hexec, hfcw, hpc, hu14, hu15, -⟩ := iret_loads t hsys hseg htok
  refine ⟨u, hexec, ?_⟩
  cases hzs : s.isZ8001 with
  | true =>
    rw [State.frameLength, if_pos hzs] at hsp hregs
    obtain ⟨hw2, hw4, hw6⟩ := frame_read_z8001 hzs hsp hwords
    rw [hz, if_pos hzs, JumpedTo, hw4, hw6, hz] at hpc
    rw [hw2] at hfcw
    obtain ⟨⟨hupc, huseg⟩, huregs⟩ := hpc
    rw [hzs] at huseg
    exact ⟨⟨hupc, by rw [hzs]; exact huseg⟩, huregs.trans (regs_restored 4 hregs), hu14.trans h14, hu15.trans h15,
      fcwLoaded_of_platform hplatform hfcw⟩
  | false =>
    rw [State.frameLength, if_neg (by simp [hzs])] at hsp hregs
    obtain ⟨hw2, hw4⟩ := frame_read_z8002 hzs hsp hwords
    rw [hz, if_neg (by simp [hzs]), hw4] at hpc
    rw [hw2] at hfcw
    obtain ⟨hupc, huseg, huregs⟩ := hpc
    rw [hzs] at hpcSeg
    exact ⟨⟨hupc, by rw [hzs]; exact huseg.trans hpcSeg⟩, huregs.trans (regs_restored 3 hregs), hu14.trans h14,
      hu15.trans h15, fcwLoaded_of_masked hzs (fcwLoaded_of_platform hplatform hfcw)⟩

/-- Settles O54: an SC is an entry, which saves the address after it, and IRET takes the entry back. -/
theorem returnUndoesEntry : Obligations.ReturnUndoesEntry := by
  intro s t i hok hstorage hexec hsys hseg
  obtain ⟨hentered, hspecials, -⟩ := entered_enter s _ _ _ ((exec_sc s i).symm.trans hexec)
  obtain ⟨u, hu, ⟨hpc, hpcSeg⟩, hrest⟩ := iret_after_entry hentered hspecials hok hstorage hsys hseg
  exact ⟨u, hu, hpc, hpcSeg.trans (setPc_codeSeg_pcSeg s (s.pc + 2)), hrest⟩

end Sys2Proof.Machine

/-! Bit manipulation: the bit that SET and RES write, the test and set of TSET, and bit 0 by TCC's condition. -/

namespace Sys2Proof.Machine

/-! ### SET and RES (R280, R282, R283) -/

theorem getLsbD_bitMask {z : Size} (n : Nat) {i : Nat} (hi : i < z.bits) :
    (bitMask z n).getLsbD i = decide (i = n) := by
  show (BitVec.twoPow z.bits n).getLsbD i = _
  rw [BitVec.getLsbD_twoPow, Bool.eq_iff_iff]
  simp only [Bool.and_eq_true, decide_eq_true_eq]
  omega

/-- The operand with bit `n` set. -/
theorem getLsbD_or_bitMask {z : Size} (x : BitVec z.bits) (n : Nat) {i : Nat} (hi : i < z.bits) :
    (x ||| bitMask z n).getLsbD i = if i = n then true else x.getLsbD i := by
  rw [BitVec.getLsbD_or, getLsbD_bitMask n hi]
  by_cases h : i = n <;> simp [h]

/-- The operand with bit `n` reset. -/
theorem getLsbD_and_not_bitMask {z : Size} (x : BitVec z.bits) (n : Nat) {i : Nat} (hi : i < z.bits) :
    (x &&& ~~~bitMask z n).getLsbD i = if i = n then false else x.getLsbD i := by
  rw [BitVec.getLsbD_and, BitVec.getLsbD_not, getLsbD_bitMask n hi]
  by_cases h : i = n <;> simp [h, hi]

/-- A destination operand is written, no flag. -/
theorem writes_dst_only (s : State) (z : Size) (d : Dst) (v : BitVec z.bits) (n : Nat) :
    Writes s ((s.setDst z d v).advance n) z d v 0 n := by
  cases d with
  | reg r => exact writes_reg_only s z r v n
  | mem m => exact stores s z (s.memSpace m) (s.memAddr m) v n

/-- An instruction that is `State.bitWrite` with the operand `f` makes of it and the bit number. -/
theorem bitWriteClaim_of_bitWrite {z : Size} {b : Bool} {make : BitArgs → Instr}
    (f : BitVec z.bits → Nat → BitVec z.bits)
    (hexec : ∀ a s, exec (make a) s = s.bitWrite z a (f (s.dst z (bitDst a)) (s.bitNumber z a)))
    (hbit : ∀ x n i, i < z.bits → (f x n).getLsbD i = if i = n then b else x.getLsbD i) :
    BitWriteClaim z b make := fun s a hok =>
  ⟨_, (hexec a s).trans (whenAligned_true hok _), _, hbit _ _, writes_dst_only s z (bitDst a) _ _⟩

theorem bitWriteClaim_of_set {z : Size} {make : BitArgs → Instr}
    (hexec : ∀ a s, exec (make a) s = s.bitWrite z a (s.dst z (bitDst a) ||| bitMask z (s.bitNumber z a))) :
    BitWriteClaim z true make :=
  bitWriteClaim_of_bitWrite (fun x n => x ||| bitMask z n) hexec fun x n _ => getLsbD_or_bitMask x n

theorem bitWriteClaim_of_res {z : Size} {make : BitArgs → Instr}
    (hexec : ∀ a s, exec (make a) s = s.bitWrite z a (s.dst z (bitDst a) &&& ~~~bitMask z (s.bitNumber z a))) :
    BitWriteClaim z false make :=
  bitWriteClaim_of_bitWrite (fun x n => x &&& ~~~bitMask z n) hexec fun x n _ => getLsbD_and_not_bitMask x n

/-! ### TSET (R284) -/

theorem sameFcw_setSign (s : State) (b : Bool) : SameFcw s (s.setFlags { s.flags with s := b }) 0x0020 :=
  sameFcw_setFlags s _ _ (fun _ => rfl) (fun _ => rfl) (fun h => absurd h (by decide)) (fun _ => rfl) (fun _ => rfl)
    (fun _ => rfl)

/-- An instruction that writes `ones` and moves the operand's old top bit to S. -/
theorem modifyClaim_of_tset {z : Size} {make : Dst → Instr} {ones : BitVec z.bits}
    (hexec : ∀ d s, exec (make d) s = s.modify z d ones { s.flags with s := (s.dst z d).msb }) :
    ModifyClaim z make (fun _ => ones) 0x0020 fun x _ f => f.s = x.msb :=
  modifyClaim_of_modify (fun x old => { old with s := x.msb }) hexec (fun s x => sameFcw_setSign s x.msb)
    fun _ _ => rfl

/-! ### TCC (R235) -/

/-- A register that is not written holds what it held. -/
theorem writes_reg_unchanged (s : State) (z : Size) (d : Reg) (n : Nat) :
    Writes s (s.advance n) z (.reg d) (s.regOf z d) 0 n :=
  ⟨⟨by simp, fun _ k _ => congrFun (State.regByte_congr (State.reg_advance s n)) k⟩,
    quietly_mono (quietly_advance s n) (List.nil_subset _), passed_advance s n⟩

theorem tcc_writes (s : State) (z : Size) (c : Cond) (d : Reg) :
    Completes (s.tcc z c d) fun t =>
      Writes s t z (.reg d) (if s.flags.holds c then s.regOf z d ||| 1#z.bits else s.regOf z d) 0 1 := by
  refine ⟨_, rfl, ?_⟩
  by_cases hc : s.flags.holds c = true
  · simp only [if_pos hc]
    exact writes_reg_only s z d _ 1
  · simp only [if_neg hc]
    exact writes_reg_unchanged s z d 1

/-- Settles O35: SET and RES write one bit (`getLsbD_or_bitMask`, `getLsbD_and_not_bitMask`), TSET is `State.modify`,
TCC writes bit 0 or nothing. -/
theorem bitsAreSetAndReset : Obligations.BitsAreSetAndReset :=
  ⟨bitWriteClaim_of_set fun _ _ => rfl, bitWriteClaim_of_set fun _ _ => rfl,
    bitWriteClaim_of_res fun _ _ => rfl, bitWriteClaim_of_res fun _ _ => rfl,
    bitNumberClaim_holds,
    modifyClaim_of_tset fun _ _ => rfl, modifyClaim_of_tset fun _ _ => rfl,
    fun s c d => ⟨tcc_writes s .b c d, tcc_writes s .w c d⟩⟩

end Sys2Proof.Machine

/-! Rotate and shift instructions: rotations of N and of N + 1 bits position by position, the digit rotations, shifts as
numbers. -/

namespace Sys2Proof.Machine

/-! ### Rotations position by position (R302, R303, R305, R306) -/

section

variable {n : Nat} (x : BitVec n)

theorem rotateLeft_rotateLeft {j k : Nat} (h : j + k < n) : (x.rotateLeft j).rotateLeft k = x.rotateLeft (j + k) := by
  ext i hi
  simp only [BitVec.getElem_rotateLeft, Nat.mod_eq_of_lt h, Nat.mod_eq_of_lt (show j < n by omega),
    Nat.mod_eq_of_lt (show k < n by omega)]
  rcases Nat.lt_or_ge i k with hk | hk
  · simp [hk, show ¬n - k + i < j by omega, show i < j + k by omega, show n - k + i - j = n - (j + k) + i by omega]
  · by_cases hj : i < j + k
    · simp [hj, show ¬i < k by omega, show i - k < j by omega, show n - j + (i - k) = n - (j + k) + i by omega]
    · simp [hj, show ¬i < k by omega, show ¬i - k < j by omega, show i - k - j = i - (j + k) by omega]

theorem rotateRight_rotateRight {j k : Nat} (h : j + k < n) :
    (x.rotateRight j).rotateRight k = x.rotateRight (j + k) := by
  ext i hi
  simp only [BitVec.getElem_rotateRight, Nat.mod_eq_of_lt h, Nat.mod_eq_of_lt (show j < n by omega),
    Nat.mod_eq_of_lt (show k < n by omega)]
  rcases Nat.lt_or_ge i (n - k) with hk | hk
  · by_cases hj : i < n - (j + k)
    · simp [hk, hj, show k + i < n - j by omega, show j + (k + i) = j + k + i by omega]
    · simp [hk, hj, show ¬k + i < n - j by omega, show k + i - (n - j) = i - (n - (j + k)) by omega]
  · simp [hk, show i - (n - k) < n - j by omega, show ¬i < n - (j + k) by omega,
      show j + (i - (n - k)) = i - (n - (j + k)) by omega]

theorem getLsbD_rotateLeft_one (hn : 1 < n) {i : Nat} (hi : i < n) :
    (x.rotateLeft 1).getLsbD i = if i = 0 then x.getLsbD (n - 1) else x.getLsbD (i - 1) := by
  rw [BitVec.getLsbD_rotateLeft, Nat.mod_eq_of_lt hn]
  rcases Nat.eq_zero_or_pos i with rfl | hpos
  · simp
  · simp [hi, hpos.ne', show ¬i < 1 by omega]

theorem getLsbD_rotateRight_one (hn : 1 < n) {i : Nat} (hi : i < n) :
    (x.rotateRight 1).getLsbD i = if i = n - 1 then x.getLsbD 0 else x.getLsbD (1 + i) := by
  rw [BitVec.getLsbD_rotateRight, Nat.mod_eq_of_lt hn]
  by_cases htop : i = n - 1
  · subst htop
    simp [hi]
  · simp [htop, show i < n - 1 by omega]

/-- `x` moved up by one position, with `b` entering at bit 0. -/
theorem getLsbD_enter_low (b : Bool) {i : Nat} (hi : i < n) :
    ((x <<< 1) ||| (BitVec.ofBool b).setWidth n).getLsbD i = if i = 0 then b else x.getLsbD (i - 1) := by
  simp only [BitVec.getLsbD_or, BitVec.getLsbD_shiftLeft, BitVec.getLsbD_setWidth, BitVec.getLsbD_ofBool, hi]
  rcases Nat.eq_zero_or_pos i with rfl | hpos
  · simp
  · simp [hpos.ne', show ¬i < 1 by omega]

/-- `x` moved down by one position, with `b` entering at the top. -/
theorem getLsbD_enter_top (b : Bool) {i : Nat} (hi : i < n) :
    ((x >>> 1) ||| ((BitVec.ofBool b).setWidth n <<< (n - 1))).getLsbD i
      = if i = n - 1 then b else x.getLsbD (1 + i) := by
  simp only [BitVec.getLsbD_or, BitVec.getLsbD_shiftLeft, BitVec.getLsbD_ushiftRight, BitVec.getLsbD_setWidth,
    BitVec.getLsbD_ofBool, hi]
  by_cases htop : i = n - 1
  · subst htop
    simp [show 1 + (n - 1) = n by omega, show 0 < n by omega]
  · simp [htop, show i < n - 1 by omega]

theorem getLsbD_carry_append (c : Bool) (i : Nat) :
    (BitVec.ofBool c ++ x).getLsbD i = if i < n then x.getLsbD i else decide (i = n) && c := by
  rw [BitVec.getLsbD_append, BitVec.getLsbD_ofBool]
  split
  · rfl
  · congr 2
    simp only [eq_iff_iff]
    omega

variable (c : Bool)

/-! ### One position: each predicate of the rules holds of the model's step. -/

theorem rotatedLeft_one (hn : 1 < n) : RotatedLeft x c 1 (rotateLeft1 x c).1 (rotateLeft1 x c).2 := by
  have hbits : (rotateLeft1 x c).1 = x.rotateLeft 1 := by
    refine BitVec.eq_of_getLsbD_eq fun i hi => ?_
    rw [getLsbD_rotateLeft_one x hn hi, rotateLeft1, getLsbD_enter_low x _ hi, BitVec.msb_eq_getLsbD_last]
  refine ⟨hbits, ?_⟩
  rw [hbits, getLsbD_rotateLeft_one x hn (by omega), if_pos rfl]
  exact BitVec.msb_eq_getLsbD_last x

theorem rotatedRight_one (hn : 1 < n) : RotatedRight x c 1 (rotateRight1 x c).1 (rotateRight1 x c).2 := by
  have hbits : (rotateRight1 x c).1 = x.rotateRight 1 := by
    refine BitVec.eq_of_getLsbD_eq fun i hi => ?_
    rw [getLsbD_rotateRight_one x hn hi, rotateRight1, getLsbD_enter_top x _ hi]
  refine ⟨hbits, ?_⟩
  rw [hbits, BitVec.msb_eq_getLsbD_last, getLsbD_rotateRight_one x hn (by omega), if_pos rfl]
  rfl

theorem rotatedLeftThroughCarry_one (hn : 0 < n) :
    RotatedLeftThroughCarry x c 1 (rotateLeftCarry1 x c).1 (rotateLeftCarry1 x c).2 := by
  refine BitVec.eq_of_getLsbD_eq fun i hi => ?_
  rw [getLsbD_rotateLeft_one _ (by omega) hi]
  simp only [getLsbD_carry_append, rotateLeftCarry1]
  by_cases hlow : i < n
  · rw [if_pos hlow, getLsbD_enter_low x c hlow]
    simp [show i - 1 < n by omega]
  · have htop : i = n := by omega
    simp [htop, hn, hn.ne', BitVec.msb_eq_getLsbD_last]

theorem rotatedRightThroughCarry_one (hn : 0 < n) :
    RotatedRightThroughCarry x c 1 (rotateRightCarry1 x c).1 (rotateRightCarry1 x c).2 := by
  refine BitVec.eq_of_getLsbD_eq fun i hi => ?_
  rw [getLsbD_rotateRight_one _ (by omega) hi]
  simp only [getLsbD_carry_append, rotateRightCarry1]
  by_cases hlow : i < n
  · rw [if_pos hlow, getLsbD_enter_top x c hlow]
    by_cases hlast : i = n - 1
    · simp [hlast, show 1 + (n - 1) = n by omega, show n - 1 ≠ n by omega]
    · simp [hlast, show 1 + i < n by omega, show i ≠ n by omega]
  · have htop : i = n := by omega
    simp [htop, hn]

variable {x c} {y r : BitVec n} {d e : Bool}

/-! ### Two positions are one and one. -/

theorem rotatedLeft_two (hn : 2 < n) (h : RotatedLeft x c 1 y d) (g : RotatedLeft y d 1 r e) :
    RotatedLeft x c 2 r e := by
  obtain ⟨rfl, -⟩ := h
  obtain ⟨rfl, he⟩ := g
  exact ⟨rotateLeft_rotateLeft x hn, he⟩

theorem rotatedRight_two (hn : 2 < n) (h : RotatedRight x c 1 y d) (g : RotatedRight y d 1 r e) :
    RotatedRight x c 2 r e := by
  obtain ⟨rfl, -⟩ := h
  obtain ⟨rfl, he⟩ := g
  exact ⟨rotateRight_rotateRight x hn, he⟩

theorem rotatedLeftThroughCarry_two (hn : 1 < n) (h : RotatedLeftThroughCarry x c 1 y d)
    (g : RotatedLeftThroughCarry y d 1 r e) : RotatedLeftThroughCarry x c 2 r e :=
  calc BitVec.ofBool e ++ r = (BitVec.ofBool d ++ y).rotateLeft 1 := g
    _ = ((BitVec.ofBool c ++ x).rotateLeft 1).rotateLeft 1 := by rw [← h]
    _ = (BitVec.ofBool c ++ x).rotateLeft 2 := rotateLeft_rotateLeft _ (by omega)

theorem rotatedRightThroughCarry_two (hn : 1 < n) (h : RotatedRightThroughCarry x c 1 y d)
    (g : RotatedRightThroughCarry y d 1 r e) : RotatedRightThroughCarry x c 2 r e :=
  calc BitVec.ofBool e ++ r = (BitVec.ofBool d ++ y).rotateRight 1 := g
    _ = ((BitVec.ofBool c ++ x).rotateRight 1).rotateRight 1 := by rw [← h]
    _ = (BitVec.ofBool c ++ x).rotateRight 2 := rotateRight_rotateRight _ (by omega)

end

/-! ### RL, RR, RLC and RRC -/

/-- An instruction that is `State.rotateReg` with the step `one`, where `post` holds of one step and of two in a row. -/
theorem rotateClaim_of_rotateReg {z : Size} {make : Reg → Bool → Instr}
    {one : BitVec z.bits → Bool → BitVec z.bits × Bool}
    {post : BitVec z.bits → Bool → Nat → BitVec z.bits → Bool → Prop}
    (hexec : ∀ d two s, exec (make d two) s = s.rotateReg z one d two)
    (hone : ∀ x c, post x c 1 (one x c).1 (one x c).2)
    (htwo : ∀ {x c y d r e}, post x c 1 y d → post y d 1 r e → post x c 2 r e) : RotateClaim z make post := by
  intro s d two
  have hpost : ∀ x c, post x c (positions two) (rotate one two x c).1 (rotate one two x c).2 := fun x c => by
    cases two with
    | false => exact hone x c
    | true => exact htwo (hone x c) (hone _ _)
  obtain ⟨hwrites, hflags⟩ := writes_reg s z d (rotate one two (s.regOf z d) s.flags.c).1
    (rotateFlags (s.regOf z d) (rotate one two (s.regOf z d) s.flags.c) s.flags) 1 flagMask
    (sameFcw_setFlags_czsv s _ rfl rfl)
  refine ⟨_, hexec d two s, _, ?_, ?_, hwrites⟩ <;> rw [hflags]
  · exact hpost _ _
  · simp [RotateFlags, ZeroSign, rotateFlags]

/-- Settles O36: each is `State.rotateReg`, one step of which rotates by one position; two steps rotate by two. -/
theorem rotatesMoveBits : Obligations.RotatesMoveBits :=
  ⟨rotateClaim_of_rotateReg (fun _ _ _ => rfl) (rotatedLeft_one · · (by decide)) (rotatedLeft_two (by decide)),
    rotateClaim_of_rotateReg (fun _ _ _ => rfl) (rotatedLeft_one · · (by decide)) (rotatedLeft_two (by decide)),
    rotateClaim_of_rotateReg (fun _ _ _ => rfl) (rotatedRight_one · · (by decide)) (rotatedRight_two (by decide)),
    rotateClaim_of_rotateReg (fun _ _ _ => rfl) (rotatedRight_one · · (by decide)) (rotatedRight_two (by decide)),
    rotateClaim_of_rotateReg (fun _ _ _ => rfl) (rotatedLeftThroughCarry_one · · (by decide))
      (rotatedLeftThroughCarry_two (by decide)),
    rotateClaim_of_rotateReg (fun _ _ _ => rfl) (rotatedLeftThroughCarry_one · · (by decide))
      (rotatedLeftThroughCarry_two (by decide)),
    rotateClaim_of_rotateReg (fun _ _ _ => rfl) (rotatedRightThroughCarry_one · · (by decide))
      (rotatedRightThroughCarry_two (by decide)),
    rotateClaim_of_rotateReg (fun _ _ _ => rfl) (rotatedRightThroughCarry_one · · (by decide))
      (rotatedRightThroughCarry_two (by decide))⟩

/-! ### RLDB and RRDB (R304, R307) -/

/-- Source and link are written, Z says that the link is 0 and S is open: what both digit rotations do. -/
theorem digits_written (s : State) {l q : Reg} (h : l ≠ q) (src link : Byte) :
    let t := (((s.setRegOf .b q src).setRegOf .b l link).setFlags (s.digitFlags link)).advance 1
    t.regByte q = src ∧ t.regByte l = link ∧ (t.flags.z = true ↔ t.regByte l = 0)
      ∧ (∀ k, k ≠ l → k ≠ q → t.regByte k = s.regByte k) ∧ Frame s t [l &&& 7, q &&& 7] 0x0060 1 := by
  have hfcw : SameFcw (s.setRegOf .b q src) ((s.setRegOf .b q src).setFlags (s.digitFlags link)) 0x0060 :=
    sameFcw_setFlags _ _ _ (fun _ => rfl) (fun h => absurd h (by decide)) (fun h => absurd h (by decide))
      (fun _ => rfl) (fun _ => rfl) (fun _ => rfl)
  obtain ⟨⟨⟨hlink, hbytes⟩, hquiet, hpassed⟩, hflags⟩ :=
    writes_reg (s.setRegOf .b q src) .b l link (s.digitFlags link) 1 0x0060 hfcw
  have hothers : ∀ k, k ≠ l → _ = (s.setRegOf .b q src).regOf .b k := hbytes rfl
  refine ⟨?_, hlink, ?_, fun k hl hq => ?_, ?_, ?_⟩
  · exact (hothers q h.symm).trans (s.regOf_setRegOf .b q src)
  · rw [hflags, show State.regByte _ l = link from hlink]
    exact beq_iff_eq
  · exact (hothers k hl).trans (regOf_setRegOf_other (z := .b) s (by decide) hq src)
  · have hsource := quietly_of_mask_zero s (quietly_setRegOf s .b q src) 0x0060
    exact quietly_mono (quietly_trans hsource hquiet) (by simp [wordRegs])
  · exact passed_after (passed_setRegOf s .b q src) hpassed

/-- Settles O37: `digits_written` with the digits of R304 and of R307. -/
theorem digitRotates : Obligations.DigitRotates := fun s _ _ h =>
  ⟨⟨_, rfl, digits_written s h _ _⟩, ⟨_, rfl, digits_written s h _ _⟩⟩

/-! ### Shifts as numbers (R310 to R313) -/

section

variable {n : Nat} (x : BitVec n) (k : Int)

theorem shiftedBy_shiftResult (arith : Bool) : ShiftedBy n arith x k (shiftResult arith x k) := by
  unfold ShiftedBy shiftResult
  split
  · rw [BitVec.toNat_shiftLeft, Nat.shiftLeft_eq]
  · cases arith with
    | true =>
      simp only [if_true]
      rw [BitVec.toInt_sshiftRight, Int.shiftRight_eq_div_pow, Nat.cast_pow, Nat.cast_ofNat]
    | false =>
      simp only [Bool.false_eq_true, if_false]
      rw [BitVec.toNat_ushiftRight, Nat.shiftRight_eq_div_pow]

theorem shiftedOut_shiftCarry (c : Bool) : ShiftedOut n x k c (shiftCarry x k c) := by
  refine ⟨?_, fun hpos => if_pos hpos, fun hneg => ?_⟩
  · rintro rfl
    rfl
  · rw [shiftCarry, if_neg (by omega), if_pos hneg]

theorem leftOverflow_iff (j : Nat) : leftOverflow x j = true ↔ ∃ i ≤ j, x.getMsbD i ≠ x.msb := by
  simp [leftOverflow]

theorem legalCount_iff : legalCount n k = true ↔ -(n : Int) ≤ k ∧ k ≤ n := by simp [legalCount]

end

variable (s : State)

theorem countOk_iff (z : Size) (k : Int) :
    s.countOk z k = true ↔ legalCount z.bits k = true ∨ s.platform.shiftCount = .run := by
  simp [State.countOk]

/-- What a shift that runs leaves; the rules of R310 to R313 hold where the count is legal. -/
theorem shift_writes (z : Size) (arith : Bool) (d : Reg) (k : Int) :
    let x := s.regOf z d
    let t := ((s.setRegOf z d (s.shifted z arith x k)).setFlags (s.shiftFlags z arith x k)).advance 2
    Writes s t z (.reg d) (s.shifted z arith x k) flagMask 2 ∧ t.flags = s.shiftFlags z arith x k :=
  writes_reg s z d _ _ 2 flagMask (sameFcw_setFlags_czsv s _ rfl rfl)

theorem zeroSign_shiftFlags (z : Size) (arith : Bool) (x : BitVec z.bits) (k : Int) :
    ZeroSign (s.shifted z arith x k) (s.shiftFlags z arith x k) := by
  simp [ZeroSign, State.shiftFlags]

variable {s} {z : Size} {arith : Bool} {x : BitVec z.bits} {k : Int}

theorem shifted_legal (h : legalCount z.bits k = true) : s.shifted z arith x k = shiftResult arith x k := if_pos h

theorem shiftFlags_c_legal (h : legalCount z.bits k = true) :
    (s.shiftFlags z arith x k).c = shiftCarry x k s.flags.c := if_pos h

theorem shiftFlags_v_right (h : legalCount z.bits k = true) (hk : k < 0) : (s.shiftFlags z true x k).v = false := by
  simp [State.shiftFlags, State.shiftV, h, hk]

theorem shiftFlags_v_left (h : legalCount z.bits k = true) (hk : 0 ≤ k) :
    (s.shiftFlags z true x k).v = leftOverflow x k.toNat := by
  simp [State.shiftFlags, State.shiftV, h, not_lt.mpr hk]

/-- An instruction that is `State.shift` by the count `k`. -/
theorem shifts_of_shift {i : Instr} {d : Reg} (hexec : exec i s = s.shift z arith d k) : Shifts z arith s i d k := by
  simp only [Shifts, ← legalCount_iff]
  refine ⟨fun hlegal hrefuse => ?_, fun hruns => ?_⟩
  · have hstops : ¬s.countOk z k = true := by simp [countOk_iff, hlegal, hrefuse]
    exact hexec.trans (if_neg hstops)
  · obtain ⟨hwrites, hflags⟩ := shift_writes s z arith d k
    refine ⟨_, hexec.trans (if_pos ((countOk_iff s z k).mpr hruns)), _, hwrites, ?_⟩
    rw [hflags]
    refine ⟨zeroSign_shiftFlags s z arith _ k, fun hlegal => ⟨?_, ?_, ?_, ?_⟩⟩
    · rw [shifted_legal hlegal]
      exact shiftedBy_shiftResult _ k arith
    · rw [shiftFlags_c_legal hlegal]
      exact shiftedOut_shiftCarry _ k _
    · rintro rfl hneg
      exact shiftFlags_v_right hlegal hneg
    · rintro rfl hpos
      rw [shiftFlags_v_left hlegal hpos]
      exact leftOverflow_iff _ _

/-- Settles O38: every static and dynamic shift is `State.shift`, by its count word or its count register. -/
theorem shiftsMoveBits : Obligations.ShiftsMoveBits := by
  unfold Obligations.ShiftsMoveBits
  and_intros <;> exact fun _ _ _ => shifts_of_shift rfl

end Sys2Proof.Machine

/-! Block, string and translate instructions: the pointers that an iteration moves, what its end leaves, and the element
that each instruction compares, copies or translates. -/

namespace Sys2Proof.Machine

section

variable {s t u : State}

/-! ### What the parts of an iteration are made of -/

theorem fcw_of_mask_zero (h : SameFcw s t 0) : t.fcw = s.fcw := by
  rwa [SameFcw, show ~~~(0 : Word) = BitVec.allOnes 16 from rfl, BitVec.and_allOnes, BitVec.and_allOnes] at h

/-- Address registers are pairs as before where the platform and the FCW are. -/
theorem offReg_of_storeFrame {rs : List Reg} {n : Nat} (h : StoreFrame s t rs 0 n) : t.offReg = s.offReg := by
  obtain ⟨-, hfcw, ⟨⟨hplatform, -⟩, -⟩, -⟩ := h
  exact State.offReg_congr (State.segmented_congr hplatform (fcw_of_mask_zero hfcw))

theorem not_mem_pair {q x y : Reg} (hx : q ≠ x) (hy : q ≠ y) : q ∉ [x, y] :=
  List.not_mem_cons_of_ne_of_not_mem hx (List.not_mem_cons_of_ne_of_not_mem hy List.not_mem_nil)

theorem bits_pos (z : Size) : 0 < z.bits := by
  cases z <;> decide

theorem storeFrame_refl (s : State) : StoreFrame s s [] 0 0 := by
  have h := storeFrame_of_frame (frame_advance s 0)
  rwa [advance_zero] at h

/-- A byte register lies in one word register (R22). -/
theorem regByte_of_sameRegs {rs : List Reg} {k : Reg} (h : SameRegs s t rs) (hk : k &&& 7 ∉ rs) :
    t.regByte k = s.regByte k := by
  simp only [State.regByte, h.1 _ hk]

theorem storeFrame_setRegByte (s : State) (k : Reg) (v : Byte) : StoreFrame s (s.setRegByte k v) [k &&& 7] 0 0 :=
  storeFrame_of_frame ⟨quietly_setRegOf s .b k v, passed_setRegOf s .b k v⟩

@[simp] theorem peekByte_setRegByte (s : State) (k : Reg) (v : Byte) : (s.setRegByte k v).peekByte = s.peekByte :=
  s.peekByte_setReg _ _

theorem poke_byte (s : State) (sp : Space) (a : Addr) (v : Byte) : s.poke .b sp a v = s.pokeByte sp a v := rfl

/-! ### Moving a pointer (R331, R123) -/

theorem storeFrame_bump (s : State) (p : Reg) (w : Word) : StoreFrame s (s.bump p w) [s.offReg p] 0 0 :=
  storeFrame_of_frame ⟨quietly_setRegOf s .w _ _, passed_setRegOf s .w _ _⟩

/-- As `storeFrame_bump`, in a state that an iteration of `s` has reached. -/
theorem storeFrame_bump_reached {rs : List Reg} (h : StoreFrame s u rs 0 0) (p : Reg) (w : Word) :
    StoreFrame u (u.bump p w) [s.offReg p] 0 0 := by
  rw [← offReg_of_storeFrame h]
  exact storeFrame_bump u p w

/-- An offset register that is as before when it moves has moved from where it was. -/
theorem moved_bump {rs : List Reg} {p : Reg} (h : StoreFrame s u rs 0 0) (hp : s.offReg p ∉ rs) (z : Size) (up : Bool) :
    Moved s (u.bump p (stride z up)) z up p := by
  have hmoved := u.reg_bump_same p (stride z up)
  rw [offReg_of_storeFrame h] at hmoved
  obtain ⟨⟨hregs, -⟩, -⟩ := h
  rw [Moved, hmoved, hregs _ hp, stride_add]

theorem storeFrame_then_bump {rs : List Reg} (h : StoreFrame s u rs 0 0) (p : Reg) (w : Word) :
    StoreFrame s (u.bump p w) (rs ++ [s.offReg p]) 0 0 :=
  storeFrame_after h (storeFrame_bump_reached h p w)

/-- Changes of other registers leave the pointer where it has moved. -/
theorem Moved.kept {rs : List Reg} {z : Size} {up : Bool} {p : Reg} (h : Moved s t z up p) (g : SameRegs t u rs)
    (hp : s.offReg p ∉ rs) : Moved s u z up p :=
  (g.1 _ hp).trans h

/-- Two pointers move, each from where it was. -/
theorem moved_both {p d : Reg} (h : StoreFrame s u [] 0 0) (hne : s.offReg p ≠ s.offReg d) (z : Size) (up : Bool) :
    Moved s ((u.bump p (stride z up)).bump d (stride z up)) z up p
      ∧ Moved s ((u.bump p (stride z up)).bump d (stride z up)) z up d
      ∧ StoreFrame s ((u.bump p (stride z up)).bump d (stride z up)) [s.offReg p, s.offReg d] 0 0 := by
  have hfirst := storeFrame_then_bump h p (stride z up)
  have hsecond := storeFrame_bump_reached hfirst d (stride z up)
  exact ⟨(moved_bump h List.not_mem_nil z up).kept hsecond.1 (by simpa using hne),
    moved_bump hfirst (by simpa using hne.symm) z up, storeFrame_after hfirst hsecond⟩

/-! ### The end of an iteration (R331, R332) -/

/-- The state `t` is an iteration of `s` ended in the state `u` that it had reached: counted down in `r`, with the flags
`f`. -/
structure Ended (s u t : State) (r : Reg) (f : Flags) (mask : Word) (rep ended : Bool) : Prop where
  flags : t.flags = f
  counted : Counted s t r
  regs : SameRegs u t [r]
  fcw : SameFcw s t mask
  specials : SameSpecials s t
  stops : BlockEnd s t rep (ended = true)

theorem blockEnd_of_pc {rep ended : Bool} (hseg : t.pcSeg = s.pcSeg)
    (hpc : t.pc = if rep && !ended then s.pc else s.pc + 4) : BlockEnd s t rep (ended = true) := by
  refine ⟨hseg, fun hrep hstays => ?_, fun hpasses => ?_⟩
  · rw [hpc, if_pos (by simp [hrep, hstays])]
  · rw [hpc, if_neg (by rcases hpasses with h | h <;> simp [h])]

theorem ended_endBlock {rs : List Reg} {r : Reg} {f : Flags} {mask : Word} (h : StoreFrame s u rs 0 0) (hr : r ∉ rs)
    (hmask : SameFcw s (s.setFlags f) mask) (hv : f.v = (s.reg r - 1 == 0)) (rep ended : Bool) :
    Ended s u (((u.countDown r).setFlags f).endBlock rep ended) r f mask rep ended := by
  obtain ⟨⟨hregs, -⟩, hfcw, hspecials, hpc, hseg⟩ := h
  have hflags : (((u.countDown r).setFlags f).endBlock rep ended).flags = f := State.flags_setFlags f
  have hcount : (((u.countDown r).setFlags f).endBlock rep ended).reg r = s.reg r - 1 := by
    simp [State.countDown, hregs r hr]
  refine ⟨hflags, ⟨hcount, ?_⟩, ⟨fun q hq => ?_, by simp⟩, ?_, ?_, ?_⟩
  · rw [hflags, hcount, hv, beq_iff_eq]
  · simp [State.countDown, State.reg_setReg_other u (List.ne_of_not_mem_cons hq)]
  · exact sameFcw_of_fcw (by simp [State.setFlags, fcw_of_mask_zero hfcw]) hmask
  · exact sameSpecials_trans hspecials (by simp [SameSpecials, SameInternals])
  · exact blockEnd_of_pc (by simpa using hseg) (blockEnd_endBlock s (by simpa using hpc) rep ended)

/-- The end condition of an iteration, as the flags it sets and its count say it. -/
theorem BlockEnd.congr {rep : Bool} {P Q : Prop} (h : BlockEnd s t rep P) (hPQ : P ↔ Q) : BlockEnd s t rep Q := by
  rwa [← propext hPQ]

/-- P/V says that the count has become 0. -/
theorem Ended.count_zero {r : Reg} {f : Flags} {mask : Word} {rep ended : Bool}
    (h : Ended s u t r f mask rep ended) : f.v = true ↔ t.reg r = 0 := by
  rw [← h.flags]
  exact h.counted.2

end

/-! ### Compares (R334, R339) -/

/-- The end of an iteration that compares `a` with `b`, from the state `u` with the pointers moved: a repeating form stops
where Z is set or the count is 0. -/
theorem compare_end {s u : State} {rs : List Reg} {r : Reg} {n : Nat} (h : StoreFrame s u rs 0 0) (hr : r ∉ rs)
    (hmem : SameMemory s u) (hn : 0 < n) (a b : BitVec n) (c : Cond) (rep : Bool) :
    let f := subFlags a b false s.flags
    let last := s.reg r - 1 == 0
    let t := ((u.countDown r).setFlags (s.compareFlags f c last)).endBlock rep (f.holds c || last)
    (∃ x f, SubN a b false x f ∧ t.flags.z = f.holds c) ∧ SameRegs u t [r] ∧ Counted s t r
      ∧ Quietly s t (rs ++ [r]) flagMask ∧ BlockEnd s t rep (t.flags.z = true ∨ t.reg r = 0) := by
  intro f last t
  have hend : Ended s u t r (s.compareFlags f c last) flagMask rep (f.holds c || last) :=
    ended_endBlock h hr (sameFcw_setFlags_czsv s (s.compareFlags f c last) rfl rfl) rfl rep _
  have hz : t.flags.z = f.holds c := congrArg Flags.z hend.flags
  refine ⟨⟨_, f, subN_sub hn a b false s.flags, hz⟩, hend.regs, hend.counted,
    ⟨sameRegs_trans h.1 hend.regs, hend.fcw, hend.specials, fun sp addr => ?_⟩, hend.stops.congr ?_⟩
  · rw [← hmem sp addr]
    simp [t]
  · rw [← hend.count_zero, hz, Bool.or_eq_true]
    rfl

theorem blockCompareClaim_of_blockCompare {z : Size} {up rep : Bool} {make : Reg → Reg → Reg → Cond → Instr}
    (hexec : ∀ p r d c s, exec (make p r d c) s = s.blockCompare z up rep p r d c)
    (hwf : ∀ p r d c seg, (make p r d c).wellFormed seg = compareOk z seg p r d) :
    BlockCompareClaim z up rep make := by
  intro s p r d c hok haccess
  rw [hwf] at hok
  have hp := compareOk_ne s hok
  obtain ⟨hz, hregs, hcounted, hquiet, hstops⟩ :=
    compare_end (storeFrame_bump s p (stride z up)) (r := r) (by simpa using hp.symm) (fun _ _ => by simp)
      (bits_pos z) (s.regOf z d) (s.peek z (s.regSpace p) (s.addrReg p)) c rep
  have hmoved := (moved_bump (storeFrame_refl s) List.not_mem_nil z up).kept hregs (p := p) (by simpa using hp)
  exact ⟨_, (hexec p r d c s).trans (whenAligned_true haccess _), hz, hmoved, hcounted, hquiet, hstops⟩

theorem stringCompareClaim_of_blockCompareString {z : Size} {up rep : Bool} {make : Reg → Reg → Reg → Cond → Instr}
    (hexec : ∀ p r d c s, exec (make p r d c) s = s.blockCompareString z up rep p r d c)
    (hwf : ∀ p r d c seg, (make p r d c).wellFormed seg = moveOk seg p r d) : StringCompareClaim z up rep make := by
  intro s p r d c hok haccessP haccessD
  rw [hwf] at hok
  obtain ⟨hp, hd, hpd⟩ := moveOk_ne s hok
  obtain ⟨hmovedD, hmovedP, hmoves⟩ := moved_both (storeFrame_refl s) hpd.symm z up
  obtain ⟨hz, hregs, hcounted, hquiet, hstops⟩ :=
    compare_end hmoves (not_mem_pair hd.symm hp.symm) (fun _ _ => by simp) (bits_pos z)
      (s.peek z (s.regSpace d) (s.addrReg d)) (s.peek z (s.regSpace p) (s.addrReg p)) c rep
  exact ⟨_, (hexec p r d c s).trans (whenAligned_true (by rw [haccessD, haccessP, Bool.and_self]) _), hz,
    hmovedP.kept hregs (by simpa using hp), hmovedD.kept hregs (by simpa using hd), hcounted,
    quietly_mono hquiet (by simp), hstops⟩

/-- Settles O43: sixteen instructions, two meanings, whose iterations end as `compare_end` says. -/
theorem blockAndStringComparesIterate : Obligations.BlockAndStringComparesIterate := by
  unfold Obligations.BlockAndStringComparesIterate
  iterate 8 refine ⟨blockCompareClaim_of_blockCompare (fun _ _ _ _ _ => rfl) fun _ _ _ _ _ => rfl, ?_⟩
  and_intros <;> exact stringCompareClaim_of_blockCompareString (fun _ _ _ _ _ => rfl) fun _ _ _ _ _ => rfl

/-! ### Moves (R344) -/

theorem sameFcw_setOverflow (s : State) (b : Bool) : SameFcw s (s.setFlags { s.flags with v := b }) 0x0010 :=
  sameFcw_setFlags s _ _ (fun _ => rfl) (fun _ => rfl) (fun _ => rfl) (fun h => absurd h (by decide)) (fun _ => rfl)
    (fun _ => rfl)

theorem blockMoveClaim_of_blockMove {z : Size} {up rep : Bool} {make : Reg → Reg → Reg → Instr}
    (hexec : ∀ p r d s, exec (make p r d) s = s.blockMove z up rep p r d)
    (hwf : ∀ p r d seg, (make p r d).wellFormed seg = moveOk seg p r d) : BlockMoveClaim z up rep make := by
  intro s p r d hok haccessP haccessD
  rw [hwf] at hok
  obtain ⟨hp, hd, hpd⟩ := moveOk_ne s hok
  obtain ⟨hmovedP, hmovedD, hmoves⟩ := moved_both (storeFrame_poke_zero s z (s.regSpace d) (s.addrReg d)
    (s.peek z (s.regSpace p) (s.addrReg p))) hpd z up
  have hend := ended_endBlock hmoves (not_mem_pair hp.symm hd.symm)
    (sameFcw_setOverflow s (s.reg r - 1 == 0)) rfl rep (s.reg r - 1 == 0)
  exact ⟨_, (hexec p r d s).trans (whenAligned_true (by rw [haccessD, haccessP, Bool.and_self]) _),
    holdsMem_poke s (by simp), hmovedP.kept hend.regs (by simpa using hp), hmovedD.kept hend.regs (by simpa using hd),
    hend.counted, sameRegs_trans hmoves.1 hend.regs, hend.fcw, hend.specials, hend.stops.congr hend.count_zero⟩

/-- Settles O44: eight instructions, one meaning. -/
theorem blockMovesIterate : Obligations.BlockMovesIterate := by
  unfold Obligations.BlockMovesIterate
  and_intros <;> exact blockMoveClaim_of_blockMove (fun _ _ _ _ => rfl) fun _ _ _ _ => rfl

/-! ### Translations (R349, R354) -/

theorem translated_eq_tableByte (s : State) (p q : Reg) : s.translated p q = tableByte s p q := rfl

/-- P/V and Z are the flags of a translation. -/
theorem sameFcw_setOverflowZero (s : State) (v z : Bool) :
    SameFcw s (s.setFlags { s.flags with v := v, z := z }) 0x0050 :=
  sameFcw_setFlags s _ _ (fun _ => rfl) (fun h => absurd h (by decide)) (fun _ => rfl) (fun h => absurd h (by decide))
    (fun _ => rfl) (fun _ => rfl)

/-- The pointer moves and the iteration ends, in a state `u` where R1, which holds RH1, may have been written. -/
theorem translate_end {s u : State} {up rep ended : Bool} {p r : Reg} {f : Flags} {mask : Word}
    (h : StoreFrame s u [1] 0 0) (hp1 : s.offReg p ≠ 1) (hr1 : r ≠ 1) (hpr : s.offReg p ≠ r)
    (hmask : SameFcw s (s.setFlags f) mask) (hv : f.v = (s.reg r - 1 == 0)) :
    let t := (((u.bump p (stride .b up)).countDown r).setFlags f).endBlock rep ended
    Ended s (u.bump p (stride .b up)) t r f mask rep ended ∧ Moved s t .b up p
      ∧ SameRegs u t [s.offReg p, r] ∧ SameRegs s t [1, s.offReg p, r] := by
  intro t
  have hend : Ended s _ t r f mask rep ended :=
    ended_endBlock (storeFrame_then_bump h p (stride .b up)) (not_mem_pair hr1 hpr.symm) hmask hv rep ended
  have hregs : SameRegs u t [s.offReg p, r] :=
    sameRegs_trans (storeFrame_bump_reached h p (stride .b up)).1 hend.regs
  exact ⟨hend, (moved_bump h (by simpa using hp1) .b up).kept hend.regs (by simpa using hpr), hregs,
    sameRegs_trans h.1 hregs⟩

theorem translateClaim_of_translate {up rep : Bool} {make : Reg → Reg → Reg → Instr}
    (hexec : ∀ d r q s, exec (make d r q) s = s.translate up rep d r q)
    (hwf : ∀ d r q seg, (make d r q).wellFormed seg = translateOk seg d r q) : TranslateClaim up rep make := by
  intro s d r q hok
  rw [hwf] at hok
  obtain ⟨-, hdr, -, hd1, hr1⟩ := translateOk_ne s hok
  have hstore := storeFrame_poke_zero s .b (s.regSpace d) (s.addrReg d) (s.translated d q)
  have hready := storeFrame_after hstore (storeFrame_setRegByte _ 1 (s.draw .translateRh1 8))
  obtain ⟨hend, hmoved, hregs, hall⟩ := translate_end (up := up) (rep := rep) (ended := s.reg r - 1 == 0) hready hd1
    hr1 hdr (sameFcw_setOverflowZero s (s.reg r - 1 == 0) (s.drawBit .translateZ)) rfl
  refine ⟨_, hexec d r q s, holdsMem_poke s ?_, hmoved, hend.counted, fun k hk hkd hkr => ?_, hall, hend.fcw,
    hend.specials, hend.stops.congr hend.count_zero⟩
  · simp [poke_byte, translated_eq_tableByte]
  · refine (regByte_of_sameRegs hregs (not_mem_pair hkd hkr)).trans ?_
    rw [State.regByte_setRegByte, if_neg hk, State.regByte_congr (State.reg_poke s .b _ _ _)]

theorem translateTestClaim_of_translateTest {up rep : Bool} {make : Reg → Reg → Reg → Instr}
    (hexec : ∀ p r q s, exec (make p r q) s = s.translateTest up rep p r q)
    (hwf : ∀ p r q seg, (make p r q).wellFormed seg = translateOk seg p r q) : TranslateTestClaim up rep make := by
  intro s p r q hok
  rw [hwf] at hok
  obtain ⟨-, hpr, -, hp1, hr1⟩ := translateOk_ne s hok
  obtain ⟨hend, hmoved, hregs, hall⟩ := translate_end (up := up) (rep := rep)
    (ended := s.translated p q != 0 || s.reg r - 1 == 0) (storeFrame_setRegByte s 1 (s.translated p q)) hp1
    hr1 hpr (sameFcw_setOverflowZero s (s.reg r - 1 == 0) (s.translated p q == 0)) rfl
  refine ⟨_, hexec p r q s, ?_, ?_, hmoved, hend.counted, fun k hk hkp hkr => ?_,
    ⟨hall, hend.fcw, hend.specials, fun _ _ => ?_⟩, hend.stops.congr ?_⟩
  · refine (regByte_of_sameRegs hregs (not_mem_pair hp1.symm hr1.symm)).trans ?_
    rw [State.regByte_setRegByte, if_pos rfl, translated_eq_tableByte]
  · rw [hend.flags]
    exact beq_iff_eq
  · refine (regByte_of_sameRegs hregs (not_mem_pair hkp hkr)).trans ?_
    rw [State.regByte_setRegByte, if_neg hk]
  · simp
  · rw [← hend.count_zero, hend.flags]
    simp

/-- Settles O45: four instructions that are `State.translate`, four that are `State.translateTest`. -/
theorem translatesIterate : Obligations.TranslatesIterate := by
  unfold Obligations.TranslatesIterate
  iterate 4 refine ⟨translateClaim_of_translate (fun _ _ _ _ => rfl) fun _ _ _ _ => rfl, ?_⟩
  and_intros <;> exact translateTestClaim_of_translateTest (fun _ _ _ _ => rfl) fun _ _ _ _ => rfl

end Sys2Proof.Machine

/-! Privilege: what normal mode cannot reach, and the trap that every privileged instruction takes there. -/

namespace Sys2Proof.Machine

/-! ### First words with a privileged opcode (R135) -/

/-- The upper byte of a first word is its mode and its opcode (R111). -/
theorem highByte_firstWord (mode : BitVec 2) (op : BitVec 6) (a b : BitVec 4) :
    highByte (firstWord mode op a b) = mode ++ op :=
  (extract_append_high (mode ++ op ++ a) b 4 8).trans
    ((extract_append_high (mode ++ op) a 0 8).trans BitVec.extractLsb'_eq_self)

/-- Opcodes below 0x39 are privileged in no mode. -/
theorem privilegedOpcode_of_lt (mode : BitVec 2) {op : BitVec 6} (h : op.toNat < 0x39) (a b : BitVec 4) :
    privilegedOpcode (firstWord mode op a b) = false := by
  rw [privilegedOpcode, highByte_firstWord]
  revert mode op
  decide

/-- No opcode is privileged in mode 10. -/
theorem privilegedOpcode_modeR (op : BitVec 6) (a b : BitVec 4) :
    privilegedOpcode (firstWord modeR op a b) = false := by
  rw [privilegedOpcode, highByte_firstWord]
  revert op
  decide

/-- In mode 00 every opcode from 0x39 on is privileged: LDPS, input and output. -/
theorem privilegedOpcode_modeIr {op : BitVec 6} (h : 0x39 ≤ op.toNat) (a b : BitVec 4) :
    privilegedOpcode (firstWord modeIr op a b) = true := by
  rw [privilegedOpcode, highByte_firstWord]
  revert op
  decide

/-- In mode 01 the opcodes from 0x39 to 0x3D are: LDPS and the control instructions. -/
theorem privilegedOpcode_modeDa {op : BitVec 6} (h : 0x39 ≤ op.toNat ∧ op.toNat ≤ 0x3D) (a b : BitVec 4) :
    privilegedOpcode (firstWord modeDa op a b) = true := by
  rw [privilegedOpcode, highByte_firstWord]
  revert op
  decide

/-- Nothing is privileged in mode 11, the compact formats (R113). -/
theorem privilegedOpcode_compact {t : BitVec 4} (ht : t.msb = true) (n : BitVec 12) :
    privilegedOpcode (t ++ n : Word) = false := by
  have hmsb : (highByte (t ++ n : Word)).msb = true := by
    have h : (t ++ n : Word).msb = t.msb := (BitVec.msb_append (x := t) (y := n)).trans (if_neg (by decide))
    rw [← ht, ← h]
    simp [highByte, BitVec.msb_eq_getLsbD_last]
  rw [privilegedOpcode]
  revert hmsb
  generalize highByte (t ++ n : Word) = u
  revert u
  decide

/-! ### The first words of each shape of instruction -/

section

variable {op : BitVec 6}

theorem privilegedOpcode_encLd {z : Size} {opR opS opBA opBAs opG : BitVec 6} (hR : opR.toNat < 0x39)
    (hS : opS.toNat < 0x39) (hBA : opBA.toNat < 0x39) (hBAs : opBAs.toNat < 0x39) (hG : opG.toNat < 0x39)
    (a : LdArgs z) : privilegedOpcode ((encLd opR opS opBA opBAs opG a).headD 0) = false := by
  cases a with
  | reg | imm => exact privilegedOpcode_of_lt _ hR _ _
  | load d m =>
    cases m with
    | mem => exact privilegedOpcode_of_lt _ hR _ _
    | ba | bx => exact privilegedOpcode_of_lt _ hBA _ _
  | store m =>
    cases m with
    | mem => exact privilegedOpcode_of_lt _ hS _ _
    | ba | bx => exact privilegedOpcode_of_lt _ hBAs _ _
  | storeImm => exact privilegedOpcode_of_lt _ hG _ _
  | compact d v => exact (congrArg privilegedOpcode BitVec.append_assoc).trans (privilegedOpcode_compact rfl _)

theorem privilegedOpcode_encCp {z : Size} {opG : BitVec 6} (h : op.toNat < 0x39) (hG : opG.toNat < 0x39)
    (a : CpArgs z) : privilegedOpcode ((encCp op opG a).headD 0) = false := by
  cases a with
  | reg => exact privilegedOpcode_of_lt _ h _ _
  | memImm => exact privilegedOpcode_of_lt _ hG _ _

theorem privilegedOpcode_encBit (h : op.toNat < 0x39) (a : BitArgs) :
    privilegedOpcode ((encBit op a).headD 0) = false := by
  cases a <;> exact privilegedOpcode_of_lt _ h _ _

theorem privilegedOpcode_encLdr {opS : BitVec 6} (h : op.toNat < 0x39) (hS : opS.toNat < 0x39) (r : Reg) (n : Word)
    (dir : Dir) : privilegedOpcode ((encLdr op opS r n dir).headD 0) = false := by
  cases dir with
  | load => exact privilegedOpcode_of_lt _ h _ _
  | store => exact privilegedOpcode_of_lt _ hS _ _

theorem privilegedOpcode_encPort {opD : BitVec 6} (h : 0x39 ≤ op.toNat) (hD : 0x39 ≤ opD.toNat) (b r : BitVec 4)
    (p : Port) : privilegedOpcode ((encPort op opD b r p).headD 0) = true := by
  cases p with
  | reg => exact privilegedOpcode_modeIr h _ _
  | direct => exact privilegedOpcode_modeIr hD _ _

theorem privilegedOpcode_ldps (m : Mem) : privilegedOpcode ((encMem 0x39 m 0).headD 0) = true := by
  cases m with
  | ir => exact privilegedOpcode_modeIr (by decide) _ _
  | da | x => exact privilegedOpcode_modeDa (by decide) _ _

end

/-- The privileged instructions are those whose first word has a privileged opcode (R135), well formed or not. -/
theorem privilegedOpcode_encode (i : Instr) : privilegedOpcode ((encode i).headD 0) = privilegedInstr i := by
  cases i with
  | addb | add | addl | subb | sub | subl | orb | or | andb | and | xorb | xor | mult | multl | div | divl | comb | com
  | negb | neg | testb | test | testl | tsetb | tset | clrb | clr | pushl | popl | pop | exb | ex | incb | inc | decb
  | dec | ldar | call | jp | ret | trib | trtib | trirb | trtirb | trdb | trtdb | trdrb | trtdrb =>
    exact privilegedOpcode_of_lt _ (by decide) _ _
  | setflg | resflg | comflg | nop | tccb | tcc | dab | extsb | exts | extsl | adcb | adc | sbcb | sbc | rrdb | rldb
  | ldk | rlb | rl | rrb | rr | rlcb | rlc | rrcb | rrc | sllb | srlb | sll | srl | slll | srll | slab | srab | sla | sra
  | slal | sral | sdlb | sdl | sdll | sdab | sda | sdal | cpib | cpirb | cpdb | cpdrb | cpi | cpir | cpd | cpdr | cpsib
  | cpsirb | cpsdb | cpsdrb | cpsi | cpsir | cpsd | cpsdr | ldib | ldirb | lddb | lddrb | ldi | ldir | ldd | lddr =>
    exact privilegedOpcode_modeR _ _ _
  | cpb | cp | cpl => exact privilegedOpcode_encCp (by decide) (by decide) _
  | ldb | ld | ldl =>
    exact privilegedOpcode_encLd (by decide) (by decide) (by decide) (by decide) (by decide) _
  | ldrb _ | ldr | ldrl => exact privilegedOpcode_encLdr (by decide) (by decide) _ _ _
  | resb | res | setb | set | bitb | bit => exact privilegedOpcode_encBit (by decide) _
  | lda _ m => cases m <;> exact privilegedOpcode_of_lt _ (by decide) _ _
  | ldm dir => cases dir <;> exact privilegedOpcode_of_lt _ (by decide) _ _
  | ldctlb dir => cases dir <;> exact privilegedOpcode_modeR _ _ _
  | push _ src => cases src <;> exact privilegedOpcode_of_lt _ (by decide) _ _
  | calr => exact privilegedOpcode_compact rfl _
  | jr => exact (congrArg privilegedOpcode BitVec.append_assoc).trans (privilegedOpcode_compact rfl _)
  | djnz | dbjnz =>
    exact (congrArg privilegedOpcode (BitVec.append_assoc.trans BitVec.append_assoc)).trans
      (privilegedOpcode_compact rfl _)
  | sc n =>
    show privilegedOpcode (0x7F#8 ++ n) = false
    rw [privilegedOpcode, highByte_append]
    rfl
  | extended op e =>
    show privilegedOpcode (op.byte ++ e) = false
    rw [privilegedOpcode, highByte_append]
    cases op <;> rfl
  | inb | inw | outb | out => exact privilegedOpcode_encPort (by decide) (by decide) _ _ _
  | sinb | sin | soutb | sout | inib | inirb | indb | indrb | ini | inir | ind | indr | sinib | sinirb | sindb | sindrb
  | sini | sinir | sind | sindr | outib | otirb | outdb | otdrb | outi | otir | outd | otdr | soutib | sotirb | soutdb
  | sotdrb | souti | sotir | soutd | sotdr => exact privilegedOpcode_modeIr (by decide) _ _
  | iret | halt | mset | mres | mbit | mreq | di | ei | ldctl => exact privilegedOpcode_modeDa (by decide) _ _
  | ldps => exact privilegedOpcode_ldps _

variable (s : State)

/-! ### Normal mode (R462, R491, R492) -/

/-- Every privileged instruction in normal mode is the entry of its trap, and nothing else. -/
theorem exec_privileged_normal {i : Instr} (hsys : s.system = false) (hp : privilegedInstr i = true) :
    exec i s = s.enter (.trap .privileged) i.identifier (s.pcAddr.add 2) := by
  cases i with
  | inb | inw | outb | out | sinb | sin | soutb | sout | inib | inirb | indb | indrb | ini | inir | ind | indr | sinib
  | sinirb | sindb | sindrb | sini | sinir | sind | sindr | outib | otirb | outdb | otdrb | outi | otir | outd | otdr
  | soutib | sotirb | soutdb | sotdrb | souti | sotir | soutd | sotdr | iret | ldps | halt | mset | mres | mbit | mreq
  | di | ei | ldctl => exact privileged_normal s _ _ hsys
  | _ => cases hp

/-- Settles O52: the first words tell the privileged instructions (`privilegedOpcode_encode`), and in normal mode each
is its trap (`exec_privileged_normal`). -/
theorem privilegedInstructionsTrapInNormalMode : Obligations.PrivilegedInstructionsTrapInNormalMode :=
  ⟨privilegedOpcode_encode, fun s _ hsys hp hok => exec_privileged_normal s hsys hp ▸ enter_completes s _ _ _ hok⟩

/-- Settles O14: what an instruction that is neither privileged nor a trap keeps (`exec_ordinary`), read in normal
mode. -/
theorem normalModeCannotTouchSystemState : Obligations.NormalModeCannotTouchSystemState := by
  intro s t i hsys hp htrap hexec
  obtain ⟨hspecials, hhigh, hcopies, h15, -⟩ := exec_ordinary hp htrap hexec
  exact ⟨hhigh, hcopies, h15 hsys, hspecials⟩

end Sys2Proof.Machine

/-! Words of the encoding tables, the program status area, the steps of a reset, and which request a sample accepts. -/

namespace Sys2Proof.Machine

/-! ### Words written out (spec/30_encoding.md) -/

/-- Settles O9: each of the thirteen lists of words evaluates to its instruction. -/
theorem wordsDecode : Obligations.WordsDecode :=
  ⟨rfl, rfl, rfl, rfl, rfl, rfl, rfl, rfl, rfl, rfl, rfl, rfl, rfl⟩

variable (s : State)

/-! ### The program status area (R476, R478) -/

/-- A vectored interrupt moves its new PC by twice the vector. -/
theorem vectorShift_vi (ident : Word) :
    (Cause.request .vi).vectorShift ident = BitVec.ofNat 16 (2 * (ident.extractLsb' 0 8).toNat) := by
  refine BitVec.eq_of_toNat_eq ?_
  simp [Cause.vectorShift, lowByte, BitVec.toNat_mul]

section

variable {s : State} {c : Cause} {ident : Word} {n : Nat}

theorem psaFcw_z8002 (hz : s.isZ8001 = false) : s.psaFcw c = s.psaWord (BitVec.ofNat 16 (4 * c.entry)) := by
  simp only [State.psaFcw, Cause.fcwOffset, hz, Bool.false_eq_true, if_false]

theorem psaPc_z8002 (hz : s.isZ8001 = false) (hshift : c.vectorShift ident = BitVec.ofNat 16 n) :
    (s.psaPc c ident).off = s.psaWord (BitVec.ofNat 16 (4 * c.entry + 2 + n)) := by
  simp only [State.psaPc, Cause.pcOffset, hz, hshift, Bool.false_eq_true, if_false, BitVec.ofNat_add]

theorem psaFcw_z8001 (hz : s.isZ8001 = true) : s.psaFcw c = s.psaWord (BitVec.ofNat 16 (8 * c.entry + 2)) := by
  simp only [State.psaFcw, Cause.fcwOffset, hz, if_true]

theorem psaPc_z8001 (hz : s.isZ8001 = true) (hshift : c.vectorShift ident = BitVec.ofNat 16 n) :
    s.psaPc c ident = ⟨segOf (s.psaWord (BitVec.ofNat 16 (8 * c.entry + 4 + n))),
      s.psaWord (BitVec.ofNat 16 (8 * c.entry + 6 + n))⟩ := by
  have hnext : BitVec.ofNat 16 (8 * c.entry + 6 + n) = BitVec.ofNat 16 (8 * c.entry + 4 + n) + (2 : Word) := by
    rw [show 8 * c.entry + 6 + n = 8 * c.entry + 4 + n + 2 by omega, BitVec.ofNat_add _ 2]
    rfl
  simp only [State.psaPc, Cause.pcOffset, hz, hshift, if_true, hnext, ← BitVec.ofNat_add]

end

/-- Settles O53: each version's two words of an entry, the vector moving the PC of the vectored interrupt only. -/
theorem programStatusAreaLayout : Obligations.ProgramStatusAreaLayout := by
  intro s ident
  refine ⟨fun hz c off hc => ?_, fun hz => ⟨psaFcw_z8002 hz, psaPc_z8002 hz (vectorShift_vi ident)⟩,
    fun hz c off hc => ?_, fun hz => ⟨psaFcw_z8001 hz, psaPc_z8001 hz (vectorShift_vi ident)⟩⟩
  · simp only [List.mem_cons, Prod.mk.injEq, List.not_mem_nil, or_false] at hc
    rcases hc with ⟨rfl, rfl⟩ | ⟨rfl, rfl⟩ | ⟨rfl, rfl⟩ | ⟨rfl, rfl⟩ | ⟨rfl, rfl⟩ | ⟨rfl, rfl⟩ <;>
      exact ⟨psaFcw_z8002 hz, psaPc_z8002 (n := 0) hz rfl⟩
  · simp only [List.mem_cons, Prod.mk.injEq, List.not_mem_nil, or_false] at hc
    rcases hc with ⟨rfl, rfl⟩ | ⟨rfl, rfl⟩ | ⟨rfl, rfl⟩ | ⟨rfl, rfl⟩ | ⟨rfl, rfl⟩ | ⟨rfl, rfl⟩ <;>
      exact ⟨psaFcw_z8001 hz, psaPc_z8001 (n := 0) hz rfl⟩

/-! ### The steps of a reset (R520, R521, R523) -/

theorem cycle_reset (ex : Instr → State → Result) (h : s.pins.reset = true) : s.cycle ex = .next s.resetLow.settle :=
  if_pos h

theorem cycle_resetReads (ex : Instr → State → Result) (hreset : s.pins.reset = false) (hbusreq : s.pins.busreq = false)
    (hgranted : s.busGranted = false) (hwait : s.pins.wait = false) (hpending : s.resetPending = true) :
    s.cycle ex = .next (s.resetReads.afterCycles s.resetCycles).settle := by
  simp only [State.cycle, hreset, hbusreq, hgranted, hwait, hpending, Bool.false_eq_true, if_false, if_true]

/-- The reset takes in the level of NMI, so the step that obeys it latches no edge. -/
theorem nmiLatch_resetLow_settle : s.resetLow.settle.nmiLatch = false := by
  simp [State.settle, State.nmiPending, State.resetLow]

/-- The program status that the reset reads load, from segment 0 of system program space. -/
theorem resetReads_loads :
    let t := (s.resetReads.afterCycles s.resetCycles).settle
    FcwLoaded s t (s.resetWord 2)
      ∧ JumpedTo s t (if s.isZ8001 then ⟨segOf (s.resetWord 4), s.resetWord 6⟩ else ⟨0, s.resetWord 4⟩) := by
  intro t
  have hloaded : FcwLoaded s s.resetReads (s.resetWord 2) := fcwLoaded_writeFcw s _ rfl
  exact ⟨fcwLoaded_congr s hloaded rfl, rfl, rfl⟩

/-- Settles O2: with RESET Low a step is `State.resetLow`, with the reads pending `State.resetReads`. -/
theorem resetSequenceLoadsProgramStatus : Obligations.ResetSequenceLoadsProgramStatus := by
  refine ⟨fun s hturns h => ?_, fun s hturns hreset hbusreq hgranted hwait hpending => ?_⟩
  · exact ⟨_, (step_nil hturns).trans (cycle_reset s exec h), rfl, rfl, rfl, rfl, rfl, nmiLatch_resetLow_settle s, rfl,
      rfl⟩
  · obtain ⟨hfcw, hpc, hseg⟩ := resetReads_loads s
    refine ⟨_, (step_nil hturns).trans (cycle_resetReads s exec hreset hbusreq hgranted hwait hpending), rfl, rfl, rfl,
      rfl, rfl, rfl, rfl, rfl, hfcw, ?_⟩
    cases hz : s.isZ8001 with
    | true =>
      rw [hz] at hpc hseg
      exact ⟨hseg, hpc⟩
    | false =>
      rw [hz] at hpc
      exact hpc

/-! ### The sample at the end of an instruction (R452, R454, R455, R458) -/

/-- The request that is let through: the highest that is present (R454, R455). -/
theorem pick_iff (vie nvie : Bool) :
    (s.pick vie nvie = some .nmi ↔ s.nmiPending = true)
      ∧ (s.pick vie nvie = some .segt ↔ ¬s.nmiPending = true ∧ s.segtRequested = true)
      ∧ (s.pick vie nvie = some .vi ↔
          ¬s.nmiPending = true ∧ ¬s.segtRequested = true ∧ (s.pins.vi && vie) = true)
      ∧ (s.pick vie nvie = some .nvi ↔
          ¬s.nmiPending = true ∧ ¬s.segtRequested = true ∧ ¬(s.pins.vi && vie) = true ∧ (s.pins.nvi && nvie) = true)
      ∧ (s.pick vie nvie = none ↔
          ¬s.nmiPending = true ∧ ¬s.segtRequested = true ∧ ¬(s.pins.vi && vie) = true
            ∧ ¬(s.pins.nvi && nvie) = true) := by
  rw [State.pick]
  split
  · next hnmi => simp [hnmi]
  split
  · next hnmi hsegt => simp [hnmi, hsegt]
  split
  · next hnmi hsegt hvi => simp only [hnmi, hsegt, hvi]; simp
  split
  · next hnmi hsegt hvi hnvi => simp only [hnmi, hsegt, hvi, hnvi]; simp
  · next hnmi hsegt hvi hnvi => simp only [hnmi, hsegt, hvi, hnvi]; simp

theorem nmiPending_iff : s.nmiPending = true ↔ s.nmiLatch = true ∨ (s.pins.nmi = true ∧ s.nmiLevel = false) := by
  simp [State.nmiPending]

/-- A rule of the memory management unit names one of the cycles. -/
def MmuNames (s : State) (cs : List Cycle) : Prop := ∃ c ∈ cs, ∃ rule ∈ s.platform.mmu, c.asks rule = true

theorem isSome_mmuAsks (hz : s.isZ8001 = true) (cs : List Cycle) : (s.mmuAsks cs).isSome = true ↔ MmuNames s cs := by
  simp [State.mmuAsks, hz, MmuNames]

/-- The first cycle that a rule names decides, by the first such rule (R87, log entry 44). -/
theorem mmuAsks_first (hz : s.isZ8001 = true) {before after : List Cycle} {c : Cycle} {first last : List MmuRule}
    {rule : MmuRule} (hbefore : ∀ c' ∈ before, ∀ rule ∈ s.platform.mmu, c'.asks rule = false)
    (hmmu : s.platform.mmu = first ++ rule :: last) (hfirst : ∀ rule' ∈ first, c.asks rule' = false)
    (h : c.asks rule = true) : s.mmuAsks (before ++ c :: after) = some rule.ident := by
  have hnone : before.findSome? (fun c => (s.platform.mmu.find? c.asks).map MmuRule.ident) = none := by
    simpa [List.findSome?_eq_none_iff] using hbefore
  have hfind : s.platform.mmu.find? c.asks = some rule := by
    rw [hmmu, List.find?_append, List.find?_eq_none.mpr (by simpa using hfirst), List.find?_cons_of_pos h]
    rfl
  rw [State.mmuAsks, if_pos hz, List.findSome?_append, hnone, List.findSome?_cons, hfind]
  rfl

theorem mmuRequest_afterCycles_of_some {b : Byte} (h : s.mmuRequest = some b) (cs : List Cycle) :
    (s.afterCycles cs).mmuRequest = some b := by
  simp only [State.afterCycles, h]

theorem mmuRequest_afterCycles_of_none (h : s.mmuRequest = none) (cs : List Cycle) :
    (s.afterCycles cs).mmuRequest = s.mmuAsks cs := by
  simp only [State.afterCycles, h]

/-- What asks for the segment trap once an instruction has made its cycles (R458). -/
theorem segtRequested_afterCycles_iff (cs : List Cycle) :
    (s.afterCycles cs).segtRequested = true ↔
      s.isZ8001 = true ∧ (s.pins.segt = true ∨ (∃ b, s.mmuRequest = some b) ∨ MmuNames s cs) := by
  have hsegt : (s.afterCycles cs).segtRequested =
      (s.isZ8001 && (s.pins.segt || (s.afterCycles cs).mmuRequest.isSome)) := rfl
  rw [hsegt, Bool.and_eq_true, Bool.or_eq_true]
  refine and_congr_right fun hz => or_congr_right ?_
  cases hreq : s.mmuRequest with
  | some b => simp [mmuRequest_afterCycles_of_some s hreq]
  | none => simp [mmuRequest_afterCycles_of_none s hreq, isSome_mmuAsks s hz]

/-- Where enables hold at once, the sample tests those that the instruction leaves (D14). -/
theorem sample_of_no_delay (s : State) {t : State} (h : t.platform.enableDelay = false) :
    s.sample t = t.pick t.vie t.nvie := by
  simp [State.sample, h]

/-- Settles O56: the sample is `State.pick` (`pick_iff`) once the memory management unit has seen the cycles. -/
theorem highestEnabledRequestIsAccepted : Obligations.HighestEnabledRequestIsAccepted := by
  intro s t n cs hdelay u nmi named segt vi nvi
  have haccepted : u.accepted = (t.afterCycles cs).pick t.vie t.nvie := sample_of_no_delay s hdelay
  have hnmi : (t.afterCycles cs).nmiPending = true ↔ nmi := nmiPending_iff _
  have hsegt : (t.afterCycles cs).segtRequested = true ↔ segt := segtRequested_afterCycles_iff t cs
  have hvi : ((t.afterCycles cs).pins.vi && t.vie) = true ↔ vi := Bool.and_eq_true _ _ ▸ Iff.rfl
  have hnvi : ((t.afterCycles cs).pins.nvi && t.nvie) = true ↔ nvi := Bool.and_eq_true _ _ ▸ Iff.rfl
  have hpick := pick_iff (t.afterCycles cs) t.vie t.nvie
  simp only [← haccepted, hnmi, hsegt, hvi, hnvi] at hpick
  obtain ⟨isNmi, isSegt, isVi, isNvi, isNone⟩ := hpick
  refine ⟨isNmi, isSegt, isVi, isNvi, isNone, fun b hb => mmuRequest_afterCycles_of_some t hb cs, ?_⟩
  rintro hnone hz before c after rfl hbefore first rule last hmmu hfirst hasks
  exact (mmuRequest_afterCycles_of_none t hnone _).trans (mmuAsks_first t hz hbefore hmmu hfirst hasks)

end Sys2Proof.Machine

/-! Input and output in system mode: one I/O cycle of a single transfer, and one iteration of a block transfer. -/

namespace Sys2Proof.Machine

variable {s t u : State}

/-! ### One I/O cycle (R82, R382) -/

/-- The value of an input cycle is the platform's where it has one ready. -/
theorem answered_ioValue (s : State) (z : Size) : Answered s z (s.ioValue z) := by
  intro x xs hinput
  simp only [State.ioValue, hinput]

/-- The input cycle of an instruction that makes no other event and moves no other pin. -/
theorem oneInput_of_sameSpecials {special : Bool} {port : Word} {z : Size}
    (h : SameSpecials (s.ioRead special port z) t) : OneInput s t special port z (s.ioValue z) := by
  obtain ⟨hinternals, hpins, hevents⟩ := h
  exact ⟨hevents, hpins, hinternals⟩

theorem oneOutput_of_sameSpecials {special : Bool} {port : Word} {z : Size} {v : BitVec z.bits}
    (h : SameSpecials (s.ioWrite special port z v) t) : OneOutput s t special port z v := by
  obtain ⟨hinternals, hpins, hevents⟩ := h
  exact ⟨hevents, hpins, hinternals⟩

/-! ### Single transfers (R384, R389, R394, R399) -/

/-- An instruction that is `State.input` in system mode. -/
theorem inputClaim_of_input {z : Size} {special : Bool} {i : Reg → Instr} {port : State → Word} {n : Nat}
    (hexec : ∀ d s, exec (i d) s = s.privileged (i d) (s.input special z d (port s) n)) :
    InputClaim z special i port n := by
  intro s d hsys
  obtain ⟨⟨hvalue, hbytes⟩, ⟨hregs, hfcw, hspecials, hmem⟩, hpassed⟩ :=
    writes_reg_only (s.ioRead special (port s) z) z d (s.ioValue z) n
  exact ⟨_, (hexec d s).trans (privileged_system s _ _ hsys), s.ioValue z, answered_ioValue s z,
    oneInput_of_sameSpecials hspecials, ⟨hvalue, hbytes⟩, hregs, hfcw, hmem, hpassed⟩

/-- An instruction that is `State.output` in system mode. -/
theorem outputClaim_of_output {z : Size} {special : Bool} {i : Reg → Instr} {port : State → Word} {n : Nat}
    (hexec : ∀ r s, exec (i r) s = s.privileged (i r) (s.output special z (port s) r n)) :
    OutputClaim z special i port n := by
  intro s r hsys
  obtain ⟨⟨hregs, hfcw, hspecials, hmem⟩, hpassed⟩ :=
    frame_advance (s.ioWrite special (port s) z (s.regOf z r)) n
  exact ⟨_, (hexec r s).trans (privileged_system s _ _ hsys), oneOutput_of_sameSpecials hspecials, hregs, hfcw, hmem,
    hpassed⟩

/-- Settles O46: twelve forms, two meanings. -/
theorem singleTransfers : Obligations.SingleTransfers := by
  unfold Obligations.SingleTransfers
  iterate 6 refine ⟨fun _ => inputClaim_of_input fun _ _ => rfl, ?_⟩
  and_intros <;> exact fun _ => outputClaim_of_output fun _ _ => rfl

/-! ### Block transfers (R383) -/

/-- P/V and Z are the flags of a block transfer, Z being open. -/
theorem sameFcw_blockIoFlags (s : State) (last : Bool) : SameFcw s (s.setFlags (s.blockIoFlags last)) 0x0050 :=
  sameFcw_setOverflowZero s last (s.drawBit .blockIoZ)

/-- The end of a block transfer from a state `u` that has moved the element: the pointer moves, the count goes down. -/
theorem blockIo_end {m r : Reg} (h : StoreFrame s u [] 0 0) (hmr : s.offReg m ≠ r) (z : Size) (up rep : Bool) :
    let last := s.reg r - 1 == 0
    let t := (((u.bump m (stride z up)).countDown r).setFlags (s.blockIoFlags last)).endBlock rep last
    Moved s t z up m ∧ Counted s t r ∧ SameRegs s t [s.offReg m, r] ∧ SameFcw s t 0x0050 ∧ SameSpecials s t
      ∧ BlockEnd s t rep (t.reg r = 0) := by
  intro last t
  have hmoves := storeFrame_then_bump h m (stride z up)
  have hend : Ended s (u.bump m (stride z up)) t r (s.blockIoFlags last) 0x0050 rep last :=
    ended_endBlock hmoves (by simpa using hmr.symm) (sameFcw_blockIoFlags s last) rfl rep last
  exact ⟨(moved_bump h List.not_mem_nil z up).kept hend.regs (by simpa using hmr), hend.counted,
    sameRegs_trans hmoves.1 hend.regs, hend.fcw, hend.specials, hend.stops.congr hend.count_zero⟩

theorem blockInputClaim_of_blockInput {z : Size} {special up rep : Bool} {make : Reg → Reg → Reg → Instr}
    (hexec : ∀ p r d s, exec (make p r d) s = s.privileged (make p r d) (s.blockInput special z up rep p r d))
    (hwf : ∀ p r d seg, (make p r d).wellFormed seg = blockIoOk seg d p r) :
    BlockInputClaim z special up rep make := by
  intro s p r d hsys hok haccess
  rw [hwf] at hok
  obtain ⟨hmoved, hcounted, hregs, hfcw, hspecials, hstops⟩ :=
    blockIo_end (storeFrame_poke_zero (s.ioRead special (s.reg p) z) z (s.regSpace d) (s.addrReg d) (s.ioValue z))
      (blockIoOk_ne s hok) z up rep
  exact ⟨_, (hexec p r d s).trans ((privileged_system s _ _ hsys).trans (whenAligned_true haccess _)), s.ioValue z,
    answered_ioValue s z, oneInput_of_sameSpecials hspecials,
    holdsMem_poke (s.ioRead special (s.reg p) z) (by simp), hmoved, hcounted, hregs, hfcw, hstops⟩

theorem blockOutputClaim_of_blockOutput {z : Size} {special up rep : Bool} {make : Reg → Reg → Reg → Instr}
    (hexec : ∀ p r d s, exec (make p r d) s = s.privileged (make p r d) (s.blockOutput special z up rep p r d))
    (hwf : ∀ p r d seg, (make p r d).wellFormed seg = blockIoOk seg p d r) :
    BlockOutputClaim z special up rep make := by
  intro s p r d hsys hok haccess
  rw [hwf] at hok
  obtain ⟨hmoved, hcounted, hregs, hfcw, hspecials, hstops⟩ :=
    blockIo_end (storeFrame_refl (s.ioWrite special (s.reg d) z (s.peek z (s.regSpace p) (s.addrReg p))))
      (blockIoOk_ne s hok) z up rep
  exact ⟨_, (hexec p r d s).trans ((privileged_system s _ _ hsys).trans (whenAligned_true haccess _)),
    oneOutput_of_sameSpecials hspecials, hmoved, hcounted, hregs, hfcw, fun _ _ => by simp, hstops⟩

/-- Settles O47: sixteen instructions that are `State.blockInput`, sixteen that are `State.blockOutput`. -/
theorem blockTransfersIterate : Obligations.BlockTransfersIterate := by
  unfold Obligations.BlockTransfersIterate
  iterate 16 refine ⟨blockInputClaim_of_blockInput (fun _ _ _ _ => rfl) fun _ _ _ _ => rfl, ?_⟩
  and_intros <;> exact blockOutputClaim_of_blockOutput (fun _ _ _ _ => rfl) fun _ _ _ _ => rfl

end Sys2Proof.Machine

/-! CPU control: the flag instructions in any mode, the control registers and the other control instructions in system
mode. -/

namespace Sys2Proof.Machine

variable (s : State)

/-- An FCW whose bits outside the mask are the old ones. -/
theorem sameFcw_of_bits {s t : State} {mask : Word}
    (h : ∀ i < 16, mask.getLsbD i = false → t.fcw.getLsbD i = s.fcw.getLsbD i) : SameFcw s t mask := by
  refine BitVec.eq_of_getLsbD_eq fun i hi => ?_
  simp only [BitVec.getLsbD_and, BitVec.getLsbD_not, hi, decide_true, Bool.true_and]
  cases hmask : mask.getLsbD i with
  | true => simp
  | false => rw [h i hi hmask]

/-- The word registers are as before where both their copies and the mode are. -/
theorem sameRegs_of_ordinary {s t : State} (h : Ordinary s t) (hregs : t.regs = s.regs)
    (h14 : t.normalR14 = s.normalR14) (h15 : t.normalR15 = s.normalR15) : SameRegs s t [] := by
  have hsystem := Ordinary_system h
  obtain ⟨⟨⟨hplatform, -⟩, -⟩, -, hcopies, -⟩ := h
  have hreg : t.reg = s.reg := State.reg_congr hregs h14 h15 (State.isZ8001_congr hplatform) hsystem
  exact ⟨fun r _ => congrFun hreg r, hcopies⟩

/-! ### SETFLG, RESFLG, COMFLG, LDCTLB (R411, R417, R429, R430) -/

/-- The two low fields of a word put together from a byte and two fields. -/
theorem extract_low_fields (hi : Byte) (mid lo : BitVec 4) :
    (hi ++ mid ++ lo : Word).extractLsb' 4 4 = mid ∧ (hi ++ mid ++ lo : Word).extractLsb' 0 4 = lo :=
  ⟨(extract_append_high (hi ++ mid) lo 0 4).trans (extract_append_low hi mid),
    extract_append_low (hi ++ mid) lo⟩

/-- What mapping C, Z, S and P/V does. -/
theorem mapFlags_completes (f : BitVec 4 → BitVec 4) :
    Completes (s.mapFlags f) fun t =>
      t.fcw.extractLsb' 4 4 = f (s.fcw.extractLsb' 4 4) ∧ Frame s t [] flagMask 1 := by
  obtain ⟨hmid, hlow⟩ := extract_low_fields (s.fcw.extractLsb' 8 8) (f (s.fcw.extractLsb' 4 4)) (s.fcw.extractLsb' 0 4)
  have hord := ordinary_mapFlags (s := s) f rfl
  have hregs := sameRegs_of_ordinary hord rfl rfl rfl
  obtain ⟨hspecials, hhigh, -⟩ := hord
  refine ⟨_, rfl, hmid, ⟨hregs, sameFcw_of_bits fun i hi hmask => ?_, hspecials, fun _ _ => rfl⟩, rfl, rfl⟩
  rcases Nat.lt_or_ge i 8 with h8 | h8
  · have hi4 : ∀ i < 8, flagMask.getLsbD i = false → i < 4 := by decide
    have hbit := congrArg (BitVec.getLsbD · i) hlow
    simpa [hi4 i h8 hmask] using hbit
  · exact fcwHigh_getLsbD hhigh h8 hi

theorem ldctlb_write_completes (r : Reg) :
    Completes (exec (.ldctlb .write r) s) fun t =>
      (∀ i, 2 ≤ i → i < 8 → t.fcw.getLsbD i = (s.regByte r).getLsbD i)
        ∧ (∀ i, i < 2 → (s.regByte r).getLsbD i = false → t.fcw.getLsbD i = false) ∧ Frame s t [] 0x00FF 1 := by
  obtain ⟨hflags, hreserved⟩ := writeFlagsByte_low s (s.regByte r)
  obtain ⟨hregs, hfcw, hspecials, hmem⟩ := quietly_writeFlagsByte s (s.regByte r)
  exact ⟨_, rfl, hflags, hreserved, ⟨hregs, hfcw, hspecials, hmem⟩, rfl, rfl⟩

/-- Settles O48: three maps of FCW[7:4] (`mapFlags_completes`), one step on, and the two directions of LDCTLB. -/
theorem flagInstructions : Obligations.FlagInstructions := fun s =>
  ⟨fun f => ⟨mapFlags_completes s (· ||| f), mapFlags_completes s (· &&& ~~~f), mapFlags_completes s (· ^^^ f)⟩,
    ⟨_, rfl, frame_advance s 1⟩, fun r => ⟨⟨_, rfl, writes_reg_only s .b r _ 1⟩, ldctlb_write_completes s r⟩⟩

/-! ### LDCTL (R416) -/

theorem ldctl_read (h : s.system = true) (r : Reg) (c : CtlReg) : exec (.ldctl .read r c) s = s.readCtl r c :=
  privileged_system s _ _ h

theorem ldctl_write (h : s.system = true) (r : Reg) (c : CtlReg) : exec (.ldctl .write r c) s = s.writeCtl r c :=
  privileged_system s _ _ h

/-- A control register read into a word register. -/
theorem reads_ctl (r : Reg) (v : Word) :
    Completes (.next ((s.setReg r v).advance 1)) fun t => Writes s t .w (.reg r) v 0 1 :=
  ⟨_, rfl, writes_reg_only s .w r v 1⟩

theorem readCtl_refresh (r : Reg) :
    ∃ row : BitVec 9, row.getLsbD 0 = false ∧
      s.readCtl r .refresh = .next ((({ s with refresh := { s.refresh with row := row } } : State).setReg r
        (BitVec.ofBool s.refresh.enable ++ s.refresh.rate ++ row)).advance 1) :=
  ⟨_, drawRow_row_even s, rfl⟩

theorem writeCtl_fcw (r : Reg) :
    Completes (s.writeCtl r .fcw) fun t => FcwLoaded s t (s.reg r)
      ∧ t.regs = s.regs ∧ t.normalR14 = s.normalR14 ∧ t.normalR15 = s.normalR15 ∧ t.mem = s.mem
      ∧ SameSpecials s t ∧ Passed s t 1 :=
  ⟨_, rfl, fcwLoaded_writeFcw s _ rfl, rfl, rfl, rfl, rfl, by simp [SameSpecials, SameInternals], rfl, rfl⟩

/-- Bit 0 of ROW is written 0, whatever the register holds (R38). -/
theorem writeRefresh_row (w : Word) :
    (s.writeRefresh w).refresh.row.extractLsb' 1 8 = w.extractLsb' 1 8
      ∧ (s.writeRefresh w).refresh.row.getLsbD 0 = false := by
  have hmask : ∀ i < 8, (0x1FE : BitVec 9).getLsbD (1 + i) = true := by decide
  refine ⟨BitVec.eq_of_getLsbD_eq fun i hi => ?_, by simp [State.writeRefresh]⟩
  simp only [State.writeRefresh, Nat.zero_add, BitVec.getLsbD_extractLsb', BitVec.getLsbD_and, hmask i hi, hi,
    decide_true, Bool.true_and, Bool.and_true, show 1 + i < 9 by omega]

theorem writeCtl_refresh (r : Reg) :
    Completes (s.writeCtl r .refresh) fun t =>
      t = ({ s with refresh := t.refresh } : State).advance 1
        ∧ t.refresh.enable = (s.reg r).getLsbD 15 ∧ t.refresh.rate = (s.reg r).extractLsb' 9 6
        ∧ t.refresh.row.extractLsb' 1 8 = (s.reg r).extractLsb' 1 8 ∧ t.refresh.row.getLsbD 0 = false :=
  ⟨_, rfl, rfl, BitVec.msb_eq_getLsbD_last (s.reg r), rfl, writeRefresh_row s (s.reg r)⟩

/-- Settles O49: in system mode LDCTL is `State.readCtl` or `State.writeCtl`, register by register. -/
theorem controlRegisterTransfers : Obligations.ControlRegisterTransfers := by
  intro s r hsys
  simp only [ldctl_read s hsys, ldctl_write s hsys]
  refine ⟨reads_ctl s r _, writeCtl_fcw s r, readCtl_refresh s r, writeCtl_refresh s r, reads_ctl s r _, rfl,
    reads_ctl s r _, rfl, fun hz => ?_, fun hz dir => ?_⟩
  · exact ⟨⟨_, if_pos hz, writes_reg_only s .w r _ 1⟩, if_pos hz, ⟨_, if_pos hz, writes_reg_only s .w r _ 1⟩, if_pos hz⟩
  · cases dir with
    | read => simp [ldctl_read s hsys, State.readCtl, hz]
    | write => simp [ldctl_write s hsys, State.writeCtl, hz]

/-! ### EI and DI (R412, R413) -/

/-- VIE is selected where the first bit is 0, NVIE where the second is, and no other bit is (R412). -/
theorem enableMask_bits (v n : Bool) :
    (enableMask v n).getLsbD 12 = !v ∧ (enableMask v n).getLsbD 11 = !n
      ∧ ∀ i < 16, (0x1800 : Word).getLsbD i = false → (enableMask v n).getLsbD i = false := by
  revert v n
  decide

/-- An instruction that gives the enables it selects the value `on`. -/
theorem enables_written {v n on : Bool} {w : Word}
    (hw : ∀ i < 16, w.getLsbD i = if (enableMask v n).getLsbD i then on else s.fcw.getLsbD i) :
    let t := State.advance { s with fcw := w } 1
    t = { s with fcw := t.fcw, pc := s.pc + 2 } ∧ SameFcw s t 0x1800
      ∧ (t.fcw.getLsbD 12 = if v then s.fcw.getLsbD 12 else on)
      ∧ (t.fcw.getLsbD 11 = if n then s.fcw.getLsbD 11 else on) := by
  obtain ⟨hvie, hnvie, hother⟩ := enableMask_bits v n
  refine ⟨rfl, sameFcw_of_bits fun i hi hmask => ?_, (hw 12 (by decide)).trans ?_, (hw 11 (by decide)).trans ?_⟩
  · refine (hw i hi).trans (if_neg ?_)
    simp [hother i hi hmask]
  · rw [hvie]
    cases v <;> rfl
  · rw [hnvie]
    cases n <;> rfl

theorem ei_completes (hsys : s.system = true) (v n : Bool) :
    Completes (exec (.ei v n) s) fun t => t = { s with fcw := t.fcw, pc := s.pc + 2 }
      ∧ SameFcw s t 0x1800 ∧ (t.fcw.getLsbD 12 = if v then s.fcw.getLsbD 12 else true)
      ∧ (t.fcw.getLsbD 11 = if n then s.fcw.getLsbD 11 else true) := by
  refine ⟨_, privileged_system s _ _ hsys, enables_written s fun i _ => ?_⟩
  rw [BitVec.getLsbD_or]
  cases (enableMask v n).getLsbD i <;> simp

theorem di_completes (hsys : s.system = true) (v n : Bool) :
    Completes (exec (.di v n) s) fun t => t = { s with fcw := t.fcw, pc := s.pc + 2 }
      ∧ SameFcw s t 0x1800 ∧ (t.fcw.getLsbD 12 = if v then s.fcw.getLsbD 12 else false)
      ∧ (t.fcw.getLsbD 11 = if n then s.fcw.getLsbD 11 else false) := by
  refine ⟨_, privileged_system s _ _ hsys, enables_written s fun i hi => ?_⟩
  rw [BitVec.getLsbD_and, BitVec.getLsbD_not, decide_eq_true hi]
  cases (enableMask v n).getLsbD i <;> simp

/-! ### MBIT and MREQ (R424, R425) -/

theorem mbit_completes (hsys : s.system = true) (hmi : s.platform.micro.invertMi = false) :
    Completes (exec .mbit s) fun t => t.flags.s = s.pins.mi ∧ Frame s t [] 0x0020 1 := by
  obtain ⟨hframe, hflags⟩ := frame_setFlags s _ 1 0x0020 (sameFcw_setSign s (s.pins.mi ^^ s.platform.micro.invertMi))
  refine ⟨_, privileged_system s _ _ hsys, ?_, hframe⟩
  rw [hflags, hmi, Bool.xor_false]

/-- Z and S are the flags of MREQ. -/
theorem sameFcw_mreqFlags (made granted : Bool) : SameFcw s (s.setFlags (s.mreqFlags made granted)) 0x0060 :=
  sameFcw_setFlags s _ _ (fun _ => rfl) (fun h => absurd h (by decide)) (fun h => absurd h (by decide)) (fun _ => rfl)
    (fun _ => rfl) (fun _ => rfl)

theorem mreqFlags_eq (h : s.platform.micro = { invertMi := false, invertS := false, invertZ := false })
    (made granted : Bool) : (s.mreqFlags made granted).z = made ∧ (s.mreqFlags made granted).s = granted := by
  simp [State.mreqFlags, h]

theorem execMreq_busy (hsys : s.system = true) (hmi : (s.pins.mi ^^ s.platform.micro.invertMi) = true) (d : Reg) :
    exec (.mreq d) s =
      .next ((State.setFlags { s with moLow := false } (s.mreqFlags false false)).advance 1) :=
  (privileged_system s _ _ hsys).trans (if_pos hmi)

theorem execMreq_requests (hsys : s.system = true) (hmi : ¬(s.pins.mi ^^ s.platform.micro.invertMi) = true) (d : Reg) :
    exec (.mreq d) s =
      .next (((State.setReg { s with moLow := s.pins.miSettled ^^ s.platform.micro.invertMi } d 0).setFlags
        (s.mreqFlags true (s.pins.miSettled ^^ s.platform.micro.invertMi))).advance 1) :=
  (privileged_system s _ _ hsys).trans (if_neg hmi)

theorem mreq_completes (hsys : s.system = true)
    (hmicro : s.platform.micro = { invertMi := false, invertS := false, invertZ := false }) (d : Reg) :
    Completes (exec (.mreq d) s) fun t =>
      (s.pins.mi = true → t.flags.z = false ∧ t.flags.s = false ∧ t.moLow = false ∧ t.reg d = s.reg d)
        ∧ (s.pins.mi = false → t.flags.z = true ∧ t.flags.s = s.pins.miSettled ∧ t.moLow = s.pins.miSettled
            ∧ t.reg d = 0)
        ∧ SameRegs s t [d] ∧ SameFcw s t 0x0060 ∧ SameMemory s t ∧ Passed s t 1
        ∧ SameSpecials { s with moLow := t.moLow } t := by
  have hpolarity : ∀ b, (b ^^ s.platform.micro.invertMi) = b := fun b => by rw [hmicro, Bool.xor_false]
  cases hmi : s.pins.mi with
  | true =>
    obtain ⟨hz, hs⟩ := mreqFlags_eq s hmicro false false
    obtain ⟨⟨⟨hregs, hfcw, hspecials, hmem⟩, hpassed⟩, hflags⟩ :=
      frame_setFlags { s with moLow := false } (s.mreqFlags false false) 1 0x0060 (sameFcw_mreqFlags s false false)
    refine ⟨_, execMreq_busy s hsys (by rw [hpolarity, hmi]) d, fun _ => ⟨?_, ?_, rfl, hregs.1 d List.not_mem_nil⟩,
      nofun, sameRegs_mono hregs (List.nil_subset _), hfcw, hmem, hpassed, hspecials⟩
    · rw [hflags, hz]
    · rw [hflags, hs]
  | false =>
    obtain ⟨hz, hs⟩ := mreqFlags_eq s hmicro true (s.pins.miSettled ^^ s.platform.micro.invertMi)
    obtain ⟨⟨⟨hvalue, -⟩, ⟨hregs, hfcw, hspecials, hmem⟩, hpassed⟩, hflags⟩ :=
      writes_reg { s with moLow := s.pins.miSettled ^^ s.platform.micro.invertMi } .w d 0 _ 1 0x0060
        (sameFcw_mreqFlags s true (s.pins.miSettled ^^ s.platform.micro.invertMi))
    refine ⟨_, execMreq_requests s hsys (by rw [hpolarity, hmi]; decide) d, nofun,
      fun _ => ⟨?_, ?_, hpolarity _, hvalue⟩, hregs, hfcw, hmem, hpassed, hspecials⟩
    · exact (congrArg Flags.z hflags).trans hz
    · exact (congrArg Flags.s hflags).trans (hs.trans (hpolarity _))

/-- Settles O50: in system mode each of them is its effect. -/
theorem systemControlInstructions : Obligations.SystemControlInstructions := fun s hsys =>
  ⟨fun v n => ⟨ei_completes s hsys v n, di_completes s hsys v n⟩, privileged_system s _ _ hsys,
    privileged_system s _ _ hsys, privileged_system s _ _ hsys, mbit_completes s hsys,
    fun d hmicro => mreq_completes s hsys hmicro d⟩

end Sys2Proof.Machine

/-! The machine cycles of an instruction against its effect: each byte it changes in memory is written by one of its
cycles, and it is refused for an odd word address exactly where one of its word cycles is at one. -/

namespace Sys2Proof.Machine

variable {s t u : State}

/-! ### The cells that cycles write -/

/-- The cells that the write cycles of a list store to. -/
def State.allWritten (s : State) (cs : List Cycle) : List Nat := cs.flatMap s.writtenCells

theorem writtenCells_congr (h : t.platform = s.platform) : t.writtenCells = s.writtenCells := by
  funext c
  cases c with
  | memory use sp write byte a => cases write <;> simp only [State.writtenCells, cells_congr s h]
  | io | acknowledge | epu | internal | refresh => rfl

theorem mem_written_append {cs ds : List Cycle} {k : Nat} :
    k ∈ s.allWritten (cs ++ ds) ↔ k ∈ s.allWritten cs ∨ k ∈ s.allWritten ds := by
  rw [State.allWritten, List.flatMap_append, List.mem_append]
  rfl

@[simp] theorem written_memCycles (s : State) (sp : Space) (z : Size) (a : Addr) :
    s.allWritten (memCycles sp true z a) = s.cells sp a z := by
  cases z <;> rfl

@[simp] theorem written_wordCycles (s : State) (use : MemUse) (sp : Space) (a : Addr) (n : Nat) :
    s.allWritten (wordCycles use sp true a n) = s.wordCells sp a n := by
  rw [State.allWritten, wordCycles, List.flatMap_map]
  rfl

/-- An entry writes its frame (R470). -/
theorem frameCells_written (s : State) (c : Cause) (ident : Word) {k : Nat} (h : k ∈ s.frameCells) :
    k ∈ s.allWritten (s.entryCycles c ident) := by
  refine mem_written_append.mpr (.inl ?_)
  rw [State.allWritten, List.flatMap_map]
  exact h

/-! ### What changes only in written cells -/

/-- Every byte outside the cells that the cycles write reads as before. -/
def Accounted (s t : State) (cs : List Cycle) : Prop := SameMemoryBut s t (s.allWritten cs)

variable {cs : List Cycle}

theorem accounted_of_same (h : t.peekByte = s.peekByte) : Accounted s t cs := fun sp a _ => by rw [h]

theorem accounted_of_mem (hp : t.platform = s.platform) (hm : t.mem = s.mem) (ht : t.tick = s.tick) :
    Accounted s t cs := accounted_of_same (State.peekByte_congr hp hm ht)

theorem accounted_of_cells {cells : List Nat} (h : SameMemoryBut s t cells) (hc : ∀ k ∈ cells, k ∈ s.allWritten cs) :
    Accounted s t cs := fun sp a hn => h sp a fun hk => hn (hc _ hk)

theorem accounted_of_poke {z : Size} {sp : Space} {a : Addr} {v : BitVec z.bits}
    (h : t.peekByte = (s.poke z sp a v).peekByte) : Accounted s t (memCycles sp true z a) :=
  accounted_of_cells (holdsMem_poke s h).2 fun _ hk => (written_memCycles s sp z a).symm ▸ hk

theorem accounted_of_pokeWords {use : MemUse} {sp : Space} {a : Addr} {n : Nat} {f : Nat → Word}
    (h : t.peekByte = (s.pokeWords sp a n f).peekByte) : Accounted s t (wordCycles use sp true a n) := by
  have hmem := (pokeWords_spec s sp a f n).2
  exact accounted_of_cells (fun sp a hn => by rw [h]; exact hmem sp a hn) fun _ hk =>
    (written_wordCycles s use sp a n).symm ▸ hk

/-- Cycles before the writing ones, such as the reads of an instruction. -/
theorem Accounted.after (h : Accounted s t cs) (ds : List Cycle) : Accounted s t (ds ++ cs) :=
  accounted_of_cells h fun _ hk => mem_written_append.mpr (.inr hk)

/-- What precedes the write leaves memory and platform alone. -/
theorem Accounted.of_start (h : Accounted u t cs) (hp : u.platform = s.platform) (hk : u.peekByte = s.peekByte) :
    Accounted s t cs := by
  intro sp a hn
  rw [State.allWritten, ← writtenCells_congr hp, ← State.cell_congr hp] at hn
  rw [h sp a hn, hk]

theorem accounted_of_setDst {z : Size} {d : Dst} {v : BitVec z.bits} (h : t.peekByte = (s.setDst z d v).peekByte) :
    Accounted s t (s.dstAccess true z d) := by
  cases d with
  | reg r => exact accounted_of_same (h.trans (State.peekByte_setRegOf s z r v))
  | mem m => exact accounted_of_poke h

theorem accounted_of_push {z : Size} {r : Reg} {v : BitVec z.bits} (h : t.peekByte = (s.push z r v).peekByte) :
    Accounted s t (s.pushCycles z r) :=
  (accounted_of_poke (s := s.bump r (-BitVec.ofNat 16 z.bytes)) h).of_start (by simp) (by simp)

theorem accounted_of_enter {c : Cause} {ident : Word} {saved : Addr} (h : s.enter c ident saved = .next t) :
    Accounted s t (s.entryCycles c ident) := by
  obtain ⟨⟨⟨_, hmem, _⟩, _⟩, _⟩ := entered_enter s c ident saved h
  exact accounted_of_cells hmem fun _ hk => frameCells_written s c ident hk

/-! ### Word cycles at odd addresses (R79, D5) -/

/-- The platform takes a cycle: a byte cycle always, a word cycle as any word access. -/
def State.cycleOk (s : State) : Cycle → Bool
  | .memory _ _ _ byte a => byte || s.accessOk .w a
  | _ => true

/-- The platform takes every cycle of a list. -/
def State.cyclesOk (s : State) (cs : List Cycle) : Bool := cs.all s.cycleOk

@[simp] theorem cyclesOk_nil (s : State) : s.cyclesOk [] = true := rfl

@[simp] theorem cyclesOk_append (s : State) (cs ds : List Cycle) :
    s.cyclesOk (cs ++ ds) = (s.cyclesOk cs && s.cyclesOk ds) := List.all_append

theorem accessOk_eq_false {a : Addr} :
    s.accessOk .w a = false ↔ s.platform.oddWord = .refuse ∧ a.off.getLsbD 0 = true := by
  cases ho : s.platform.oddWord <;> simp only [State.accessOk, ho, Bool.not_eq_false', true_and, reduceCtorEq, false_and]

/-- Where the platform refuses odd word addresses it takes the cycles that have none; elsewhere it takes all. -/
theorem cyclesOk_eq_false {s : State} {cs : List Cycle} :
    s.cyclesOk cs = false ↔ s.platform.oddWord = .refuse
      ∧ ∃ use sp write a, Cycle.memory use sp write false a ∈ cs ∧ a.off.getLsbD 0 = true := by
  rw [State.cyclesOk, List.all_eq_false]
  constructor
  · rintro ⟨c, hc, hno⟩
    cases c with
    | memory use sp write byte a =>
      cases byte with
      | true => exact absurd rfl hno
      | false =>
        obtain ⟨ho, hodd⟩ := accessOk_eq_false.mp (Bool.not_eq_true _ ▸ hno)
        exact ⟨ho, use, sp, write, a, hc, hodd⟩
    | io | acknowledge | epu | internal | refresh => exact absurd rfl hno
  · rintro ⟨ho, use, sp, write, a, hc, hodd⟩
    exact ⟨_, hc, Bool.not_eq_true _ ▸ accessOk_eq_false.mpr ⟨ho, hodd⟩⟩

theorem accessOk_long (s : State) (a : Addr) : s.accessOk .l a = s.accessOk .w a := by
  cases h : s.platform.oddWord <;> simp only [State.accessOk, h]

theorem getLsbD_zero_eq (x : Word) : x.getLsbD 0 = decide (x.toNat % 2 = 1) := Nat.testBit_zero _

/-- An even distance keeps an address odd or even. -/
theorem accessOk_add (s : State) (z : Size) (a : Addr) {d : Word} (hd : d.toNat % 2 = 0) :
    s.accessOk z (a.add d) = s.accessOk z a := by
  have h : (a.add d).off.getLsbD 0 = a.off.getLsbD 0 := by
    rw [getLsbD_zero_eq, getLsbD_zero_eq, Addr.add_off]
    exact decide_eq_decide.mpr (by omega)
  cases z <;> simp only [State.accessOk, h]

theorem ofNat_double_even (k : Nat) : (BitVec.ofNat 16 (2 * k)).toNat % 2 = 0 := by
  rw [BitVec.toNat_ofNat]
  omega

theorem neg_ofNat_double_even (k : Nat) : (-BitVec.ofNat 16 (2 * k)).toNat % 2 = 0 := by
  rw [BitVec.toNat_neg, BitVec.toNat_ofNat]
  omega

@[simp] theorem cyclesOk_memCycles (s : State) (sp : Space) (write : Bool) (z : Size) (a : Addr) :
    s.cyclesOk (memCycles sp write z a) = s.accessOk z a := by
  cases z with
  | b => rfl
  | w => exact Bool.and_true _
  | l =>
    have hnext : s.accessOk .w (a.add 2) = s.accessOk .w a := accessOk_add s .w a rfl
    simp only [State.cyclesOk, memCycles, List.all_cons, List.all_nil, State.cycleOk, Bool.false_or, hnext,
      Bool.and_true, Bool.and_self, accessOk_long]

theorem all_range_const (n : Nat) (b : Bool) : (List.range (n + 1)).all (fun _ => b) = b := by
  rw [Bool.eq_iff_iff, List.all_eq_true]
  exact ⟨fun h => h 0 (List.mem_range.mpr n.succ_pos), fun h _ _ => h⟩

/-- One word cycle of a transfer or all: their addresses are odd or even together. -/
@[simp] theorem cyclesOk_wordCycles (s : State) (use : MemUse) (sp : Space) (write : Bool) (a : Addr) (n : Nat) :
    s.cyclesOk (wordCycles use sp write a (n + 1)) = s.accessOk .w a := by
  have hall : ∀ k, s.accessOk .w (a.add (BitVec.ofNat 16 (2 * k))) = s.accessOk .w a := fun k =>
    accessOk_add s .w a (ofNat_double_even k)
  simp only [State.cyclesOk, wordCycles, List.all_map, Function.comp_def, State.cycleOk, Bool.false_or, hall,
    all_range_const]

/-- The new FCW and PC of an entry stand at even addresses (R476). -/
theorem psa_even (s : State) {d : Word} (hd : d.toNat % 2 = 0) : s.accessOk .w (s.psaBase.add d) = true := by
  have hbase : (s.psapOff &&& 0xFF00).toNat % 2 = 0 := by
    have h0 : (s.psapOff &&& 0xFF00).getLsbD 0 = false := by rw [BitVec.getLsbD_and]; exact Bool.and_false _
    rw [getLsbD_zero_eq, decide_eq_false_iff_not] at h0
    omega
  rw [accessOk_add s .w _ hd, ← Bool.not_eq_false, accessOk_eq_false, getLsbD_zero_eq, decide_eq_true_iff]
  rintro ⟨-, hodd⟩
  exact absurd (hbase.symm.trans hodd) (by decide)

theorem fcwOffset_even (c : Cause) (z8001 : Bool) : (c.fcwOffset z8001).toNat % 2 = 0 := by
  cases z8001 <;> simp only [Cause.fcwOffset, if_true, if_false, Bool.false_eq_true, BitVec.toNat_ofNat] <;> omega

theorem vectorShift_even (c : Cause) (ident : Word) : (c.vectorShift ident).toNat % 2 = 0 := by
  rcases c with t | r
  · rfl
  · cases r with
    | vi =>
      have h2 : (2 : Word).toNat = 2 := rfl
      simp only [Cause.vectorShift, BitVec.toNat_mul, h2]
      omega
    | nmi | segt | nvi => rfl

theorem pcOffset_even (c : Cause) (z8001 : Bool) (ident : Word) : (c.pcOffset z8001 ident).toNat % 2 = 0 := by
  have hshift := vectorShift_even c ident
  cases z8001 <;>
    simp only [Cause.pcOffset, if_true, if_false, Bool.false_eq_true, BitVec.toNat_add, BitVec.toNat_ofNat] <;> omega

/-- Of an entry's cycles the pushes alone can be at odd addresses (R470, R476). -/
@[simp] theorem cyclesOk_entryCycles (s : State) (c : Cause) (ident : Word) :
    s.cyclesOk (s.entryCycles c ident) = s.accessOk .w s.systemSp := by
  have hpush : ∀ n, s.cyclesOk ((List.range (n + 1)).map fun k =>
      .memory .reference ⟨true, .stack⟩ true false (s.belowSystemSp (k + 1))) = s.accessOk .w s.systemSp := fun n => by
    have hall : ∀ k, s.accessOk .w (s.belowSystemSp (k + 1)) = s.accessOk .w s.systemSp := fun k =>
      accessOk_add s .w _ (neg_ofNat_double_even _)
    simp only [State.cyclesOk, List.all_map, Function.comp_def, State.cycleOk, Bool.false_or, hall, all_range_const]
  have hpc := psa_even s (pcOffset_even c s.isZ8001 ident)
  have hload : s.cyclesOk (.memory .reference ⟨true, .code⟩ false false (s.psaBase.add (c.fcwOffset s.isZ8001))
      :: wordCycles .reference ⟨true, .code⟩ false (s.psaBase.add (c.pcOffset s.isZ8001 ident))
        (if s.isZ8001 then 2 else 1)) = true := by
    refine Bool.and_eq_true_iff.mpr ⟨psa_even s (fcwOffset_even c s.isZ8001), ?_⟩
    split
    · exact (cyclesOk_wordCycles s _ _ _ _ 1).trans hpc
    · exact (cyclesOk_wordCycles s _ _ _ _ 0).trans hpc
  rw [State.entryCycles, cyclesOk_append, hload, Bool.and_true]
  split
  · exact hpush 3
  · exact hpush 2

/-! ### An answer and the cycles that go with it -/

/-- The cycles `cs` go with the answer `r`: what it changes in memory they write, and it is the refusal of an odd word
address exactly where the platform does not take one of them. -/
structure Accords (s : State) (r : Result) (cs : List Cycle) : Prop where
  memory : ∀ t, r = .next t → Accounted s t cs
  odd    : r = .refused .oddWordAddress ↔ s.cyclesOk cs = false

theorem accords_next (hok : s.cyclesOk cs = true) (ht : Accounted s t cs) : Accords s (.next t) cs where
  memory u hu := by injection hu with hu; exact hu ▸ ht
  odd := ⟨nofun, fun h => absurd (hok.symm.trans h) (by decide)⟩

theorem accords_refused {e : Refusal} (hok : s.cyclesOk cs = true) (he : e ≠ .oddWordAddress) :
    Accords s (.refused e) cs where
  memory u hu := nomatch hu
  odd := ⟨fun h => absurd (by injection h) he, fun h => absurd (hok.symm.trans h) (by decide)⟩

theorem accords_aligned {ok : Bool} (hok : s.cyclesOk cs = ok) (ht : Accounted s t cs) :
    Accords s (whenAligned ok t) cs := by
  subst hok
  cases h : s.cyclesOk cs with
  | true => exact accords_next h ht
  | false => exact ⟨fun _ hu => (nomatch hu), fun _ => h, fun _ => rfl⟩

theorem accords_ite {c : Prop} [Decidable c] {r r' : Result} (hr : c → Accords s r cs) (hr' : ¬c → Accords s r' cs) :
    Accords s (if c then r else r') cs := by
  split
  · next h => exact hr h
  · next h => exact hr' h

/-- An instruction that makes no cycle and leaves memory alone. -/
theorem accords_quiet (ht : t.peekByte = s.peekByte) : Accords s (.next t) [] :=
  accords_next rfl (accounted_of_same ht)

theorem accords_enter (s : State) (c : Cause) (ident : Word) (saved : Addr) :
    Accords s (s.enter c ident saved) (s.entryCycles c ident) := by
  have hmem := fun t => accounted_of_enter (s := s) (t := t) (c := c) (ident := ident) (saved := saved)
  refine ⟨hmem, ?_⟩
  rw [cyclesOk_entryCycles, State.enter]
  cases s.accessOk .w s.systemSp <;> simp [whenAligned]

/-! ### Operands -/

@[simp] theorem cyclesOk_srcCycles {z : Size} (s : State) (src : Src z) : s.cyclesOk (s.srcCycles src) = s.srcOk src := by
  cases src with
  | reg | imm => rfl
  | mem m => exact cyclesOk_memCycles s _ _ z _

@[simp] theorem cyclesOk_dstAccess (s t : State) (write : Bool) (z : Size) (d : Dst)
    (h : t.platform = s.platform) : s.cyclesOk (t.dstAccess write z d) = t.dstOk z d := by
  cases d with
  | reg => rfl
  | mem m =>
    exact (cyclesOk_memCycles s _ _ z _).trans (congrFun (congrFun (State.accessOk_congr h) z) _).symm

@[simp] theorem cyclesOk_regAccess (s : State) (write : Bool) (z : Size) (r : Reg) :
    s.cyclesOk (s.regAccess write z r) = s.accessOk z (s.addrReg r) := cyclesOk_memCycles s _ _ z _

@[simp] theorem cyclesOk_pushCycles (s : State) (z : Size) (r : Reg) :
    s.cyclesOk (s.pushCycles z r) = s.accessOk z (s.addrReg r) := by
  rw [State.pushCycles, cyclesOk_memCycles]
  cases z with
  | b => rw [State.accessOk, State.accessOk]
  | w => exact accessOk_add s .w _ (neg_ofNat_double_even 1)
  | l => exact accessOk_add s .l _ (neg_ofNat_double_even 2)

/-! ### The shapes that instructions share -/

theorem accords_regFrom {z z' : Size} (s : State) (d : Reg) (src : Src z) (r : BitVec z'.bits) (f : Flags) :
    Accords s (s.regFrom (z' := z') d src r f) (s.srcCycles src) :=
  accords_aligned (cyclesOk_srcCycles s src) (accounted_of_same (by simp))

theorem accords_quadFrom {z : Size} (s : State) (d : Reg) (src : Src z) (r : Quad) (f : Flags) :
    Accords s (whenAligned (s.srcOk src) (((s.setRegQuad d r).setFlags f).advance (1 + src.words.length)))
      (s.srcCycles src) :=
  accords_aligned (cyclesOk_srcCycles s src) (accounted_of_mem (by simp) (by simp) (by simp))

theorem accords_cp {z : Size} (s : State) (a : CpArgs z) : Accords s (s.cp a) (s.cpCycles a) := by
  cases a with
  | reg d src => exact accords_aligned (cyclesOk_srcCycles s src) (accounted_of_same (by simp))
  | memImm m v => exact accords_aligned (cyclesOk_memCycles s _ _ z _) (accounted_of_same (by simp))

theorem accords_ld {z : Size} (s : State) (a : LdArgs z) : Accords s (s.ld a) (s.ldCycles a) := by
  cases a with
  | reg | imm | compact => exact accords_quiet (by simp)
  | load d m => exact accords_aligned (cyclesOk_memCycles s _ _ z _) (accounted_of_same (by simp))
  | store m r =>
    exact accords_aligned (cyclesOk_memCycles s _ _ z _) (accounted_of_poke (v := s.regOf z r) (by simp))
  | storeImm m v => exact accords_aligned (cyclesOk_memCycles s _ _ z _) (accounted_of_poke (v := v) (by simp))

theorem accords_ldr (s : State) (z : Size) (dir : Dir) (r : Reg) (disp : Word) :
    Accords s (s.ldr z dir r disp) (s.ldrCycles z dir disp) := by
  refine accords_aligned (cyclesOk_memCycles s _ _ z _) ?_
  cases dir with
  | load => exact accounted_of_same (by simp)
  | store => exact accounted_of_poke (v := s.regOf z r) (by simp)

theorem accords_ldm (s : State) (dir : Dir) (m : Mem) (r : Reg) (n : BitVec 4) :
    Accords s (execLdm dir m r n s) (s.effectCycles (.ldm dir m r n)) := by
  cases dir with
  | load =>
    exact accords_aligned (cyclesOk_wordCycles s _ _ _ _ _)
      (accounted_of_mem (by simp [State.ldmLoad]) (by simp [State.ldmLoad]) (by simp [State.ldmLoad]))
  | store =>
    exact accords_aligned (cyclesOk_wordCycles s _ _ _ _ _) (accounted_of_pokeWords (f := fun i => s.reg (r + BitVec.ofNat 4 i)) (by simp [State.ldmStore]))

/-- A destination that is written, after it is read or not (R81). -/
theorem accords_setDst {z : Size} {d : Dst} {v : BitVec z.bits} (hk : t.peekByte = (s.setDst z d v).peekByte) :
    Accords s (whenAligned (s.dstOk z d) t) (s.dstAccess true z d)
      ∧ Accords s (whenAligned (s.dstOk z d) t) (s.modifyCycles z d) := by
  have hmem := accounted_of_setDst hk
  refine ⟨accords_aligned (cyclesOk_dstAccess s s true z d rfl) hmem, accords_aligned ?_ (hmem.after _)⟩
  rw [State.modifyCycles, cyclesOk_append, cyclesOk_dstAccess s s _ z d rfl, cyclesOk_dstAccess s s _ z d rfl,
    Bool.and_self]

theorem accords_modify (s : State) (z : Size) (d : Dst) (v : BitVec z.bits) (f : Flags) :
    Accords s (s.modify z d v f) (s.modifyCycles z d) := (accords_setDst (v := v) (by simp)).2

theorem accords_clear (s : State) (z : Size) (d : Dst) (v : BitVec z.bits) (f : Flags) :
    Accords s (s.modify z d v f) (s.dstAccess true z d) := (accords_setDst (v := v) (by simp)).1

theorem accords_bitWrite (s : State) (z : Size) (a : BitArgs) (v : BitVec z.bits) :
    Accords s (s.bitWrite z a v) (s.modifyCycles z (bitDst a)) := (accords_setDst (v := v) (by simp)).2

theorem accords_exchange (s : State) (z : Size) (d : Reg) (src : Dst) :
    Accords s (s.exchange z d src) (s.modifyCycles z src) := (accords_setDst (v := s.regOf z d) (by simp)).2

theorem accords_testDst (s : State) (z : Size) (d : Dst) (f : Flags) :
    Accords s (s.testDst z d f) (s.dstAccess false z d) :=
  accords_aligned (cyclesOk_dstAccess s s false z d rfl) (accounted_of_same (by simp))

theorem accords_bitTest (s : State) (z : Size) (a : BitArgs) :
    Accords s (s.bitTest z a) (s.dstAccess false z (bitDst a)) :=
  accords_aligned (cyclesOk_dstAccess s s false z _ rfl) (accounted_of_same (by simp))

theorem accords_pushFrom (s : State) (z : Size) (sp : Reg) (src : Dst) :
    Accords s (s.pushFrom z sp src) (s.dstAccess false z src ++ s.pushCycles z sp) := by
  refine accords_aligned ?_ ((accounted_of_push (v := s.stackDatum z sp src (s.dst z src)) (by simp)).after _)
  rw [cyclesOk_append, cyclesOk_dstAccess s s _ z src rfl, cyclesOk_pushCycles]

theorem accords_push (s : State) (sp : Reg) (src : Src .w) :
    Accords s (execPush sp src s) (s.effectCycles (.push sp src)) := by
  cases src with
  | reg r => exact accords_pushFrom s .w sp (.reg r)
  | mem m => exact accords_pushFrom s .w sp (.mem m)
  | imm v => exact accords_aligned (cyclesOk_pushCycles s .w sp) (accounted_of_push (v := v) (by simp))

theorem accords_popTo (s : State) (z : Size) (d : Dst) (sp : Reg) :
    Accords s (s.popTo z d sp) (s.popCycles z d sp) := by
  have hp : (s.drop z sp).platform = s.platform := by simp
  have hk : (s.drop z sp).peekByte = s.peekByte := by simp [State.drop]
  have hmem := accounted_of_setDst (s := s.drop z sp) (z := z) (d := d) (v := s.stackDatum z sp d (s.top z sp))
    (State.peekByte_advance _ (1 + d.words.length))
  refine accords_aligned ?_ ((hmem.of_start hp hk).after _)
  rw [State.popCycles, cyclesOk_append, cyclesOk_regAccess, cyclesOk_dstAccess s _ _ z d hp]

theorem accords_tcc (s : State) (z : Size) (c : Cond) (d : Reg) : Accords s (s.tcc z c d) [] :=
  accords_quiet (by split <;> simp)

theorem accords_djnz (s : State) (z : Size) (r : Reg) (disp : BitVec 7) : Accords s (s.djnz z r disp) [] :=
  accords_quiet (by split <;> simp)

theorem accords_rotateReg (s : State) (z : Size) (one : BitVec z.bits → Bool → BitVec z.bits × Bool) (d : Reg)
    (two : Bool) : Accords s (s.rotateReg z one d two) [] := accords_quiet (by simp)

theorem accords_shift (s : State) (z : Size) (arith : Bool) (d : Reg) (k : Int) : Accords s (s.shift z arith d k) [] :=
  accords_ite (fun _ => accords_quiet (by simp)) fun _ => accords_refused rfl (by decide)

theorem accords_blockCompare (s : State) (z : Size) (up rep : Bool) (p r d : Reg) (c : Cond) :
    Accords s (s.blockCompare z up rep p r d c) (s.regAccess false z p) :=
  accords_aligned (cyclesOk_regAccess s _ z p) (accounted_of_same (by simp))

theorem accords_blockCompareString (s : State) (z : Size) (up rep : Bool) (p r d : Reg) (c : Cond) :
    Accords s (s.blockCompareString z up rep p r d c) (s.regAccess false z d ++ s.regAccess false z p) :=
  accords_aligned (by simp) (accounted_of_same (by simp))

theorem accords_blockMove (s : State) (z : Size) (up rep : Bool) (p r d : Reg) :
    Accords s (s.blockMove z up rep p r d) (s.regAccess false z p ++ s.regAccess true z d) :=
  accords_aligned (by simp)
    ((accounted_of_poke (v := s.peek z (s.regSpace p) (s.addrReg p)) (by simp)).after _)

theorem cyclesOk_tableCycles (s : State) (p q : Reg) : s.cyclesOk (s.tableCycles p q) = true := by
  rw [State.tableCycles, cyclesOk_append, cyclesOk_regAccess, cyclesOk_memCycles]
  rfl

theorem accords_translate (s : State) (up rep : Bool) (d r q : Reg) :
    Accords s (s.translate up rep d r q) (s.tableCycles d q ++ s.regAccess true .b d) := by
  refine accords_next ?_ ((accounted_of_poke (z := .b) (v := s.translated d q)
    (State.peekByte_congr (by simp [State.poke]) (by simp [State.poke]) (by simp [State.poke]))).after _)
  rw [cyclesOk_append, cyclesOk_tableCycles, cyclesOk_regAccess]
  rfl

theorem accords_translateTest (s : State) (up rep : Bool) (p r q : Reg) :
    Accords s (s.translateTest up rep p r q) (s.tableCycles p q) :=
  accords_next (cyclesOk_tableCycles s p q) (accounted_of_mem (by simp) (by simp) (by simp))

/-- LDA and LDAR make no cycle (R154, R155). -/
theorem peekByte_setAddr_advance (s : State) (d : Reg) (a : Addr) (n : Nat) :
    ((s.setAddr d a).advance n).peekByte = s.peekByte := by
  unfold State.setAddr
  split <;> simp

/-! ### Calls, returns and jumps -/

theorem accounted_of_pushPc (s : State) : Accounted s s.pushPc (s.pushCycles s.returnSize s.spReg) := by
  unfold State.pushPc State.returnSize
  split <;> exact accounted_of_push rfl

theorem cyclesOk_returnPush (s : State) : s.cyclesOk (s.pushCycles s.returnSize s.spReg) = s.stackOk := by
  rw [cyclesOk_pushCycles, State.returnSize, State.stackOk]
  split
  · exact accessOk_long s _
  · rfl

/-- The return address is pushed once the program counter has passed the instruction (R250). -/
theorem accords_callTo (s : State) (n : Nat) (ht : t.peekByte = (s.advance n).pushPc.peekByte) :
    Accords s (whenAligned s.stackOk t) (s.pushCycles s.returnSize s.spReg) := by
  have hcycles : (s.advance n).pushCycles (s.advance n).returnSize (s.advance n).spReg =
      s.pushCycles s.returnSize s.spReg := by simp [State.pushCycles, State.returnSize]
  have hmem := accounted_of_pushPc (s.advance n)
  rw [hcycles] at hmem
  refine accords_aligned (cyclesOk_returnPush s) (Accounted.of_start (u := s.advance n) ?_ (by simp) (by simp))
  intro sp a hn
  rw [ht]
  exact hmem sp a hn

theorem accords_ret (s : State) (c : Cond) : Accords s (execRet c s) (s.effectCycles (.ret c)) := by
  have hpop : s.popPc.peekByte = s.peekByte := by
    unfold State.popPc
    split <;> simp [State.drop]
  have hok : s.cyclesOk (s.regAccess false s.returnSize s.spReg) = s.stackOk :=
    (cyclesOk_regAccess s _ _ _).trans (((cyclesOk_pushCycles s _ _).symm).trans (cyclesOk_returnPush s))
  show Accords s (execRet c s) (if s.flags.holds c then s.regAccess false s.returnSize s.spReg else [])
  unfold execRet
  split
  · exact accords_aligned hok (accounted_of_same hpop)
  · exact accords_quiet (by simp)

theorem accords_jp (s : State) (c : Cond) (m : Mem) : Accords s (execJp c m s) [] :=
  accords_quiet (by split <;> simp)

theorem accords_jr (s : State) (c : Cond) (disp : BitVec 8) : Accords s (execJr c disp s) [] :=
  accords_quiet (by split <;> simp)

/-! ### Extended instructions (R440) -/

theorem cyclesOk_epu (s : State) (write : Bool) (n : Nat) : s.cyclesOk (List.replicate n (.epu write)) = true := by
  rw [State.cyclesOk, List.all_eq_true]
  intro c hc
  rw [List.eq_of_mem_replicate hc]
  rfl

theorem accords_handOff (s : State) (act : EpuAction) : Accords s (s.handOff act) (s.handOffCycles act) := by
  cases act with
  | internal => exact accords_quiet (by simp)
  | fromMemory m n => exact accords_aligned (cyclesOk_wordCycles s _ _ _ _ _) (accounted_of_same rfl)
  | toMemory m n =>
    have hmem := accounted_of_pokeWords (s := s.epuGive (n.toNat + 1)) (use := .epu) (f := s.epuWord)
      (n := n.toNat + 1)
      (State.peekByte_advance ((s.epuGive (n.toNat + 1)).pokeWords (s.memSpace m) (s.memAddr m) _ _) 2)
    exact accords_aligned (cyclesOk_wordCycles s _ _ _ _ _) (hmem.of_start rfl rfl)
  | fromRegs r n => exact accords_next (cyclesOk_epu s _ _) (accounted_of_same rfl)
  | toRegs r n => exact accords_next (cyclesOk_epu s _ _) (accounted_of_mem (by simp) (by simp) (by simp))
  | toFlags => exact accords_next rfl (accounted_of_same rfl)

theorem accords_extended (s : State) (op : ExtOp) (e : Byte) (e1 : Word) :
    Accords s (execExtended op e e1 s) (s.extendedCycles op e e1) := by
  cases hepa : s.epa with
  | false =>
    simp only [execExtended, State.extendedCycles, hepa, Bool.false_eq_true, if_false]
    exact accords_enter s _ _ _
  | true =>
    cases hact : s.epuAction op e e1 with
    | none =>
      simp only [execExtended, State.extendedCycles, hepa, hact, if_true]
      exact accords_refused rfl (by decide)
    | some act =>
      simp only [execExtended, State.extendedCycles, hepa, hact, if_true]
      exact accords_handOff s act

/-! ### Privileged instructions in system mode -/

theorem accords_privileged {i : Instr} {r : Result} (hsys : s.system = true) (h : Accords s r cs) :
    Accords s (s.privileged i r) cs := (privileged_system s i r hsys).symm ▸ h

theorem accords_input (s : State) (special : Bool) (z : Size) (d : Reg) (port : Word) (n : Nat) :
    Accords s (s.input special z d port n) (ioCycle special false z port) :=
  accords_next rfl (accounted_of_same (by simp))

theorem accords_output (s : State) (special : Bool) (z : Size) (port : Word) (r : Reg) (n : Nat) :
    Accords s (s.output special z port r n) (ioCycle special true z port) :=
  accords_next rfl (accounted_of_same (by simp))

theorem accords_blockInput (s : State) (special : Bool) (z : Size) (up rep : Bool) (p r d : Reg) :
    Accords s (s.blockInput special z up rep p r d) (s.blockInputCycles special z p d) := by
  have hmem : Accounted s ((s.ioRead special (s.reg p) z).poke z (s.regSpace d) (s.addrReg d) (s.ioValue z))
      (s.regAccess true z d) := (accounted_of_poke (s := s.ioRead special (s.reg p) z) rfl).of_start (by simp) (by simp)
  refine accords_aligned ?_ (Accounted.after (fun sp a hn => ?_) _)
  · rw [State.blockInputCycles, cyclesOk_append, cyclesOk_regAccess]
    rfl
  · simpa using hmem sp a hn

theorem accords_blockOutput (s : State) (special : Bool) (z : Size) (up rep : Bool) (p r d : Reg) :
    Accords s (s.blockOutput special z up rep p r d) (s.blockOutputCycles special z p d) := by
  refine accords_aligned ?_ (accounted_of_same (by simp))
  rw [State.blockOutputCycles, cyclesOk_append, cyclesOk_regAccess]
  exact Bool.and_true _

theorem accords_returnStatus (s : State) : Accords s s.returnStatus s.iretCycles := by
  have hread : ∀ n, s.cyclesOk (wordCycles .reference ⟨true, .stack⟩ false s.systemSp (n + 1)) =
      s.accessOk .w s.systemSp := cyclesOk_wordCycles s _ _ _ _
  unfold State.returnStatus State.iretCycles
  cases hz : s.isZ8001 with
  | false => exact accords_aligned (hread 2) (accounted_of_same rfl)
  | true =>
    cases hg : s.segmented with
    | false => exact accords_refused rfl (by decide)
    | true => exact accords_aligned (hread 3) (accounted_of_same rfl)

theorem accords_ldps (s : State) (m : Mem) (hsys : s.system = true) :
    Accords s (execLdps m s) (s.ldpsCycles m) := by
  refine accords_privileged hsys (accords_aligned ?_ (accounted_of_same (by split <;> rfl)))
  unfold State.ldpsCycles
  split
  · exact (cyclesOk_wordCycles s _ _ _ _ 2).trans (accessOk_add s .w _ rfl)
  · exact cyclesOk_wordCycles s _ _ _ _ 1

theorem accords_readCtl (s : State) (r : Reg) (c : CtlReg) : Accords s (s.readCtl r c) [] := by
  cases c with
  | fcw | psapOff | nspOff => exact accords_quiet (by simp)
  | refresh => exact accords_quiet rfl
  | psapSeg | nspSeg => exact accords_ite (fun _ => accords_quiet (by simp)) fun _ => accords_refused rfl (by decide)

theorem accords_writeCtl (s : State) (r : Reg) (c : CtlReg) : Accords s (s.writeCtl r c) [] := by
  cases c with
  | fcw | refresh | psapOff | nspOff => exact accords_quiet rfl
  | psapSeg | nspSeg => exact accords_ite (fun _ => accords_quiet rfl) fun _ => accords_refused rfl (by decide)

theorem accords_mreq (s : State) (d : Reg) (hsys : s.system = true) : Accords s (execMreq d s) [] :=
  accords_privileged hsys (accords_ite (fun _ => accords_quiet rfl) fun _ => accords_quiet rfl)

/-! ### Every instruction -/

/-- The effect of an instruction goes with its cycles, where the mode lets it have its effect. -/
theorem accords_effect {i : Instr} (hsys : privilegedInstr i = true → s.system = true) :
    Accords s (exec i s) (s.effectCycles i) := by
  cases i with
  | addb | add | addl | subb | sub | subl | orb | or | andb | and | xorb | xor | mult | div =>
    exact accords_regFrom s _ _ _ _
  | multl | divl => exact accords_quadFrom s _ _ _ _
  | cpb | cp | cpl => exact accords_cp s _
  | ldb | ld | ldl => exact accords_ld s _
  | ldrb => exact accords_ldr s .b _ _ _
  | ldr => exact accords_ldr s .w _ _ _
  | ldrl => exact accords_ldr s .l _ _ _
  | ldm => exact accords_ldm s _ _ _ _
  | lda | ldar => exact accords_quiet (peekByte_setAddr_advance s _ _ _)
  | comb | com | negb | neg | incb | inc | decb | dec | tsetb | tset => exact accords_modify s _ _ _ _
  | clrb | clr => exact accords_clear s _ _ _ _
  | testb | test | testl => exact accords_testDst s _ _ _
  | setflg | resflg | comflg | nop | ldk => exact accords_quiet rfl
  | ldctlb dir => cases dir <;> exact accords_quiet rfl
  | pushl => exact accords_pushFrom s _ _ _
  | push => exact accords_push s _ _
  | popl | pop => exact accords_popTo s _ _ _
  | exb | ex => exact accords_exchange s _ _ _
  | resb | res | setb | set => exact accords_bitWrite s _ _ _
  | bitb | bit => exact accords_bitTest s _ _
  | tccb | tcc => exact accords_tcc s _ _ _
  | dab | adcb | sbcb | adc | sbc | rrdb | rldb | extsb | exts | extsl =>
    exact accords_quiet rfl
  | rlb | rl | rrb | rr | rlcb | rlc | rrcb | rrc => exact accords_rotateReg s _ _ _ _
  | sllb | srlb | sll | srl | slll | srll | slab | srab | sla | sra | slal | sral | sdlb | sdl | sdll | sdab | sda
  | sdal => exact accords_shift s _ _ _ _
  | jp => exact accords_jp s _ _
  | jr => exact accords_jr s _ _
  | djnz | dbjnz => exact accords_djnz s _ _ _
  | call m => exact accords_callTo s (1 + m.words.length) (by simp)
  | calr => exact accords_callTo s 1 (by simp)
  | ret => exact accords_ret s _
  | sc => exact accords_enter s _ _ _
  | extended => exact accords_extended s _ _ _
  | cpib | cpirb | cpdb | cpdrb => exact accords_blockCompare s .b _ _ _ _ _ _
  | cpi | cpir | cpd | cpdr => exact accords_blockCompare s .w _ _ _ _ _ _
  | cpsib | cpsirb | cpsdb | cpsdrb => exact accords_blockCompareString s .b _ _ _ _ _ _
  | cpsi | cpsir | cpsd | cpsdr => exact accords_blockCompareString s .w _ _ _ _ _ _
  | ldib | ldirb | lddb | lddrb => exact accords_blockMove s .b _ _ _ _ _
  | ldi | ldir | ldd | lddr => exact accords_blockMove s .w _ _ _ _ _
  | trib | trirb | trdb | trdrb => exact accords_translate s _ _ _ _ _
  | trtib | trtirb | trtdb | trtdrb => exact accords_translateTest s _ _ _ _ _
  | inb | inw | sinb | sin => exact accords_privileged (hsys rfl) (accords_input s _ _ _ _ _)
  | outb | out | soutb | sout => exact accords_privileged (hsys rfl) (accords_output s _ _ _ _ _)
  | inib | inirb | indb | indrb | ini | inir | ind | indr | sinib | sinirb | sindb | sindrb | sini | sinir | sind
  | sindr => exact accords_privileged (hsys rfl) (accords_blockInput s _ _ _ _ _ _ _)
  | outib | otirb | outdb | otdrb | outi | otir | outd | otdr | soutib | sotirb | soutdb | sotdrb | souti | sotir
  | soutd | sotdr => exact accords_privileged (hsys rfl) (accords_blockOutput s _ _ _ _ _ _ _)
  | iret => exact accords_privileged (hsys rfl) (accords_returnStatus s)
  | ldps => exact accords_ldps s _ (hsys rfl)
  | mreq => exact accords_mreq s _ (hsys rfl)
  | halt | mset | mres | mbit | di | ei => exact accords_privileged (hsys rfl) (accords_quiet rfl)
  | ldctl dir =>
    cases dir with
    | read => exact accords_privileged (hsys rfl) (accords_readCtl s _ _)
    | write => exact accords_privileged (hsys rfl) (accords_writeCtl s _ _)

/-- What an instruction does to memory and where it is refused go with the cycles it makes, its effect's or its trap's
(R462). -/
theorem accords_exec (s : State) (i : Instr) : Accords s (exec i s) (s.instrCycles i) := by
  have hopcode : privilegedOpcode i.identifier = privilegedInstr i := privilegedOpcode_encode i
  unfold State.instrCycles
  rw [hopcode]
  split
  · next h =>
    obtain ⟨hnormal, hp⟩ := Bool.and_eq_true_iff.mp h
    rw [exec_privileged_normal s (by simpa using hnormal) hp]
    exact accords_enter s _ _ _
  · next h => exact accords_effect fun hp => by simpa [hp] using h

/-- Settles O60: the memory part of `accords_exec`. -/
theorem writeCyclesAccountForMemory : Obligations.WriteCyclesAccountForMemory := fun s t i h =>
  (accords_exec s i).memory t h

end Sys2Proof.Machine

/-! Bytes, words and long words of memory; which word a step runs, and what it makes of the decoded instruction. -/

namespace Sys2Proof.Machine

variable (s : State)

/-! ### The bytes of a word (R74, R75) -/

theorem Addr.even_of_even {a : Addr} (h : a.off.getLsbD 0 = false) : a.even = a := by
  obtain ⟨seg, off⟩ := a
  have hoff : off &&& 0xFFFE = off := by
    refine BitVec.eq_of_getLsbD_eq fun i hi => ?_
    rw [BitVec.getLsbD_and]
    rcases i with _ | i
    · exact (Bool.and_false _).trans h.symm
    · have hmask : ∀ i < 15, (0xFFFE : Word).getLsbD (i + 1) = true := by decide
      rw [hmask i (by omega), Bool.and_true]
  simp only [Addr.even, hoff]

/-- At an even address a word is its two bytes in order. -/
theorem peekWord_of_even (sp : Space) {a : Addr} (h : a.off.getLsbD 0 = false) :
    s.peekWord sp a = s.peekByte sp a ++ s.peekByte sp (a.add 1) := by
  rw [State.peekWord, Addr.even_of_even h]

/-- The bytes of a stored word stand at its address and the next, most significant first. -/
theorem peekByte_pokeWord {sp : Space} {a : Addr} (h : a.off.getLsbD 0 = false) (v : Word)
    (hp : Present s .w sp a) :
    (s.pokeWord sp a v).peekByte sp a = highByte v ∧ (s.pokeWord sp a v).peekByte sp (a.add 1) = lowByte v := by
  have hword : (s.pokeWord sp a v).peekByte sp a ++ (s.pokeWord sp a v).peekByte sp (a.add 1) = highByte v ++ lowByte v :=
    ((peekWord_of_even _ sp h).symm.trans (State.peekWord_pokeWord s v hp)).trans (word_halves v).symm
  exact ⟨(highByte_append _ _).symm.trans ((congrArg highByte hword).trans (highByte_append _ _)),
    (lowByte_append _ _).symm.trans ((congrArg lowByte hword).trans (lowByte_append _ _))⟩

/-- Settles O3: a store reads back and changes its own cells only (`holdsMem_poke`), which are distinct without
windows, and a word at an even address is its two bytes. -/
theorem memoryIsBigEndianAndReadsBack : Obligations.MemoryIsBigEndianAndReadsBack := fun s sp a =>
  ⟨fun _ _ => holdsMem_poke s rfl,
    fun hw => ⟨fun z => s.nodup_cells hw z sp a, fun _ hn => s.nodup_wordCells hw sp a hn, s.nodup_frameCells hw⟩,
    fun heven => ⟨peekWord_of_even s sp heven, rfl, fun v hp => peekByte_pokeWord s heven v hp⟩⟩

/-! ### The word a step runs (R94, R95) -/

theorem codeWord_zero : s.codeWord 0 = s.peekWord (s.space .code) s.pcAddr := by
  simp [State.codeWord, Addr.add]

theorem firstCodeWord_cases : s.firstCodeWord = s.peekWord (s.space .code) s.pcAddr
    ∨ ∃ x ∈ s.stale, x.addr = s.pcAddr ∧ s.firstCodeWord = x.word := by
  unfold State.firstCodeWord
  dsimp only
  split
  · next x hx =>
    obtain ⟨hmem, haddr⟩ := List.mem_filter.mp (List.mem_of_getElem? hx)
    exact .inr ⟨x, hmem, of_decide_eq_true haddr, rfl⟩
  · exact .inl (codeWord_zero s)

theorem firstCodeWord_of_fresh (h : s.stale = []) : s.firstCodeWord = s.codeWord 0 := by
  simp only [State.firstCodeWord, h, List.filter_nil, List.getElem?_nil]

/-- A word on record stands at the address after the instruction, which is where the next fetch is made or which a
repeating instruction will come to. -/
theorem mem_staleAfter {t : State} {next : Addr} {x : Stale} (h : x ∈ s.staleAfter t next) :
    x.addr = next ∧ (t.pcAddr = next ∨ (t.pcAddr = s.pcAddr ∧ blockOpcode s.firstCodeWord = true))
      ∧ (x ∈ s.stale ∨ x.word = s.peekWord (s.space .code) next) := by
  unfold State.staleAfter at h
  split at h
  · next hpc =>
    rcases List.mem_append.mp h with hnew | hold
    · split at hnew
      · cases hnew
      · obtain rfl := List.mem_singleton.mp hnew
        exact ⟨rfl, hpc, .inr rfl⟩
    · obtain ⟨hmem, haddr⟩ := List.mem_filter.mp hold
      exact ⟨of_decide_eq_true haddr, hpc, .inl hmem⟩
  · cases h

/-! ### A step that is one instruction -/

section

variable {s}

/-- Nothing holds the CPU and it is not halted: its step fetches (R89). -/
theorem step_of_free (h : s.Free) (ha : s.accepted = none) (hh : s.halted = false) :
    step s = s.runInstruction exec := by
  obtain ⟨hreset, hbusreq, hgranted, hwait, hpending, hstop, hturns⟩ := h
  rw [step_nil hturns]
  simp only [State.cycle, hreset, hbusreq, hgranted, hwait, hpending, hstop, ha, hh, Bool.false_eq_true, if_false]

/-- With no word fetched ahead the words fetched are those in memory (R95, R110). -/
theorem fetched_of_fresh (h : s.stale = []) :
    s.fetched = (List.range 4).map fun n => s.peekWord (s.space .code) (s.pcAddr.add (BitVec.ofNat 16 (2 * n))) := by
  rw [State.fetched, firstCodeWord_of_fresh s h]
  rfl

theorem runInstruction_of_ok {i : Instr} {rest : List Word} {ex : Instr → State → Result}
    (hpc : s.pc.getLsbD 0 = false) (hd : decode s.segmented s.fetched = .ok (i, rest)) (hr : s.runs i = true) :
    s.runInstruction ex =
      afterwards (ex i s) (s.finish (4 - rest.length) (s.stepCycles i (4 - rest.length))) := by
  simp only [State.runInstruction, hpc, hd, hr, Bool.false_eq_true, if_false, if_true]

theorem step_of_quiet {i : Instr} {rest : List Word} (h : s.Quiet)
    (hd : decode s.segmented
      ((List.range 4).map fun n => s.peekWord (s.space .code) (s.pcAddr.add (BitVec.ofNat 16 (2 * n)))) =
        .ok (i, rest))
    (hi : i.wellFormed s.segmented = true) :
    step s = afterwards (exec i s) (s.finish (4 - rest.length) (s.stepCycles i (4 - rest.length))) := by
  obtain ⟨hfree, ha, hh, hpc, hstale⟩ := h
  rw [step_of_free hfree ha hh]
  exact runInstruction_of_ok hpc (fetched_of_fresh hstale ▸ hd) (Bool.or_eq_true_iff.mpr (.inl hi))

end

/-- Settles O8: the first word by `firstCodeWord_cases`, the record by `mem_staleAfter`, and a step from a quiet state is
the instruction with its end (`step_of_quiet`). -/
theorem stepRunsDecodedInstruction : Obligations.StepRunsDecodedInstruction := by
  refine ⟨firstCodeWord_cases, fun s t next x hx => mem_staleAfter s hx, ?_⟩
  intro s i rest hq hd hi cycles
  rw [step_of_quiet hq hd hi]
  cases exec i s <;> rfl

end Sys2Proof.Machine

/-! What the decoder makes of a first word, against the tables of R126, R131 and R132: which words are unassigned, which
bits of the words after it are fixed, and which instructions it leads to. -/

namespace Sys2Proof.Machine

variable {α β : Type} {seg : Bool} {mode : BitVec 2} {ws : List Word} {w : Word}

/-! ### What a parser cannot answer -/

/-- A parser does not answer that the first word is unassigned, and what it reads holds `P`. -/
def Yields (P : α → Prop) (p : Except DecodeError (α × List Word)) : Prop :=
  p ≠ .error .unassigned ∧ ∀ x rest, p = .ok (x, rest) → P x

/-- As `Yields`, with nothing to say of what is read: an operand word is never unassigned. -/
abbrev Operand (p : Except DecodeError (α × List Word)) : Prop := Yields (fun _ => True) p

theorem yields_pure {P : α → Prop} {x : α} (h : P x) : Yields P (pure (x, ws)) := by
  refine ⟨nofun, fun y rest hy => ?_⟩
  injection hy with hy
  injection hy with hy
  exact hy ▸ h

theorem yields_mustBeZero {P : α → Prop} : Yields P (throw .mustBeZero) := ⟨nofun, nofun⟩

theorem yields_bind {P : β → Prop} {p : Except DecodeError (α × List Word)}
    {f : α × List Word → Except DecodeError (β × List Word)} (hp : Operand p) (hf : ∀ x ws, Yields P (f (x, ws))) :
    Yields P (p >>= f) := by
  match p with
  | .error e => exact ⟨fun h => hp.1 (by injection h with h; rw [h]), nofun⟩
  | .ok (x, ws) => exact hf x ws

theorem yields_ite {P : α → Prop} {c : Prop} [Decidable c] {p q : Except DecodeError (α × List Word)}
    (hp : Yields P p) (hq : Yields P q) : Yields P (if c then p else q) := by
  split
  · exact hp
  · exact hq

theorem operand_pure {x : α} : Operand (pure (x, ws)) := yields_pure trivial

theorem operand_parseWord (ws : List Word) : Operand (parseWord ws) := by
  cases ws with
  | nil => exact ⟨nofun, nofun⟩
  | cons => exact operand_pure

theorem operand_parseImm (z : Size) (ws : List Word) : Operand (parseImm z ws) := by
  cases z with
  | b => exact yields_bind (operand_parseWord ws) fun _ _ => operand_pure
  | w => exact operand_parseWord ws
  | l =>
    exact yields_bind (operand_parseWord ws) fun _ ws => yields_bind (operand_parseWord ws) fun _ _ => operand_pure

theorem operand_parseAddr (ws : List Word) : Operand (parseAddr seg ws) :=
  yields_bind (operand_parseWord ws) fun _ ws => yields_ite operand_pure (yields_ite operand_pure
    (yields_ite yields_mustBeZero (yields_bind (operand_parseWord ws) fun _ _ => operand_pure)))

theorem operand_parseRegWord (ws : List Word) : Operand (parseRegWord ws) :=
  yields_bind (operand_parseWord ws) fun _ _ => yields_ite operand_pure yields_mustBeZero

theorem operand_parseLdmWord (ws : List Word) : Operand (parseLdmWord ws) :=
  yields_bind (operand_parseWord ws) fun _ _ => yields_ite operand_pure yields_mustBeZero

theorem operand_parseBlockWord (ws : List Word) : Operand (parseBlockWord ws) :=
  yields_bind (operand_parseWord ws) fun _ _ => yields_ite operand_pure yields_mustBeZero

theorem operand_parseMem (mode : BitVec 2) (r : Reg) (ws : List Word) : Operand (parseMem seg mode r ws) :=
  yields_ite operand_pure (yields_bind (operand_parseAddr ws) fun _ _ => operand_pure)

theorem operand_parseDst (mode : BitVec 2) (r : Reg) (ws : List Word) : Operand (parseDst seg mode r ws) :=
  yields_ite operand_pure (yields_bind (operand_parseMem mode r ws) fun _ _ => operand_pure)

theorem operand_parseSrc (z : Size) (mode : BitVec 2) (r : Reg) (ws : List Word) :
    Operand (parseSrc z seg mode r ws) :=
  yields_ite operand_pure (yields_ite (yields_bind (operand_parseImm z ws) fun _ _ => operand_pure)
    (yields_bind (operand_parseMem mode r ws) fun _ _ => operand_pure))

/-! ### Words that a parser refuses (R122, R126) -/

theorem error_bind {p : Except DecodeError (α × List Word)} {f : α × List Word → Except DecodeError (β × List Word)}
    {e : DecodeError} (h : p = .error e) : (p >>= f) = .error e := by
  rw [h]
  rfl

/-- The word with number `k` begins a long address and has a bit that must be zero (R122). -/
def BadAddress (k : Nat) (ws : List Word) : Prop := ∃ v, ws[k]? = some v ∧ v.msb = true ∧ lowByte v ≠ 0

theorem parseAddr_bad (h : BadAddress 0 ws) : parseAddr true ws = .error .mustBeZero := by
  obtain ⟨v, hv, hmsb, hlow⟩ := h
  obtain ⟨ws, rfl⟩ : ∃ rest, ws = v :: rest := by
    cases ws with
    | nil => cases hv
    | cons x rest => exact ⟨rest, by injection hv with hv; rw [hv]⟩
  have hlow : lowByte v ≠ 0 := hlow
  simp only [parseAddr, parseWord, bind, Except.bind, hmsb, Bool.not_true, Bool.false_eq_true, if_false, if_pos hlow]
  rfl

theorem parseMem_bad (r : Reg) (h : BadAddress 0 ws) : parseMem true modeDa r ws = .error .mustBeZero :=
  (if_neg (by decide)).trans (error_bind (parseAddr_bad h))

theorem parseDst_bad (r : Reg) (h : BadAddress 0 ws) : parseDst true modeDa r ws = .error .mustBeZero :=
  (if_neg (by decide)).trans (error_bind (parseMem_bad r h))

theorem parseSrc_bad (z : Size) (r : Reg) (h : BadAddress 0 ws) : parseSrc z true modeDa r ws = .error .mustBeZero :=
  (if_neg (by decide)).trans ((if_neg fun hc => absurd hc.1 (by decide)).trans (error_bind (parseMem_bad r h)))

/-- A word is its four fields. -/
theorem word_fields (v : Word) : (fieldTop v ++ fieldX v ++ fieldA v ++ fieldB v : Word) = v := by
  have h8 : fieldTop v ++ fieldX v = v.extractLsb' 8 8 := BitVec.extractLsb'_append_extractLsb'_eq_extractLsb' rfl
  have h4 : v.extractLsb' 8 8 ++ fieldA v = v.extractLsb' 4 12 :=
    BitVec.extractLsb'_append_extractLsb'_eq_extractLsb' rfl
  have h0 : v.extractLsb' 4 12 ++ fieldB v = v.extractLsb' 0 16 :=
    BitVec.extractLsb'_append_extractLsb'_eq_extractLsb' rfl
  rw [h8, h4, h0]
  exact BitVec.extractLsb'_eq_self

/-- Masking a word masks its fields. -/
theorem masked_fields (v : Word) (t x a b : BitVec 4) :
    v &&& (t ++ x ++ a ++ b : Word) =
      ((fieldTop v &&& t) ++ (fieldX v &&& x) ++ (fieldA v &&& a) ++ (fieldB v &&& b) : Word) := by
  have h2 : fieldTop v ++ fieldX v &&& t ++ x = (fieldTop v &&& t) ++ (fieldX v &&& x) := BitVec.and_append
  have h3 : fieldTop v ++ fieldX v ++ fieldA v &&& t ++ x ++ a =
      (fieldTop v &&& t) ++ (fieldX v &&& x) ++ (fieldA v &&& a) := BitVec.and_append.trans (by rw [h2])
  exact (congrArg (· &&& (t ++ x ++ a ++ b : Word)) (word_fields v)).symm.trans (BitVec.and_append.trans (by rw [h3]))

theorem fields_of_lowByte {v : Word} (h : lowByte v = 0) : fieldA v = 0 ∧ fieldB v = 0 := by
  have hlow : fieldA v ++ fieldB v = lowByte v := BitVec.extractLsb'_append_extractLsb'_eq_extractLsb' rfl
  rw [h] at hlow
  generalize fieldA v = a at hlow
  generalize fieldB v = b at hlow
  revert a b
  decide

theorem parseRegWord_bad {v : Word} (h : v &&& 0xF0FF ≠ 0) : parseRegWord (v :: ws) = .error .mustBeZero := by
  refine if_neg fun ⟨htop, hlow⟩ => h ?_
  obtain ⟨ha, hb⟩ := fields_of_lowByte hlow
  have hmask := masked_fields v 0xF 0#4 0xF 0xF
  rw [htop, ha, hb, BitVec.and_zero] at hmask
  exact hmask

theorem parseLdmWord_bad {v : Word} (h : v &&& 0xF0F0 ≠ 0) : parseLdmWord (v :: ws) = .error .mustBeZero := by
  refine if_neg fun ⟨htop, ha⟩ => h ?_
  have hmask := masked_fields v 0xF 0#4 0xF 0#4
  rw [htop, ha, BitVec.and_zero, BitVec.and_zero] at hmask
  exact hmask

theorem parseBlockWord_bad {v : Word} (h : v &&& 0xF000 ≠ 0) : parseBlockWord (v :: ws) = .error .mustBeZero := by
  refine if_neg fun htop => h ?_
  have hmask := masked_fields v 0xF 0#4 0#4 0#4
  rw [htop, BitVec.and_zero, BitVec.and_zero, BitVec.and_zero] at hmask
  exact hmask

/-- The second word of a block instruction is read in its three low fields, or refused. -/
theorem parseBlockWord_cases (v : Word) (ws : List Word) :
    parseBlockWord (v :: ws) = .error .mustBeZero
      ∨ fieldTop v = 0 ∧ parseBlockWord (v :: ws) = .ok ((fieldX v, fieldA v, fieldB v), ws) := by
  by_cases htop : fieldTop v = 0
  · exact .inr ⟨htop, if_pos htop⟩
  · exact .inl (if_neg htop)

/-- Bits 15:12 are 0 and bits 3:0 are `e`: what a word masked with 0xF00F or 0xF007 can be. -/
theorem block_masked {v : Word} (htop : fieldTop v = 0) :
    v &&& 0xF00F = (0#12 ++ fieldB v : Word) ∧ v &&& 0xF007 = (0#12 ++ (fieldB v &&& 7) : Word) := by
  have h15 := masked_fields v 0xF 0#4 0#4 0xF
  have h7 := masked_fields v 0xF 0#4 0#4 7
  rw [htop, BitVec.and_zero, BitVec.and_zero] at h15 h7
  have hall : fieldB v &&& 0xF = fieldB v := BitVec.and_allOnes
  rw [hall] at h15
  exact ⟨h15, h7⟩

theorem parseBlockIo_bad {single rep : Reg → Reg → Reg → Instr} {s : Reg} {v : Word} (h : v &&& 0xF007 ≠ 0) :
    parseBlockIo single rep s (v :: ws) = .error .mustBeZero := by
  rcases parseBlockWord_cases v ws with hbad | ⟨htop, hok⟩
  · exact error_bind hbad
  · rw [(block_masked htop).2] at h
    have h8 : fieldB v ≠ 8 := fun he => h (by rw [he]; rfl)
    have h0 : fieldB v ≠ 0 := fun he => h (by rw [he]; rfl)
    rw [parseBlockIo, hok]
    exact (if_neg h8).trans (if_neg h0)

theorem parseTranslate_bad {make : Reg → Reg → Reg → Instr} {tail : BitVec 4} {d : Reg} {v : Word}
    (h : v &&& 0xF00F ≠ (0#12 ++ tail : Word)) : parseTranslate make tail d (v :: ws) = .error .mustBeZero := by
  rcases parseBlockWord_cases v ws with hbad | ⟨htop, hok⟩
  · exact error_bind hbad
  · rw [(block_masked htop).1] at h
    rw [parseTranslate, hok]
    exact if_neg fun he => h (by rw [he])

end Sys2Proof.Machine

namespace Sys2Proof.Machine

variable {α β : Type} {seg : Bool} {mode : BitVec 2} {ws : List Word} {w : Word}

/-! ### What the tables say of a first word -/

/-- What R126, R131, R132 and R135 say of a first word: whether it is unassigned, the bits fixed in its second word, where
the address of its operand begins, whether it is privileged. -/
structure OpcodeRow where
  unassigned : Bool
  fixed      : Option (Word × Word)
  address    : Option Nat
  privileged : Bool

def opcodeRow (w : Word) : OpcodeRow := ⟨unassignedWord w, fixedBits w, addressWord w, privilegedOpcode w⟩

/-- The row of a word whose operand, if it is in memory, directly follows: mode 01 has an address there (R122). -/
def operandRow (mode : BitVec 2) (privileged : Bool) : OpcodeRow :=
  ⟨false, none, if mode = modeDa then some 0 else none, privileged⟩

/-- An answer of the decoder is as a row has it. -/
structure Follows (e : OpcodeRow) (seg : Bool) (ws : List Word) (p : Except DecodeError (Instr × List Word)) :
    Prop where
  unassigned : p = .error .unassigned ↔ e.unassigned = true
  fixed      : ∀ {f v rest}, e.fixed = some f → ws = v :: rest → v &&& f.1 ≠ f.2 → p = .error .mustBeZero
  address    : ∀ {k}, seg = true → e.unassigned = false → e.address = some k → BadAddress k ws →
    p = .error .mustBeZero
  privileged : ∀ {i rest}, p = .ok (i, rest) → privilegedInstr i = e.privileged

/-- An answer that makes an instruction, privileged or not. -/
abbrev Makes (b : Bool) (p : Except DecodeError (Instr × List Word)) : Prop := Yields (fun i => privilegedInstr i = b) p

variable {e : OpcodeRow} {b : Bool} {p q : Except DecodeError (Instr × List Word)}

theorem follows_unassigned (hu : e.unassigned = true) (hf : e.fixed = none) : Follows e seg ws (throw .unassigned) where
  unassigned := ⟨fun _ => hu, fun _ => rfl⟩
  fixed h := by rw [hf] at h; cases h
  address _ h := by rw [hu] at h; cases h
  privileged := nofun

theorem follows_makes (hu : e.unassigned = false) (hp : Makes e.privileged p)
    (hf : ∀ f v rest, e.fixed = some f → ws = v :: rest → v &&& f.1 ≠ f.2 → p = .error .mustBeZero)
    (ha : ∀ k, seg = true → e.address = some k → BadAddress k ws → p = .error .mustBeZero) : Follows e seg ws p where
  unassigned := ⟨fun h => absurd h hp.1, fun h => absurd (hu.symm.trans h) (by decide)⟩
  fixed h := hf _ _ _ h
  address hs _ h := ha _ hs h
  privileged h := hp.2 _ _ h

/-- Nothing is fixed after the first word, and no address follows. -/
theorem follows_plain (he : e = ⟨false, none, none, b⟩) (hp : Makes b p) : Follows e seg ws p := by
  subst he
  exact follows_makes rfl hp (fun _ _ _ => nofun) fun _ _ => nofun

/-- Some bits of the second word are fixed. -/
theorem follows_fixed {f : Word × Word} (he : e = ⟨false, some f, none, b⟩) (hp : Makes b p)
    (hf : ∀ v rest, ws = v :: rest → v &&& f.1 ≠ f.2 → p = .error .mustBeZero) : Follows e seg ws p := by
  subst he
  refine follows_makes rfl hp (fun g v rest hg => ?_) fun _ _ => nofun
  injection hg with hg
  exact hg ▸ hf v rest

/-- The operand comes first of the words after the first. -/
theorem follows_operand {o : Except DecodeError (α × List Word)}
    {f : α × List Word → Except DecodeError (Instr × List Word)} (he : e = operandRow mode b) (ho : Operand o)
    (hbad : mode = modeDa → seg = true → BadAddress 0 ws → o = .error .mustBeZero) (hf : ∀ x ws, Makes b (f (x, ws))) :
    Follows e seg ws (o >>= f) := by
  subst he
  refine follows_makes rfl (yields_bind ho hf) (fun _ _ _ => nofun) fun k hs hk hb => ?_
  rw [operandRow] at hk
  split at hk
  · next hm =>
    injection hk with hk
    exact error_bind (hbad hm hs (hk ▸ hb))
  · cases hk

theorem follows_ite {c : Prop} [Decidable c] (hp : c → Follows e seg ws p) (hq : ¬c → Follows e seg ws q) :
    Follows e seg ws (if c then p else q) := by
  split
  · next h => exact hp h
  · next h => exact hq h

/-! ### The instructions of one shape -/

theorem follows_oneWord {i : Instr} (he : e = ⟨false, none, none, privilegedInstr i⟩) :
    Follows e seg ws (pure (i, ws)) := follows_plain he (yields_pure rfl)

/-- The second word is any. -/
theorem follows_twoWords {f : Word × List Word → Instr} (he : e = ⟨false, none, none, b⟩)
    (hf : ∀ q, privilegedInstr (f q) = b) : Follows e seg ws (parseWord ws >>= fun q => pure (f q, q.2)) :=
  follows_plain he (yields_bind (operand_parseWord ws) fun _ _ => yields_pure (hf _))

theorem follows_dst {f : Dst × List Word → Instr} {r : Reg} (he : e = operandRow mode false)
    (hf : ∀ q, privilegedInstr (f q) = false) :
    Follows e seg ws (parseDst seg mode r ws >>= fun q => pure (f q, q.2)) :=
  follows_operand he (operand_parseDst mode r ws) (fun hm hs hb => by subst hm hs; exact parseDst_bad r hb)
    fun _ _ => yields_pure (hf _)

theorem follows_mem {f : Mem × List Word → Except DecodeError (Instr × List Word)} {r : Reg}
    (he : e = operandRow mode b) (hf : ∀ m ws, Makes b (f (m, ws))) :
    Follows e seg ws (parseMem seg mode r ws >>= f) :=
  follows_operand he (operand_parseMem mode r ws) (fun hm hs hb => by subst hm hs; exact parseMem_bad r hb) hf

theorem follows_oneOp {make : Dst → Instr} {a : Reg} (he : e = operandRow mode false)
    (h : ∀ d, privilegedInstr (make d) = false) : Follows e seg ws (oneOp make seg mode a ws) :=
  follows_dst he fun _ => h _

theorem follows_oneMem {make : Mem → Instr} {a : Reg} (he : e = operandRow mode b)
    (h : ∀ m, privilegedInstr (make m) = b) : Follows e seg ws (oneMem make seg mode a ws) :=
  follows_mem he fun _ _ => yields_pure (h _)

theorem follows_ldStore {z : Size} {make : LdArgs z → Instr} {a s : Reg} (he : e = operandRow mode false)
    (h : ∀ args, privilegedInstr (make args) = false) : Follows e seg ws (ldStore make seg mode a s ws) :=
  follows_mem he fun _ _ => yields_pure (h _)

theorem follows_memImm {z : Size} {make : Mem → BitVec z.bits → Instr} {a : Reg} (he : e = operandRow mode false)
    (h : ∀ m v, privilegedInstr (make m v) = false) : Follows e seg ws (memImm z make seg mode a ws) :=
  follows_mem he fun _ ws => yields_bind (operand_parseImm z ws) fun _ _ => yields_pure (h _ _)

/-- LDM has its register word first, then an address (R125, R157). -/
theorem follows_parseLdm {dir : Dir} {a : Reg}
    (he : e = ⟨false, some (0xF0F0, 0), if mode = modeDa then some 1 else none, false⟩) :
    Follows e seg ws (parseLdm dir seg mode a ws) := by
  subst he
  refine follows_makes rfl (yields_bind (operand_parseLdmWord ws) fun _ ws =>
    yields_bind (operand_parseMem mode a ws) fun _ _ => yields_pure rfl) (fun f v rest hf hws hv => ?_)
    fun k hs hk hb => ?_
  · injection hf with hf
    subst hf hws
    exact error_bind (parseLdmWord_bad hv)
  · dsimp only at hk
    split at hk
    · next hm =>
      injection hk with hk
      subst hm hs hk
      obtain ⟨v, hv, hlong⟩ := hb
      cases ws with
      | nil => cases hv
      | cons x rest =>
        have hrest : BadAddress 0 rest := ⟨v, hv, hlong⟩
        by_cases hx : fieldTop x = 0 ∧ fieldA x = 0
        · have hok : parseLdmWord (x :: rest) = .ok ((fieldX x, fieldB x), rest) := if_pos hx
          rw [parseLdm, hok]
          exact error_bind (f := fun q => pure (Instr.ldm dir q.1 (fieldX x) (fieldB x), q.2)) (parseMem_bad a hrest)
        · exact error_bind (if_neg hx)
    · cases hk

theorem follows_parseBit {make : BitArgs → Instr} {a b : BitVec 4}
    (hdynamic : mode = modeIr ∧ a = 0 → e = ⟨false, some (0xF0FF, 0), none, false⟩)
    (hstatic : ¬(mode = modeIr ∧ a = 0) → e = operandRow mode false)
    (h : ∀ args, privilegedInstr (make args) = false) : Follows e seg ws (parseBit make seg mode a b ws) := by
  refine follows_ite (fun hc => ?_) fun hc => follows_dst (hstatic hc) fun _ => h _
  refine follows_fixed (hdynamic hc) (yields_bind (operand_parseRegWord ws) fun _ _ => yields_pure (h _)) ?_
  rintro v rest rfl hv
  exact error_bind (parseRegWord_bad hv)

theorem follows_parseDisp {ba : Reg → Word → Instr} {ra : Word → Instr} {a : Reg} (he : e = ⟨false, none, none, false⟩)
    (hba : ∀ n, privilegedInstr (ba a n) = false) (hra : ∀ n, privilegedInstr (ra n) = false) :
    Follows e seg ws (parseDisp ba ra a ws) := by
  refine follows_twoWords he fun q => ?_
  split
  · exact hra q.1
  · exact hba q.1

/-- A register number stands alone in the second word. -/
theorem follows_regWord {f : Reg × List Word → Instr} (he : e = ⟨false, some (0xF0FF, 0), none, false⟩)
    (hf : ∀ q, privilegedInstr (f q) = false) :
    Follows e seg ws (parseRegWord ws >>= fun q => pure (f q, q.2)) := by
  refine follows_fixed he (yields_bind (operand_parseRegWord ws) fun _ _ => yields_pure (hf _)) ?_
  rintro v rest rfl hv
  exact error_bind (parseRegWord_bad hv)

theorem follows_parseExt {op : ExtOp} {a b : BitVec 4} (he : e = ⟨false, none, none, false⟩) :
    Follows e seg ws (parseExt op a b ws) := follows_twoWords he fun _ => rfl

theorem follows_parsePort {make : Word → Instr} (he : e = ⟨false, none, none, b⟩)
    (h : ∀ n, privilegedInstr (make n) = b) : Follows e seg ws (parsePort make ws) := follows_twoWords he fun _ => h _

theorem follows_parseShift {left right : Reg → Word → Instr} {d : Reg} (he : e = ⟨false, none, none, false⟩)
    (hleft : ∀ k, privilegedInstr (left d k) = false) (hright : ∀ k, privilegedInstr (right d k) = false) :
    Follows e seg ws (parseShift left right d ws) := by
  refine follows_twoWords he fun q => ?_
  split
  · exact hright q.1
  · exact hleft q.1

theorem follows_parseCompare {make : Reg → Reg → Reg → Cond → Instr} {s : Reg}
    (he : e = ⟨false, some (0xF000, 0), none, false⟩) (h : ∀ r d c, privilegedInstr (make s r d c) = false) :
    Follows e seg ws (parseCompare make s ws) := by
  refine follows_fixed he (yields_bind (operand_parseBlockWord ws) fun _ _ => yields_pure (h _ _ _)) ?_
  rintro v rest rfl hv
  exact error_bind (parseBlockWord_bad hv)

theorem follows_parseBlockIo {single rep : Reg → Reg → Reg → Instr} {s : Reg}
    (he : e = ⟨false, some (0xF007, 0), none, b⟩) (hsingle : ∀ r d, privilegedInstr (single s r d) = b)
    (hrep : ∀ r d, privilegedInstr (rep s r d) = b) : Follows e seg ws (parseBlockIo single rep s ws) := by
  refine follows_fixed he (yields_bind (operand_parseBlockWord ws) fun _ _ =>
    yields_ite (yields_pure (hsingle _ _)) (yields_ite (yields_pure (hrep _ _)) yields_mustBeZero)) ?_
  rintro v rest rfl hv
  exact parseBlockIo_bad hv

theorem follows_parseTranslate {make : Reg → Reg → Reg → Instr} {tail : BitVec 4} {d : Reg}
    (he : e = ⟨false, some (0xF00F, (0#12 ++ tail : Word)), none, false⟩)
    (h : ∀ r s, privilegedInstr (make d r s) = false) : Follows e seg ws (parseTranslate make tail d ws) := by
  refine follows_fixed he (yields_bind (operand_parseBlockWord ws) fun _ _ =>
    yields_ite (yields_pure (h _ _)) yields_mustBeZero) ?_
  rintro v rest rfl hv
  exact parseTranslate_bad hv

/-! ### The groups that field B tells apart (R132) -/

section groups

variable {a b : BitVec 4}

theorem follows_group3A (he : e = ⟨decide (11 < b.toNat),
    if [0, 1, 2, 3, 8, 9, 10, 11].contains b.toNat then some (0xF007, 0) else none, none, true⟩) :
    Follows e seg ws (group3A a b ws) := by
  unfold group3A
  split
  case h_5 hb | h_6 hb | h_7 hb | h_8 hb =>
    rw [hb] at he
    exact follows_parsePort he fun _ => rfl
  case h_13 =>
    subst he
    refine follows_unassigned ?_ ?_ <;> (revert b; decide)
  all_goals
    next hb =>
    rw [hb] at he
    exact follows_parseBlockIo he (fun _ _ => rfl) fun _ _ => rfl

theorem follows_group3B (he : e = ⟨decide (11 < b.toNat),
    if [0, 1, 2, 3, 8, 9, 10, 11].contains b.toNat then some (0xF007, 0) else none, none, true⟩) :
    Follows e seg ws (group3B a b ws) := by
  unfold group3B
  split
  case h_5 hb | h_6 hb | h_7 hb | h_8 hb =>
    rw [hb] at he
    exact follows_parsePort he fun _ => rfl
  case h_13 =>
    subst he
    refine follows_unassigned ?_ ?_ <;> (revert b; decide)
  all_goals
    next hb =>
    rw [hb] at he
    exact follows_parseBlockIo he (fun _ _ => rfl) fun _ _ => rfl

theorem follows_groupB8 (he : e = ⟨b.toNat % 2 == 1, if [0, 2, 4, 8, 10, 12].contains b.toNat then some (0xF00F, 0)
    else if [6, 14].contains b.toNat then some (0xF00F, 14) else none, none, false⟩) :
    Follows e seg ws (groupB8 a b ws) := by
  unfold groupB8
  split
  case h_9 =>
    subst he
    refine follows_unassigned ?_ ?_ <;> (revert b; decide)
  all_goals
    next hb =>
    rw [hb] at he
    exact follows_parseTranslate he fun _ _ => rfl

theorem follows_groupBA (he : e = ⟨[3, 5, 7, 11, 13, 15].contains b.toNat, if [1, 9].contains b.toNat then
    some (0xF007, 0) else if [0, 2, 4, 6, 8, 10, 12, 14].contains b.toNat then some (0xF000, 0) else none, none,
    false⟩) : Follows e seg ws (groupBA a b ws) := by
  unfold groupBA
  split
  case h_2 hb | h_7 hb =>
    rw [hb] at he
    exact follows_parseBlockIo he (fun _ _ => rfl) fun _ _ => rfl
  case h_11 =>
    subst he
    refine follows_unassigned ?_ ?_ <;> (revert b; decide)
  all_goals
    next hb =>
    rw [hb] at he
    exact follows_parseCompare he fun _ _ _ => rfl

theorem follows_groupBB (he : e = ⟨[3, 5, 7, 11, 13, 15].contains b.toNat, if [1, 9].contains b.toNat then
    some (0xF007, 0) else if [0, 2, 4, 6, 8, 10, 12, 14].contains b.toNat then some (0xF000, 0) else none, none,
    false⟩) : Follows e seg ws (groupBB a b ws) := by
  unfold groupBB
  split
  case h_2 hb | h_7 hb =>
    rw [hb] at he
    exact follows_parseBlockIo he (fun _ _ => rfl) fun _ _ => rfl
  case h_11 =>
    subst he
    refine follows_unassigned ?_ ?_ <;> (revert b; decide)
  all_goals
    next hb =>
    rw [hb] at he
    exact follows_parseCompare he fun _ _ _ => rfl

theorem follows_groupB2 (he : e = ⟨[5, 7, 13, 15].contains b.toNat,
    if [3, 11].contains b.toNat then some (0xF0FF, 0) else none, none, false⟩) :
    Follows e seg ws (groupB2 a b ws) := by
  unfold groupB2
  split
  case h_2 hb | h_8 hb =>
    rw [hb] at he
    exact follows_parseShift he (fun _ => rfl) fun _ => rfl
  case h_4 hb | h_10 hb =>
    rw [hb] at he
    exact follows_regWord he fun _ => rfl
  case h_13 =>
    subst he
    refine follows_unassigned ?_ ?_ <;> (revert b; decide)
  all_goals
    next hb =>
    rw [hb] at he
    exact follows_oneWord he

theorem follows_groupB3 (he : e = ⟨false,
    if [3, 7, 11, 15].contains b.toNat then some (0xF0FF, 0) else none, none, false⟩) :
    Follows e seg ws (groupB3 a b ws) := by
  unfold groupB3
  split
  case h_2 hb | h_6 hb | h_10 hb | h_14 hb =>
    rw [hb] at he
    exact follows_parseShift he (fun _ => rfl) fun _ => rfl
  case h_4 hb | h_8 hb | h_12 hb =>
    rw [hb] at he
    exact follows_regWord he fun _ => rfl
  case h_16 =>
    obtain rfl : b = 15 := by
      clear he
      revert b
      decide
    exact follows_regWord he fun _ => rfl
  all_goals
    next hb =>
    rw [hb] at he
    exact follows_oneWord he

/-- The three modes in which a first word has an operand field (R111). -/
abbrev MainMode (mode : BitVec 2) : Prop := mode = modeIr ∨ mode = modeDa ∨ mode = modeR

/-- The row of a group whose fields decide whether a word is unassigned, in the mode of an operand that directly follows. -/
abbrev groupRow (mode : BitVec 2) (unassigned : Bool) : OpcodeRow :=
  ⟨unassigned, none, if mode = modeDa then some 0 else none, false⟩

theorem follows_groupRow_unassigned {u : Bool} (he : e = groupRow mode u) (hu : u = true) :
    Follows e seg ws (throw .unassigned) := he ▸ follows_unassigned hu rfl

theorem groupRow_not_register {u v : Bool} (he : e = groupRow mode (if mode = modeR then u else v))
    (h : mode ≠ modeR) : e = groupRow mode v := by rw [he, if_neg h]

theorem groupRow_register {u v : Bool} (he : e = groupRow mode (if mode = modeR then u else v)) (h : mode = modeR) :
    e = groupRow mode u := by rw [he, if_pos h]

theorem groupRow_operand {u v : Bool} (he : e = groupRow mode (if mode = modeR then u else v)) (hu : u = false)
    (hv : v = false) : e = operandRow mode false := by rw [he, hu, hv, ite_self]; rfl

theorem follows_group0C (he : e = groupRow mode (if mode = modeR then !([0, 1, 2, 4, 6, 8, 9].contains b.toNat)
    else !([0, 1, 2, 4, 5, 6, 8].contains b.toNat))) : Follows e seg ws (group0C seg mode a b ws) := by
  unfold group0C
  split
  case h_2 hb =>
    rw [hb] at he
    refine follows_ite (fun hm => ?_) fun _ => follows_memImm (groupRow_operand he rfl rfl) fun _ _ => rfl
    subst hm
    exact follows_oneWord he
  case h_5 hb =>
    rw [hb] at he
    exact follows_ite (fun hm => follows_groupRow_unassigned (groupRow_register he hm) rfl) fun hm =>
      follows_memImm (groupRow_not_register he hm) fun _ _ => rfl
  case h_8 hb =>
    rw [hb] at he
    refine follows_ite (fun hm => ?_) fun hm => follows_groupRow_unassigned (groupRow_not_register he hm) rfl
    subst hm
    exact follows_oneWord he
  case h_9 =>
    refine follows_groupRow_unassigned he ?_
    split <;> (clear he; revert b; decide)
  all_goals
    next hb =>
    rw [hb] at he
    exact follows_oneOp (groupRow_operand he rfl rfl) fun _ => rfl

theorem follows_group0D (hmode : MainMode mode)
    (he : e = groupRow mode (if mode = modeR then decide (8 < b.toNat) || (b.toNat == 7 && a.toNat != 0)
      else if mode = modeIr then !([0, 1, 2, 4, 5, 6, 8, 9].contains b.toNat)
      else !([0, 1, 2, 4, 5, 6, 8].contains b.toNat))) : Follows e seg ws (group0D seg mode a b ws) := by
  unfold group0D
  split
  case h_2 hb | h_6 hb =>
    rw [hb] at he
    refine follows_ite (fun hm => ?_) fun _ => follows_memImm (groupRow_operand he rfl (ite_self _)) fun _ _ => rfl
    subst hm
    exact follows_oneWord he
  case h_4 hb =>
    rw [hb] at he
    refine follows_ite (fun hm => ?_) fun hm =>
      follows_groupRow_unassigned (groupRow_not_register he hm) (ite_self _)
    subst hm
    exact follows_oneWord he
  case h_8 hb =>
    rw [hb] at he
    refine follows_ite (fun hm => ?_) fun hm => follows_groupRow_unassigned he ?_
    · obtain ⟨rfl, rfl⟩ := hm
      exact follows_oneWord he
    · split
      · next hR =>
        have ha : a ≠ 0 := fun ha => hm ⟨hR, ha⟩
        clear he hm
        revert a
        decide
      · exact ite_self _
  case h_10 hb =>
    rw [hb] at he
    refine follows_ite (fun hm => ?_) fun hm => follows_groupRow_unassigned he ?_
    · subst hm
      exact follows_twoWords he fun _ => rfl
    · rcases hmode with rfl | rfl | rfl
      · exact absurd rfl hm
      · rfl
      · rfl
  case h_11 =>
    refine follows_groupRow_unassigned he ?_
    split
    · clear he hmode
      have hb : decide (8 < b.toNat) = true := by
        revert b
        decide
      rw [hb]
      rfl
    · split <;> (clear he; revert b; decide)
  all_goals
    next hb =>
    rw [hb] at he
    exact follows_oneOp (groupRow_operand he rfl (ite_self _)) fun _ => rfl

theorem follows_group1C
    (he : e = if mode = modeR then groupRow mode (b.toNat != 8) else
      ⟨!([1, 8, 9].contains b.toNat), if b.toNat = 1 ∨ b.toNat = 9 then some (0xF0F0, 0) else none,
        if mode = modeDa then some (if b.toNat = 8 then 0 else 1) else none, false⟩) :
    Follows e seg ws (group1C seg mode a b ws) := by
  unfold group1C
  split
  case h_1 hb | h_3 hb =>
    rw [hb] at he
    refine follows_ite (fun hm => ?_) fun hm => ?_
    · rw [if_pos hm] at he
      exact follows_groupRow_unassigned he rfl
    · rw [if_neg hm] at he
      exact follows_parseLdm he
  case h_2 hb =>
    rw [hb] at he
    refine follows_oneOp (he.trans ?_) fun _ => rfl
    split <;> rfl
  case h_4 h1 h8 h9 =>
    have hu : e.unassigned = true ∧ e.fixed = none := by
      subst he
      split
      · exact ⟨bne_iff_ne.mpr h8, rfl⟩
      · have hu : (!([1, 8, 9].contains b.toNat)) = true := by
          revert b
          decide
        exact ⟨hu, if_neg (not_or.mpr ⟨h1, h9⟩)⟩
    exact follows_unassigned hu.1 hu.2

end groups

end Sys2Proof.Machine

namespace Sys2Proof.Machine

variable {seg : Bool} {mode : BitVec 2} {ws : List Word} {w : Word} {p : Except DecodeError (Instr × List Word)}

/-! ### The walk through the opcode map -/

/-- The upper byte of a first word is its mode and its opcode (R111). -/
theorem upper_eq (w : Word) : (w.extractLsb' 8 8).toNat = 64 * (fieldMode w).toNat + (fieldOp w).toNat := by
  have happ : fieldMode w ++ fieldOp w = w.extractLsb' 8 8 := BitVec.extractLsb'_append_extractLsb'_eq_extractLsb' rfl
  rw [← happ, BitVec.toNat_append, Nat.shiftLeft_eq, Nat.mul_comm,
    ← Nat.two_pow_add_eq_or_of_lt (fieldOp w).isLt]

theorem toNat_bne_zero {n : Nat} {x : BitVec n} (h : x ≠ 0) : (x.toNat != 0) = true :=
  bne_iff_ne.mpr fun hx => h (BitVec.eq_of_toNat_eq (hx.trans BitVec.toNat_zero.symm))

theorem row_twoOp {t : TwoOp} (hmode : MainMode mode) (hw : fieldMode w = mode) (h : twoOp (fieldOp w) = some t) :
    opcodeRow w = operandRow mode false := by
  unfold opcodeRow unassignedWord fixedBits addressWord privilegedOpcode highByte
  rw [upper_eq, hw]
  unfold twoOp at h
  split at h
  case h_23 => cases h
  all_goals
    next hop =>
    rw [hop]
    rcases hmode with rfl | rfl | rfl <;> rfl

theorem twoOp_unprivileged {op : BitVec 6} {t : TwoOp} (h : twoOp op = some t) (d : Reg) (src : Src t.z) :
    privilegedInstr (t.make d src) = false := by
  unfold twoOp at h
  split at h
  case h_23 => cases h
  all_goals
    injection h with h
    subst h
    rfl

/-- The opcodes of one operand, in field A or B, that mean the same in modes 00, 01 and 10 and read nothing else. -/
def plainDstOps : List Nat := [0x11, 0x13, 0x15, 0x17, 0x28, 0x29, 0x2A, 0x2B, 0x2C, 0x2D]

/-- The opcodes of BIT, SET and RES. -/
def bitDstOps : List Nat := [0x22, 0x23, 0x24, 0x25, 0x26, 0x27]

theorem row_plainDst (hmode : MainMode mode) (hw : fieldMode w = mode) (h : (fieldOp w).toNat ∈ plainDstOps) :
    opcodeRow w = operandRow mode false := by
  unfold opcodeRow unassignedWord fixedBits addressWord privilegedOpcode highByte
  rw [upper_eq, hw]
  generalize (fieldOp w).toNat = k at h
  fin_cases h <;> rcases hmode with rfl | rfl | rfl <;> rfl

theorem row_bitDst_static (hmode : MainMode mode) (hw : fieldMode w = mode) (h : (fieldOp w).toNat ∈ bitDstOps)
    (ha : ¬(mode = modeIr ∧ fieldA w = 0)) : opcodeRow w = operandRow mode false := by
  unfold opcodeRow unassignedWord fixedBits addressWord privilegedOpcode highByte
  rw [upper_eq, hw]
  generalize (fieldOp w).toNat = k at h
  rcases hmode with rfl | rfl | rfl
  · have ha : ¬(w.extractLsb' 4 4).toNat = 0 := fun h0 => ha ⟨rfl, BitVec.eq_of_toNat_eq h0⟩
    fin_cases h <;> exact congrArg (OpcodeRow.mk false · none false) (if_neg ha)
  · fin_cases h <;> rfl
  · fin_cases h <;> rfl

theorem row_bitDst_dynamic (hw : fieldMode w = modeIr) (h : (fieldOp w).toNat ∈ bitDstOps) (ha : fieldA w = 0) :
    opcodeRow w = ⟨false, some (0xF0FF, 0), none, false⟩ := by
  unfold opcodeRow unassignedWord fixedBits addressWord privilegedOpcode highByte
  rw [upper_eq, hw]
  generalize (fieldOp w).toNat = k at h
  have ha : (w.extractLsb' 4 4).toNat = 0 := congrArg BitVec.toNat ha
  fin_cases h <;> exact congrArg (OpcodeRow.mk false · none false) (if_pos ha)

theorem row_group0C (hmode : MainMode mode) (hw : fieldMode w = mode) (h : (fieldOp w).toNat = 0x0C) :
    opcodeRow w = groupRow mode (if mode = modeR then !([0, 1, 2, 4, 6, 8, 9].contains (fieldB w).toNat)
      else !([0, 1, 2, 4, 5, 6, 8].contains (fieldB w).toNat)) := by
  unfold opcodeRow unassignedWord fixedBits addressWord privilegedOpcode highByte
  rw [upper_eq, hw, h]
  rcases hmode with rfl | rfl | rfl <;> rfl

theorem row_group0D (hmode : MainMode mode) (hw : fieldMode w = mode) (h : (fieldOp w).toNat = 0x0D) :
    opcodeRow w = groupRow mode
      (if mode = modeR then decide (8 < (fieldB w).toNat) || ((fieldB w).toNat == 7 && (fieldA w).toNat != 0)
      else if mode = modeIr then !([0, 1, 2, 4, 5, 6, 8, 9].contains (fieldB w).toNat)
      else !([0, 1, 2, 4, 5, 6, 8].contains (fieldB w).toNat)) := by
  unfold opcodeRow unassignedWord fixedBits addressWord privilegedOpcode highByte
  rw [upper_eq, hw, h]
  rcases hmode with rfl | rfl | rfl <;> rfl

theorem row_group1C (hmode : MainMode mode) (hw : fieldMode w = mode) (h : (fieldOp w).toNat = 0x1C) :
    opcodeRow w = if mode = modeR then groupRow mode ((fieldB w).toNat != 8) else
      ⟨!([1, 8, 9].contains (fieldB w).toNat),
        if (fieldB w).toNat = 1 ∨ (fieldB w).toNat = 9 then some (0xF0F0, 0) else none,
        if mode = modeDa then some (if (fieldB w).toNat = 8 then 0 else 1) else none, false⟩ := by
  unfold opcodeRow unassignedWord fixedBits addressWord privilegedOpcode highByte
  rw [upper_eq, hw, h]
  rcases hmode with rfl | rfl | rfl <;> rfl

theorem follows_bitDst {make : BitArgs → Instr} (hmode : MainMode mode) (hw : fieldMode w = mode)
    (h : (fieldOp w).toNat ∈ bitDstOps) (hmake : ∀ args, privilegedInstr (make args) = false) :
    Follows (opcodeRow w) seg ws (parseBit make seg mode (fieldA w) (fieldB w) ws) :=
  follows_parseBit (fun hc => row_bitDst_dynamic (hw.trans hc.1) h hc.2) (row_bitDst_static hmode hw h) hmake

theorem follows_decodeDst (hmode : MainMode mode) (hw : fieldMode w = mode)
    (h : decodeDst seg mode (fieldOp w) (fieldA w) (fieldB w) ws = some p) : Follows (opcodeRow w) seg ws p := by
  unfold decodeDst at h
  split at h
  case h_20 => cases h
  all_goals
    injection h with h
    subst h
  case h_1 hop => exact follows_group0C (row_group0C hmode hw hop)
  case h_2 hop => exact follows_group0D hmode (row_group0D hmode hw hop)
  case h_7 hop => exact follows_group1C (row_group1C hmode hw hop)
  case h_3 hop | h_4 hop | h_5 hop | h_6 hop =>
    exact follows_dst (row_plainDst hmode hw (by rw [hop]; decide)) fun _ => rfl
  case h_8 hop | h_9 hop | h_10 hop | h_11 hop | h_12 hop | h_13 hop =>
    exact follows_bitDst hmode hw (by rw [hop]; decide) fun _ => rfl
  all_goals
    next hop =>
    exact follows_oneOp (row_plainDst hmode hw (by rw [hop]; decide)) fun _ => rfl

/-- The opcodes of `twoOp`. -/
def twoOps : List Nat := [0x00, 0x01, 0x02, 0x03, 0x04, 0x05, 0x06, 0x07, 0x08, 0x09, 0x0A, 0x0B, 0x10, 0x12, 0x14, 0x16,
  0x18, 0x19, 0x1A, 0x1B, 0x20, 0x21]

/-- The opcodes of `twoOp` and of `decodeDst`. -/
def sharedOps : List Nat := twoOps ++ (plainDstOps ++ (bitDstOps ++ [0x0C, 0x0D, 0x1C]))

theorem op_of_twoOp_none {op : BitVec 6} (h : twoOp op = none) : op.toNat ∉ twoOps := by
  intro hmem
  unfold twoOp at h
  generalize op.toNat = k at h hmem
  fin_cases hmem <;> cases h

theorem op_of_decodeDst_none {op : BitVec 6} {a b : BitVec 4} (h : decodeDst seg mode op a b ws = none) :
    op.toNat ∉ plainDstOps ++ (bitDstOps ++ [0x0C, 0x0D, 0x1C]) := by
  intro hmem
  unfold decodeDst at h
  generalize op.toNat = k at h hmem
  fin_cases hmem <;> cases h

/-- A number of 6 bits that is on neither of two lists is on a third that completes them. -/
theorem mem_of_complete {op : BitVec 6} {rest : List Nat} (own : List Nat) (hshared : op.toNat ∉ sharedOps)
    (hown : op.toNat ∉ own) (hall : ∀ op : BitVec 6, op.toNat ∈ sharedOps ++ (own ++ rest)) :
    op.toNat ∈ rest := by
  rcases List.mem_append.mp (hall op) with h | h
  · exact absurd h hshared
  · rcases List.mem_append.mp h with h | h
    · exact absurd h hown
    · exact h

/-! #### Mode 00 -/

theorem follows_decodeMode0 (hw : fieldMode w = modeIr) (hop : (fieldOp w).toNat ∉ sharedOps) :
    Follows (opcodeRow w) seg ws (decodeMode0 seg (fieldOp w) (fieldA w) (fieldB w) ws) := by
  generalize he : opcodeRow w = e
  unfold opcodeRow unassignedWord fixedBits addressWord privilegedOpcode highByte at he
  rw [upper_eq, hw] at he
  unfold decodeMode0
  split
  case h_1 hop | h_2 hop =>
    rw [hop] at he
    exact follows_parseExt he.symm
  case h_3 hop | h_6 hop | h_7 hop =>
    rw [hop] at he
    exact follows_ldStore he.symm fun _ => rfl
  case h_8 hop | h_9 hop | h_10 hop | h_11 hop | h_12 hop | h_13 hop | h_14 hop =>
    rw [hop] at he
    exact follows_parseDisp he.symm (fun _ => rfl) fun _ => rfl
  case h_4 hop | h_18 hop | h_19 hop | h_20 hop | h_21 hop =>
    rw [hop] at he
    exact follows_oneWord he.symm
  case h_5 hop | h_15 hop =>
    rw [hop] at he
    refine follows_ite (fun hb => ?_) fun hb => ?_
    · rw [show w.extractLsb' 0 4 = 0 from hb] at he
      exact follows_oneWord he.symm
    · subst he
      exact follows_unassigned (toNat_bne_zero hb) rfl
  case h_16 hop =>
    rw [hop] at he
    exact follows_group3A he.symm
  case h_17 hop =>
    rw [hop] at he
    exact follows_group3B he.symm
  case h_22 =>
    have hrest : (fieldOp w).toNat ∈ [0x36, 0x38] := mem_of_complete [0x0E, 0x0F, 0x1D, 0x1E, 0x1F, 0x2E, 0x2F, 0x30,
      0x31, 0x32, 0x33, 0x34, 0x35, 0x37, 0x39, 0x3A, 0x3B, 0x3C, 0x3D, 0x3E, 0x3F] hop
      (by
        simp only [List.mem_cons, List.not_mem_nil, not_or, not_false_eq_true, and_true]
        and_intros <;> assumption) (by decide)
    generalize (fieldOp w).toNat = k at he hrest
    subst he
    fin_cases hrest <;> exact follows_unassigned rfl rfl

/-! #### Mode 01 -/

theorem follows_decodeMode1 (hw : fieldMode w = modeDa) (hop : (fieldOp w).toNat ∉ sharedOps) :
    Follows (opcodeRow w) seg ws (decodeMode1 seg (fieldOp w) (fieldA w) (fieldB w) ws) := by
  generalize he : opcodeRow w = e
  unfold opcodeRow unassignedWord fixedBits addressWord privilegedOpcode highByte at he
  rw [upper_eq, hw] at he
  unfold decodeMode1
  split
  case h_1 hop | h_2 hop =>
    rw [hop] at he
    exact follows_parseExt he.symm
  case h_3 hop | h_6 hop | h_7 hop =>
    rw [hop] at he
    exact follows_ldStore he.symm fun _ => rfl
  case h_4 hop | h_14 hop =>
    rw [hop] at he
    exact follows_oneMem he.symm fun _ => rfl
  case h_8 hop | h_9 hop | h_10 hop | h_11 hop | h_12 hop | h_13 hop | h_15 hop =>
    rw [hop] at he
    exact follows_regWord he.symm fun _ => rfl
  case h_5 hop | h_16 hop =>
    rw [hop] at he
    refine follows_ite (fun hb => ?_) fun hb => ?_
    · rw [show w.extractLsb' 0 4 = 0 from hb] at he
      exact follows_oneMem he.symm fun _ => rfl
    · subst he
      exact follows_unassigned (toNat_bne_zero hb) rfl
  case h_17 hop =>
    rw [hop] at he
    refine follows_ite (fun hab => ?_) fun hab => ?_
    · rw [show w.extractLsb' 4 4 = 0 from hab.1, show w.extractLsb' 0 4 = 0 from hab.2] at he
      exact follows_oneWord he.symm
    · subst he
      refine follows_unassigned (Bool.or_eq_true_iff.mpr ?_) rfl
      exact (not_and_or.mp hab).imp toNat_bne_zero toNat_bne_zero
  case h_18 hop =>
    rw [hop] at he
    replace he : e = ⟨(fieldB w).toNat != 13 && ((fieldA w).toNat != 0 || !([0, 8, 9, 10].contains (fieldB w).toNat)),
      none, none, true⟩ := he.symm
    generalize fieldA w = a, fieldB w = b at he
    split
    case h_5 hb =>
      rw [hb] at he
      exact follows_oneWord he
    case h_6 =>
      subst he
      refine follows_unassigned ?_ rfl
      have hother : (b.toNat != 13 && !([0, 8, 9, 10].contains b.toNat)) = true := by
        revert b
        decide
      obtain ⟨h13, hrest⟩ := Bool.and_eq_true_iff.mp hother
      exact Bool.and_eq_true_iff.mpr ⟨h13, Bool.or_eq_true_iff.mpr (.inr hrest)⟩
    all_goals
      next hb =>
      rw [hb] at he
      refine follows_ite (fun ha => ?_) fun ha => ?_
      · subst ha
        exact follows_oneWord he
      · subst he
        exact follows_unassigned (Bool.or_eq_true_iff.mpr (.inl (toNat_bne_zero ha))) rfl
  case h_19 hop =>
    rw [hop] at he
    replace he : e = ⟨(fieldA w).toNat != 0 || decide (7 < (fieldB w).toNat), none, none, true⟩ := he.symm
    generalize fieldA w = a, fieldB w = b at he
    refine follows_ite (fun ha => ?_) fun ha => ?_
    · subst he
      exact follows_unassigned (Bool.or_eq_true_iff.mpr (.inl (toNat_bne_zero ha))) rfl
    · obtain rfl : a = 0 := not_not.mp ha
      split
      case h_3 =>
        subst he
        refine follows_unassigned ?_ rfl
        revert b
        decide
      all_goals
        have hb : decide (7 < b.toNat) = false := by
          clear he
          revert b
          decide
        rw [hb] at he
        exact follows_oneWord he
  case h_20 hop =>
    rw [hop] at he
    replace he : e = ⟨decide ((fieldB w).toNat % 8 < 2), none, none, true⟩ := he.symm
    generalize fieldB w = b at he
    split
    · next c hc =>
      have hb : decide (b.toNat % 8 < 2) = false := by
        have hsome : (CtlReg.ofBits (b.extractLsb' 0 3)).isSome = true := by rw [hc]; rfl
        clear he hc
        revert b
        decide
      rw [hb] at he
      exact follows_oneWord he
    · next hc =>
      subst he
      refine follows_unassigned ?_ rfl
      revert b
      decide
  case h_21 hop =>
    rw [hop] at he
    exact follows_oneWord he.symm
  case h_22 =>
    have hrest : (fieldOp w).toNat ∈ [0x38, 0x3E] := mem_of_complete [0x0E, 0x0F, 0x1D, 0x1E, 0x1F, 0x2E, 0x2F, 0x30,
      0x31, 0x32, 0x33, 0x34, 0x35, 0x36, 0x37, 0x39, 0x3A, 0x3B, 0x3C, 0x3D, 0x3F] hop (by
        simp only [List.mem_cons, List.not_mem_nil, not_or, not_false_eq_true, and_true]
        and_intros <;> assumption) (by decide)
    generalize (fieldOp w).toNat = k at he hrest
    subst he
    fin_cases hrest <;> exact follows_unassigned rfl rfl

/-! #### Mode 10 -/

theorem follows_decodeMode2 (hw : fieldMode w = modeR) (hop : (fieldOp w).toNat ∉ sharedOps) :
    Follows (opcodeRow w) seg ws (decodeMode2 (fieldOp w) (fieldA w) (fieldB w) ws) := by
  generalize he : opcodeRow w = e
  unfold opcodeRow unassignedWord fixedBits addressWord privilegedOpcode highByte at he
  rw [upper_eq, hw] at he
  unfold decodeMode2
  split
  case h_1 hop | h_2 hop =>
    rw [hop] at he
    exact follows_parseExt he.symm
  case h_3 hop =>
    rw [hop] at he
    refine follows_ite (fun ha => ?_) fun ha => ?_
    · rw [show w.extractLsb' 4 4 = 0 from ha] at he
      exact follows_oneWord he.symm
    · subst he
      exact follows_unassigned (toNat_bne_zero ha) rfl
  case h_6 hop =>
    rw [hop] at he
    refine follows_ite (fun hb => ?_) fun hb => ?_
    · rw [show w.extractLsb' 0 4 = 0 from hb] at he
      exact follows_oneWord he.symm
    · subst he
      exact follows_unassigned (toNat_bne_zero hb) rfl
  case h_7 hop =>
    rw [hop] at he
    split
    case h_4 =>
      subst he
      refine follows_unassigned ?_ rfl
      show (!([0, 7, 10].contains (fieldB w).toNat)) = true
      generalize fieldB w = b at *
      revert b
      decide
    all_goals
      next hb =>
      rw [show (w.extractLsb' 0 4).toNat = _ from hb] at he
      exact follows_oneWord he.symm
  case h_8 hop =>
    rw [hop] at he
    exact follows_groupB2 he.symm
  case h_9 hop =>
    rw [hop] at he
    exact follows_groupB3 he.symm
  case h_14 hop =>
    rw [hop] at he
    exact follows_groupB8 he.symm
  case h_15 hop =>
    rw [hop] at he
    exact follows_groupBA he.symm
  case h_16 hop =>
    rw [hop] at he
    exact follows_groupBB he.symm
  case h_20 =>
    have hrest : (fieldOp w).toNat ∈ [0x1D, 0x1F, 0x39, 0x3F] := mem_of_complete [0x0E, 0x0F, 0x1E, 0x2E, 0x2F, 0x30,
      0x31, 0x32, 0x33, 0x34, 0x35, 0x36, 0x37, 0x38, 0x3A, 0x3B, 0x3C, 0x3D, 0x3E] hop (by
        simp only [List.mem_cons, List.not_mem_nil, not_or, not_false_eq_true, and_true]
        and_intros <;> assumption) (by decide)
    generalize (fieldOp w).toNat = k at he hrest
    subst he
    fin_cases hrest <;> exact follows_unassigned rfl rfl
  all_goals
    next hop =>
    rw [hop] at he
    exact follows_oneWord he.symm

/-! #### Mode 11, and the decoder -/

theorem follows_decodeCompact (hw : fieldMode w = 3) : Follows (opcodeRow w) seg ws (decodeCompact w ws) := by
  have hrow : opcodeRow w = ⟨false, none, none, false⟩ := by
    unfold opcodeRow unassignedWord fixedBits addressWord privilegedOpcode highByte
    rw [upper_eq, hw]
    have hlt := (fieldOp w).isLt
    generalize (fieldOp w).toNat = k at hlt
    interval_cases k <;> rfl
  unfold decodeCompact
  split
  case h_4 => exact follows_plain hrow (yields_pure (by split <;> rfl))
  all_goals exact follows_oneWord hrow

theorem follows_decode (seg : Bool) (w : Word) (ws : List Word) : Follows (opcodeRow w) seg ws (decode seg (w :: ws)) := by
  have hmodes : ∀ m : BitVec 2, m ≠ 3 → MainMode m := by decide
  refine follows_ite follows_decodeCompact fun hw => ?_
  have hmode : MainMode (fieldMode w) := hmodes _ hw
  split
  · next t htwo =>
    exact follows_operand (row_twoOp hmode rfl htwo) (operand_parseSrc _ _ _ _)
      (fun hm hs hb => by rw [hm, hs]; exact parseSrc_bad _ _ hb)
      fun _ _ => yields_pure (twoOp_unprivileged htwo _ _)
  · next htwo =>
    split
    · next hdst => exact follows_decodeDst hmode rfl hdst
    · next hdst =>
      have hop : (fieldOp w).toNat ∉ sharedOps := fun h => (List.mem_append.mp h).elim
        (op_of_twoOp_none htwo) (op_of_decodeDst_none hdst)
      refine follows_ite (follows_decodeMode0 · hop) fun h0 => follows_ite (follows_decodeMode1 · hop) fun h1 =>
        follows_decodeMode2 ?_ hop
      exact (hmode.resolve_left h0).resolve_left h1

end Sys2Proof.Machine

/-! The stops of a step, each by its name: an odd program counter, a word that does not decode, ill-formed operands, and
what `exec` refuses itself. -/

namespace Sys2Proof.Machine

variable {s : State} {e : DecodeError}

theorem step_of_oddPc (h : s.Free) (ha : s.accepted = none) (hh : s.halted = false) (hpc : s.pc.getLsbD 0 = true) :
    step s = .fault .oddPc := (step_of_free h ha hh).trans (if_pos hpc)

/-! ### What the tables say of a word, of what `decode` makes of it -/

theorem decode_unassigned_iff (seg : Bool) (w : Word) (ws : List Word) :
    decode seg (w :: ws) = .error .unassigned ↔ unassignedWord w = true := (follows_decode seg w ws).unassigned

theorem decode_fixedBits (seg : Bool) {w v : Word} {ws : List Word} {f : Word × Word} (hf : fixedBits w = some f)
    (hv : v &&& f.1 ≠ f.2) : decode seg (w :: v :: ws) = .error .mustBeZero :=
  (follows_decode seg w (v :: ws)).fixed hf rfl hv

theorem decode_addressWord {w v : Word} {ws : List Word} {k : Nat} (hu : unassignedWord w = false)
    (hk : addressWord w = some k) (hv : ws[k]? = some v) (hmsb : v.msb = true) (hlow : lowByte v ≠ 0) :
    decode true (w :: ws) = .error .mustBeZero :=
  (follows_decode true w ws).address rfl hu hk ⟨v, hv, hmsb, hlow⟩

theorem privilegedOpcode_of_decode {seg : Bool} {w : Word} {ws rest : List Word} {i : Instr}
    (h : decode seg (w :: ws) = .ok (i, rest)) : privilegedOpcode w = privilegedInstr i :=
  ((follows_decode seg w ws).privileged h).symm

/-! ### The step of a quiet state -/

/-- The words that a quiet state fetches, as the statement has them. -/
def State.codeWords (s : State) : List Word :=
  (List.range 4).map fun n => s.peekWord (s.space .code) (s.pcAddr.add (BitVec.ofNat 16 (2 * n)))

theorem step_of_unassigned (h : s.Quiet) (hd : decode s.segmented s.codeWords = .error .unassigned) :
    step s = .refused .unassignedOpcode := by
  obtain ⟨hfree, ha, hh, hpc, hstale⟩ := h
  have hd : decode s.segmented s.fetched = .error .unassigned := fetched_of_fresh hstale ▸ hd
  rw [step_of_free hfree ha hh]
  simp only [State.runInstruction, hpc, hd, Bool.false_eq_true, if_false]

theorem step_of_mustBeZero (h : s.Quiet) (hd : decode s.segmented s.codeWords = .error .mustBeZero)
    (hp : s.system = true ∨ privilegedOpcode (s.peekWord (s.space .code) s.pcAddr) = false) :
    step s = .refused .mustBeZero := by
  obtain ⟨hfree, ha, hh, hpc, hstale⟩ := h
  have hd : decode s.segmented s.fetched = .error .mustBeZero := fetched_of_fresh hstale ▸ hd
  have hfirst : s.firstCodeWord = s.peekWord (s.space .code) s.pcAddr :=
    (firstCodeWord_of_fresh s hstale).trans (codeWord_zero s)
  have htrap : (!s.system && privilegedOpcode s.firstCodeWord) = false := by
    rw [hfirst]
    rcases hp with hp | hp <;> simp [hp]
  rw [step_of_free hfree ha hh]
  simp only [State.runInstruction, hpc, hd, htrap, Bool.false_eq_true, if_false]

theorem step_of_illFormed {i : Instr} {rest : List Word} (h : s.Quiet)
    (hd : decode s.segmented s.codeWords = .ok (i, rest)) (hi : i.wellFormed s.segmented = false)
    (hp : s.system = true ∨ privilegedInstr i = false) : step s = .refused .registerField := by
  obtain ⟨hfree, ha, hh, hpc, hstale⟩ := h
  have hd : decode s.segmented s.fetched = .ok (i, rest) := fetched_of_fresh hstale ▸ hd
  have hfirst : privilegedOpcode s.firstCodeWord = privilegedInstr i := privilegedOpcode_of_decode hd
  have hruns : s.runs i = false := by
    rw [State.runs, hi, hfirst]
    rcases hp with hp | hp <;> simp [hp]
  rw [step_of_free hfree ha hh]
  simp only [State.runInstruction, hpc, hd, hruns, Bool.false_eq_true, if_false]

/-! ### What `exec` refuses -/

theorem exec_oddWordAddress_iff (s : State) (i : Instr) :
    exec i s = .refused .oddWordAddress ↔ s.platform.oddWord = .refuse ∧
      ∃ use sp write a, Cycle.memory use sp write false a ∈ s.instrCycles i ∧ a.off.getLsbD 0 = true :=
  (accords_exec s i).odd.trans cyclesOk_eq_false

theorem exec_extended_noEpu {op : ExtOp} {e : Byte} {e1 : Word} (hepa : s.epa = true)
    (hrows : ∀ row ∈ s.platform.epu, row.op = op → row.e = e → row.e1 ≠ e1) :
    exec (.extended op e e1) s = .refused .noEpu := by
  have hnone : s.epuAction op e e1 = none := by
    refine Option.map_eq_none_iff.mpr (List.find?_eq_none.mpr fun row hrow htrue => ?_)
    obtain ⟨hoe, he1⟩ := Bool.and_eq_true_iff.mp htrue
    obtain ⟨hop, he⟩ := Bool.and_eq_true_iff.mp hoe
    exact hrows row hrow (eq_of_beq hop) (eq_of_beq he) (eq_of_beq he1)
  show execExtended op e e1 s = _
  simp only [execExtended, hepa, hnone, if_true]

theorem exec_iret_nonsegmented (hsystem : s.system = true) (hz8001 : s.isZ8001 = true) (hseg : s.segmented = false) :
    exec .iret s = .refused .iretNonsegmented := by
  show s.privileged .iret s.returnStatus = _
  rw [privileged_system s _ _ hsystem]
  simp only [State.returnStatus, hz8001, hseg, if_true, Bool.false_eq_true, if_false]

/-- Settles O58: the tables of the opcode map by `follows_decode`, the odd word addresses by `accords_exec`, the other
stops by the branch of the step or of the instruction that each of them is. -/
theorem stopsByName : Obligations.StopsByName := by
  refine ⟨fun s => step_of_oddPc, decode_unassigned_iff, fun seg w v ws f => decode_fixedBits seg,
    fun w v ws k => decode_addressWord, ?decodeErrors, ?oddWords, fun s op e e1 => exec_extended_noEpu,
    fun s => exec_iret_nonsegmented, fun s i rest => step_of_illFormed⟩
  case decodeErrors =>
    rintro s e hq hd
    exact ⟨fun he => step_of_unassigned hq (he ▸ hd), fun he => step_of_mustBeZero hq (he ▸ hd)⟩
  case oddWords =>
    refine fun s i => ⟨fun hrefuse => (exec_oddWordAddress_iff s i).trans (and_iff_right hrefuse), fun hclear h => ?_⟩
    obtain ⟨hrefuse, -⟩ := (exec_oddWordAddress_iff s i).mp h
    exact absurd (hclear.symm.trans hrefuse) (by decide)

end Sys2Proof.Machine
